-- ==== Sys2Proof/Word.lean ====
section
/-! DEFINITION. The widths of the block's values (00_scope.md R9): a byte is 8 bits, a half 16, a word 32. -/

namespace Sys2Proof

/-- A byte of MEM or of a byte sequence (R9). -/
abbrev Byte := BitVec 8

/-- A 16-bit value (R9). -/
abbrev Half := BitVec 16

/-- A 32-bit value: a register, a command word (R9, R20). -/
abbrev Word := BitVec 32

end Sys2Proof
end

