-- ==== Sys2Proof/Machine/Bytes.lean ====
section
/-! DEFINITION. Byte sequences: byte order, XOR, big-endian reading and writing (00_scope.md R9 to R11,
20_memory.md R62). -/

namespace Sys2Proof.Machine

/-- `s[i]` (R9); the rules read within the sequence only. -/
def byteOf (s : List Byte) (i : Nat) : Byte := s.getD i 0

/-- `BE16(s, i)` (R10). -/
def be16At (s : List Byte) (i : Nat) : Half := byteOf s i ++ byteOf s (i + 1)

/-- `BE32(s, i)` (R10). -/
def be32At (s : List Byte) (i : Nat) : Word :=
  byteOf s i ++ byteOf s (i + 1) ++ byteOf s (i + 2) ++ byteOf s (i + 3)

/-- `be16(v)` (R10). -/
def be16 (v : Half) : List Byte := [v.extractLsb' 8 8, v.extractLsb' 0 8]

/-- `be32(v)` (R10). -/
def be32 (v : Word) : List Byte :=
  [v.extractLsb' 24 8, v.extractLsb' 16 8, v.extractLsb' 8 8, v.extractLsb' 0 8]

/-- `v` as `n` big-endian bytes (R10). -/
def beBytes : Nat → Nat → List Byte
  | 0, _ => []
  | n + 1, v => beBytes n (v / 256) ++ [BitVec.ofNat 8 v]

/-- The big-endian value of a byte sequence (R10). -/
def beValue (s : List Byte) : Nat := s.foldl (fun v b => v * 256 + b.toNat) 0

/-- `XOR(s)` (R11): the exclusive-or of every byte, `0x00` for the empty sequence. -/
def xorAll : List Byte → Byte
  | [] => 0
  | b :: t => b ^^^ xorAll t

/-- `s[i..j)` (R9). -/
def sliceOf (s : List Byte) (i j : Nat) : List Byte := (s.drop i).take (j - i)

end Sys2Proof.Machine
end

