-- ==== Sys2Proof/Config.lean ====
section
/-! DEFINITION. What the spec leaves to an implementation: the parameters of 00_scope.md R8, the unspecified
contents of MEM (20_memory.md R61), and the values no rule gives. Each is a constant with no body, so whatever is
proved holds for every choice of it (log 2, log 3, log 6). -/

namespace Sys2Proof

/-- The kinds of a tagged value (30_encoding.md R104); a table that gives no kind answers `none`. -/
inductive Kind where
  | u8 | u16 | u32 | bytes | text | struct
deriving DecidableEq, Repr, Inhabited

/-- `P_EMPTY_FRAME` (R8): what a delimiter does that closes a candidate with no bytes. -/
inductive EmptyFrame where
  | emit | skip
deriving DecidableEq, Repr, Inhabited

/-- `P_GEO_ORDER` (R8): the field order of Polygon and Polyline items. -/
inductive GeoOrder where
  | doc | std
deriving DecidableEq, Repr, Inhabited

/-- `P_NIGHT_SPEED_2019` (R8): whether 2019 speed-gated groups carry a night speed word. -/
inductive NightSpeed where
  | absent | present
deriving DecidableEq, Repr, Inhabited

/-- The implementation parameters of R8, each within its legal values. Every codec function takes them as an
argument, as R8 asks. -/
structure Params where
  /-- `P_MEM_SIZE` -/
  memSize : Nat
  memSize_ge : 8192 ≤ memSize
  memSize_le : memSize ≤ 2 ^ 32
  /-- `P_EMPTY_FRAME` -/
  emptyFrame : EmptyFrame
  /-- `P_CHECK_IDENT_BCD` -/
  checkIdentBcd : Bool
  /-- `P_AUX_TYPES` -/
  auxTypes : Byte → Option Kind
  /-- "with `P_AUX_TYPES(0x01) = U32`" -/
  auxTypes_mileage : auxTypes 0x01 = some .u32
  /-- `P_PARAM_TYPES` -/
  paramTypes : Word → Option Kind
  /-- `P_GEO_ORDER` -/
  geoOrder : GeoOrder
  /-- `P_NIGHT_SPEED_2019` -/
  nightSpeed : NightSpeed

namespace Config

/-- How many bytes MEM has beyond the least 8192: any number up to 2^32 - 8192 (R8). -/
opaque memExtra : Fin 4294959105

/-- `P_EMPTY_FRAME`, left open (R8). -/
opaque emptyFrame : EmptyFrame

/-- `P_CHECK_IDENT_BCD`, left open (R8). -/
opaque checkIdentBcd : Bool

/-- `P_AUX_TYPES` at every tag but `0x01`, left open (R8). -/
opaque otherAuxTypes : Byte → Option Kind

/-- `P_PARAM_TYPES`, left open (R8). -/
opaque paramTypes : Word → Option Kind

/-- `P_GEO_ORDER`, left open (R8). -/
opaque geoOrder : GeoOrder

/-- `P_NIGHT_SPEED_2019`, left open (R8). -/
opaque nightSpeed : NightSpeed

/-- `P_AUX_TYPES` (R8): the tag `0x01` is `U32`, every other tag is open. -/
def auxTypes (tag : Byte) : Option Kind :=
  if tag = 0x01 then some .u32 else otherAuxTypes tag

/-- The parameters of this instance of the block: any choice R8 allows. -/
def params : Params where
  memSize := 8192 + memExtra.val
  memSize_ge := Nat.le_add_right _ _
  memSize_le := by have := memExtra.isLt; omega
  emptyFrame := emptyFrame
  checkIdentBcd := checkIdentBcd
  auxTypes := auxTypes
  auxTypes_mileage := rfl
  paramTypes := paramTypes
  geoOrder := geoOrder
  nightSpeed := nightSpeed

/-- The free draw of an unspecified MEM byte (20_memory.md R61): one per reset and address, under no law (log 3). -/
opaque unwrittenByte (epoch address : Nat) : Byte

/-- The value a 32-bit register or record field takes when a rule gives it a value of more than 32 bits: one per
command issued and value, under no law (log 6). -/
opaque overflowWord (draw value : Nat) : Word

end Config

end Sys2Proof
end

