-- ==== Sys2Proof/Machine/State.lean ====
section
/-! DEFINITION. The state of the block: every register of 10_state.md, MEM, and the model's own fields; and the state
after reset (70_reset_and_hazards.md R330). -/

namespace Sys2Proof.Machine

/-- The error codes of 60_exceptions.md R300; codes 14 to 255 are never produced and have no name here. -/
inductive ErrCode where
  | ok | framing | checksum | hdrLen
  /-- never raised (R304) -/
  | unreg
  | bodyShort
  /-- never raised (R304) -/
  | typeMismatch
  /-- never raised (R304) -/
  | text
  | bcd | sizeMismatch | badOperand | busy | noSpace | illegal
deriving DecidableEq, Repr

/-- `STATUS.FRS`, the framer state (10_state.md R23, 41_framer.md R130); the fourth code never occurs. -/
inductive FrState where
  | hunt | inFrame | discard
deriving DecidableEq, Repr

/-- The header registers (10_state.md R33). -/
structure HeaderRegs where
  msgId : Half
  attr : Half
  ver : Byte
  idh : Half
  idm : Word
  idl : Word
  seq : Half
  ftot : Half
  fidx : Half
  hlen : BitVec 5
deriving DecidableEq, Repr

/-- The position registers (10_state.md R35). -/
structure PosRegs where
  alarm : Word
  status : Word
  lat : Word
  lon : Word
  alt : Half
  speed : Half
  bear : Half
  date : BitVec 24
  time : BitVec 24
  auxN : Word
deriving DecidableEq, Repr

/-- The geofence registers (10_state.md R36). -/
structure GeoRegs where
  id : Word
  attr : Half
  lat1 : Word
  lon1 : Word
  lat2 : Word
  lon2 : Word
  radius : Word
  sdate : BitVec 24
  stime : BitVec 24
  edate : BitVec 24
  etime : BitVec 24
  maxSpd : Half
  ovDur : Byte
  night : Half
  nPts : Half
  ptsAddr : Word
  ptsLen : Word
  nameAddr : Word
  nameLen : Half
  present : BitVec 4
deriving DecidableEq, Repr

/-- MEM (20_memory.md R60) as the bytes written since reset, addresses strictly rising. An unlisted address holds no
value here: what is read there is a free draw (R61, log 3). -/
abbrev Memory := List Host.Cell

/-- A byte offset of the register space, 0x000 to 0x1FF (10_state.md R20, log 5). -/
abbrev RegOffset := BitVec 9

/-- What the host can do (20_memory.md R77). A register access names its width in bytes, since R64 refuses all but
whole words. -/
inductive HostAct where
  | readReg (width : Nat) (off : RegOffset)
  | writeReg (width : Nat) (off : RegOffset) (v : Word)
  | readMem (a : Nat)
  | writeMem (a : Nat) (b : Byte)
  | reset
deriving DecidableEq, Repr

/-- What the block gives back to a host action (20_memory.md R77). -/
inductive Reply where
  | nothing
  | word (v : Word)
  | byte (b : Byte)
deriving DecidableEq, Repr

/-- The state of one instance of the block. -/
structure State where
  /-- `CMD` (R22): the last word written -/
  cmd : Word
  /-- `STATUS.ERR` (R23) -/
  err : ErrCode
  /-- `STATUS.FRV` (R23) -/
  frv : Bool
  /-- `STATUS.FRS` (R23) -/
  frs : FrState
  /-- `ERRINFO` (R24) -/
  errInfo : Word
  /-- `IE` (R25): bit 0 `FRIE`, bit 1 `ERRIE` -/
  ie : BitVec 2
  /-- `ARG0` (R26) -/
  arg0 : Word
  /-- `ARG1` (R26) -/
  arg1 : Word
  /-- `ARG2` (R26) -/
  arg2 : Word
  /-- `ARG3` (R26) -/
  arg3 : Word
  /-- `RES0` (R27) -/
  res0 : Word
  /-- `RES1` (R27) -/
  res1 : Word
  /-- `RES2` (R27) -/
  res2 : Word
  /-- `RES3` (R27) -/
  res3 : Word
  /-- `FR_BASE` (R30) -/
  frBase : Word
  /-- `FR_CAP` (R30) -/
  frCap : Word
  /-- `FR_FLEN` (R31) -/
  frFlen : Word
  /-- `FR_LEN` (R31) -/
  frLen : Word
  /-- `DROPCNT` (R32) -/
  dropCnt : Word
  /-- the `H_*` registers (R33) -/
  hdr : HeaderRegs
  /-- the `P_*` registers (R35) -/
  pos : PosRegs
  /-- the `G_*` registers (R36) -/
  geo : GeoRegs
  /-- MEM (R37, R60) -/
  mem : Memory
  /-- the model's own: which draw of MEM's unspecified contents is in force (R61, R332, log 3) -/
  memEpoch : Nat
  /-- the model's own: how many commands have been issued; selects free values (log 6) -/
  draws : Nat
  /-- the model's own: the host actions still to come, oldest first (R71, R77, log 1) -/
  host : List HostAct
  /-- the model's own: what the block gave back to the last host action (R77, log 5) -/
  reply : Reply
deriving DecidableEq, Repr

/-- No step of the block faults: a command that fails reports an error code and the block goes on
(60_exceptions.md R306, R307), so no constructor raises one. -/
inductive Fault where
deriving DecidableEq, Repr

/-- Why a step has no meaning. -/
inductive Refusal where
  /-- Raised by an arm of `exec` whose instruction has no meaning yet; none is left. Safe. -/
  | notModelled (mnemonic : String)
  /-- Raised by a host register access that is not a whole 32-bit word at a multiple of 4, which R64 says a model
  refuses (U2). Safe: nothing is proved of such an access. -/
  | registerAccess
  /-- Raised by a host MEM access at or above `P_MEM_SIZE`, which R65 says a model refuses (U3). Safe: nothing is
  proved of such an access. -/
  | memoryPort
deriving DecidableEq, Repr

/-- Every header register at its reset value (R33, R330). -/
def HeaderRegs.reset : HeaderRegs :=
  { msgId := 0, attr := 0, ver := 0, idh := 0, idm := 0, idl := 0, seq := 0, ftot := 0, fidx := 0, hlen := 0 }

/-- Every position register at its reset value (R35, R330). -/
def PosRegs.reset : PosRegs :=
  { alarm := 0, status := 0, lat := 0, lon := 0, alt := 0, speed := 0, bear := 0, date := 0, time := 0, auxN := 0 }

/-- Every geofence register at its reset value (R36, R330). -/
def GeoRegs.reset : GeoRegs :=
  { id := 0, attr := 0, lat1 := 0, lon1 := 0, lat2 := 0, lon2 := 0, radius := 0, sdate := 0, stime := 0,
    edate := 0, etime := 0, maxSpd := 0, ovDur := 0, night := 0, nPts := 0, ptsAddr := 0, ptsLen := 0,
    nameAddr := 0, nameLen := 0, present := 0 }

/-- The block right after reset (70_reset_and_hazards.md R330): every register 0, the framer in `HUNT`, MEM with
nothing written; the model's own fields as log 4 says. -/
def State.reset : State :=
  { cmd := 0, err := .ok, frv := false, frs := .hunt, errInfo := 0, ie := 0, arg0 := 0, arg1 := 0, arg2 := 0,
    arg3 := 0, res0 := 0, res1 := 0, res2 := 0, res3 := 0, frBase := 0, frCap := 0, frFlen := 0, frLen := 0,
    dropCnt := 0, hdr := .reset, pos := .reset, geo := .reset, mem := [], memEpoch := 0, draws := 0, host := [],
    reply := .nothing }

end Sys2Proof.Machine
end

