-- ==== Sys2Proof/Machine/Flags.lean ====
section
/-! DEFINITION. The status word, the error codes' numbers, the interrupt line (10_state.md R23, 60_exceptions.md R300,
R310), and the mask operations on flag words and attribute words (43_header.md R170, 44_flags.md R200). -/

namespace Sys2Proof.Machine

/-- The code of `STATUS.ERR` (R300). -/
def ErrCode.code : ErrCode → BitVec 8
  | .ok => 0
  | .framing => 1
  | .checksum => 2
  | .hdrLen => 3
  | .unreg => 4
  | .bodyShort => 5
  | .typeMismatch => 6
  | .text => 7
  | .bcd => 8
  | .sizeMismatch => 9
  | .badOperand => 10
  | .busy => 11
  | .noSpace => 12
  | .illegal => 13

/-- The code of `STATUS.FRS` (R23). -/
def FrState.code : FrState → BitVec 2
  | .hunt => 0
  | .inFrame => 1
  | .discard => 2

/-- The interrupt output: `(IE.FRIE and FRV) or (IE.ERRIE and ERR ≠ 0)` (R310). -/
def State.irq (s : State) : Bool :=
  (s.ie.getLsbD 0 && s.frv) || (s.ie.getLsbD 1 && decide (s.err ≠ .ok))

/-- `STATUS` as the host reads it: `IRQ` in bit 11, `FRS` in 10:9, `FRV` in bit 8, `ERR` in 7:0 (R23). -/
def State.status (s : State) : Word :=
  (0 : BitVec 20) ++ BitVec.ofBool s.irq ++ s.frs.code ++ BitVec.ofBool s.frv ++ s.err.code

/-! ## Flag words (44_flags.md) -/

/-- `1 << i` in a 32-bit word. -/
def bitMask (i : Nat) : Word := 1#32 <<< i

/-- `w | (1 << i)` (R201). -/
def setBit (w : Word) (i : Nat) : Word := w ||| bitMask i

/-- `w & ~(1 << i)` (R202). -/
def clearBit (w : Word) (i : Nat) : Word := w &&& ~~~bitMask i

/-- `(w >> i) & 1` (R203). -/
def testBit (w : Word) (i : Nat) : Word := (w >>> i) &&& 1

/-- `(w & ~(1 << i)) | (b << i)` (R204). -/
def putBit (w : Word) (i : Nat) (b : Word) : Word := clearBit w i ||| (b <<< i)

/-- `m = (1 << width) - 1`, `0xFFFFFFFF` when `width` is 32 (R205). -/
def fieldMask (width : Nat) : Word := BitVec.ofNat 32 (2 ^ width - 1)

/-- `(w >> lsb) & m` (R205). -/
def extractField (w : Word) (lsb width : Nat) : Word := (w >>> lsb) &&& fieldMask width

/-- `(w & ~(m << lsb)) | (v << lsb)` (R206). -/
def insertField (w : Word) (lsb width : Nat) (v : Word) : Word :=
  (w &&& ~~~(fieldMask width <<< lsb)) ||| (v <<< lsb)

/-! ## The attribute word (30_encoding.md R90, 43_header.md R170) -/

/-- The fields of the attribute word, `SEL` 0 to 4 (R90). -/
inductive AttrField where
  | size | enc | frag | vtag | rsvd
deriving DecidableEq, Repr

/-- `AttrLsb(f)` (R170). -/
def AttrField.lsb : AttrField → Nat
  | .size => 0
  | .enc => 10
  | .frag => 13
  | .vtag => 14
  | .rsvd => 15

/-- `AttrWidth(f)` (R170). -/
def AttrField.width : AttrField → Nat
  | .size => 10
  | .enc => 3
  | .frag => 1
  | .vtag => 1
  | .rsvd => 1

/-- `AttrMask(f) = ((1 << AttrWidth(f)) - 1) << AttrLsb(f)` (R170). -/
def AttrField.mask (f : AttrField) : Word := ((1#32 <<< f.width) - 1) <<< f.lsb

/-- `(a & AttrMask(f)) >> AttrLsb(f)` (R171). -/
def getAttrField (f : AttrField) (a : Word) : Word := (a &&& f.mask) >>> f.lsb

/-- `(a & ~AttrMask(f) & 0xFFFF) | (v << AttrLsb(f))` (R172). -/
def setAttrField (f : AttrField) (a v : Word) : Word := (a &&& ~~~f.mask &&& 0xFFFF) ||| (v <<< f.lsb)

end Sys2Proof.Machine
end

