-- ==== Sys2Proof/Machine/Ops.lean ====
section
/-! DEFINITION. The named operations over MEM and registers: reading and writing MEM, starting a command, raising an
error, the run of one command (00_scope.md R10, R11, 30_encoding.md R80, 60_exceptions.md R306, R308). -/

namespace Sys2Proof.Machine

/-! ## MEM (20_memory.md R60 to R62) -/

/-- The byte written last at an address, if any was since reset. An unlisted address holds no value (log 3). -/
def Memory.find : Memory → Nat → Option Byte
  | [], _ => none
  | c :: m, a => if c.1 = a then some c.2 else Memory.find m a

/-- Write one byte, keeping the addresses strictly rising. -/
def Memory.put : Memory → Nat → Byte → Memory
  | [], a, b => [(a, b)]
  | c :: m, a, b =>
    if a < c.1 then (a, b) :: c :: m
    else if a = c.1 then (a, b) :: m
    else c :: Memory.put m a b

/-- Write a byte sequence from an address on (R10, `MemWriteBytes`). -/
def Memory.putBytes : Memory → Nat → List Byte → Memory
  | m, _, [] => m
  | m, a, b :: t => Memory.putBytes (Memory.put m a b) (a + 1) t

/-- The canonical form: addresses strictly rising. No entry equals what an unlisted address holds, since that is no
value at all. -/
def Memory.wf : Memory → Bool
  | [] => true
  | [_] => true
  | c :: d :: m => decide (c.1 < d.1) && Memory.wf (d :: m)

/-- `MEM[a]` (R10): the byte written last there, else the free draw of an unspecified byte (R61, log 3). -/
def State.byteAt (s : State) (a : Nat) : Byte :=
  match Memory.find s.mem a with
  | some b => b
  | none => Config.unwrittenByte s.memEpoch a

/-- `MEM[a..a+n)` (R10). -/
def State.bytesAt (s : State) (a : Nat) : Nat → List Byte
  | 0 => []
  | n + 1 => s.byteAt a :: s.bytesAt (a + 1) n

/-- `MemRead(a, n)` (R10): the big-endian value of `MEM[a..a+n)`. -/
def State.memRead (s : State) (a n : Nat) : Nat := beValue (s.bytesAt a n)

/-- `MemWriteBytes(a, bs)` (R10). -/
def State.store (s : State) (a : Nat) (bs : List Byte) : State :=
  { s with mem := Memory.putBytes s.mem a bs }

/-- `MemWrite(a, n, v)` (R10): `v` as `n` big-endian bytes. -/
def State.memWrite (s : State) (a n v : Nat) : State := s.store a (beBytes n v)

/-! ## Outcome primitives (00_scope.md R11) -/

/-- `Region(a, n)`: `a + n ≤ P_MEM_SIZE`. The first disjunct follows from the second, since `P_MEM_SIZE` is at least
8192 (R8); it lets a region inside the first 8192 bytes be evaluated although the size is open. -/
def region (P : Params) (a n : Nat) : Bool :=
  decide (a + n ≤ 8192) || decide (a + n ≤ P.memSize)

/-- `Overlap(a, n, b, m)`. -/
def overlap (a n b m : Nat) : Bool :=
  decide (0 < n) && decide (0 < m) && decide (a < b + m) && decide (b < a + n)

/-- The value a rule gives to a 32-bit register or record field. R21 says it always fits; where it does not, the value
is free (log 6). -/
def State.fit (s : State) (v : Nat) : Word :=
  if v < 2 ^ 32 then BitVec.ofNat 32 v else Config.overflowWord s.draws v

/-! ## Errors (60_exceptions.md R305, R306) -/

/-- `raise E(info)` as the outcome of a command's computation (R11). -/
structure Raise where
  code : ErrCode
  info : Nat
deriving DecidableEq, Repr

/-- `if not c: raise code(info)`. -/
def require (c : Bool) (code : ErrCode) (info : Nat) : Except Raise Unit :=
  if c then .ok () else .error ⟨code, info⟩

/-- What every command does when it starts (R80): `ERR <- 0`, `ERRINFO <- 0`. It is also how an error report ends
(R308): there is no return command. -/
def State.begin (s : State) : State :=
  { s with err := .ok, errInfo := 0 }

/-- Error entry (R306): `STATUS.ERR <- code(E)` and `ERRINFO <- info`, and nothing else. -/
def State.raise (s : State) (code : ErrCode) (info : Nat) : State :=
  { s with err := code, errInfo := s.fit info }

/-- Commit a command's computation (00_scope.md R13, R306): on success the state it gives, on a `raise` the state the
command started in with the report. The framer's overflow, whose writes stand, gives a state with its report already
in it. -/
def State.settle (s : State) : Except Raise State → State
  | .ok t => t
  | .error r => s.raise r.code r.info

/-- Run one command (R80): clear the report, compute, commit. Every command ends in a next state (R307). -/
def runCommand (f : State → Except Raise State) (s : State) : Host.Outcome State Fault Refusal :=
  .next (s.begin.settle (f s.begin))

/-- Host write of `CMD` (R22): the word is stored. A new draw of free values comes into force (log 6). -/
def State.writeCmd (s : State) (w : Word) : State :=
  { s with cmd := w, draws := s.draws + 1 }

end Sys2Proof.Machine
end

