-- ==== Sys2Proof/Machine/Operands.lean ====
section
/-! DEFINITION. The operand forms (30_encoding.md R84, 10_state.md R26) and their checks, in the order every command
rule lists them (20_memory.md R67, R68, 60_exceptions.md R305). The immediates of a command word are assembled by the
decoder. -/

namespace Sys2Proof.Machine

/-- `ARG0` as a source address (R26). -/
def State.src (s : State) : Nat := s.arg0.toNat

/-- `ARG1` as a source length (R26). -/
def State.srcLen (s : State) : Nat := s.arg1.toNat

/-- `ARG2` as a destination address (R26). -/
def State.dst (s : State) : Nat := s.arg2.toNat

/-- `ARG3` as a destination capacity (R26), in bytes or in records as the command counts. -/
def State.dstCap (s : State) : Nat := s.arg3.toNat

/-- `if not Region(a, n): raise BAD_OPERAND(a)` (R67). -/
def needRegion (P : Params) (a n : Nat) : Except Raise Unit := require (region P a n) .badOperand a

/-- `if Overlap(a, n, d, m): raise BAD_OPERAND(d)` (R68). -/
def needDisjoint (a n d m : Nat) : Except Raise Unit := require (!overlap a n d m) .badOperand d

/-- `if need > cap: raise NO_SPACE(need)` (R305). -/
def needSpace (need cap : Nat) : Except Raise Unit := require (decide (need ≤ cap)) .noSpace need

/-- The checks of a command with a source of `ARG1` bytes at `ARG0` and a destination of `cap` bytes at `ARG2`: source
region, destination region, overlap (R67, R68). -/
def needBuffers (P : Params) (s : State) (cap : Nat) : Except Raise Unit := do
  needRegion P s.src s.srcLen
  needRegion P s.dst cap
  needDisjoint s.src s.srcLen s.dst cap

/-- The source bytes `MEM[ARG0 .. ARG0+ARG1)`. -/
def State.source (s : State) : List Byte := s.bytesAt s.src s.srcLen

/-- `if a[31:16] ≠ 0: raise BAD_OPERAND(a)`: an attribute word operand (43_header.md R171). -/
def needHalf (a : Word) : Except Raise Unit := require (a.extractLsb' 16 16 == 0) .badOperand a.toNat

/-- `if lsb + width > 32: raise BAD_OPERAND(lsb + width)`: a field operand (44_flags.md R205). -/
def needField (lsb width : Nat) : Except Raise Unit := require (decide (lsb + width ≤ 32)) .badOperand (lsb + width)

/-- Write the records of a list one after another (46_tlv.md R242, 47_geofence.md R266). -/
def joinRecords (recs : List (List Byte)) : List Byte := recs.flatten

end Sys2Proof.Machine
end

