-- ==== Sys2Proof/Machine/Checksum.lean ====
section
/-! DEFINITION. The XOR checksum commands (42_checksum.md). -/

namespace Sys2Proof.Machine

/-- The `info` of `CHECKSUM`: the computed value in bits 15:8, the received byte in 7:0 (R162, R177). -/
def checksumInfo (computed received : Byte) : Nat := computed.toNat * 256 + received.toNat

/-- `if c ≠ r: raise CHECKSUM((c << 8) | r)`. -/
def needChecksum (computed received : Byte) : Except Raise Unit :=
  require (computed == received) .checksum (checksumInfo computed received)

/-- `XSUM` (R161). -/
def xsum (P : Params) (s : State) : Except Raise State := do
  needRegion P s.src s.srcLen
  .ok { s with res0 := (xorAll s.source).setWidth 32 }

/-- `XCHK` (R162). -/
def xchk (P : Params) (s : State) : Except Raise State := do
  needRegion P s.src s.srcLen
  require (decide (s.srcLen ≠ 0)) .badOperand 0
  let c := xorAll (s.bytesAt s.src (s.srcLen - 1))
  needChecksum c (s.byteAt (s.src + s.srcLen - 1))
  .ok { s with res0 := c.setWidth 32 }

/-- `XAPP` (R163). -/
def xapp (P : Params) (s : State) : Except Raise State := do
  needRegion P s.src (s.srcLen + 1)
  let c := xorAll s.source
  .ok { s.store (s.src + s.srcLen) [c] with res0 := c.setWidth 32, res1 := s.fit (s.srcLen + 1) }

/-- `XSUM` (R161). -/
def execXsum (s : State) : Host.Outcome State Fault Refusal := runCommand (xsum Config.params) s

/-- `XCHK` (R162). -/
def execXchk (s : State) : Host.Outcome State Fault Refusal := runCommand (xchk Config.params) s

/-- `XAPP` (R163). -/
def execXapp (s : State) : Host.Outcome State Fault Refusal := runCommand (xapp Config.params) s

end Sys2Proof.Machine
end

