-- ==== Sys2Proof/Machine/Framer.lean ====
section
/-! DEFINITION. The delimiter framer (41_framer.md R130 to R136). -/

namespace Sys2Proof.Machine

/-- `DELIM` (00_scope.md R7). -/
def delim : Byte := 0x7E

/-- What one framer step returns (R130). -/
inductive FrResult where
  | consumed | closed | overflow
deriving DecidableEq, Repr

/-- `DROPCNT <- sat32(DROPCNT + 1)` (R130, R32). -/
def State.dropByte (s : State) : State :=
  { s with dropCnt := if s.dropCnt = 0xFFFFFFFF then 0xFFFFFFFF else s.dropCnt + 1 }

/-- A byte in `HUNT` (R130): a delimiter opens a candidate, any other byte is dropped. -/
def frHunt (b : Byte) (s : State) : State × FrResult :=
  if b = delim then ({ s with frs := .inFrame, frLen := 0 }, .consumed)
  else (s.dropByte, .consumed)

/-- A delimiter in `IN` (R130): it closes the candidate, but for an empty one under `P_EMPTY_FRAME = SKIP`. -/
def frClose (P : Params) (s : State) : State × FrResult :=
  if s.frLen = 0 ∧ P.emptyFrame = .skip then (s, .consumed)
  else ({ s with frFlen := s.frLen, frv := true, frs := .hunt, frLen := 0 }, .closed)

/-- A content byte in `IN` (R130): stored in the window, or the window is full and the candidate is discarded. -/
def frContent (b : Byte) (s : State) : State × FrResult :=
  if s.frLen = s.frCap then ({ s.dropByte with frs := .discard, frLen := 0 }, .overflow)
  else ({ s.store (s.frBase.toNat + s.frLen.toNat) [b] with frLen := s.frLen + 1 }, .consumed)

/-- A byte in `DISCARD` (R130): dropped, until the oversized frame's closing delimiter. -/
def frDiscard (b : Byte) (s : State) : State × FrResult :=
  if b = delim then ({ s with frs := .hunt }, .consumed)
  else (s.dropByte, .consumed)

/-- `FrStep(b)` (R130). -/
def frStep (P : Params) (b : Byte) (s : State) : State × FrResult :=
  match s.frs with
  | .hunt => frHunt b s
  | .inFrame => if b = delim then frClose P s else frContent b s
  | .discard => frDiscard b s

/-- `if x[STATUS].FRV = 1: raise BUSY(0)` (R131, R132). -/
def needNoFrame (s : State) : Except Raise Unit := require (!s.frv) .busy 0

/-- The window check (R133). -/
def needWindow (P : Params) (s : State) : Except Raise Unit := needRegion P s.frBase.toNat s.frCap.toNat

/-- `FEED` (R131). An overflow keeps the framer step's writes and reports `FRAMING`. -/
def feed (P : Params) (b : Byte) (s : State) : Except Raise State := do
  needNoFrame s
  needWindow P s
  match frStep P b s with
  | (t, .overflow) => .ok (t.raise .framing s.frCap.toNat)
  | (t, .closed) => .ok { t with res0 := 1 }
  | (t, .consumed) => .ok { t with res0 := 0 }

/-- How the loop of `FEEDM` ends: the state and how many bytes were consumed, whether the last one closed a frame; or
the offset of the byte that overflowed the window (R132). -/
inductive FeedEnd where
  | done (t : State) (k : Nat) (closed : Bool)
  | overflowed (t : State) (k : Nat)
deriving DecidableEq, Repr

/-- The loop of `FEEDM` (R132) with `n` bytes to go, `k` consumed so far. -/
def feedLoop (P : Params) (src : Nat) : Nat → Nat → State → FeedEnd
  | 0, k, s => .done s k false
  | n + 1, k, s =>
    match frStep P (s.byteAt (src + k)) s with
    | (t, .overflow) => .overflowed t k
    | (t, .closed) => .done t (k + 1) true
    | (t, .consumed) => feedLoop P src n (k + 1) t

/-- `FEEDM` (R132). -/
def feedm (P : Params) (s : State) : Except Raise State := do
  needNoFrame s
  needRegion P s.src s.srcLen
  needWindow P s
  needDisjoint s.src s.srcLen s.frBase.toNat s.frCap.toNat
  match feedLoop P s.src s.srcLen 0 s with
  | .overflowed t k => .ok (t.raise .framing k)
  | .done t k closed => .ok { t with res0 := t.fit k, res1 := if closed then 1 else 0 }

/-- `FREL` (R134). -/
def frel (s : State) : State := { s with frv := false, frFlen := 0 }

/-- `FRST` (R135). -/
def frst (s : State) : State := { s with frs := .hunt, frLen := 0, frv := false, frFlen := 0 }

/-- `FEED b` (R131). -/
def execFeed (b : Nat) (s : State) : Host.Outcome State Fault Refusal :=
  runCommand (feed Config.params (BitVec.ofNat 8 b)) s

/-- `FEEDM` (R132). -/
def execFeedm (s : State) : Host.Outcome State Fault Refusal := runCommand (feedm Config.params) s

/-- `FREL` (R134). -/
def execFrel (s : State) : Host.Outcome State Fault Refusal := runCommand (fun s => .ok (frel s)) s

/-- `FRST` (R135). -/
def execFrst (s : State) : Host.Outcome State Fault Refusal := runCommand (fun s => .ok (frst s)) s

end Sys2Proof.Machine
end

