-- ==== Sys2Proof/Machine/Escape.lean ====
section
/-! DEFINITION. The escape codec (41_framer.md R140 to R145). -/

namespace Sys2Proof.Machine

/-- `ESCB`, the escape byte (00_scope.md R7). -/
def escByte : Byte := 0x7D

/-- The escape of one byte (R140, 30_encoding.md R95). -/
def escapeByte (b : Byte) : List Byte :=
  if b = delim then [escByte, 0x02] else if b = escByte then [escByte, 0x01] else [b]

/-- `Escape(s)` (R140). -/
def escape : List Byte → List Byte
  | [] => []
  | b :: t => escapeByte b ++ escape t

/-- Put a decoded byte before the rest of the result. -/
def consResult (b : Byte) : Except Nat (List Byte) → Except Nat (List Byte)
  | .ok u => .ok (b :: u)
  | .error i => .error i

/-- `Unescape` from offset `i` on (R141). -/
def unescapeFrom (i : Nat) : List Byte → Except Nat (List Byte)
  | [] => .ok []
  | b :: t =>
    if b = delim then .error i
    else if b = escByte then
      match t with
      | [] => .error i
      | c :: t' =>
        if c = 0x01 then consResult escByte (unescapeFrom (i + 2) t')
        else if c = 0x02 then consResult delim (unescapeFrom (i + 2) t')
        else .error i
    else consResult b (unescapeFrom (i + 1) t)

/-- `Unescape(t)` (R141): the bytes, or the offset of the first offending byte. -/
def unescape (t : List Byte) : Except Nat (List Byte) := unescapeFrom 0 t

/-- `case Unescape(t) of Err(i): raise FRAMING(i)`. -/
def unescapeOr (t : List Byte) : Except Raise (List Byte) :=
  match unescape t with
  | .ok u => .ok u
  | .error i => .error ⟨.framing, i⟩

/-- One wire frame (30_encoding.md R91): the escaped bytes between two delimiters. -/
def wireFrame (p : List Byte) : List Byte := delim :: (escape p ++ [delim])

/-- The last step of a codec command: `NO_SPACE` if the output does not fit, else write it and put its length in
`RES0`. -/
def writeOutput (out : List Byte) (s : State) : Except Raise State := do
  needSpace out.length s.dstCap
  .ok { s.store s.dst out with res0 := s.fit out.length }

/-- `UNESC` (R142). -/
def unesc (P : Params) (s : State) : Except Raise State := do
  needBuffers P s s.dstCap
  let u ← unescapeOr s.source
  writeOutput u s

/-- `ESC` (R143). -/
def esc (P : Params) (s : State) : Except Raise State := do
  needBuffers P s s.dstCap
  writeOutput (escape s.source) s

/-- `FWRAP` (R144). -/
def fwrap (P : Params) (s : State) : Except Raise State := do
  needBuffers P s s.dstCap
  writeOutput (wireFrame s.source) s

/-- `UNESC` (R142). -/
def execUnesc (s : State) : Host.Outcome State Fault Refusal := runCommand (unesc Config.params) s

/-- `ESC` (R143). -/
def execEsc (s : State) : Host.Outcome State Fault Refusal := runCommand (esc Config.params) s

/-- `FWRAP` (R144). -/
def execFwrap (s : State) : Host.Outcome State Fault Refusal := runCommand (fwrap Config.params) s

end Sys2Proof.Machine
end

