-- ==== Sys2Proof/Machine/FlagWords.lean ====
section
/-! DEFINITION. The attribute word commands (43_header.md R171, R172) and the flag-word commands (44_flags.md). -/

namespace Sys2Proof.Machine

/-! ## `AGET` and `ASET` -/

/-- `AGET.f` (R171). -/
def aget (f : AttrField) (s : State) : Except Raise State := do
  needHalf s.arg0
  .ok { s with res0 := getAttrField f s.arg0 }

/-- `ASET.f` (R172). -/
def aset (f : AttrField) (s : State) : Except Raise State := do
  needHalf s.arg0
  require (decide (s.arg1.toNat < 2 ^ f.width)) .badOperand s.arg1.toNat
  .ok { s with res0 := setAttrField f s.arg0 s.arg1 }

/-- `AGET.SIZE` (R171). -/
def execAgetSize (s : State) : Host.Outcome State Fault Refusal := runCommand (aget .size) s
/-- `AGET.ENC` (R171). -/
def execAgetEnc (s : State) : Host.Outcome State Fault Refusal := runCommand (aget .enc) s
/-- `AGET.FRAG` (R171). -/
def execAgetFrag (s : State) : Host.Outcome State Fault Refusal := runCommand (aget .frag) s
/-- `AGET.VTAG` (R171). -/
def execAgetVtag (s : State) : Host.Outcome State Fault Refusal := runCommand (aget .vtag) s
/-- `AGET.RSVD` (R171). -/
def execAgetRsvd (s : State) : Host.Outcome State Fault Refusal := runCommand (aget .rsvd) s
/-- `ASET.SIZE` (R172). -/
def execAsetSize (s : State) : Host.Outcome State Fault Refusal := runCommand (aset .size) s
/-- `ASET.ENC` (R172). -/
def execAsetEnc (s : State) : Host.Outcome State Fault Refusal := runCommand (aset .enc) s
/-- `ASET.FRAG` (R172). -/
def execAsetFrag (s : State) : Host.Outcome State Fault Refusal := runCommand (aset .frag) s
/-- `ASET.VTAG` (R172). -/
def execAsetVtag (s : State) : Host.Outcome State Fault Refusal := runCommand (aset .vtag) s
/-- `ASET.RSVD` (R172). -/
def execAsetRsvd (s : State) : Host.Outcome State Fault Refusal := runCommand (aset .rsvd) s

/-! ## Flag words: each command writes only `RES0` (R200) -/

/-- `BPUT i` (R204). -/
def bput (i : Nat) (s : State) : Except Raise State := do
  require (decide (s.arg1.toNat ≤ 1)) .badOperand s.arg1.toNat
  .ok { s with res0 := putBit s.arg0 i s.arg1 }

/-- `FEXT lsb, width` (R205). -/
def fext (lsb width : Nat) (s : State) : Except Raise State := do
  needField lsb width
  .ok { s with res0 := extractField s.arg0 lsb width }

/-- `FINS lsb, width` (R206). -/
def fins (lsb width : Nat) (s : State) : Except Raise State := do
  needField lsb width
  require (decide (s.arg1.toNat ≤ (fieldMask width).toNat)) .badOperand s.arg1.toNat
  .ok { s with res0 := insertField s.arg0 lsb width s.arg1 }

/-- `BSET i` (R201). -/
def execBset (i : Nat) (s : State) : Host.Outcome State Fault Refusal :=
  runCommand (fun s => .ok { s with res0 := setBit s.arg0 i }) s

/-- `BCLR i` (R202). -/
def execBclr (i : Nat) (s : State) : Host.Outcome State Fault Refusal :=
  runCommand (fun s => .ok { s with res0 := clearBit s.arg0 i }) s

/-- `BTST i` (R203). -/
def execBtst (i : Nat) (s : State) : Host.Outcome State Fault Refusal :=
  runCommand (fun s => .ok { s with res0 := testBit s.arg0 i }) s

/-- `BPUT i` (R204). -/
def execBput (i : Nat) (s : State) : Host.Outcome State Fault Refusal := runCommand (bput i) s

/-- `FEXT lsb, width` (R205). -/
def execFext (lsb width : Nat) (s : State) : Host.Outcome State Fault Refusal := runCommand (fext lsb width) s

/-- `FINS lsb, width` (R206). -/
def execFins (lsb width : Nat) (s : State) : Host.Outcome State Fault Refusal := runCommand (fins lsb width) s

end Sys2Proof.Machine
end

