-- ==== Sys2Proof/Syntax.lean ====
section
/-! DEFINITION. The commands: one constructor per row of opcode_table.json (30_encoding.md R83). -/

namespace Sys2Proof

/-- The protocol version operand `V` (43_header.md R175): 0 is V2011, 1 is V2019. -/
inductive Version where
  | v2011 | v2019
deriving DecidableEq, Repr

/-- The geofence shapes with their `SEL[1:0]` numbers 0 to 3 (47_geofence.md R263). -/
inductive Shape where
  | circle | rect | polygon | polyline
deriving DecidableEq, Repr

/-- A command. Operands are those of the assembler (R86): a byte, a bit index, `lsb` and `width`, a version, the
fragment flag, a shape. `WellFormed` gives the ranges. -/
inductive Instr where
  -- 40_system.md
  | nop
  -- 41_framer.md
  | feed (b : Nat)
  | feedm
  | frel
  | frst
  | unesc
  | esc
  | fwrap
  -- 42_checksum.md
  | xsum
  | xchk
  | xapp
  -- 43_header.md
  | agetSize
  | agetEnc
  | agetFrag
  | agetVtag
  | agetRsvd
  | asetSize
  | asetEnc
  | asetFrag
  | asetVtag
  | asetRsvd
  | hdec
  | henc (v : Version) (f : Bool)
  | fdec
  | penc (v : Version)
  -- 44_flags.md
  | bset (i : Nat)
  | bclr (i : Nat)
  | btst (i : Nat)
  | bput (i : Nat)
  | fext (lsb width : Nat)
  | fins (lsb width : Nat)
  -- 45_position.md
  | posdec
  | bcddec
  | bcdenc
  -- 46_tlv.md
  | auxdec
  | pardec
  -- 47_geofence.md
  | geodec (shape : Shape) (v : Version)
  | geoenc (shape : Shape) (v : Version)
deriving DecidableEq, Repr

end Sys2Proof
end

