-- ==== Sys2Proof/WellFormed.lean ====
section
/-! DEFINITION. The operand ranges a command word can carry (30_encoding.md R84, R86). -/

namespace Sys2Proof

/-- `FEED b`: `b` is 0 to 255 (R86). -/
def byteOperandOk (b : Nat) : Bool := decide (b < 256)

/-- `BSET i` and the other bit commands: `i` is 0 to 31 (R86). -/
def bitOperandOk (i : Nat) : Bool := decide (i < 32)

/-- `FEXT lsb, width`: `lsb` is 0 to 31 and `width` 1 to 32 (R84); `lsb + width ≤ 32` is a run-time check (R86). -/
def fieldOperandOk (lsb width : Nat) : Bool := decide (lsb < 32) && decide (1 ≤ width) && decide (width ≤ 32)

/-- The command has an encoding. -/
def Instr.wellFormed : Instr → Bool
  | .nop => true
  | .feed b => byteOperandOk b
  | .feedm => true
  | .frel => true
  | .frst => true
  | .unesc => true
  | .esc => true
  | .fwrap => true
  | .xsum => true
  | .xchk => true
  | .xapp => true
  | .agetSize => true
  | .agetEnc => true
  | .agetFrag => true
  | .agetVtag => true
  | .agetRsvd => true
  | .asetSize => true
  | .asetEnc => true
  | .asetFrag => true
  | .asetVtag => true
  | .asetRsvd => true
  | .hdec => true
  | .henc _ _ => true
  | .fdec => true
  | .penc _ => true
  | .bset i => bitOperandOk i
  | .bclr i => bitOperandOk i
  | .btst i => bitOperandOk i
  | .bput i => bitOperandOk i
  | .fext lsb width => fieldOperandOk lsb width
  | .fins lsb width => fieldOperandOk lsb width
  | .posdec => true
  | .bcddec => true
  | .bcdenc => true
  | .auxdec => true
  | .pardec => true
  | .geodec _ _ => true
  | .geoenc _ _ => true

end Sys2Proof
end

