-- ==== Sys2Proof/Decode.lean ====
section
/-! DEFINITION. The command word: its fields, the decoder, the encoder, and the rows of opcode_table.json
(30_encoding.md R81 to R88). -/

namespace Sys2Proof

/-- Why a word does not decode: the four grounds of R82. -/
inductive DecodeReject where
  /-- an unlisted `OPC` -/
  | opcode
  /-- a nonzero `RSV` -/
  | reserved
  /-- a `SEL` value outside the row's legal set -/
  | selector
  /-- a nonzero unused `IMM` bit -/
  | immediate
deriving DecidableEq, Repr

/-! ## The fields of a command word (R81) -/

def opcField (w : Word) : Byte := w.extractLsb' 0 8
def selField (w : Word) : BitVec 4 := w.extractLsb' 8 4
def rsvField (w : Word) : BitVec 4 := w.extractLsb' 12 4
def immField (w : Word) : Half := w.extractLsb' 16 16

/-! ## The decoder, one line per row of the opcode map (R83) -/

/-- The immediate of a row whose map entry under IMM is "—". -/
def needNoImm (imm : Half) (i : Instr) : Except DecodeReject Instr :=
  if imm = 0 then .ok i else .error .immediate

/-- A row with "—" under SEL. -/
def needNoSel (sel : BitVec 4) (k : Except DecodeReject Instr) : Except DecodeReject Instr :=
  if sel = 0 then k else .error .selector

/-- A row with "—" under SEL and IMM. -/
def plainRow (sel : BitVec 4) (imm : Half) (i : Instr) : Except DecodeReject Instr :=
  needNoSel sel (needNoImm imm i)

/-- `FEED`: `IMM[7:0]` is the byte, `IMM[15:8] = 0`. -/
def byteRow (imm : Half) : Except DecodeReject Instr :=
  if imm.extractLsb' 8 8 = 0 then .ok (.feed (imm.extractLsb' 0 8).toNat) else .error .immediate

/-- The bit commands: `IMM[4:0]` is the bit, `IMM[15:5] = 0`. -/
def bitRow (imm : Half) (f : Nat → Instr) : Except DecodeReject Instr :=
  if imm.extractLsb' 5 11 = 0 then .ok (f (imm.extractLsb' 0 5).toNat) else .error .immediate

/-- `FEXT` and `FINS`: `IMM[4:0]` is `lsb`, `IMM[9:5]` is `width-1`, `IMM[15:10] = 0`. -/
def fieldRow (imm : Half) (f : Nat → Nat → Instr) : Except DecodeReject Instr :=
  if imm.extractLsb' 10 6 = 0 then .ok (f (imm.extractLsb' 0 5).toNat ((imm.extractLsb' 5 5).toNat + 1))
  else .error .immediate

/-- `AGET` and `ASET`: `SEL` is a field number 0 to 4 (R90). -/
def attrRow (sel : BitVec 4) (imm : Half) (size enc frag vtag rsvd : Instr) : Except DecodeReject Instr :=
  match sel.toNat with
  | 0 => needNoImm imm size
  | 1 => needNoImm imm enc
  | 2 => needNoImm imm frag
  | 3 => needNoImm imm vtag
  | 4 => needNoImm imm rsvd
  | _ => .error .selector

/-- Bit `k` of `SEL` as a version (R83). -/
def versionBit (sel : BitVec 4) (k : Nat) : Version := if sel.getLsbD k then .v2019 else .v2011

/-- `SEL[1:0]` as a shape (R83). -/
def shapeBits (sel : BitVec 4) : Shape :=
  match (sel.extractLsb' 0 2).toNat with
  | 0 => .circle
  | 1 => .rect
  | 2 => .polygon
  | _ => .polyline

/-- `HENC`: `SEL[0]` is V, `SEL[1]` is F, `SEL[3:2] = 0`. -/
def hencRow (sel : BitVec 4) (imm : Half) : Except DecodeReject Instr :=
  if sel.extractLsb' 2 2 = 0 then needNoImm imm (.henc (versionBit sel 0) (sel.getLsbD 1)) else .error .selector

/-- `PENC`: `SEL[0]` is V, `SEL[3:1] = 0`. -/
def pencRow (sel : BitVec 4) (imm : Half) : Except DecodeReject Instr :=
  if sel.extractLsb' 1 3 = 0 then needNoImm imm (.penc (versionBit sel 0)) else .error .selector

/-- `GEODEC` and `GEOENC`: `SEL[1:0]` is the shape, `SEL[2]` is V, `SEL[3] = 0`. -/
def geoRow (sel : BitVec 4) (imm : Half) (f : Shape → Version → Instr) : Except DecodeReject Instr :=
  if sel.getLsbD 3 then .error .selector else needNoImm imm (f (shapeBits sel) (versionBit sel 2))

/-- `Decodes(w)` with the command it decodes to (R82, R83); a word that does not decode is rejected by name. -/
def decode (w : Word) : Except DecodeReject Instr :=
  let sel := selField w
  let imm := immField w
  if rsvField w ≠ 0 then .error .reserved else
  match (opcField w).toNat with
  | 0x00 => plainRow sel imm .nop
  | 0x01 => needNoSel sel (byteRow imm)
  | 0x02 => plainRow sel imm .feedm
  | 0x03 => plainRow sel imm .frel
  | 0x04 => plainRow sel imm .frst
  | 0x05 => plainRow sel imm .unesc
  | 0x06 => plainRow sel imm .esc
  | 0x07 => plainRow sel imm .fwrap
  | 0x10 => plainRow sel imm .xsum
  | 0x11 => plainRow sel imm .xchk
  | 0x12 => plainRow sel imm .xapp
  | 0x20 => attrRow sel imm .agetSize .agetEnc .agetFrag .agetVtag .agetRsvd
  | 0x21 => attrRow sel imm .asetSize .asetEnc .asetFrag .asetVtag .asetRsvd
  | 0x22 => plainRow sel imm .hdec
  | 0x23 => hencRow sel imm
  | 0x24 => plainRow sel imm .fdec
  | 0x25 => pencRow sel imm
  | 0x30 => needNoSel sel (bitRow imm .bset)
  | 0x31 => needNoSel sel (bitRow imm .bclr)
  | 0x32 => needNoSel sel (bitRow imm .btst)
  | 0x33 => needNoSel sel (bitRow imm .bput)
  | 0x34 => needNoSel sel (fieldRow imm .fext)
  | 0x35 => needNoSel sel (fieldRow imm .fins)
  | 0x40 => plainRow sel imm .posdec
  | 0x41 => plainRow sel imm .bcddec
  | 0x42 => plainRow sel imm .bcdenc
  | 0x50 => plainRow sel imm .auxdec
  | 0x51 => plainRow sel imm .pardec
  | 0x60 => geoRow sel imm .geodec
  | 0x61 => geoRow sel imm .geoenc
  | _ => .error .opcode

/-- The instruction the decoder reads from a table row's word: the command word is one 32-bit word, written to `CMD`
whole, so no byte order comes into it (R81); bits above `nbits` are 0. -/
def decodeTableWord (nbits w : Nat) : Option Instr :=
  match decode (BitVec.ofNat 32 (w % 2 ^ nbits)) with
  | .ok i => some i
  | .error _ => none

/-! ## The encoder (R88) -/

/-- `w = (IMM << 16) | (SEL << 8) | OPC`, with `RSV = 0` (R88). -/
def commandWord (imm sel opc : Nat) : Word :=
  (BitVec.ofNat 32 imm <<< 16) ||| (BitVec.ofNat 32 sel <<< 8) ||| BitVec.ofNat 32 opc

/-- `V` as a bit: 0 V2011, 1 V2019 (R83). -/
def Version.bit : Version → Nat
  | .v2011 => 0
  | .v2019 => 1

/-- The shape's number (R83). -/
def Shape.number : Shape → Nat
  | .circle => 0
  | .rect => 1
  | .polygon => 2
  | .polyline => 3

/-- `IMM` of `FEXT` and `FINS`: `((width-1) << 5) | lsb` (R84, R88). -/
def fieldImm (lsb width : Nat) : Nat := ((width - 1) <<< 5) ||| lsb

/-- `SEL` of the geofence commands: V in bit 2, the shape in bits 1:0 (R83). -/
def geoSel (shape : Shape) (v : Version) : Nat := (v.bit <<< 2) ||| shape.number

/-- The command word of an instruction (R83, R88). -/
def encode : Instr → Word
  | .nop => commandWord 0 0 0x00
  | .feed b => commandWord b 0 0x01
  | .feedm => commandWord 0 0 0x02
  | .frel => commandWord 0 0 0x03
  | .frst => commandWord 0 0 0x04
  | .unesc => commandWord 0 0 0x05
  | .esc => commandWord 0 0 0x06
  | .fwrap => commandWord 0 0 0x07
  | .xsum => commandWord 0 0 0x10
  | .xchk => commandWord 0 0 0x11
  | .xapp => commandWord 0 0 0x12
  | .agetSize => commandWord 0 0 0x20
  | .agetEnc => commandWord 0 1 0x20
  | .agetFrag => commandWord 0 2 0x20
  | .agetVtag => commandWord 0 3 0x20
  | .agetRsvd => commandWord 0 4 0x20
  | .asetSize => commandWord 0 0 0x21
  | .asetEnc => commandWord 0 1 0x21
  | .asetFrag => commandWord 0 2 0x21
  | .asetVtag => commandWord 0 3 0x21
  | .asetRsvd => commandWord 0 4 0x21
  | .hdec => commandWord 0 0 0x22
  | .henc v f => commandWord 0 ((f.toNat <<< 1) ||| v.bit) 0x23
  | .fdec => commandWord 0 0 0x24
  | .penc v => commandWord 0 v.bit 0x25
  | .bset i => commandWord i 0 0x30
  | .bclr i => commandWord i 0 0x31
  | .btst i => commandWord i 0 0x32
  | .bput i => commandWord i 0 0x33
  | .fext lsb width => commandWord (fieldImm lsb width) 0 0x34
  | .fins lsb width => commandWord (fieldImm lsb width) 0 0x35
  | .posdec => commandWord 0 0 0x40
  | .bcddec => commandWord 0 0 0x41
  | .bcdenc => commandWord 0 0 0x42
  | .auxdec => commandWord 0 0 0x50
  | .pardec => commandWord 0 0 0x51
  | .geodec shape v => commandWord 0 (geoSel shape v) 0x60
  | .geoenc shape v => commandWord 0 (geoSel shape v) 0x61

/-! ## The rows of opcode_table.json -/

/-- A row: `w` matches it when `(w & mask) = pattern` (R82). -/
structure Row where
  mask : Word
  pattern : Word
deriving DecidableEq, Repr

/-- `(w & mask) = match` (R82). -/
def Row.holds (r : Row) (w : Word) : Bool := w &&& r.mask == r.pattern

/-- The row of opcode_table.json an instruction belongs to. -/
def Instr.row : Instr → Row
  | .nop => ⟨0xFFFFFFFF, 0x00000000⟩
  | .feed _ => ⟨0xFF00FFFF, 0x00000001⟩
  | .feedm => ⟨0xFFFFFFFF, 0x00000002⟩
  | .frel => ⟨0xFFFFFFFF, 0x00000003⟩
  | .frst => ⟨0xFFFFFFFF, 0x00000004⟩
  | .unesc => ⟨0xFFFFFFFF, 0x00000005⟩
  | .esc => ⟨0xFFFFFFFF, 0x00000006⟩
  | .fwrap => ⟨0xFFFFFFFF, 0x00000007⟩
  | .xsum => ⟨0xFFFFFFFF, 0x00000010⟩
  | .xchk => ⟨0xFFFFFFFF, 0x00000011⟩
  | .xapp => ⟨0xFFFFFFFF, 0x00000012⟩
  | .agetSize => ⟨0xFFFFFFFF, 0x00000020⟩
  | .agetEnc => ⟨0xFFFFFFFF, 0x00000120⟩
  | .agetFrag => ⟨0xFFFFFFFF, 0x00000220⟩
  | .agetVtag => ⟨0xFFFFFFFF, 0x00000320⟩
  | .agetRsvd => ⟨0xFFFFFFFF, 0x00000420⟩
  | .asetSize => ⟨0xFFFFFFFF, 0x00000021⟩
  | .asetEnc => ⟨0xFFFFFFFF, 0x00000121⟩
  | .asetFrag => ⟨0xFFFFFFFF, 0x00000221⟩
  | .asetVtag => ⟨0xFFFFFFFF, 0x00000321⟩
  | .asetRsvd => ⟨0xFFFFFFFF, 0x00000421⟩
  | .hdec => ⟨0xFFFFFFFF, 0x00000022⟩
  | .henc _ _ => ⟨0xFFFFFCFF, 0x00000023⟩
  | .fdec => ⟨0xFFFFFFFF, 0x00000024⟩
  | .penc _ => ⟨0xFFFFFEFF, 0x00000025⟩
  | .bset _ => ⟨0xFFE0FFFF, 0x00000030⟩
  | .bclr _ => ⟨0xFFE0FFFF, 0x00000031⟩
  | .btst _ => ⟨0xFFE0FFFF, 0x00000032⟩
  | .bput _ => ⟨0xFFE0FFFF, 0x00000033⟩
  | .fext _ _ => ⟨0xFC00FFFF, 0x00000034⟩
  | .fins _ _ => ⟨0xFC00FFFF, 0x00000035⟩
  | .posdec => ⟨0xFFFFFFFF, 0x00000040⟩
  | .bcddec => ⟨0xFFFFFFFF, 0x00000041⟩
  | .bcdenc => ⟨0xFFFFFFFF, 0x00000042⟩
  | .auxdec => ⟨0xFFFFFFFF, 0x00000050⟩
  | .pardec => ⟨0xFFFFFFFF, 0x00000051⟩
  | .geodec _ _ => ⟨0xFFFFF8FF, 0x00000060⟩
  | .geoenc _ _ => ⟨0xFFFFF8FF, 0x00000061⟩

/-- The 38 rows, in the table's order. -/
def opcodeRows : List Row :=
  [.nop, .feed 0, .feedm, .frel, .frst, .unesc, .esc, .fwrap, .xsum, .xchk, .xapp,
   .agetSize, .agetEnc, .agetFrag, .agetVtag, .agetRsvd, .asetSize, .asetEnc, .asetFrag, .asetVtag, .asetRsvd,
   .hdec, .henc .v2011 false, .fdec, .penc .v2011, .bset 0, .bclr 0, .btst 0, .bput 0, .fext 0 1, .fins 0 1,
   .posdec, .bcddec, .bcdenc, .auxdec, .pardec, .geodec .circle .v2011, .geoenc .circle .v2011].map Instr.row

end Sys2Proof
end

