-- ==== Sys2Proof/Machine/Bcd.lean ====
section
/-! DEFINITION. BCD timestamps (30_encoding.md R96, 45_position.md R220 to R223). -/

namespace Sys2Proof.Machine

/-- A byte with a nibble above 9 (R96, R220). -/
def badBcdByte (b : Byte) : Bool :=
  decide (9 < (b.extractLsb' 4 4).toNat) || decide (9 < (b.extractLsb' 0 4).toNat)

/-- The index, counted from `j`, of the first byte with a nibble above 9. -/
def firstBadBcdFrom (j : Nat) : List Byte → Option Nat
  | [] => none
  | b :: t => if badBcdByte b then some j else firstBadBcdFrom (j + 1) t

/-- The index of the first byte with a nibble above 9. -/
def firstBadBcd (t : List Byte) : Option Nat := firstBadBcdFrom 0 t

/-- `10 * b[7:4] + b[3:0]`: the high nibble is the tens digit (R96, R220). -/
def bcdValue (b : Byte) : Byte :=
  BitVec.ofNat 8 (10 * (b.extractLsb' 4 4).toNat + (b.extractLsb' 0 4).toNat)

/-- `(a << 16) | (b << 8) | c`. -/
def pack3 (a b c : Byte) : BitVec 24 := a ++ b ++ c

/-- A decoded timestamp: date and time of day (R220). -/
structure Stamp where
  date : BitVec 24
  time : BitVec 24
deriving DecidableEq, Repr

/-- `BcdDecode6(t)` (R220): the stamp, or the index of the first bad byte. No calendar check is made. -/
def bcdDecode6 (t : List Byte) : Except Nat Stamp :=
  match firstBadBcd (t.take 6) with
  | some j => .error j
  | none => .ok
      { date := pack3 (bcdValue (byteOf t 0)) (bcdValue (byteOf t 1)) (bcdValue (byteOf t 2))
        time := pack3 (bcdValue (byteOf t 3)) (bcdValue (byteOf t 4)) (bcdValue (byteOf t 5)) }

/-- `BcdDecode6`, or `raise BCD(at + j)`. -/
def stampOr (offset : Nat) (t : List Byte) : Except Raise Stamp :=
  match bcdDecode6 t with
  | .ok v => .ok v
  | .error j => .error ⟨.bcd, offset + j⟩

/-- `((v / 10) << 4) | (v mod 10)` (R221). -/
def bcdByte (v : Byte) : Byte := BitVec.ofNat 8 (v.toNat / 10 * 16 + v.toNat % 10)

/-- Bits 31:24 are 0 and every field is at most 99 (R221). -/
def bcdFieldsOk (v : Word) : Bool :=
  (v.extractLsb' 24 8 == 0) && decide ((v.extractLsb' 16 8).toNat ≤ 99) &&
    decide ((v.extractLsb' 8 8).toNat ≤ 99) && decide ((v.extractLsb' 0 8).toNat ≤ 99)

/-- The three bytes of a packed date or time of day (R221). -/
def bcdBytes3 (v : Word) : List Byte :=
  [bcdByte (v.extractLsb' 16 8), bcdByte (v.extractLsb' 8 8), bcdByte (v.extractLsb' 0 8)]

/-- `BcdEncode6(date, time)` where it is defined (R221). -/
def bcdEncode6 (date time : Word) : List Byte := bcdBytes3 date ++ bcdBytes3 time

/-- `BCDDEC` (R222). -/
def bcddec (P : Params) (s : State) : Except Raise State := do
  needRegion P s.src 6
  let v ← stampOr 0 (s.bytesAt s.src 6)
  .ok { s with res0 := v.date.setWidth 32, res1 := v.time.setWidth 32 }

/-- `BCDENC` (R223). -/
def bcdenc (P : Params) (s : State) : Except Raise State := do
  needRegion P s.dst 6
  require (bcdFieldsOk s.arg0) .badOperand s.arg0.toNat
  require (bcdFieldsOk s.arg1) .badOperand s.arg1.toNat
  .ok (s.store s.dst (bcdEncode6 s.arg0 s.arg1))

/-- `BCDDEC` (R222). -/
def execBcddec (s : State) : Host.Outcome State Fault Refusal := runCommand (bcddec Config.params) s

/-- `BCDENC` (R223). -/
def execBcdenc (s : State) : Host.Outcome State Fault Refusal := runCommand (bcdenc Config.params) s

end Sys2Proof.Machine
end

