-- ==== Sys2Proof/Machine/Registers.lean ====
section
/-! DEFINITION. The register map of 10_state.md: offsets, what the host reads, what a host write does (R20 to R36,
20_memory.md R65). -/

namespace Sys2Proof.Machine

/-- The registers of 10_state.md, under the spec's names. -/
inductive Reg where
  | cmd | status | errInfo | ie
  | arg0 | arg1 | arg2 | arg3
  | res0 | res1 | res2 | res3
  | frBase | frCap | frFlen | frLen | dropCnt
  | hMsgId | hAttr | hVer | hIdh | hIdm | hIdl | hSeq | hFtot | hFidx | hHlen
  | pAlarm | pStatus | pLat | pLon | pAlt | pSpeed | pBear | pDate | pTime | pAuxN
  | gId | gAttr | gLat1 | gLon1 | gLat2 | gLon2 | gRadius | gSdate | gStime | gEdate | gEtime
  | gMaxSpd | gOvDur | gNight | gNPts | gPtsAddr | gPtsLen | gNameAddr | gNameLen | gPresent
deriving DecidableEq, Repr

/-- The byte offset of a register (R22 to R36). -/
def Reg.offset : Reg → Nat
  | .cmd => 0x000
  | .status => 0x004
  | .errInfo => 0x008
  | .ie => 0x00C
  | .arg0 => 0x010
  | .arg1 => 0x014
  | .arg2 => 0x018
  | .arg3 => 0x01C
  | .res0 => 0x020
  | .res1 => 0x024
  | .res2 => 0x028
  | .res3 => 0x02C
  | .frBase => 0x030
  | .frCap => 0x034
  | .frFlen => 0x038
  | .frLen => 0x03C
  | .dropCnt => 0x040
  | .hMsgId => 0x050
  | .hAttr => 0x054
  | .hVer => 0x058
  | .hIdh => 0x05C
  | .hIdm => 0x060
  | .hIdl => 0x064
  | .hSeq => 0x068
  | .hFtot => 0x06C
  | .hFidx => 0x070
  | .hHlen => 0x074
  | .pAlarm => 0x080
  | .pStatus => 0x084
  | .pLat => 0x088
  | .pLon => 0x08C
  | .pAlt => 0x090
  | .pSpeed => 0x094
  | .pBear => 0x098
  | .pDate => 0x09C
  | .pTime => 0x0A0
  | .pAuxN => 0x0A4
  | .gId => 0x0C0
  | .gAttr => 0x0C4
  | .gLat1 => 0x0C8
  | .gLon1 => 0x0CC
  | .gLat2 => 0x0D0
  | .gLon2 => 0x0D4
  | .gRadius => 0x0D8
  | .gSdate => 0x0DC
  | .gStime => 0x0E0
  | .gEdate => 0x0E4
  | .gEtime => 0x0E8
  | .gMaxSpd => 0x0EC
  | .gOvDur => 0x0F0
  | .gNight => 0x0F4
  | .gNPts => 0x0F8
  | .gPtsAddr => 0x0FC
  | .gPtsLen => 0x100
  | .gNameAddr => 0x104
  | .gNameLen => 0x108
  | .gPresent => 0x10C

/-- Every register of the map. -/
def allRegs : List Reg :=
  [.cmd, .status, .errInfo, .ie, .arg0, .arg1, .arg2, .arg3, .res0, .res1, .res2, .res3,
   .frBase, .frCap, .frFlen, .frLen, .dropCnt,
   .hMsgId, .hAttr, .hVer, .hIdh, .hIdm, .hIdl, .hSeq, .hFtot, .hFidx, .hHlen,
   .pAlarm, .pStatus, .pLat, .pLon, .pAlt, .pSpeed, .pBear, .pDate, .pTime, .pAuxN,
   .gId, .gAttr, .gLat1, .gLon1, .gLat2, .gLon2, .gRadius, .gSdate, .gStime, .gEdate, .gEtime,
   .gMaxSpd, .gOvDur, .gNight, .gNPts, .gPtsAddr, .gPtsLen, .gNameAddr, .gNameLen, .gPresent]

/-- The register at a byte offset, if the tables of 10_state.md list one (R20). -/
def regAt (off : Nat) : Option Reg := allRegs.find? (fun r => r.offset == off)

/-- What a host read of a register gives; a register narrower than 32 bits reads 0 above its width (R21). -/
def State.readReg (s : State) : Reg → Word
  | .cmd => s.cmd
  | .status => s.status
  | .errInfo => s.errInfo
  | .ie => s.ie.setWidth 32
  | .arg0 => s.arg0
  | .arg1 => s.arg1
  | .arg2 => s.arg2
  | .arg3 => s.arg3
  | .res0 => s.res0
  | .res1 => s.res1
  | .res2 => s.res2
  | .res3 => s.res3
  | .frBase => s.frBase
  | .frCap => s.frCap
  | .frFlen => s.frFlen
  | .frLen => s.frLen
  | .dropCnt => s.dropCnt
  | .hMsgId => s.hdr.msgId.setWidth 32
  | .hAttr => s.hdr.attr.setWidth 32
  | .hVer => s.hdr.ver.setWidth 32
  | .hIdh => s.hdr.idh.setWidth 32
  | .hIdm => s.hdr.idm
  | .hIdl => s.hdr.idl
  | .hSeq => s.hdr.seq.setWidth 32
  | .hFtot => s.hdr.ftot.setWidth 32
  | .hFidx => s.hdr.fidx.setWidth 32
  | .hHlen => s.hdr.hlen.setWidth 32
  | .pAlarm => s.pos.alarm
  | .pStatus => s.pos.status
  | .pLat => s.pos.lat
  | .pLon => s.pos.lon
  | .pAlt => s.pos.alt.setWidth 32
  | .pSpeed => s.pos.speed.setWidth 32
  | .pBear => s.pos.bear.setWidth 32
  | .pDate => s.pos.date.setWidth 32
  | .pTime => s.pos.time.setWidth 32
  | .pAuxN => s.pos.auxN
  | .gId => s.geo.id
  | .gAttr => s.geo.attr.setWidth 32
  | .gLat1 => s.geo.lat1
  | .gLon1 => s.geo.lon1
  | .gLat2 => s.geo.lat2
  | .gLon2 => s.geo.lon2
  | .gRadius => s.geo.radius
  | .gSdate => s.geo.sdate.setWidth 32
  | .gStime => s.geo.stime.setWidth 32
  | .gEdate => s.geo.edate.setWidth 32
  | .gEtime => s.geo.etime.setWidth 32
  | .gMaxSpd => s.geo.maxSpd.setWidth 32
  | .gOvDur => s.geo.ovDur.setWidth 32
  | .gNight => s.geo.night.setWidth 32
  | .gNPts => s.geo.nPts.setWidth 32
  | .gPtsAddr => s.geo.ptsAddr
  | .gPtsLen => s.geo.ptsLen
  | .gNameAddr => s.geo.nameAddr
  | .gNameLen => s.geo.nameLen.setWidth 32
  | .gPresent => s.geo.present.setWidth 32

/-- The framer is idle: `FRS = HUNT` and `FRV = 0` (R30). -/
def State.framerIdle (s : State) : Bool := decide (s.frs = .hunt) && !s.frv

/-- What a host write of a register does, but for a write of `CMD`, which issues a command: an `RW` register stores the
value's low bits, a read-only register ignores it (R21), `FR_BASE` and `FR_CAP` store it only while the framer is idle
(R30), `DROPCNT` becomes 0 whatever is written (R32). -/
def State.writeReg (s : State) (r : Reg) (v : Word) : State :=
  match r with
  | .cmd => s
  | .status => s
  | .errInfo => s
  | .ie => { s with ie := v.setWidth 2 }
  | .arg0 => { s with arg0 := v }
  | .arg1 => { s with arg1 := v }
  | .arg2 => { s with arg2 := v }
  | .arg3 => { s with arg3 := v }
  | .res0 => s
  | .res1 => s
  | .res2 => s
  | .res3 => s
  | .frBase => if s.framerIdle then { s with frBase := v } else s
  | .frCap => if s.framerIdle then { s with frCap := v } else s
  | .frFlen => s
  | .frLen => s
  | .dropCnt => { s with dropCnt := 0 }
  | .hMsgId => { s with hdr := { s.hdr with msgId := v.setWidth 16 } }
  | .hAttr => { s with hdr := { s.hdr with attr := v.setWidth 16 } }
  | .hVer => { s with hdr := { s.hdr with ver := v.setWidth 8 } }
  | .hIdh => { s with hdr := { s.hdr with idh := v.setWidth 16 } }
  | .hIdm => { s with hdr := { s.hdr with idm := v } }
  | .hIdl => { s with hdr := { s.hdr with idl := v } }
  | .hSeq => { s with hdr := { s.hdr with seq := v.setWidth 16 } }
  | .hFtot => { s with hdr := { s.hdr with ftot := v.setWidth 16 } }
  | .hFidx => { s with hdr := { s.hdr with fidx := v.setWidth 16 } }
  | .hHlen => s
  | .pAlarm => s
  | .pStatus => s
  | .pLat => s
  | .pLon => s
  | .pAlt => s
  | .pSpeed => s
  | .pBear => s
  | .pDate => s
  | .pTime => s
  | .pAuxN => s
  | .gId => { s with geo := { s.geo with id := v } }
  | .gAttr => { s with geo := { s.geo with attr := v.setWidth 16 } }
  | .gLat1 => { s with geo := { s.geo with lat1 := v } }
  | .gLon1 => { s with geo := { s.geo with lon1 := v } }
  | .gLat2 => { s with geo := { s.geo with lat2 := v } }
  | .gLon2 => { s with geo := { s.geo with lon2 := v } }
  | .gRadius => { s with geo := { s.geo with radius := v } }
  | .gSdate => { s with geo := { s.geo with sdate := v.setWidth 24 } }
  | .gStime => { s with geo := { s.geo with stime := v.setWidth 24 } }
  | .gEdate => { s with geo := { s.geo with edate := v.setWidth 24 } }
  | .gEtime => { s with geo := { s.geo with etime := v.setWidth 24 } }
  | .gMaxSpd => { s with geo := { s.geo with maxSpd := v.setWidth 16 } }
  | .gOvDur => { s with geo := { s.geo with ovDur := v.setWidth 8 } }
  | .gNight => { s with geo := { s.geo with night := v.setWidth 16 } }
  | .gNPts => { s with geo := { s.geo with nPts := v.setWidth 16 } }
  | .gPtsAddr => { s with geo := { s.geo with ptsAddr := v } }
  | .gPtsLen => { s with geo := { s.geo with ptsLen := v } }
  | .gNameAddr => { s with geo := { s.geo with nameAddr := v } }
  | .gNameLen => { s with geo := { s.geo with nameLen := v.setWidth 16 } }
  | .gPresent => s

/-- A read of an offset the tables do not list gives 0 (R20). -/
def State.readOffset (s : State) (off : RegOffset) : Word :=
  match regAt off.toNat with
  | some r => s.readReg r
  | none => 0

/-- A write to an offset the tables do not list is ignored (R20). -/
def State.writeOffset (s : State) (off : RegOffset) (v : Word) : State :=
  match regAt off.toNat with
  | some r => s.writeReg r v
  | none => s

end Sys2Proof.Machine
end

