-- ==== Sys2Proof/Machine/Geofence.lean ====
section
/-! DEFINITION. Geofence items (30_encoding.md R100 to R103, R106, 47_geofence.md). -/

namespace Sys2Proof.Machine

/-! ## Parsing (R261 to R263) -/

/-- What a parse reads and never changes: the bytes `b = MEM[s..s+n)`, their address `s`, the version, whether 2019
night speed words are present, and the value of a 32-bit register or field. -/
structure GeoInput where
  bytes : List Byte
  base : Nat
  version : Version
  night : Bool
  fit : Nat → Word

/-- `night = (V = 1 and P_NIGHT_SPEED_2019 = PRESENT)` (R260, R261). -/
def nightPresent (P : Params) (v : Version) : Bool :=
  (v == .v2019) && decide (P.nightSpeed = .present)

/-- `if o + k > |b|: fail BODY_SHORT(o)` (R261). -/
def GeoInput.need (c : GeoInput) (k o : Nat) : Except Raise Unit :=
  require (decide (o + k ≤ c.bytes.length)) .bodyShort o

/-- `get(1)` at `o` (R261). -/
def GeoInput.get8 (c : GeoInput) (o : Nat) : Except Raise Byte := do
  c.need 1 o
  .ok (byteOf c.bytes o)

/-- `get(2)` at `o` (R261). -/
def GeoInput.get16 (c : GeoInput) (o : Nat) : Except Raise Half := do
  c.need 2 o
  .ok (be16At c.bytes o)

/-- `get(4)` at `o` (R261). -/
def GeoInput.get32 (c : GeoInput) (o : Nat) : Except Raise Word := do
  c.need 4 o
  .ok (be32At c.bytes o)

/-- `BcdDecode6(get-bytes(6))` at `o`, or `fail BCD(o + j)` (R261). -/
def GeoInput.getStamp (c : GeoInput) (o : Nat) : Except Raise Stamp := do
  c.need 6 o
  stampOr o (sliceOf c.bytes o (o + 6))

/-- One route point (R103, R106, R262). -/
structure RoutePoint where
  ptid : Word
  segid : Word
  lat : Word
  lon : Word
  width : Byte
  sattr : Byte
  pres : Byte
  maxT : Half
  minT : Half
  sMax : Half
  sOvd : Byte
  sNight : Half
deriving DecidableEq, Repr

/-- The 32 bytes of a route point record (R106, R262). -/
def RoutePoint.encoded (p : RoutePoint) : List Byte :=
  be32 p.ptid ++ be32 p.segid ++ be32 p.lat ++ be32 p.lon ++ [p.width, p.sattr, p.pres, 0] ++
    be16 p.maxT ++ be16 p.minT ++ be16 p.sMax ++ [p.sOvd, 0] ++ be16 p.sNight ++ [0, 0]

/-- The cursor, the `G_*` values and the point records of a parse (R261). -/
structure GeoState where
  o : Nat
  g : GeoRegs
  recs : List RoutePoint
deriving DecidableEq, Repr

/-- A parse starts at 0 with every field 0 (R261). -/
def GeoState.start : GeoState := { o := 0, g := .reset, recs := [] }

/-- The thresholds of a route point, `SATTR[0]` (R262); the answer carries the cursor. -/
def pointThresholds (c : GeoInput) (p : RoutePoint) (o : Nat) : Except Raise (RoutePoint × Nat) :=
  if p.sattr.getLsbD 0 then do
    let maxT ← c.get16 o
    let minT ← c.get16 (o + 2)
    .ok ({ p with maxT := maxT, minT := minT, pres := p.pres ||| 1 }, o + 4)
  else .ok (p, o)

/-- The night speed word of a route point (R262). -/
def pointNight (c : GeoInput) (p : RoutePoint) (o : Nat) : Except Raise (RoutePoint × Nat) :=
  if c.night then do
    let sNight ← c.get16 o
    .ok ({ p with sNight := sNight, pres := p.pres ||| 4 }, o + 2)
  else .ok (p, o)

/-- The speed group of a route point, `SATTR[1]` (R262). -/
def pointSpeed (c : GeoInput) (p : RoutePoint) (o : Nat) : Except Raise (RoutePoint × Nat) :=
  if p.sattr.getLsbD 1 then do
    let sMax ← c.get16 o
    let sOvd ← c.get8 (o + 2)
    pointNight c { p with sMax := sMax, sOvd := sOvd, pres := p.pres ||| 2 } (o + 3)
  else .ok (p, o)

/-- `PointParse` at `o` (R262): the point and the cursor after it. -/
def pointParse (c : GeoInput) (o : Nat) : Except Raise (RoutePoint × Nat) := do
  let ptid ← c.get32 o
  let segid ← c.get32 (o + 4)
  let lat ← c.get32 (o + 8)
  let lon ← c.get32 (o + 12)
  let width ← c.get8 (o + 16)
  let sattr ← c.get8 (o + 17)
  let p : RoutePoint :=
    { ptid := ptid, segid := segid, lat := lat, lon := lon, width := width, sattr := sattr, pres := 0,
      maxT := 0, minT := 0, sMax := 0, sOvd := 0, sNight := 0 }
  let q ← pointThresholds c p (o + 18)
  pointSpeed c q.1 q.2

/-- `repeat n times: recs <- recs ++ [PointParse]` (R261). -/
def pointsParse (c : GeoInput) : Nat → Nat → Except Raise (List RoutePoint × Nat)
  | 0, o => .ok ([], o)
  | n + 1, o => do
    let p ← pointParse c o
    let rest ← pointsParse c n p.2
    .ok (p.1 :: rest.1, rest.2)

/-- `repeat n times: skip(8)` (R261). -/
def verticesSkip (c : GeoInput) : Nat → Nat → Except Raise Nat
  | 0, o => .ok o
  | n + 1, o => do
    c.need 8 o
    verticesSkip c n (o + 8)

/-- `Head` (R261). -/
def parseHead (c : GeoInput) (x : GeoState) : Except Raise GeoState := do
  let id ← c.get32 x.o
  let attr ← c.get16 (x.o + 4)
  .ok { x with o := x.o + 6, g := { x.g with id := id, attr := attr } }

/-- `Geometry` of a Circle (R261). -/
def parseCircle (c : GeoInput) (x : GeoState) : Except Raise GeoState := do
  let lat ← c.get32 x.o
  let lon ← c.get32 (x.o + 4)
  let radius ← c.get32 (x.o + 8)
  .ok { x with o := x.o + 12, g := { x.g with lat1 := lat, lon1 := lon, radius := radius } }

/-- `Geometry` of a Rectangle (R261). -/
def parseRect (c : GeoInput) (x : GeoState) : Except Raise GeoState := do
  let lat1 ← c.get32 x.o
  let lon1 ← c.get32 (x.o + 4)
  let lat2 ← c.get32 (x.o + 8)
  let lon2 ← c.get32 (x.o + 12)
  .ok { x with o := x.o + 16, g := { x.g with lat1 := lat1, lon1 := lon1, lat2 := lat2, lon2 := lon2 } }

/-- `Vertices` (R261): the block is skipped, not copied. -/
def parseVertices (c : GeoInput) (x : GeoState) : Except Raise GeoState := do
  let n ← c.get16 x.o
  let o ← verticesSkip c n.toNat (x.o + 2)
  .ok { x with o := o, g := { x.g with
    nPts := n, ptsAddr := c.fit (c.base + (x.o + 2)), ptsLen := c.fit (o - (x.o + 2)) } }

/-- `Points` (R261). -/
def parsePoints (c : GeoInput) (x : GeoState) : Except Raise GeoState := do
  let n ← c.get16 x.o
  let ps ← pointsParse c n.toNat (x.o + 2)
  .ok { x with o := ps.2, recs := ps.1, g := { x.g with
    nPts := n, ptsAddr := c.fit (c.base + (x.o + 2)), ptsLen := c.fit (ps.2 - (x.o + 2)) } }

/-- `Time` (R261), gated by `G_ATTR[0]`. -/
def parseTime (c : GeoInput) (x : GeoState) : Except Raise GeoState :=
  if x.g.attr.getLsbD 0 then do
    let start ← c.getStamp x.o
    let stop ← c.getStamp (x.o + 6)
    .ok { x with o := x.o + 12, g := { x.g with
      sdate := start.date, stime := start.time, edate := stop.date, etime := stop.time,
      present := x.g.present ||| 1 } }
  else .ok x

/-- `SpeedHead` (R261), gated by `G_ATTR[1]`. -/
def parseSpeedHead (c : GeoInput) (x : GeoState) : Except Raise GeoState :=
  if x.g.attr.getLsbD 1 then do
    let maxSpd ← c.get16 x.o
    let ovDur ← c.get8 (x.o + 2)
    .ok { x with o := x.o + 3, g := { x.g with
      maxSpd := maxSpd, ovDur := ovDur, present := x.g.present ||| 2 } }
  else .ok x

/-- `Night` (R261), gated by `G_ATTR[1]` and `night`. -/
def parseNight (c : GeoInput) (x : GeoState) : Except Raise GeoState :=
  if x.g.attr.getLsbD 1 && c.night then do
    let night ← c.get16 x.o
    .ok { x with o := x.o + 2, g := { x.g with night := night, present := x.g.present ||| 4 } }
  else .ok x

/-- `Name` (R261), present exactly in V2019 (R260). -/
def parseName (c : GeoInput) (x : GeoState) : Except Raise GeoState :=
  if c.version = .v2019 then do
    let len ← c.get16 x.o
    c.need len.toNat (x.o + 2)
    .ok { x with o := x.o + 2 + len.toNat, g := { x.g with
      nameLen := len, nameAddr := c.fit (c.base + (x.o + 2)), present := x.g.present ||| 8 } }
  else .ok x

/-- The steps of R263's table. -/
inductive GeoStep where
  | circle | rect | vertices | points | time | speedHead | night | name
deriving DecidableEq, Repr

/-- The step order of a shape (R263), after `Head`. -/
def geoSteps (P : Params) : Shape → List GeoStep
  | .circle => [.circle, .time, .speedHead, .night, .name]
  | .rect => [.rect, .time, .speedHead, .night, .name]
  | .polygon =>
    match P.geoOrder with
    | .doc => [.vertices, .time, .speedHead, .night, .name]
    | .std => [.time, .speedHead, .vertices, .night, .name]
  | .polyline =>
    match P.geoOrder with
    | .doc => [.points, .time, .name]
    | .std => [.time, .points, .name]

/-- One parse step (R261). -/
def parseStep (c : GeoInput) : GeoStep → GeoState → Except Raise GeoState
  | .circle => parseCircle c
  | .rect => parseRect c
  | .vertices => parseVertices c
  | .points => parsePoints c
  | .time => parseTime c
  | .speedHead => parseSpeedHead c
  | .night => parseNight c
  | .name => parseName c

/-- Run steps in order; a step that fails ends the parse (R261). -/
def parseSteps (c : GeoInput) : List GeoStep → GeoState → Except Raise GeoState
  | [], x => .ok x
  | k :: ks, x => do
    let y ← parseStep c k x
    parseSteps c ks y

/-- `GeoParse(b, shape, V, s)` (R261, R263). -/
def geoParse (P : Params) (c : GeoInput) (shape : Shape) : Except Raise GeoState := do
  let x ← parseHead c .start
  parseSteps c (geoSteps P shape) x

/-! ## `GEODEC` (R266) -/

/-- The parse input of a command. -/
def geoInput (P : Params) (s : State) (v : Version) (bytes : List Byte) (base : Nat) : GeoInput :=
  { bytes := bytes, base := base, version := v, night := nightPresent P v, fit := s.fit }

/-- The bytes of a list of route point records, 32 each (R106). -/
def pointBytes (recs : List RoutePoint) : List Byte := joinRecords (recs.map RoutePoint.encoded)

/-- The operand checks of `GEODEC` (R266): the destination counts for a Polyline only, in 32-byte records. -/
def needGeoBuffers (P : Params) (shape : Shape) (s : State) : Except Raise Unit :=
  if shape = .polyline then needBuffers P s (32 * s.dstCap) else needRegion P s.src s.srcLen

/-- The records' room and their writing, for a Polyline (R266). -/
def writePoints (shape : Shape) (recs : List RoutePoint) (s : State) : Except Raise State :=
  if shape = .polyline then do
    needSpace recs.length s.dstCap
    .ok (s.store s.dst (pointBytes recs))
  else .ok s

/-- `GEODEC.shape.v` (R266): every `G_*` register is written (R264). -/
def geodec (P : Params) (shape : Shape) (v : Version) (s : State) : Except Raise State := do
  needGeoBuffers P shape s
  let x ← geoParse P (geoInput P s v s.source s.src) shape
  let t ← writePoints shape x.recs s
  .ok { t with geo := x.g, res0 := s.fit x.o, res1 := x.g.nPts.setWidth 32 }

/-! ## `GEOENC` (R265, R267) -/

/-- `raise BAD_OPERAND(offset of the register at fault)` unless `c` (R265). -/
def needReg (c : Bool) (r : Reg) : Except Raise Unit := require c .badOperand r.offset

/-- The time registers' part of `GeoValid` (R265). -/
def validTime (g : GeoRegs) : Except Raise Unit :=
  if g.attr.getLsbD 0 then do
    needReg (bcdFieldsOk (g.sdate.setWidth 32)) .gSdate
    needReg (bcdFieldsOk (g.stime.setWidth 32)) .gStime
    needReg (bcdFieldsOk (g.edate.setWidth 32)) .gEdate
    needReg (bcdFieldsOk (g.etime.setWidth 32)) .gEtime
  else .ok ()

/-- The point block `MEM[G_PTSADDR .. G_PTSADDR + G_PTSLEN)`. -/
def pointBlock (s : State) : List Byte := s.bytesAt s.geo.ptsAddr.toNat s.geo.ptsLen.toNat

/-- The name `MEM[G_NAMEADDR .. G_NAMEADDR + G_NAMELEN)`. -/
def nameBlock (s : State) : List Byte := s.bytesAt s.geo.nameAddr.toNat s.geo.nameLen.toNat

/-- The block parses as exactly `n` route points, consuming all of it (R265). -/
def parsesAsPoints (c : GeoInput) (n : Nat) : Bool :=
  match pointsParse c n 0 with
  | .ok q => decide (q.2 = c.bytes.length)
  | .error _ => false

/-- The point registers' part of `GeoValid` that reads no MEM (R265): a Polygon's block length, and the block's region. -/
def validPoints (P : Params) (shape : Shape) (g : GeoRegs) : Except Raise Unit :=
  match shape with
  | .circle => .ok ()
  | .rect => .ok ()
  | .polygon => do
    needReg (decide (g.ptsLen.toNat = 8 * g.nPts.toNat)) .gPtsLen
    needReg (region P g.ptsAddr.toNat g.ptsLen.toNat) .gPtsAddr
  | .polyline => needReg (region P g.ptsAddr.toNat g.ptsLen.toNat) .gPtsAddr

/-- The name registers' part of `GeoValid` (R265). -/
def validName (P : Params) (v : Version) (g : GeoRegs) : Except Raise Unit :=
  if v = .v2019 then needReg (region P g.nameAddr.toNat g.nameLen.toNat) .gNameAddr else .ok ()

/-- The one check of `GeoValid` that reads MEM: a Polyline's block is `G_NPTS` route points (R265). -/
def validBlock (P : Params) (shape : Shape) (v : Version) (s : State) : Except Raise Unit :=
  if shape = .polyline then
    needReg (parsesAsPoints (geoInput P s v (pointBlock s) 0) s.geo.nPts.toNat) .gPtsLen
  else .ok ()

/-- `GeoValid(shape, V)` (R265), in the rule's order, but that every region is checked before the point block is read
(20_memory.md R67). -/
def geoValid (P : Params) (shape : Shape) (v : Version) (s : State) : Except Raise Unit := do
  validTime s.geo
  validPoints P shape s.geo
  validName P v s.geo
  validBlock P shape v s

/-- The shape has a point block. -/
def hasPoints (shape : Shape) : Bool := (shape == .polygon) || (shape == .polyline)

/-- What one step appends (R267). -/
def encodeStep (P : Params) (s : State) (v : Version) : GeoStep → List Byte
  | .circle => be32 s.geo.lat1 ++ be32 s.geo.lon1 ++ be32 s.geo.radius
  | .rect => be32 s.geo.lat1 ++ be32 s.geo.lon1 ++ be32 s.geo.lat2 ++ be32 s.geo.lon2
  | .vertices => be16 s.geo.nPts ++ pointBlock s
  | .points => be16 s.geo.nPts ++ pointBlock s
  | .time =>
    if s.geo.attr.getLsbD 0 then
      bcdEncode6 (s.geo.sdate.setWidth 32) (s.geo.stime.setWidth 32) ++
        bcdEncode6 (s.geo.edate.setWidth 32) (s.geo.etime.setWidth 32)
    else []
  | .speedHead => if s.geo.attr.getLsbD 1 then be16 s.geo.maxSpd ++ [s.geo.ovDur] else []
  | .night => if s.geo.attr.getLsbD 1 && nightPresent P v then be16 s.geo.night else []
  | .name => if v = .v2019 then be16 s.geo.nameLen ++ nameBlock s else []

/-- The item `GEOENC` writes (R267): the mirror of the parse, in the same step order. -/
def geoItem (P : Params) (shape : Shape) (v : Version) (s : State) : List Byte :=
  be32 s.geo.id ++ be16 s.geo.attr ++ (geoSteps P shape).flatMap (encodeStep P s v)

/-- `GEOENC.shape.v` (R267). -/
def geoenc (P : Params) (shape : Shape) (v : Version) (s : State) : Except Raise State := do
  needRegion P s.dst s.dstCap
  geoValid P shape v s
  require (!(hasPoints shape && overlap s.dst s.dstCap s.geo.ptsAddr.toNat s.geo.ptsLen.toNat)) .badOperand s.dst
  require (!((v == .v2019) && overlap s.dst s.dstCap s.geo.nameAddr.toNat s.geo.nameLen.toNat)) .badOperand s.dst
  let out := geoItem P shape v s
  needSpace out.length s.dstCap
  .ok { s.store s.dst out with res0 := s.fit out.length }

/-- `GEODEC.shape.v` (R266). -/
def execGeodec (shape : Shape) (v : Version) (s : State) : Host.Outcome State Fault Refusal :=
  runCommand (geodec Config.params shape v) s

/-- `GEOENC.shape.v` (R267). -/
def execGeoenc (shape : Shape) (v : Version) (s : State) : Host.Outcome State Fault Refusal :=
  runCommand (geoenc Config.params shape v) s

end Sys2Proof.Machine
end

