-- ==== Sys2Proof/Machine/Header.lean ====
section
/-! DEFINITION. Header parse and build, frame decode, packet encode with the fragmenter (30_encoding.md R92, R93,
43_header.md R173 to R181). -/

namespace Sys2Proof.Machine

/-- `MAX_BODY` (00_scope.md R7). -/
def maxBody : Nat := 1023

/-- `HLen(attr)` (R93): 12, 16, 17 or 21. -/
def hLen (attr : Half) : Nat :=
  4 + (if attr.getLsbD 14 then 11 else 6) + 2 + (if attr.getLsbD 13 then 4 else 0)

/-- The header registers `H_IDH`, `H_IDM`, `H_IDL` from the ten identity bytes (10_state.md R34). -/
def HeaderRegs.withIdentity (h : HeaderRegs) (id : List Byte) : HeaderRegs :=
  { h with idh := be16At id 0, idm := be32At id 2, idl := be32At id 6 }

/-- A parsed header: the registers it gives, its length, and the body's length (R173). -/
structure ParsedHeader where
  regs : HeaderRegs
  hl : Nat
  blen : Nat
deriving DecidableEq, Repr

/-- The optional identity check (R173, `P_CHECK_IDENT_BCD`): the identity bytes start at offset `ib`. -/
def needIdentity (P : Params) (ib : Nat) (ident : List Byte) : Except Raise Unit :=
  match firstBadBcd ident with
  | none => .ok ()
  | some j => if P.checkIdentBcd then .error ⟨.bcd, ib + j⟩ else .ok ()

/-- `ParseHeader(p)` (R173). -/
def parseHeader (P : Params) (p : List Byte) : Except Raise ParsedHeader := do
  require (decide (4 ≤ p.length)) .hdrLen p.length
  let attr := be16At p 2
  let hl := hLen attr
  require (decide (hl ≤ p.length)) .hdrLen p.length
  let tagged := attr.getLsbD 14
  let ib := if tagged then 5 else 4
  let iw := if tagged then 10 else 6
  let o := if tagged then 15 else 10
  let ident := sliceOf p ib (ib + iw)
  needIdentity P ib ident
  let regs : HeaderRegs :=
    { msgId := be16At p 0, attr := attr, ver := if tagged then byteOf p 4 else 0, idh := 0, idm := 0, idl := 0,
      seq := be16At p o,
      ftot := if attr.getLsbD 13 then be16At p (o + 2) else 0,
      fidx := if attr.getLsbD 13 then be16At p (o + 4) else 0,
      hlen := BitVec.ofNat 5 hl }
  let blen := p.length - hl
  require (decide (blen = (attr.extractLsb' 0 10).toNat)) .sizeMismatch blen
  .ok { regs := regs.withIdentity (List.replicate (10 - iw) 0 ++ ident), hl := hl, blen := blen }

/-- `attr[14]` as a result word: 1 for a V2019-shaped header (R174). -/
def v2019Flag (attr : Half) : Word := if attr.getLsbD 14 then 1 else 0

/-- `HDEC` (R174). -/
def hdec (P : Params) (s : State) : Except Raise State := do
  needRegion P s.src s.srcLen
  let h ← parseHeader P s.source
  .ok { s with
    hdr := h.regs, res0 := s.fit (s.src + h.hl), res1 := s.fit h.blen, res2 := v2019Flag h.regs.attr }

/-- The attribute word of a header to build (R175): the size, the encryption field of `H_ATTR`, F and V; bit 15 is 0. -/
def buildAttr (h : HeaderRegs) (v : Version) (f : Bool) (len : Nat) : Half :=
  BitVec.ofNat 16 len ||| ((h.attr.extractLsb' 10 3).setWidth 16 <<< 10) |||
    (BitVec.ofNat 16 f.toNat <<< 13) ||| (BitVec.ofNat 16 v.bit <<< 14)

/-- The version byte and identity of a header to build (R175). -/
def buildIdentity (h : HeaderRegs) : Version → List Byte
  | .v2019 => h.ver :: (be16 h.idh ++ be32 h.idm ++ be32 h.idl)
  | .v2011 => be16 (h.idm.extractLsb' 0 16) ++ be32 h.idl

/-- `BuildHeader(V, F, L, ftot, fidx)` (R175). -/
def buildHeader (h : HeaderRegs) (v : Version) (f : Bool) (len : Nat) (ftot fidx : Half) : List Byte :=
  be16 h.msgId ++ be16 (buildAttr h v f len) ++ buildIdentity h v ++ be16 h.seq ++
    (if f then be16 ftot ++ be16 fidx else [])

/-- `IdentFits(V)` (R175). -/
def identFits (h : HeaderRegs) (v : Version) : Bool :=
  (v == .v2019) || ((h.idh == 0) && (h.idm.extractLsb' 16 16 == 0))

/-- `HENC.v[.F]` (R176). -/
def henc (P : Params) (v : Version) (f : Bool) (s : State) : Except Raise State := do
  needRegion P s.dst s.dstCap
  require (decide (s.srcLen ≤ maxBody)) .badOperand s.srcLen
  require (identFits s.hdr v) .badOperand 0
  let attr := buildAttr s.hdr v f s.srcLen
  let hdr := buildHeader s.hdr v f s.srcLen s.hdr.ftot s.hdr.fidx
  needSpace hdr.length s.dstCap
  .ok { s.store s.dst hdr with
    hdr := { s.hdr with attr := attr, hlen := BitVec.ofNat 5 hdr.length }
    res0 := BitVec.ofNat 32 hdr.length, res1 := attr.setWidth 32 }

/-- `FDEC` (R177): unescape, verify the checksum, parse the header, in that order (60_exceptions.md R305). -/
def fdec (P : Params) (s : State) : Except Raise State := do
  needBuffers P s s.dstCap
  let u ← unescapeOr s.source
  require (decide (u.length ≠ 0)) .hdrLen 0
  let k := u.length - 1
  let p := u.take k
  needChecksum (xorAll p) (byteOf u k)
  let h ← parseHeader P p
  needSpace u.length s.dstCap
  .ok { s.store s.dst u with
    hdr := h.regs, res0 := s.fit (s.dst + h.hl), res1 := s.fit h.blen, res2 := v2019Flag h.regs.attr,
    res3 := s.fit u.length }

/-- `N` of R178: one packet up to 1023 bytes, else `ceil(L / 1023)`. -/
def chunkCount (len : Nat) : Nat := if len ≤ maxBody then 1 else (len + (maxBody - 1)) / maxBody

/-- Chunk `k` of `Chunks(L)`, for `k` from 1 (R178). -/
def chunkOf (body : List Byte) (k : Nat) : List Byte :=
  sliceOf body ((k - 1) * maxBody) (min (k * maxBody) body.length)

/-- A packet with its checksum byte (42_checksum.md R160). -/
def withChecksum (p : List Byte) : List Byte := p ++ [xorAll p]

/-- Frame `k` of `n` of a body (R179): the header of a fragment if `frag`, the chunk, the checksum, escaped and
delimited. -/
def packetFrame (h : HeaderRegs) (v : Version) (frag : Bool) (n : Nat) (body : List Byte) (k : Nat) : List Byte :=
  let chunk := chunkOf body k
  wireFrame (withChecksum
    (buildHeader h v frag chunk.length (BitVec.ofNat 16 n) (BitVec.ofNat 16 k) ++ chunk))

/-- All frames of a body, back to back (R179). -/
def packetFrames (h : HeaderRegs) (v : Version) (body : List Byte) : List Byte :=
  let n := chunkCount body.length
  (List.range n).flatMap (fun j => packetFrame h v (decide (maxBody < body.length)) n body (j + 1))

/-- `PENC.v` (R179). -/
def penc (P : Params) (v : Version) (s : State) : Except Raise State := do
  needBuffers P s s.dstCap
  require (identFits s.hdr v) .badOperand 0
  require (decide (chunkCount s.srcLen ≤ 65535)) .badOperand s.srcLen
  let out := packetFrames s.hdr v s.source
  needSpace out.length s.dstCap
  .ok { s.store s.dst out with res0 := s.fit out.length, res1 := s.fit (chunkCount s.srcLen) }

/-- `HDEC` (R174). -/
def execHdec (s : State) : Host.Outcome State Fault Refusal := runCommand (hdec Config.params) s

/-- `HENC.v[.F]` (R176). -/
def execHenc (v : Version) (f : Bool) (s : State) : Host.Outcome State Fault Refusal :=
  runCommand (henc Config.params v f) s

/-- `FDEC` (R177). -/
def execFdec (s : State) : Host.Outcome State Fault Refusal := runCommand (fdec Config.params) s

/-- `PENC.v` (R179). -/
def execPenc (v : Version) (s : State) : Host.Outcome State Fault Refusal := runCommand (penc Config.params v) s

end Sys2Proof.Machine
end

