-- ==== Sys2Proof/Machine/Tlv.lean ====
section
/-! DEFINITION. The tagged lists (30_encoding.md R98, R99, R104, R105, 46_tlv.md). -/

namespace Sys2Proof.Machine

/-- The kind's code (R104); 0 where the table gives none. -/
def kindCode : Option Kind → Byte
  | none => 0
  | some .u8 => 1
  | some .u16 => 2
  | some .u32 => 3
  | some .bytes => 4
  | some .text => 5
  | some .struct => 6

/-- The fixed width of an integer kind (R104). -/
def kindWidth : Option Kind → Option Nat
  | some .u8 => some 1
  | some .u16 => some 2
  | some .u32 => some 4
  | _ => none

/-- One item of a list, as its descriptor record shows it (R105). -/
structure TlvRecord where
  id : Word
  len : Byte
  kind : Option Kind
  wmis : Bool
  vaddr : Nat
  value : Word
deriving DecidableEq, Repr

/-- `FLAGS`: bit 0 `KNOWN`, bit 1 `WMIS` (R105). -/
def TlvRecord.flags (r : TlvRecord) : Byte :=
  BitVec.ofNat 8 ((if r.kind.isSome then 1 else 0) + (if r.wmis then 2 else 0))

/-- The 16 bytes of a descriptor record (R105). -/
def TlvRecord.encoded (fit : Nat → Word) (r : TlvRecord) : List Byte :=
  be32 r.id ++ [r.len, kindCode r.kind, r.flags, 0] ++ be32 (fit r.vaddr) ++ be32 r.value

/-- The two lists: their identifier width, and the type table looked up by the 32-bit identifier (R240). -/
structure TlvShape where
  idWidth : Nat
  idAt : List Byte → Word
  table : Word → Option Kind

/-- Auxiliary items: an 8-bit tag, `P_AUX_TYPES` (R98). -/
def auxShape (P : Params) : TlvShape where
  idWidth := 1
  idAt t := (byteOf t 0).setWidth 32
  table id := P.auxTypes (id.setWidth 8)

/-- Parameter entries: a 32-bit id, `P_PARAM_TYPES` (R99). -/
def parShape (P : Params) : TlvShape where
  idWidth := 4
  idAt t := be32At t 0
  table := P.paramTypes

/-- The value of an integer item (R240): its bytes big-endian, 0 for any other item. -/
def tlvValue (kind : Option Kind) (wmis : Bool) (v : List Byte) : Word :=
  if wmis then 0 else
  match kind with
  | some .u8 => (byteOf v 0).setWidth 32
  | some .u16 => (be16At v 0).setWidth 32
  | some .u32 => be32At v 0
  | _ => 0

/-- `k ∈ {U8, U16, U32} and L ≠ Width(k)` (R240). -/
def widthMismatch (kind : Option Kind) (len : Byte) : Bool :=
  match kindWidth kind with
  | some w => decide (len.toNat ≠ w)
  | none => false

/-- The record of the item at the head of `t`, `o` bytes into the list at MEM address `base` (R240). -/
def tlvItem (T : TlvShape) (base o : Nat) (t : List Byte) : TlvRecord :=
  let id := T.idAt t
  let len := byteOf t T.idWidth
  let kind := T.table id
  let wmis := widthMismatch kind len
  { id := id, len := len, kind := kind, wmis := wmis, vaddr := base + o + T.idWidth + 1,
    value := tlvValue kind wmis (t.drop (T.idWidth + 1)) }

/-- The bytes of the item at the head of `t`: identifier, length, value (R98, R99). -/
def tlvItemLen (T : TlvShape) (t : List Byte) : Nat := T.idWidth + 1 + (byteOf t T.idWidth).toNat

/-- Put an item's record before the rest of the walk's result. -/
def consRecord (r : TlvRecord) : Except Nat (List TlvRecord) → Except Nat (List TlvRecord)
  | .ok rs => .ok (r :: rs)
  | .error o => .error o

/-- The walk of R240 over the rest `t` of the list, `o` bytes in. Every item takes at least one byte, so the bound
`fuel` never ends the walk when it is at least the length of `t` (`tlvFrom_eq` of Laws/Tlv.lean). -/
def tlvFrom (T : TlvShape) (base : Nat) : Nat → Nat → List Byte → Except Nat (List TlvRecord)
  | 0, _, _ => .ok []
  | fuel + 1, o, t =>
    if t = [] then .ok []
    else if t.length < T.idWidth + 1 then .error o
    else if t.length < tlvItemLen T t then .error o
    else consRecord (tlvItem T base o t) (tlvFrom T base fuel (o + tlvItemLen T t) (t.drop (tlvItemLen T t)))

/-- `TlvWalk(t, W, base, T)` (R240): the records, or the offset of the item that does not fit. -/
def tlvWalk (T : TlvShape) (base : Nat) (t : List Byte) : Except Nat (List TlvRecord) :=
  tlvFrom T base t.length 0 t

/-- `case TlvWalk of Err(o): raise BODY_SHORT(offset + o)`. -/
def tlvWalkOr (T : TlvShape) (base offset : Nat) (t : List Byte) : Except Raise (List TlvRecord) :=
  match tlvWalk T base t with
  | .ok rs => .ok rs
  | .error o => .error ⟨.bodyShort, offset + o⟩

/-- The bytes of a list of descriptor records, 16 each. -/
def tlvBytes (s : State) (recs : List TlvRecord) : List Byte := joinRecords (recs.map (TlvRecord.encoded s.fit))

/-- A list decoder (R242, R243): the checks, the walk, the records. The capacity counts 16-byte records. -/
def decodeList (P : Params) (T : TlvShape) (s : State) : Except Raise State := do
  needBuffers P s (16 * s.dstCap)
  let recs ← tlvWalkOr T s.src 0 s.source
  needSpace recs.length s.dstCap
  .ok { s.store s.dst (tlvBytes s recs) with res0 := s.fit recs.length, res1 := s.arg1 }

/-- `AUXDEC` (R242). -/
def execAuxdec (s : State) : Host.Outcome State Fault Refusal :=
  runCommand (decodeList Config.params (auxShape Config.params)) s

/-- `PARDEC` (R243). -/
def execPardec (s : State) : Host.Outcome State Fault Refusal :=
  runCommand (decodeList Config.params (parShape Config.params)) s

end Sys2Proof.Machine
end

