-- ==== Sys2Proof/Machine/Position.lean ====
section
/-! DEFINITION. The position report (30_encoding.md R97, 45_position.md R224 to R227). -/

namespace Sys2Proof.Machine

/-- The position core's length (00_scope.md R7). -/
def coreLen : Nat := 28

/-- The core's fields (R97, R224), with its decoded timestamp and the number of auxiliary items. -/
def positionRegs (b : List Byte) (stamp : Stamp) (auxN : Word) : PosRegs :=
  { alarm := be32At b 0, status := be32At b 4, lat := be32At b 8, lon := be32At b 12, alt := be16At b 16,
    speed := be16At b 18, bear := be16At b 20, date := stamp.date, time := stamp.time, auxN := auxN }

/-- `POSDEC` (R224). -/
def posdec (P : Params) (s : State) : Except Raise State := do
  needBuffers P s (16 * s.dstCap)
  let b := s.source
  require (decide (coreLen ≤ s.srcLen)) .bodyShort s.srcLen
  let stamp ← stampOr 22 (sliceOf b 22 28)
  let recs ← tlvWalkOr (auxShape P) (s.src + coreLen) coreLen (b.drop coreLen)
  needSpace recs.length s.dstCap
  .ok { s.store s.dst (tlvBytes s recs) with
    pos := positionRegs b stamp (s.fit recs.length), res0 := s.fit recs.length,
    res1 := s.fit (s.srcLen - coreLen) }

/-- `POSDEC` (R224). -/
def execPosdec (s : State) : Host.Outcome State Fault Refusal := runCommand (posdec Config.params) s

end Sys2Proof.Machine
end

