-- ==== Sys2Proof/Machine/System.lean ====
section
/-! DEFINITION. The system command (40_system.md). -/

namespace Sys2Proof.Machine

/-- `NOP` (R120): nothing beyond the start of a command. -/
def execNop (s : State) : Host.Outcome State Fault Refusal := runCommand .ok s

end Sys2Proof.Machine
end

