-- ==== Sys2Proof/Machine/Dispatch.lean ====
section
/-! DEFINITION. Which meaning each command has: one arm per row of opcode_table.json. -/

namespace Sys2Proof.Machine

def exec (i : Instr) (s : State) : Host.Outcome State Fault Refusal :=
  match i with
  | .nop => Sys2Proof.Machine.execNop s
  | .feed b => Sys2Proof.Machine.execFeed b s
  | .feedm => Sys2Proof.Machine.execFeedm s
  | .frel => Sys2Proof.Machine.execFrel s
  | .frst => Sys2Proof.Machine.execFrst s
  | .unesc => Sys2Proof.Machine.execUnesc s
  | .esc => Sys2Proof.Machine.execEsc s
  | .fwrap => Sys2Proof.Machine.execFwrap s
  | .xsum => Sys2Proof.Machine.execXsum s
  | .xchk => Sys2Proof.Machine.execXchk s
  | .xapp => Sys2Proof.Machine.execXapp s
  | .agetSize => Sys2Proof.Machine.execAgetSize s
  | .agetEnc => Sys2Proof.Machine.execAgetEnc s
  | .agetFrag => Sys2Proof.Machine.execAgetFrag s
  | .agetVtag => Sys2Proof.Machine.execAgetVtag s
  | .agetRsvd => Sys2Proof.Machine.execAgetRsvd s
  | .asetSize => Sys2Proof.Machine.execAsetSize s
  | .asetEnc => Sys2Proof.Machine.execAsetEnc s
  | .asetFrag => Sys2Proof.Machine.execAsetFrag s
  | .asetVtag => Sys2Proof.Machine.execAsetVtag s
  | .asetRsvd => Sys2Proof.Machine.execAsetRsvd s
  | .hdec => Sys2Proof.Machine.execHdec s
  | .henc v f => Sys2Proof.Machine.execHenc v f s
  | .fdec => Sys2Proof.Machine.execFdec s
  | .penc v => Sys2Proof.Machine.execPenc v s
  | .bset k => Sys2Proof.Machine.execBset k s
  | .bclr k => Sys2Proof.Machine.execBclr k s
  | .btst k => Sys2Proof.Machine.execBtst k s
  | .bput k => Sys2Proof.Machine.execBput k s
  | .fext lsb width => Sys2Proof.Machine.execFext lsb width s
  | .fins lsb width => Sys2Proof.Machine.execFins lsb width s
  | .posdec => Sys2Proof.Machine.execPosdec s
  | .bcddec => Sys2Proof.Machine.execBcddec s
  | .bcdenc => Sys2Proof.Machine.execBcdenc s
  | .auxdec => Sys2Proof.Machine.execAuxdec s
  | .pardec => Sys2Proof.Machine.execPardec s
  | .geodec shape v => Sys2Proof.Machine.execGeodec shape v s
  | .geoenc shape v => Sys2Proof.Machine.execGeoenc shape v s

end Sys2Proof.Machine
end

