-- ==== Sys2Proof/Machine/HostPort.lean ====
section
/-! DEFINITION. What a host action does: issuing a command (30_encoding.md R80), the register port and the memory port
(20_memory.md R64, R65, R77), reset (70_reset_and_hazards.md R330). -/

namespace Sys2Proof.Machine

/-- What the block gives back to a host action (R77). -/
def State.answer (s : State) (r : Reply) : State := { s with reply := r }

/-- A word that does not decode: `raise ILLEGAL(w)` and nothing else of the command runs (R80, R82). -/
def raiseIllegal (w : Word) (s : State) : Host.Outcome State Fault Refusal :=
  runCommand (fun _ => .error ⟨.illegal, w.toNat⟩) s

/-- A host write of `w` to `CMD` (R80): the word is stored, then the command it decodes to runs. -/
def issue (w : Word) (s : State) : Host.Outcome State Fault Refusal :=
  match decode w with
  | .ok i => exec i (s.writeCmd w)
  | .error _ => raiseIllegal w (s.writeCmd w)

/-- A register access the block has: a whole 32-bit word at a multiple of 4 (R20, R64). -/
def wholeWord (width : Nat) (off : RegOffset) : Bool := (width == 4) && (off.toNat % 4 == 0)

/-- Reset (R330): every register at its reset value, MEM unspecified again (R332): nothing is written and a new draw
of its contents comes into force. The host's actions still to come are not the block's to change. -/
def State.afterReset (s : State) : State :=
  { State.reset with memEpoch := s.memEpoch + 1, draws := s.draws, host := s.host }

/-- What one host action does (R77). -/
def perform (a : HostAct) (s : State) : Host.Outcome State Fault Refusal :=
  match a with
  | .readReg width off =>
    if wholeWord width off then .next (s.answer (.word (s.readOffset off))) else .refused .registerAccess
  | .writeReg width off v =>
    if wholeWord width off then
      if regAt off.toNat = some .cmd then issue v (s.answer .nothing)
      else .next ((s.writeOffset off v).answer .nothing)
    else .refused .registerAccess
  | .readMem a =>
    if a < Config.params.memSize then .next (s.answer (.byte (s.byteAt a))) else .refused .memoryPort
  | .writeMem a b =>
    if a < Config.params.memSize then .next ((s.store a [b]).answer .nothing) else .refused .memoryPort
  | .reset => .next s.afterReset

/-- The host actions without the oldest one. -/
def State.takeHost (s : State) (rest : List HostAct) : State := { s with host := rest }

end Sys2Proof.Machine
end

