-- ==== Sys2Proof/Machine/Step.lean ====
section
/-! DEFINITION. One step of the machine: the host's next action (20_memory.md R71). -/

namespace Sys2Proof.Machine

/-- One step performs the oldest host action (R71). With none left the block is idle and keeps all state
(60_exceptions.md R318, 70_reset_and_hazards.md R333). -/
def step (s : State) : Host.Outcome State Fault Refusal :=
  match s.host with
  | [] => .next s
  | a :: rest => perform a (s.takeHost rest)

/-- The host's next action is a write of the word `w` of `nbits` bits to `CMD` (R80): the block fetches no
instructions (20_memory.md R74), a command is the word the host writes. -/
def State.withFetchWord (s : State) (nbits w : Nat) : State :=
  s.takeHost (.writeReg 4 0 (BitVec.ofNat 32 (w % 2 ^ nbits)) :: s.host)

end Sys2Proof.Machine
end

