-- ==== Sys2Proof/Safety.lean ====
section
/-! DEFINITION. The terms claims are stated in: what a command leaves of MEM, what an error report is, the buffers of a
command, the wire formats written out, and what counts as a sound state of the block. -/

namespace Sys2Proof.Machine

/-! ## What a command leaves -/

/-- Every byte of MEM reads in `t` as in `s`. -/
def SameMemory (s t : State) : Prop := ∀ a, t.byteAt a = s.byteAt a

/-- MEM holds `bs` from address `d` on in `t`, and every byte outside reads as in `s`. -/
def Stored (s t : State) (d : Nat) (bs : List Byte) : Prop :=
  (∀ k, (h : k < bs.length) → t.byteAt (d + k) = bs[k]) ∧
    ∀ a, a < d ∨ d + bs.length ≤ a → t.byteAt a = s.byteAt a

/-- The command ends in error `code` with `ERRINFO = info` (60_exceptions.md R306): nothing else changes, in MEM or in
a register. An `info` that no 32-bit register can hold is left open (log 6). -/
def FailsWith (i : Instr) (s : State) (code : ErrCode) (info : Nat) : Prop :=
  ∃ t, exec i s = .next t ∧ t.err = code ∧ (info < 2 ^ 32 → t.errInfo = BitVec.ofNat 32 info) ∧
    { t with err := s.err, errInfo := s.errInfo } = s ∧ SameMemory s t

/-- `min(c + n, 0xFFFFFFFF)`: `n` bytes dropped after `c` (41_framer.md R130, `sat32`). -/
def satAdd (c : Word) (n : Nat) : Word := BitVec.ofNat 32 (min (c.toNat + n) 0xFFFFFFFF)

/-! ## Regions -/

/-- `Region(a, n)` (00_scope.md R11). -/
def InMem (a n : Nat) : Prop := a + n ≤ Config.params.memSize

/-- `not Overlap(a, n, b, m)` (00_scope.md R11). -/
def Apart (a n b m : Nat) : Prop := n = 0 ∨ m = 0 ∨ b + m ≤ a ∨ a + n ≤ b

/-- The source of `ARG1` bytes and the destination of `cap` bytes pass the checks of 20_memory.md R67 and R68. -/
def BuffersIn (s : State) (cap : Nat) : Prop :=
  InMem s.src s.srcLen ∧ InMem s.dst cap ∧ Apart s.src s.srcLen s.dst cap

/-- `FEEDM` passes its checks (41_framer.md R132). -/
def FeedReady (s : State) : Prop :=
  s.frv = false ∧ InMem s.src s.srcLen ∧ InMem s.frBase.toNat s.frCap.toNat ∧
    Apart s.src s.srcLen s.frBase.toNat s.frCap.toNat

/-! ## Line bytes (41_framer.md R130) -/

/-- The bytes of the candidate frame stored so far: `FR_LEN` in `IN`, none in the other states (10_state.md R31). -/
def State.collected (s : State) : Nat := if s.frs = .inFrame then s.frLen.toNat else 0

/-- The line bytes `lead` take the framer from the state it is in to inside a candidate frame, and `dropped` of them are
discarded: in `HUNT` bytes outside any frame and a delimiter; in `DISCARD` the rest of the oversized frame, its
delimiter, and then the same; in `IN` nothing. Under `P_EMPTY_FRAME = SKIP` any number of delimiters may follow, as long
as the candidate is empty. -/
def OpensFrame (s : State) (lead : List Byte) (dropped : Nat) : Prop :=
  ∃ (tail junk : List Byte) (k : Nat), 0x7E ∉ tail ∧ 0x7E ∉ junk ∧
    (k ≠ 0 → Config.params.emptyFrame = .skip ∧ s.collected = 0) ∧
    match s.frs with
    | .hunt => lead = junk ++ 0x7E :: List.replicate k 0x7E ∧ dropped = junk.length
    | .inFrame => lead = List.replicate k 0x7E ∧ dropped = 0
    | .discard =>
      lead = tail ++ 0x7E :: (junk ++ 0x7E :: List.replicate k 0x7E) ∧ dropped = tail.length + junk.length

/-! ## Destinations -/

/-- The bytes of the destination of a command that has both a source and a destination region
(20_memory.md R68). -/
def destinationBytes (i : Instr) (s : State) : Option Nat :=
  match i with
  | .unesc => some s.dstCap
  | .esc => some s.dstCap
  | .fwrap => some s.dstCap
  | .fdec => some s.dstCap
  | .penc _ => some s.dstCap
  | .posdec => some (16 * s.dstCap)
  | .auxdec => some (16 * s.dstCap)
  | .pardec => some (16 * s.dstCap)
  | .geodec .polyline _ => some (32 * s.dstCap)
  | _ => none

/-! ## Wire formats, written out -/

/-- A header with the fields of 30_encoding.md R92 in wire order: a version byte when `tagged`, the fragment fields when
`frag`. -/
def headerBytes (tagged frag : Bool) (msgId attr : Half) (ver : Byte) (ident : List Byte) (seq ftot fidx : Half) :
    List Byte :=
  be16 msgId ++ be16 attr ++ (if tagged then [ver] else []) ++ ident ++ be16 seq ++
    (if frag then be16 ftot ++ be16 fidx else [])

/-- The header registers of such a header (10_state.md R33, R34): the identity zero-extended to ten bytes, absent
fields 0. -/
def headerRegs (tagged frag : Bool) (msgId attr : Half) (ver : Byte) (ident : List Byte) (seq ftot fidx : Half) :
    HeaderRegs :=
  let id := List.replicate (10 - ident.length) 0 ++ ident
  { msgId := msgId, attr := attr, ver := if tagged then ver else 0, idh := be16At id 0, idm := be32At id 2,
    idl := be32At id 6, seq := seq, ftot := if frag then ftot else 0, fidx := if frag then fidx else 0,
    hlen := BitVec.ofNat 5 ((if tagged then 17 else 12) + (if frag then 4 else 0)) }

/-- A tagged item on the wire (30_encoding.md R98, R99): identifier bytes, length byte, value. -/
def itemBytes (ident value : List Byte) : List Byte :=
  ident ++ [BitVec.ofNat 8 value.length] ++ value

/-- A list of items back to back. -/
def itemList (items : List (List Byte × List Byte)) : List Byte :=
  items.flatMap (fun x => itemBytes x.1 x.2)

/-- The value word of an item (46_tlv.md R240): its bytes big-endian for an integer kind whose width its length is,
0 otherwise. -/
def itemValue (kind : Option Kind) (value : List Byte) : Word :=
  if kindWidth kind = some value.length then BitVec.ofNat 32 (beValue value) else 0

/-- The 16 bytes of the descriptor of an item of kind `kind` whose value stands at `vaddr` (30_encoding.md R105). -/
def itemRecord (kind : Option Kind) (id : Word) (value : List Byte) (vaddr : Nat) : List Byte :=
  be32 id ++
    [BitVec.ofNat 8 value.length, kindCode kind,
     (if kind.isSome then 1 else 0) |||
       (if (kindWidth kind).isSome && decide (kindWidth kind ≠ some value.length) then 2 else 0), 0] ++
    be32 (BitVec.ofNat 32 vaddr) ++ be32 (itemValue kind value)

/-- The descriptors of a list of items that starts at MEM address `base` (46_tlv.md R240). -/
def itemRecords (table : List Byte → Option Kind) (base : Nat) :
    List (List Byte × List Byte) → List Byte
  | [] => []
  | x :: rest =>
    itemRecord (table x.1) (BitVec.ofNat 32 (beValue x.1)) x.2 (base + x.1.length + 1) ++
      itemRecords table (base + (itemBytes x.1 x.2).length) rest

/-- Every item has an identifier of `width` bytes and a value its length byte can count. -/
def ItemsOk (width : Nat) (items : List (List Byte × List Byte)) : Prop :=
  ∀ x ∈ items, x.1.length = width ∧ x.2.length < 256

/-- The table of auxiliary items, by identifier byte (00_scope.md R8). -/
def auxTable (ident : List Byte) : Option Kind := Config.params.auxTypes (byteOf ident 0)

/-- The table of parameters, by identifier bytes (00_scope.md R8). -/
def parTable (ident : List Byte) : Option Kind := Config.params.paramTypes (be32At ident 0)

/-! ## Geofence items, written out (30_encoding.md R100 to R103) -/

/-- Group T: present when `ATTR[0] = 1`. -/
def timeGroup (g : GeoRegs) : List Byte :=
  if g.attr.getLsbD 0 then
    bcdEncode6 (g.sdate.setWidth 32) (g.stime.setWidth 32) ++ bcdEncode6 (g.edate.setWidth 32) (g.etime.setWidth 32)
  else []

/-- Group S without its night word: present when `ATTR[1] = 1`. -/
def speedGroup (g : GeoRegs) : List Byte :=
  if g.attr.getLsbD 1 then be16 g.maxSpd ++ [g.ovDur] else []

/-- The night word of group S. -/
def nightWord (P : Params) (v : Version) (g : GeoRegs) : List Byte :=
  if g.attr.getLsbD 1 && nightPresent P v then be16 g.night else []

/-- Group N: present in V2019. -/
def nameGroup (v : Version) (g : GeoRegs) (name : List Byte) : List Byte :=
  if v = .v2019 then be16 g.nameLen ++ name else []

/-- The parts of an item in wire order, as `P_GEO_ORDER` selects it: a Circle or a Rectangle has no block, a Polyline no
speed group and no night word (R101, R102). -/
def geoArrange {α : Type} (P : Params) (shape : Shape) (head corners times speed block night name : List α) : List α :=
  match shape with
  | .circle => head ++ corners ++ times ++ speed ++ night ++ name
  | .rect => head ++ corners ++ times ++ speed ++ night ++ name
  | .polygon =>
    if P.geoOrder = .doc then head ++ block ++ times ++ speed ++ night ++ name
    else head ++ times ++ speed ++ block ++ night ++ name
  | .polyline =>
    if P.geoOrder = .doc then head ++ block ++ times ++ name
    else head ++ times ++ block ++ name

/-- The centre and radius of a Circle, the corners of a Rectangle. -/
def cornerBytes (shape : Shape) (g : GeoRegs) : List Byte :=
  match shape with
  | .circle => be32 g.lat1 ++ be32 g.lon1 ++ be32 g.radius
  | .rect => be32 g.lat1 ++ be32 g.lon1 ++ be32 g.lat2 ++ be32 g.lon2
  | .polygon => []
  | .polyline => []

/-- An item on the wire whose group T is the bytes `times`; `points` is the vertex or point block, `name` the name's
bytes (R101, R102). -/
def geoLayout (P : Params) (shape : Shape) (v : Version) (g : GeoRegs) (times points name : List Byte) : List Byte :=
  geoArrange P shape (be32 g.id ++ be16 g.attr) (cornerBytes shape g) times (speedGroup g)
    (be16 g.nPts ++ points) (nightWord P v g) (nameGroup v g name)

/-- The item of a shape on the wire, every group as the registers hold it (R101, R102). -/
def geoWire (P : Params) (shape : Shape) (v : Version) (g : GeoRegs) (points name : List Byte) : List Byte :=
  geoLayout P shape v g (timeGroup g) points name

/-- Where the vertex or point block starts inside the item. -/
def blockOffset (P : Params) (shape : Shape) (g : GeoRegs) : Nat :=
  if P.geoOrder = .doc then 8
  else 8 + (timeGroup g).length + (if shape = .polygon then (speedGroup g).length else 0)

/-- Where group T starts inside the item; `points` is its vertex or point block. -/
def timeOffset (P : Params) (shape : Shape) (points : List Byte) : Nat :=
  match shape with
  | .circle => 18
  | .rect => 22
  | .polygon => if P.geoOrder = .doc then 8 + points.length else 6
  | .polyline => if P.geoOrder = .doc then 8 + points.length else 6

/-- The shape has a centre or corners. -/
def hasCorner (shape : Shape) : Bool := (shape == .circle) || (shape == .rect)

/-- The geofence registers after decoding the item at MEM address `base` (47_geofence.md R264): a field the shape lacks,
or whose gate is clear, is 0; `itemLen` and `blockLen` are the lengths of the item and of its block. -/
def geoKept (P : Params) (shape : Shape) (v : Version) (g : GeoRegs) (base itemLen blockLen : Nat) : GeoRegs :=
  let timed := g.attr.getLsbD 0
  let limited := g.attr.getLsbD 1 && decide (shape ≠ .polyline)
  let nightly := limited && nightPresent P v
  let named := v == .v2019
  { id := g.id, attr := g.attr
    lat1 := if hasCorner shape then g.lat1 else 0
    lon1 := if hasCorner shape then g.lon1 else 0
    lat2 := if shape = .rect then g.lat2 else 0
    lon2 := if shape = .rect then g.lon2 else 0
    radius := if shape = .circle then g.radius else 0
    sdate := if timed then g.sdate else 0, stime := if timed then g.stime else 0
    edate := if timed then g.edate else 0, etime := if timed then g.etime else 0
    maxSpd := if limited then g.maxSpd else 0, ovDur := if limited then g.ovDur else 0
    night := if nightly then g.night else 0
    nPts := if hasPoints shape then g.nPts else 0
    ptsAddr := if hasPoints shape then BitVec.ofNat 32 (base + blockOffset P shape g) else 0
    ptsLen := if hasPoints shape then BitVec.ofNat 32 blockLen else 0
    nameAddr := if named then BitVec.ofNat 32 (base + itemLen - g.nameLen.toNat) else 0
    nameLen := if named then g.nameLen else 0
    present := (if timed then 1 else 0) ||| (if limited then 2 else 0) ||| (if nightly then 4 else 0) |||
      (if named then 8 else 0) }

/-- A route point on the wire (30_encoding.md R103); `night` says whether a speed-limited point has a night word. -/
def routeWire (night : Bool) (p : RoutePoint) : List Byte :=
  be32 p.ptid ++ be32 p.segid ++ be32 p.lat ++ be32 p.lon ++ [p.width, p.sattr] ++
    (if p.sattr.getLsbD 0 then be16 p.maxT ++ be16 p.minT else []) ++
    (if p.sattr.getLsbD 1 then be16 p.sMax ++ [p.sOvd] ++ (if night then be16 p.sNight else []) else [])

/-- The 32-byte record of a route point (30_encoding.md R106). -/
def routeRecord (night : Bool) (p : RoutePoint) : List Byte :=
  let timed := p.sattr.getLsbD 0
  let limited := p.sattr.getLsbD 1
  be32 p.ptid ++ be32 p.segid ++ be32 p.lat ++ be32 p.lon ++
    [p.width, p.sattr,
     (if timed then 1 else 0) ||| (if limited then 2 else 0) ||| (if limited && night then 4 else 0), 0] ++
    be16 (if timed then p.maxT else 0) ++ be16 (if timed then p.minT else 0) ++
    be16 (if limited then p.sMax else 0) ++ [if limited then p.sOvd else 0, 0] ++
    be16 (if limited && night then p.sNight else 0) ++ [0, 0]

/-- The block of an item: vertices of 8 bytes for a Polygon, route points for a Polyline, as many as `G_NPTS` says;
none for the other shapes. -/
def BlockOk (P : Params) (shape : Shape) (v : Version) (g : GeoRegs) (points : List Byte) (ps : List RoutePoint) :
    Prop :=
  match shape with
  | .circle => points = [] ∧ ps = []
  | .rect => points = [] ∧ ps = []
  | .polygon => points.length = 8 * g.nPts.toNat ∧ ps = []
  | .polyline => points = ps.flatMap (routeWire (nightPresent P v)) ∧ ps.length = g.nPts.toNat

/-- The widths of the fields of a route point (30_encoding.md R103). -/
def routeWidths (night : Bool) (p : RoutePoint) : List Nat :=
  [4, 4, 4, 4, 1, 1] ++ (if p.sattr.getLsbD 0 then [2, 2] else []) ++
    (if p.sattr.getLsbD 1 then [2, 1] ++ (if night then [2] else []) else [])

/-- The widths of the fields of an item in wire order (30_encoding.md R100 to R103): each vertex counts as one field of 8
bytes, each time as one of 6, the name as one of its length. -/
def geoWidths (P : Params) (shape : Shape) (v : Version) (g : GeoRegs) (ps : List RoutePoint) : List Nat :=
  geoArrange P shape [4, 2] (if shape = .circle then [4, 4, 4] else [4, 4, 4, 4])
    (if g.attr.getLsbD 0 then [6, 6] else []) (if g.attr.getLsbD 1 then [2, 1] else [])
    (2 :: (if shape = .polygon then List.replicate g.nPts.toNat 8 else ps.flatMap (routeWidths (nightPresent P v))))
    (if g.attr.getLsbD 1 && nightPresent P v then [2] else []) (if v = .v2019 then [2, g.nameLen.toNat] else [])

/-- Where the first field starts that does not end within the first `n` bytes, for fields of these widths back to back. -/
def cutField : List Nat → Nat → Nat
  | [], _ => 0
  | w :: ws, n => if w ≤ n then w + cutField ws (n - w) else 0

/-- A packed date or time of 24 bits: each field 0 to 99 (10_state.md R35). -/
def stampFieldsOk (v : BitVec 24) : Prop :=
  (v.extractLsb' 16 8).toNat ≤ 99 ∧ (v.extractLsb' 8 8).toNat ≤ 99 ∧ (v.extractLsb' 0 8).toNat ≤ 99

/-- The time registers a timed item needs (47_geofence.md R265). -/
def TimesOk (g : GeoRegs) : Prop :=
  g.attr.getLsbD 0 = true →
    stampFieldsOk g.sdate ∧ stampFieldsOk g.stime ∧ stampFieldsOk g.edate ∧ stampFieldsOk g.etime

/-! ## What each command may do -/

/-- The codes a command can raise (60_exceptions.md R301). -/
def raisable : Instr → List ErrCode
  | .nop => []
  | .frel => []
  | .frst => []
  | .bset _ => []
  | .bclr _ => []
  | .btst _ => []
  | .feed _ => [.busy, .badOperand, .framing]
  | .feedm => [.busy, .badOperand, .framing]
  | .unesc => [.badOperand, .framing, .noSpace]
  | .esc => [.badOperand, .noSpace]
  | .fwrap => [.badOperand, .noSpace]
  | .henc _ _ => [.badOperand, .noSpace]
  | .penc _ => [.badOperand, .noSpace]
  | .geoenc _ _ => [.badOperand, .noSpace]
  | .xsum => [.badOperand]
  | .xapp => [.badOperand]
  | .agetSize => [.badOperand]
  | .agetEnc => [.badOperand]
  | .agetFrag => [.badOperand]
  | .agetVtag => [.badOperand]
  | .agetRsvd => [.badOperand]
  | .asetSize => [.badOperand]
  | .asetEnc => [.badOperand]
  | .asetFrag => [.badOperand]
  | .asetVtag => [.badOperand]
  | .asetRsvd => [.badOperand]
  | .bput _ => [.badOperand]
  | .fext _ _ => [.badOperand]
  | .fins _ _ => [.badOperand]
  | .bcdenc => [.badOperand]
  | .xchk => [.badOperand, .checksum]
  | .hdec => [.badOperand, .hdrLen, .bcd, .sizeMismatch]
  | .fdec => [.badOperand, .framing, .hdrLen, .checksum, .bcd, .sizeMismatch, .noSpace]
  | .bcddec => [.badOperand, .bcd]
  | .posdec => [.badOperand, .bodyShort, .bcd, .noSpace]
  | .geodec _ _ => [.badOperand, .bodyShort, .bcd, .noSpace]
  | .auxdec => [.badOperand, .bodyShort, .noSpace]
  | .pardec => [.badOperand, .bodyShort, .noSpace]

/-- The framer's two commands that take line bytes (41_framer.md R131, R132). -/
def takesLineBytes : Instr → Bool
  | .feed _ => true
  | .feedm => true
  | _ => false

/-- The four framer commands, the only ones that change `FRV` and `FRS` (10_state.md R23). -/
def isFramer : Instr → Bool
  | .feed _ => true
  | .feedm => true
  | .frel => true
  | .frst => true
  | _ => false

/-- The commands that write the header registers: header decode and header encode (43_header.md R174, R176, R177). -/
def writesHeader : Instr → Bool
  | .hdec => true
  | .fdec => true
  | .henc _ _ => true
  | _ => false

/-- The MEM range a command may write, by start and length: the framer window, the byte after the source of `XAPP`, the
destination of an encoder or a decoder; none for any other command. -/
def writeRange (i : Instr) (s : State) : Option (Nat × Nat) :=
  match i with
  | .feed _ => some (s.frBase.toNat, s.frCap.toNat)
  | .feedm => some (s.frBase.toNat, s.frCap.toNat)
  | .xapp => some (s.src + s.srcLen, 1)
  | .bcdenc => some (s.dst, 6)
  | .henc _ _ => some (s.dst, s.dstCap)
  | .geoenc _ _ => some (s.dst, s.dstCap)
  | i =>
    match destinationBytes i s with
    | some n => some (s.dst, n)
    | none => none

/-! ## Register access -/

/-- The tables of 10_state.md R22 to R36: each byte offset with the number it reads, the field of the state that the
register names. `STATUS` is R23's word of several fields. -/
def registerTable (s : State) : List (Nat × Nat) :=
  [(0x000, s.cmd.toNat), (0x004, (s.readReg .status).toNat), (0x008, s.errInfo.toNat), (0x00C, s.ie.toNat),
   (0x010, s.arg0.toNat), (0x014, s.arg1.toNat), (0x018, s.arg2.toNat), (0x01C, s.arg3.toNat),
   (0x020, s.res0.toNat), (0x024, s.res1.toNat), (0x028, s.res2.toNat), (0x02C, s.res3.toNat),
   (0x030, s.frBase.toNat), (0x034, s.frCap.toNat), (0x038, s.frFlen.toNat), (0x03C, s.frLen.toNat),
   (0x040, s.dropCnt.toNat),
   (0x050, s.hdr.msgId.toNat), (0x054, s.hdr.attr.toNat), (0x058, s.hdr.ver.toNat), (0x05C, s.hdr.idh.toNat),
   (0x060, s.hdr.idm.toNat), (0x064, s.hdr.idl.toNat), (0x068, s.hdr.seq.toNat), (0x06C, s.hdr.ftot.toNat),
   (0x070, s.hdr.fidx.toNat), (0x074, s.hdr.hlen.toNat),
   (0x080, s.pos.alarm.toNat), (0x084, s.pos.status.toNat), (0x088, s.pos.lat.toNat), (0x08C, s.pos.lon.toNat),
   (0x090, s.pos.alt.toNat), (0x094, s.pos.speed.toNat), (0x098, s.pos.bear.toNat), (0x09C, s.pos.date.toNat),
   (0x0A0, s.pos.time.toNat), (0x0A4, s.pos.auxN.toNat),
   (0x0C0, s.geo.id.toNat), (0x0C4, s.geo.attr.toNat), (0x0C8, s.geo.lat1.toNat), (0x0CC, s.geo.lon1.toNat),
   (0x0D0, s.geo.lat2.toNat), (0x0D4, s.geo.lon2.toNat), (0x0D8, s.geo.radius.toNat), (0x0DC, s.geo.sdate.toNat),
   (0x0E0, s.geo.stime.toNat), (0x0E4, s.geo.edate.toNat), (0x0E8, s.geo.etime.toNat), (0x0EC, s.geo.maxSpd.toNat),
   (0x0F0, s.geo.ovDur.toNat), (0x0F4, s.geo.night.toNat), (0x0F8, s.geo.nPts.toNat), (0x0FC, s.geo.ptsAddr.toNat),
   (0x100, s.geo.ptsLen.toNat), (0x104, s.geo.nameAddr.toNat), (0x108, s.geo.nameLen.toNat),
   (0x10C, s.geo.present.toNat)]

/-- The registers the host writes plainly, with their widths (10_state.md R25, R26, R33, R36). -/
def writableRegs : List (Reg × Nat) :=
  [(.ie, 2), (.arg0, 32), (.arg1, 32), (.arg2, 32), (.arg3, 32), (.hMsgId, 16), (.hAttr, 16), (.hVer, 8), (.hIdh, 16),
   (.hIdm, 32), (.hIdl, 32), (.hSeq, 16), (.hFtot, 16), (.hFidx, 16), (.gId, 32), (.gAttr, 16), (.gLat1, 32),
   (.gLon1, 32), (.gLat2, 32), (.gLon2, 32), (.gRadius, 32), (.gSdate, 24), (.gStime, 24), (.gEdate, 24), (.gEtime, 24),
   (.gMaxSpd, 16), (.gOvDur, 8), (.gNight, 16), (.gNPts, 16), (.gPtsAddr, 32), (.gPtsLen, 32), (.gNameAddr, 32),
   (.gNameLen, 16)]

/-- The read-only registers (10_state.md R23, R24, R27, R31, R33, R35, R36). -/
def readOnlyRegs : List Reg :=
  [.status, .errInfo, .res0, .res1, .res2, .res3, .frFlen, .frLen, .hHlen, .pAlarm, .pStatus, .pLat, .pLon, .pAlt,
   .pSpeed, .pBear, .pDate, .pTime, .pAuxN, .gPresent]

/-! ## Sound states -/

/-- MEM is in its canonical form and holds no byte outside its `P_MEM_SIZE` addresses (20_memory.md R60). -/
def State.memOk (s : State) : Prop :=
  Memory.wf s.mem = true ∧ ∀ c ∈ s.mem, c.1 < Config.params.memSize

/-- The framer's registers (41_framer.md R130, 10_state.md R31): `FR_LEN` counts a candidate's bytes in `IN` and is 0
otherwise, a completed frame is held in `HUNT` only, both lengths fit the window, `FR_FLEN` is 0 with no frame held,
and a framer that is not idle has a window inside MEM. -/
def State.framerOk (s : State) : Prop :=
  (s.frs ≠ .inFrame → s.frLen = 0) ∧
  s.frLen.toNat ≤ s.frCap.toNat ∧
  (s.frv = true → s.frs = .hunt) ∧
  (s.frv = false → s.frFlen = 0) ∧
  s.frFlen.toNat ≤ s.frCap.toNat ∧
  (s.framerIdle = false → region Config.params s.frBase.toNat s.frCap.toNat = true)

/-- A code no command ever produces (60_exceptions.md R304). -/
def neverRaised (c : ErrCode) : Bool := (c == .unreg) || (c == .typeMismatch) || (c == .text)

/-- The error report (60_exceptions.md R300, R304): no code that is never raised, and no detail without an error. -/
def State.reportOk (s : State) : Prop :=
  neverRaised s.err = false ∧ (s.err = .ok → s.errInfo = 0)

/-- The read-only registers decoding fills: `P_DATE` and `P_TIME` hold fields 0 to 99 (10_state.md R35), `H_HLEN` is 0
after reset and then a header's length (30_encoding.md R93). -/
def State.decodedOk (s : State) : Prop :=
  stampFieldsOk s.pos.date ∧ stampFieldsOk s.pos.time ∧
    (s.hdr.hlen.toNat = 0 ∨ s.hdr.hlen.toNat = 12 ∨ s.hdr.hlen.toNat = 16 ∨ s.hdr.hlen.toNat = 17 ∨
      s.hdr.hlen.toNat = 21)

/-- A sound state. -/
def State.Inv (s : State) : Prop :=
  s.memOk ∧ s.framerOk ∧ s.reportOk ∧ s.decodedOk

end Sys2Proof.Machine
end

