-- ==== Sys2Proof/Certificates/Slice0/Obligations.lean ====
section
/-! DEFINITION. The statements about the block, for the provers. Each says which rule of spec/ it formalises; the terms
they are written in are those of Safety.lean. Where a statement rests on a choice of the model and not on the spec, its
docstring names the log entry. -/

open Sys2Proof Sys2Proof.Machine

/-! ## The command word (30_encoding.md) -/

/-- Decoding an encoded well-formed command gives it back (R83, R88). -/
def Obligations.DecodeOfEncode : Prop :=
  ∀ i : Instr, i.wellFormed = true → decode (encode i) = .ok i

/-- A word that decodes is the encoding of the well-formed command it decodes to: no bit of it is dropped (R82). -/
def Obligations.EncodeOfDecode : Prop :=
  ∀ (w : Word) (i : Instr), decode w = .ok i → i.wellFormed = true ∧ encode i = w

/-- A word decodes exactly when it matches exactly one row of the table; any other word raises `ILLEGAL` with the word as
detail and changes nothing else but `CMD` (R80, R82). `draws` is the model's own count of commands (log 6). -/
def Obligations.DecodesOneRowElseIllegal : Prop :=
  ∀ (w : Word) (s : State),
    ((∃ i, decode w = .ok i) ↔ (opcodeRows.filter (fun r => r.holds w)).length = 1) ∧
    ((opcodeRows.filter (fun r => r.holds w)).length ≠ 1 →
      ∃ t, issue w s = .next t ∧ t.cmd = w ∧ t.err = .illegal ∧ t.errInfo = w ∧
        { t with cmd := s.cmd, err := s.err, errInfo := s.errInfo, draws := s.draws } = s ∧ SameMemory s t)

/-- Words the spec writes out (R83, R88) decode to the commands they stand for. -/
def Obligations.SpecWordsDecode : Prop :=
  decode 0x007E0001 = .ok (.feed 0x7E) ∧ decode 0x001F0030 = .ok (.bset 31) ∧
    decode 0x00280034 = .ok (.fext 8 2) ∧ decode 0x00000320 = .ok .agetVtag ∧
    decode 0x00000323 = .ok (.henc .v2019 true) ∧ decode 0x00000760 = .ok (.geodec .polyline .v2019) ∧
    decode 0 = .ok .nop ∧ decode 0x10 = .ok .xsum ∧ decode 0x42 = .ok .bcdenc ∧ decode 0x51 = .ok .pardec

/-- A step whose host action is a write of a decodable word to `CMD` runs the decoded command on the state with the word
in `CMD` (R80); the action is taken off the host's list and answered with nothing (the model's own fields, log 1). -/
def Obligations.StepRunsCommand : Prop :=
  ∀ (s : State) (rest : List HostAct) (w : Word) (i : Instr),
    s.host = .writeReg 4 0 w :: rest → decode w = .ok i →
      step s = exec i { s with host := rest, reply := .nothing, cmd := w, draws := s.draws + 1 }

/-! ## System (40_system.md) -/

/-- `NOP` clears the error report and does nothing else, so the interrupt line keeps only its frame source (R120,
R310). -/
def Obligations.NopClearsReport : Prop :=
  ∀ s : State, ∃ t, exec .nop s = .next t ∧ t.err = .ok ∧ t.errInfo = 0 ∧
    t.irq = (s.ie.getLsbD 0 && s.frv) ∧ { t with err := s.err, errInfo := s.errInfo } = s ∧ SameMemory s t

/-! ## Framer (41_framer.md) -/

/-- `FEED` with no frame held and the window in MEM takes its byte as the framer step says, but for the byte that finds
the window full (R130, R131). -/
def Obligations.FeedTakesByte : Prop :=
  ∀ (b : Nat) (s : State), b < 256 → s.frv = false → InMem s.frBase.toNat s.frCap.toNat →
    (s.frs = .hunt → b = 0x7E → ∃ t, exec (.feed b) s = .next t ∧ SameMemory s t ∧
      t = { s.begin with frs := .inFrame, frLen := 0, res0 := 0 }) ∧
    (s.frs = .hunt → b ≠ 0x7E → ∃ t, exec (.feed b) s = .next t ∧ SameMemory s t ∧
      t = { s.begin with dropCnt := satAdd s.dropCnt 1, res0 := 0 }) ∧
    (s.frs = .inFrame → b = 0x7E → ∃ t, exec (.feed b) s = .next t ∧ SameMemory s t ∧
      t = if s.frLen = 0 ∧ Config.params.emptyFrame = .skip then { s.begin with res0 := 0 }
          else { s.begin with frFlen := s.frLen, frv := true, frs := .hunt, frLen := 0, res0 := 1 }) ∧
    (s.frs = .inFrame → b ≠ 0x7E → s.frLen ≠ s.frCap → ∃ t, exec (.feed b) s = .next t ∧
      Stored s t (s.frBase.toNat + s.frLen.toNat) [BitVec.ofNat 8 b] ∧
      { t with mem := s.mem } = { s.begin with frLen := s.frLen + 1, res0 := 0 }) ∧
    (s.frs = .discard → b = 0x7E → ∃ t, exec (.feed b) s = .next t ∧ SameMemory s t ∧
      t = { s.begin with frs := .hunt, res0 := 0 }) ∧
    (s.frs = .discard → b ≠ 0x7E → ∃ t, exec (.feed b) s = .next t ∧ SameMemory s t ∧
      t = { s.begin with dropCnt := satAdd s.dropCnt 1, res0 := 0 })

/-- What `FEED` and `FEEDM` refuse, in the rules' order: a held frame, a source outside MEM, a window outside MEM, a
source that overlaps the window; and the byte of `FEED` that finds the window full (R131, R132, R133). -/
def Obligations.FramerRefusals : Prop :=
  ∀ (b : Nat) (s : State), b < 256 →
    (s.frv = true → FailsWith (.feed b) s .busy 0 ∧ FailsWith .feedm s .busy 0) ∧
    (s.frv = false → ¬InMem s.frBase.toNat s.frCap.toNat → FailsWith (.feed b) s .badOperand s.frBase.toNat) ∧
    (s.frv = false → ¬InMem s.src s.srcLen → FailsWith .feedm s .badOperand s.src) ∧
    (s.frv = false → InMem s.src s.srcLen → ¬InMem s.frBase.toNat s.frCap.toNat →
      FailsWith .feedm s .badOperand s.frBase.toNat) ∧
    (s.frv = false → InMem s.src s.srcLen → InMem s.frBase.toNat s.frCap.toNat →
      ¬Apart s.src s.srcLen s.frBase.toNat s.frCap.toNat → FailsWith .feedm s .badOperand s.frBase.toNat) ∧
    (s.frv = false → InMem s.frBase.toNat s.frCap.toNat → s.frs = .inFrame → b ≠ 0x7E → s.frLen = s.frCap →
      ∃ t, exec (.feed b) s = .next t ∧ SameMemory s t ∧
        t = { s with err := .framing, errInfo := s.frCap, frs := .discard, frLen := 0,
                     dropCnt := satAdd s.dropCnt 1 })

/-- `FEEDM`, in whatever state the framer is, on the bytes that bring it into a candidate frame, content that fits the
window beside what is stored already, and a delimiter: the bytes outside are counted as dropped, the content is stored, the
frame is held, and nothing after it is consumed. A frame without content is one under `P_EMPTY_FRAME = EMIT`; under `SKIP`
its delimiter is one more that opens the candidate (R130, R132). -/
def Obligations.FeedmFindsFrame : Prop :=
  ∀ (s : State) (lead content rest : List Byte) (dropped : Nat),
    let n := s.collected + content.length
    FeedReady s → OpensFrame s lead dropped → s.source = lead ++ (content ++ 0x7E :: rest) → 0x7E ∉ content →
    (n = 0 → Config.params.emptyFrame = .emit) → n ≤ s.frCap.toNat →
    ∃ t, exec .feedm s = .next t ∧ Stored s t (s.frBase.toNat + s.collected) content ∧
      { t with mem := s.mem } =
        { s.begin with
          frs := .hunt, frv := true, frFlen := BitVec.ofNat 32 n, frLen := 0, dropCnt := satAdd s.dropCnt dropped,
          res0 := BitVec.ofNat 32 (lead.length + content.length + 1), res1 := 1 }

/-- `FEEDM`, in whatever state the framer is, on a frame whose content is longer than the window: `FRAMING` at the first
byte that does not fit, the framer in `DISCARD`, the bytes before it stored and kept (R130, R132, 60_exceptions.md
R306). -/
def Obligations.FeedmOverflows : Prop :=
  ∀ (s : State) (lead content rest : List Byte) (b : Byte) (dropped : Nat),
    FeedReady s → OpensFrame s lead dropped → s.source = lead ++ (content ++ b :: rest) →
    0x7E ∉ content → b ≠ 0x7E → s.collected + content.length = s.frCap.toNat →
    ∃ t, exec .feedm s = .next t ∧ Stored s t (s.frBase.toNat + s.collected) content ∧
      { t with mem := s.mem } =
        { s with
          err := .framing, errInfo := BitVec.ofNat 32 (lead.length + content.length),
          frs := .discard, frLen := 0, dropCnt := satAdd s.dropCnt (dropped + 1) }

/-- `FEEDM` on bytes without a frame's end: outside a candidate with no delimiter every byte is dropped; in `DISCARD` one
delimiter ends the oversized frame; a delimiter in `HUNT` opens a candidate that awaits more data, a lone trailing
delimiter too; and a candidate grows (R130, R132, R136). -/
def Obligations.FeedmAwaitsData : Prop :=
  ∀ (s : State) (tail junk lead content : List Byte) (dropped : Nat), FeedReady s →
    (s.frs ≠ .inFrame → 0x7E ∉ s.source → ∃ t, exec .feedm s = .next t ∧ SameMemory s t ∧
      t = { s.begin with dropCnt := satAdd s.dropCnt s.srcLen, res0 := s.arg1, res1 := 0 }) ∧
    (s.frs = .discard → s.source = tail ++ 0x7E :: junk → 0x7E ∉ tail → 0x7E ∉ junk →
      ∃ t, exec .feedm s = .next t ∧ SameMemory s t ∧
        t = { s.begin with
          frs := .hunt, dropCnt := satAdd s.dropCnt (tail.length + junk.length), res0 := s.arg1, res1 := 0 }) ∧
    (OpensFrame s lead dropped → s.source = lead ++ content → 0x7E ∉ content →
      s.collected + content.length ≤ s.frCap.toNat →
      ∃ t, exec .feedm s = .next t ∧ Stored s t (s.frBase.toNat + s.collected) content ∧
        { t with mem := s.mem } =
          { s.begin with
            frs := .inFrame, frLen := BitVec.ofNat 32 (s.collected + content.length),
            dropCnt := satAdd s.dropCnt dropped, res0 := s.arg1, res1 := 0 })

/-- A block of line bytes fed in two parts is found exactly as if it came in one block, wherever it is split and in
whatever state the framer is: when the first part closes no frame and both parts succeed, one `FEEDM` of the whole block
leaves what the two leave, with the consumed bytes counted together (R132, R136). -/
def Obligations.FeedmSplitsAnywhere : Prop :=
  ∀ (s t u : State) (m n : Nat),
    FeedReady s → s.srcLen = m + n → s.src + m < 2 ^ 32 →
    exec .feedm { s with arg1 := BitVec.ofNat 32 m } = .next t → t.err = .ok → t.res1 = 0 →
    exec .feedm { t with arg0 := BitVec.ofNat 32 (s.src + m), arg1 := BitVec.ofNat 32 n } = .next u → u.err = .ok →
    exec .feedm s = .next { u with arg0 := s.arg0, arg1 := s.arg1, res0 := BitVec.ofNat 32 (m + u.res0.toNat) }

/-- `FREL` releases the held frame and `FRST` puts the framer in `HUNT` with nothing held; neither changes MEM, the
window registers or `DROPCNT` (R134, R135). -/
def Obligations.ReleaseAndReset : Prop :=
  encode .frel = 0x00000003 ∧ encode .frst = 0x00000004 ∧ ∀ s : State,
    (∃ t, exec .frel s = .next t ∧ SameMemory s t ∧ t.frv = false ∧ t.frFlen = 0 ∧
      { t with frv := s.frv, frFlen := s.frFlen } = s.begin) ∧
    (∃ t, exec .frst s = .next t ∧ SameMemory s t ∧ t.frs = .hunt ∧ t.frLen = 0 ∧ t.frv = false ∧ t.frFlen = 0 ∧
      { t with frs := s.frs, frLen := s.frLen, frv := s.frv, frFlen := s.frFlen } = s.begin)

/-! ## Escape codec (41_framer.md) -/

/-- What `Escape` does to each byte, and the length of its result (R140). -/
def Obligations.EscapeTable : Prop :=
  ∀ s : List Byte,
    escape s = s.flatMap
      (fun b => if b = 0x7E then [0x7D, 0x02] else if b = 0x7D then [0x7D, 0x01] else [b]) ∧
    (escape s).length = s.length + s.countP (fun b => b == 0x7E || b == 0x7D)

/-- `Unescape` inverts `Escape`: it gives back what was escaped and succeeds on nothing else; and it stops at the length
of an escaped prefix that is followed by a raw delimiter, by an escape byte that ends the input, or by an escape byte whose
successor is not in the table (R141). -/
def Obligations.UnescapeInvertsEscape : Prop :=
  (∀ u : List Byte, unescape (escape u) = .ok u) ∧
  (∀ t u : List Byte, unescape t = .ok u → t = escape u) ∧
  ∀ (t : List Byte) (i : Nat), unescape t = .error i ↔
    ∃ u rest, t = escape u ++ rest ∧ i = (escape u).length ∧
      ((∃ r, rest = 0x7E :: r) ∨ rest = [0x7D] ∨ ∃ c r, rest = 0x7D :: c :: r ∧ c ≠ 0x01 ∧ c ≠ 0x02)

/-- `ESC`, `FWRAP` and `UNESC` with their buffers in MEM and apart write their output at the destination and its length
in `RES0`; `UNESC` reports the offset of the first offending byte, and an output larger than the capacity is refused with
the length needed (R142, R143, R144). -/
def Obligations.EscapeCommands : Prop :=
  ∀ s : State, BuffersIn s s.dstCap →
    (let e := escape s.source;
      (e.length ≤ s.dstCap → ∃ t, exec .esc s = .next t ∧ Stored s t s.dst e ∧
        { t with mem := s.mem } = { s.begin with res0 := BitVec.ofNat 32 e.length }) ∧
      (s.dstCap < e.length → FailsWith .esc s .noSpace e.length)) ∧
    (let e := 0x7E :: (escape s.source ++ [0x7E]);
      (e.length ≤ s.dstCap → ∃ t, exec .fwrap s = .next t ∧ Stored s t s.dst e ∧
        { t with mem := s.mem } = { s.begin with res0 := BitVec.ofNat 32 e.length }) ∧
      (s.dstCap < e.length → FailsWith .fwrap s .noSpace e.length)) ∧
    (∀ u, s.source = escape u →
      (u.length ≤ s.dstCap → ∃ t, exec .unesc s = .next t ∧ Stored s t s.dst u ∧
        { t with mem := s.mem } = { s.begin with res0 := BitVec.ofNat 32 u.length }) ∧
      (s.dstCap < u.length → FailsWith .unesc s .noSpace u.length)) ∧
    (∀ i, unescape s.source = .error i → FailsWith .unesc s .framing i)

/-- Every command that has both a source and a destination region refuses a source outside MEM, then a destination
outside MEM, then an overlap of the two, before anything else (20_memory.md R67, R68, 60_exceptions.md R305). -/
def Obligations.BufferRefusals : Prop :=
  ∀ (i : Instr) (s : State) (cap : Nat), destinationBytes i s = some cap →
    (¬InMem s.src s.srcLen → FailsWith i s .badOperand s.src) ∧
    (InMem s.src s.srcLen → ¬InMem s.dst cap → FailsWith i s .badOperand s.dst) ∧
    (InMem s.src s.srcLen → InMem s.dst cap → ¬Apart s.src s.srcLen s.dst cap → FailsWith i s .badOperand s.dst)

/-- The round trip of the escape codec: `Unescape` gives back what was escaped, an escaped sequence holds no delimiter,
and feeding the output of `FWRAP` into an idle framer whose window is apart from it and large enough gives back exactly the
escaped source as one frame's content (R145). An empty source gives a frame only under `P_EMPTY_FRAME = EMIT` (R130). -/
def Obligations.WrappedFrameIsFound : Prop :=
  (∀ b : List Byte, unescape (escape b) = .ok b ∧ 0x7E ∉ escape b) ∧
  ∀ (s t : State),
    BuffersIn s s.dstCap → exec .fwrap s = .next t → t.err = .ok →
    (s.source = [] → Config.params.emptyFrame = .emit) →
    s.frs = .hunt → s.frv = false → InMem s.frBase.toNat s.frCap.toNat →
    Apart s.dst s.dstCap s.frBase.toNat s.frCap.toNat → (escape s.source).length ≤ s.frCap.toNat →
    ∃ u, exec .feedm { t with arg0 := s.arg2, arg1 := t.res0 } = .next u ∧ u.err = .ok ∧ u.frv = true ∧
      u.frFlen.toNat = (escape s.source).length ∧ u.dropCnt = s.dropCnt ∧
      u.bytesAt s.frBase.toNat u.frFlen.toNat = escape s.source

/-! ## Checksum (42_checksum.md) -/

/-- `XSUM`, `XCHK` and `XAPP`: the exclusive-or of the bytes, where it goes, and every refusal (R161, R162, R163). The
length `XAPP` returns is `n + 1`, which no region in MEM lets exceed 32 bits but at `2^32` (log 6). -/
def Obligations.ChecksumCommands : Prop :=
  encode .xsum = 0x00000010 ∧ encode .xchk = 0x00000011 ∧ encode .xapp = 0x00000012 ∧ ∀ s : State,
    let n := s.srcLen
    let c := s.source.foldl (· ^^^ ·) 0
    let c' := s.source.dropLast.foldl (· ^^^ ·) 0
    (InMem s.src n → ∃ t, exec .xsum s = .next t ∧ SameMemory s t ∧ t = { s.begin with res0 := c.setWidth 32 }) ∧
    (¬InMem s.src n → FailsWith .xsum s .badOperand s.src ∧ FailsWith .xchk s .badOperand s.src) ∧
    (InMem s.src n → n = 0 → FailsWith .xchk s .badOperand 0) ∧
    (InMem s.src n → n ≠ 0 → c' = s.byteAt (s.src + n - 1) →
      ∃ t, exec .xchk s = .next t ∧ SameMemory s t ∧ t = { s.begin with res0 := c'.setWidth 32 }) ∧
    (InMem s.src n → n ≠ 0 → c' ≠ s.byteAt (s.src + n - 1) →
      FailsWith .xchk s .checksum (256 * c'.toNat + (s.byteAt (s.src + n - 1)).toNat)) ∧
    (InMem s.src (n + 1) → ∃ t, exec .xapp s = .next t ∧ Stored s t (s.src + n) [c] ∧
      t.res0 = c.setWidth 32 ∧ (n + 1 < 2 ^ 32 → t.res1.toNat = n + 1) ∧
      { t with mem := s.mem, res0 := s.res0, res1 := s.res1 } = s.begin) ∧
    (¬InMem s.src (n + 1) → FailsWith .xapp s .badOperand s.src)

/-- After `XAPP`, `XCHK` on one byte more always succeeds, with the same checksum (R163). -/
def Obligations.AppendedChecksumVerifies : Prop :=
  ∀ s t : State, InMem s.src (s.srcLen + 1) → s.srcLen + 1 < 2 ^ 32 → exec .xapp s = .next t →
    ∃ u, exec .xchk { t with arg1 := t.res1 } = .next u ∧ u.err = .ok ∧ u.res0 = t.res0 ∧ SameMemory t u

/-- A packet verifies exactly when the exclusive-or of all its bytes is 0, and flipping any single bit of a packet that
verifies makes it fail (R160, R164). -/
def Obligations.SingleBitFlipDetected : Prop :=
  (∀ (p : List Byte) (c : Byte), xorAll p = c ↔ xorAll (p ++ [c]) = 0) ∧
    ∀ (u v : List Byte) (b : Byte) (k : Nat), k < 8 → xorAll (u ++ b :: v) = 0 →
      xorAll (u ++ (b ^^^ (1#8 <<< k)) :: v) ≠ 0

/-! ## Attribute word, header, packets (43_header.md) -/

/-- `AGET.f` gives the field of an attribute word as a number, and refuses an operand wider than 16 bits (R171). -/
def Obligations.AttributeFieldsRead : Prop :=
  ∀ (s : State) (i : Instr) (w : Word) (lsb width : Nat),
    (i, w, lsb, width) ∈ [(Instr.agetSize, 0x020, 0, 10), (.agetEnc, 0x120, 10, 3), (.agetFrag, 0x220, 13, 1),
      (.agetVtag, 0x320, 14, 1), (.agetRsvd, 0x420, 15, 1)] →
    encode i = w ∧
    (s.arg0.toNat < 65536 → ∃ t, exec i s = .next t ∧ SameMemory s t ∧
      t.res0.toNat = s.arg0.toNat / 2 ^ lsb % 2 ^ width ∧ { t with res0 := s.res0 } = s.begin) ∧
    (65536 ≤ s.arg0.toNat → FailsWith i s .badOperand s.arg0.toNat)

/-- `ASET.f` replaces the field and keeps every other bit of the attribute word; it refuses an operand wider than 16 bits,
then a value wider than the field (R172). -/
def Obligations.AttributeFieldsWritten : Prop :=
  ∀ (s : State) (i : Instr) (w : Word) (lsb width : Nat),
    (i, w, lsb, width) ∈ [(Instr.asetSize, 0x021, 0, 10), (.asetEnc, 0x121, 10, 3), (.asetFrag, 0x221, 13, 1),
      (.asetVtag, 0x321, 14, 1), (.asetRsvd, 0x421, 15, 1)] →
    encode i = w ∧
    (s.arg0.toNat < 65536 → s.arg1.toNat < 2 ^ width → ∃ t, exec i s = .next t ∧ SameMemory s t ∧
      t.res0.toNat / 2 ^ lsb % 2 ^ width = s.arg1.toNat ∧ t.res0.toNat < 65536 ∧
      (∀ k, k < lsb ∨ lsb + width ≤ k → t.res0.getLsbD k = s.arg0.getLsbD k) ∧ { t with res0 := s.res0 } = s.begin) ∧
    (65536 ≤ s.arg0.toNat → FailsWith i s .badOperand s.arg0.toNat) ∧
    (s.arg0.toNat < 65536 → 2 ^ width ≤ s.arg1.toNat → FailsWith i s .badOperand s.arg1.toNat)

/-- `HDEC` on a header of each of the four shapes and its body: every header register, the body's address and length, and
the shape (R173, R174, 10_state.md R34). The address of an empty body at the very end of a MEM of `2^32` bytes is left
open (log 6). -/
def Obligations.HeaderDecoded : Prop :=
  ∀ (s : State) (tagged frag : Bool) (msgId attr : Half) (ver : Byte) (ident : List Byte) (seq ftot fidx : Half)
      (body : List Byte),
    InMem s.src s.srcLen →
    s.source = headerBytes tagged frag msgId attr ver ident seq ftot fidx ++ body →
    attr.getLsbD 14 = tagged → attr.getLsbD 13 = frag → ident.length = (if tagged then 10 else 6) →
    body.length = (attr.extractLsb' 0 10).toNat →
    (Config.params.checkIdentBcd = true → ∀ b ∈ ident, badBcdByte b = false) →
    ∃ t, exec .hdec s = .next t ∧ SameMemory s t ∧
      t.hdr = headerRegs tagged frag msgId attr ver ident seq ftot fidx ∧
      (s.src + s.srcLen - body.length < 2 ^ 32 → t.res0.toNat = s.src + s.srcLen - body.length) ∧
      t.res1.toNat = body.length ∧ t.res2 = (if tagged then 1 else 0) ∧
      { t with hdr := s.hdr, res0 := s.res0, res1 := s.res1, res2 := s.res2 } = s.begin

/-- `HDEC` refuses a source outside MEM, a packet shorter than its header, and a body whose length is not the size field's
value; with the identity check on, the first identity byte that is not BCD is reported before the size (R173, R174,
R305). -/
def Obligations.HeaderRefused : Prop :=
  ∀ (s : State),
    let p := s.source
    let attr := be16At p 2
    let tagged := attr.getLsbD 14
    let hl := (if tagged then 17 else 12) + (if attr.getLsbD 13 then 4 else 0)
    let ident := (p.drop (if tagged then 5 else 4)).take (if tagged then 10 else 6)
    (¬InMem s.src s.srcLen → FailsWith .hdec s .badOperand s.src) ∧
    (InMem s.src s.srcLen → s.srcLen < 4 → FailsWith .hdec s .hdrLen s.srcLen) ∧
    (InMem s.src s.srcLen → 4 ≤ s.srcLen → s.srcLen < hl → FailsWith .hdec s .hdrLen s.srcLen) ∧
    (InMem s.src s.srcLen → 4 ≤ s.srcLen → hl ≤ s.srcLen → (∀ b ∈ ident, badBcdByte b = false) →
      s.srcLen - hl ≠ (attr.extractLsb' 0 10).toNat → FailsWith .hdec s .sizeMismatch (s.srcLen - hl)) ∧
    (InMem s.src s.srcLen → 4 ≤ s.srcLen → hl ≤ s.srcLen → ∀ j, (∃ b, ident[j]? = some b ∧ badBcdByte b = true) →
      (∀ k < j, ∀ b, ident[k]? = some b → badBcdByte b = false) →
      if Config.params.checkIdentBcd then FailsWith .hdec s .bcd ((if tagged then 5 else 4) + j)
      else s.srcLen - hl ≠ (attr.extractLsb' 0 10).toNat → FailsWith .hdec s .sizeMismatch (s.srcLen - hl))

/-- `HENC.v[.F]` writes the header of a body of `ARG1` bytes from the header registers, sets `H_ATTR`, `H_HLEN`, `RES0`
and `RES1` from it, and changes nothing else (R175, R176). -/
def Obligations.HeaderEncoded : Prop :=
  ∀ (s : State) (v : Version) (f : Bool),
    let tagged := decide (v = .v2019)
    let n := (if tagged then 17 else 12) + (if f then 4 else 0)
    let attr : Half := BitVec.ofNat 16 (s.srcLen + 1024 * (s.hdr.attr.toNat / 1024 % 8) +
      (if f then 8192 else 0) + (if tagged then 16384 else 0))
    let ident := if tagged then be16 s.hdr.idh ++ be32 s.hdr.idm ++ be32 s.hdr.idl
      else be16 (s.hdr.idm.setWidth 16) ++ be32 s.hdr.idl
    let out := headerBytes tagged f s.hdr.msgId attr s.hdr.ver ident s.hdr.seq s.hdr.ftot s.hdr.fidx
    InMem s.dst s.dstCap → s.srcLen ≤ 1023 → (v = .v2011 → s.hdr.idh = 0 ∧ s.hdr.idm.toNat < 65536) → n ≤ s.dstCap →
    out.length = n ∧ ∃ t, exec (.henc v f) s = .next t ∧ Stored s t s.dst out ∧
      { t with mem := s.mem } =
        { s.begin with
          hdr := { s.hdr with attr := attr, hlen := BitVec.ofNat 5 n }, res0 := BitVec.ofNat 32 n,
          res1 := attr.setWidth 32 }

/-- What `HENC` and `PENC` refuse after their regions: a body over 1023 bytes (`HENC`), an identity that a V2011 header
cannot carry, more than 65535 fragments (`PENC`), and a destination too small (R175, R176, R179). -/
def Obligations.EncodeRefusals : Prop :=
  ∀ (s : State) (v : Version) (f : Bool),
    let fits := v = .v2011 → s.hdr.idh = 0 ∧ s.hdr.idm.toNat < 65536
    let n := (if v = .v2019 then 17 else 12) + (if f then 4 else 0)
    (¬InMem s.dst s.dstCap → FailsWith (.henc v f) s .badOperand s.dst) ∧
    (InMem s.dst s.dstCap → 1023 < s.srcLen → FailsWith (.henc v f) s .badOperand s.srcLen) ∧
    (InMem s.dst s.dstCap → s.srcLen ≤ 1023 → ¬fits → FailsWith (.henc v f) s .badOperand 0) ∧
    (InMem s.dst s.dstCap → s.srcLen ≤ 1023 → fits → s.dstCap < n → FailsWith (.henc v f) s .noSpace n) ∧
    (BuffersIn s s.dstCap → ¬fits → FailsWith (.penc v) s .badOperand 0) ∧
    (BuffersIn s s.dstCap → fits → 1023 * 65535 < s.srcLen → FailsWith (.penc v) s .badOperand s.srcLen) ∧
    (BuffersIn s s.dstCap → fits → s.srcLen ≤ 1023 * 65535 →
      s.dstCap < (packetFrames s.hdr v s.source).length →
      FailsWith (.penc v) s .noSpace (packetFrames s.hdr v s.source).length)

/-- `FDEC` on the escape of a header, its body and the checksum of the two: the unescaped packet at the destination, the
header registers as `HDEC` gives them, the body's place in the destination (R177). The address of an empty body whose
checksum is the last byte of MEM still has 32 bits. -/
def Obligations.FrameDecoded : Prop :=
  ∀ (s : State) (tagged frag : Bool) (msgId attr : Half) (ver : Byte) (ident : List Byte) (seq ftot fidx : Half)
      (body : List Byte),
    let hdr := headerBytes tagged frag msgId attr ver ident seq ftot fidx
    let u := hdr ++ body ++ [xorAll (hdr ++ body)]
    BuffersIn s s.dstCap → s.source = escape u →
    attr.getLsbD 14 = tagged → attr.getLsbD 13 = frag → ident.length = (if tagged then 10 else 6) →
    body.length = (attr.extractLsb' 0 10).toNat →
    (Config.params.checkIdentBcd = true → ∀ b ∈ ident, badBcdByte b = false) → u.length ≤ s.dstCap →
    ∃ t, exec .fdec s = .next t ∧ Stored s t s.dst u ∧
      { t with mem := s.mem } =
        { s.begin with
          hdr := headerRegs tagged frag msgId attr ver ident seq ftot fidx,
          res0 := BitVec.ofNat 32 (s.dst + hdr.length), res1 := BitVec.ofNat 32 body.length,
          res2 := if tagged then 1 else 0, res3 := BitVec.ofNat 32 u.length }

/-- The order in which `FDEC` reports what is wrong with a frame: a bad escape, an empty packet, a wrong checksum, a
header too short, with the identity check on a byte of the identity that is not BCD, a body whose length is not the size
field's value, a destination too small; the checksum comes before any header parsing (R177, R305). -/
def Obligations.FrameRefused : Prop :=
  ∀ s : State, BuffersIn s s.dstCap →
    (∀ i, unescape s.source = .error i → FailsWith .fdec s .framing i) ∧
    (s.srcLen = 0 → FailsWith .fdec s .hdrLen 0) ∧
    (∀ (p : List Byte) (c : Byte), s.source = escape (p ++ [c]) →
      let attr := be16At p 2
      let tagged := attr.getLsbD 14
      let hl := (if tagged then 17 else 12) + (if attr.getLsbD 13 then 4 else 0)
      let size := (attr.extractLsb' 0 10).toNat
      let identAt := if tagged then 5 else 4
      let ident := (p.drop identAt).take (if tagged then 10 else 6)
      (xorAll p ≠ c → FailsWith .fdec s .checksum (256 * (xorAll p).toNat + c.toNat)) ∧
      (xorAll p = c → p.length < 4 → FailsWith .fdec s .hdrLen p.length) ∧
      (xorAll p = c → 4 ≤ p.length → p.length < hl → FailsWith .fdec s .hdrLen p.length) ∧
      (xorAll p = c → 4 ≤ p.length → hl ≤ p.length → Config.params.checkIdentBcd = true →
        ∀ j, (∃ b, ident[j]? = some b ∧ badBcdByte b = true) →
          (∀ k < j, ∀ b, ident[k]? = some b → badBcdByte b = false) → FailsWith .fdec s .bcd (identAt + j)) ∧
      (xorAll p = c → 4 ≤ p.length → hl ≤ p.length →
        (Config.params.checkIdentBcd = true → ∀ b ∈ ident, badBcdByte b = false) →
        (p.length - hl ≠ size → FailsWith .fdec s .sizeMismatch (p.length - hl)) ∧
        (p.length - hl = size → s.dstCap < p.length + 1 → FailsWith .fdec s .noSpace (p.length + 1))))

/-- `PENC.v` writes the frames of its body, back to back: one for at most 1023 bytes, else `ceil(L / 1023)` fragments
numbered from 1, each the escape of a header, a chunk and their checksum between delimiters (R178, R179). -/
def Obligations.PacketEncoded : Prop :=
  ∀ (s : State) (v : Version),
    let tagged := decide (v = .v2019)
    let body := s.source
    let frag := decide (1023 < body.length)
    let n := if frag then (body.length + 1022) / 1023 else 1
    let ident := if tagged then be16 s.hdr.idh ++ be32 s.hdr.idm ++ be32 s.hdr.idl
      else be16 (s.hdr.idm.setWidth 16) ++ be32 s.hdr.idl
    let frame := fun k =>
      let chunk := (body.drop (1023 * k)).take 1023
      let attr : Half := BitVec.ofNat 16 (chunk.length + 1024 * (s.hdr.attr.toNat / 1024 % 8) +
        (if frag then 8192 else 0) + (if tagged then 16384 else 0))
      let p := headerBytes tagged frag s.hdr.msgId attr s.hdr.ver ident s.hdr.seq
        (BitVec.ofNat 16 n) (BitVec.ofNat 16 (k + 1)) ++ chunk
      0x7E :: (escape (p ++ [xorAll p]) ++ [0x7E])
    let out := (List.range n).flatMap frame
    BuffersIn s s.dstCap → (v = .v2011 → s.hdr.idh = 0 ∧ s.hdr.idm.toNat < 65536) → n ≤ 65535 →
    out.length ≤ s.dstCap →
    ∃ t, exec (.penc v) s = .next t ∧ Stored s t s.dst out ∧
      { t with mem := s.mem } =
        { s.begin with res0 := BitVec.ofNat 32 out.length, res1 := BitVec.ofNat 32 n }

/-- The fragment split of a body: one chunk up to 1023 bytes, else `ceil(L / 1023)`; chunk `k` is the bytes from
`(k-1) * 1023` on, 1023 of them but for the last, which has 1 to 1023; the chunks concatenate back to the body (R178). -/
def Obligations.ChunksCoverBody : Prop :=
  ∀ body : List Byte,
    let n := chunkCount body.length
    n = (if body.length ≤ 1023 then 1 else (body.length + 1022) / 1023) ∧
      (∀ k < n, chunkOf body (k + 1) = (body.drop (1023 * k)).take 1023) ∧
      (List.range n).flatMap (fun k => chunkOf body (k + 1)) = body ∧
      (∀ k, k + 1 < n → (chunkOf body (k + 1)).length = 1023) ∧
      (chunkOf body n).length = body.length - (n - 1) * 1023 ∧ (chunkOf body n).length ≤ 1023 ∧
      (1023 < body.length → 1 ≤ (chunkOf body n).length)

/-- The round trip of a packet: the single frame `PENC.v` writes for a body of at most 1023 bytes, its two delimiters
stripped, is decoded by `FDEC` to the message, the identity, the sequence number and the encryption field as they were,
the version byte in V2019, and the body (R180). With the identity check on, the identity must be BCD. -/
def Obligations.PacketRoundTrip : Prop :=
  ∀ (s t u : State) (v : Version) (d c : Word),
    exec (.penc v) s = .next t → t.err = .ok → s.srcLen ≤ 1023 →
    (Config.params.checkIdentBcd = true →
      ∀ b ∈ be16 s.hdr.idh ++ be32 s.hdr.idm ++ be32 s.hdr.idl, badBcdByte b = false) →
    u = { t with arg0 := s.arg2 + 1, arg1 := t.res0 - 2, arg2 := d, arg3 := c } →
    BuffersIn u u.dstCap → s.srcLen + 22 ≤ c.toNat →
    ∃ w, exec .fdec u = .next w ∧ w.err = .ok ∧ t.res1 = 1 ∧
      w.hdr.msgId = s.hdr.msgId ∧ w.hdr.idh = s.hdr.idh ∧ w.hdr.idm = s.hdr.idm ∧ w.hdr.idl = s.hdr.idl ∧
      w.hdr.seq = s.hdr.seq ∧ w.hdr.ver = (if v = .v2019 then s.hdr.ver else 0) ∧
      w.hdr.attr.extractLsb' 10 3 = s.hdr.attr.extractLsb' 10 3 ∧ w.hdr.attr.getLsbD 13 = false ∧
      w.res1 = s.arg1 ∧ w.res2 = (if v = .v2019 then 1 else 0) ∧
      w.bytesAt w.res0.toNat w.res1.toNat = s.source

/-! ## Flag words (44_flags.md) -/

/-- `BSET i`, `BCLR i`, `BTST i` and `BPUT i`, bit by bit; `BPUT` refuses a value that is neither 0 nor 1; and
their words (R201 to R204). -/
def Obligations.BitCommands : Prop :=
  ∀ (s : State) (i : Nat), i < 32 →
    (encode (.bset i) = BitVec.ofNat 32 (65536 * i + 0x30) ∧ encode (.bclr i) = BitVec.ofNat 32 (65536 * i + 0x31) ∧
      encode (.btst i) = BitVec.ofNat 32 (65536 * i + 0x32) ∧
      encode (.bput i) = BitVec.ofNat 32 (65536 * i + 0x33)) ∧
    (∃ t, exec (.bset i) s = .next t ∧ SameMemory s t ∧ { t with res0 := s.res0 } = s.begin ∧
      ∀ j < 32, t.res0.getLsbD j = (decide (j = i) || s.arg0.getLsbD j)) ∧
    (∃ t, exec (.bclr i) s = .next t ∧ SameMemory s t ∧ { t with res0 := s.res0 } = s.begin ∧
      ∀ j < 32, t.res0.getLsbD j = (decide (j ≠ i) && s.arg0.getLsbD j)) ∧
    (∃ t, exec (.btst i) s = .next t ∧ SameMemory s t ∧ { t with res0 := s.res0 } = s.begin ∧
      t.res0.toNat = (s.arg0.getLsbD i).toNat) ∧
    (∀ b : Bool, s.arg1.toNat = b.toNat → ∃ t, exec (.bput i) s = .next t ∧ SameMemory s t ∧
      { t with res0 := s.res0 } = s.begin ∧
      ∀ j < 32, t.res0.getLsbD j = if j = i then b else s.arg0.getLsbD j) ∧
    (1 < s.arg1.toNat → FailsWith (.bput i) s .badOperand s.arg1.toNat)

/-- `FEXT` reads a field as a number and `FINS` writes one and keeps every bit outside it; both refuse a field that runs
past bit 31, `FINS` then a value wider than the field (R205, R206). -/
def Obligations.FieldCommands : Prop :=
  ∀ (s : State) (lsb width : Nat), lsb < 32 → 1 ≤ width → width ≤ 32 →
    (encode (.fext lsb width) = BitVec.ofNat 32 (65536 * (32 * (width - 1) + lsb) + 0x34) ∧
      encode (.fins lsb width) = BitVec.ofNat 32 (65536 * (32 * (width - 1) + lsb) + 0x35)) ∧
    (lsb + width ≤ 32 → ∃ t, exec (.fext lsb width) s = .next t ∧ SameMemory s t ∧
      { t with res0 := s.res0 } = s.begin ∧ t.res0.toNat = s.arg0.toNat / 2 ^ lsb % 2 ^ width) ∧
    (32 < lsb + width → FailsWith (.fext lsb width) s .badOperand (lsb + width) ∧
      FailsWith (.fins lsb width) s .badOperand (lsb + width)) ∧
    (lsb + width ≤ 32 → s.arg1.toNat < 2 ^ width → ∃ t, exec (.fins lsb width) s = .next t ∧ SameMemory s t ∧
      { t with res0 := s.res0 } = s.begin ∧ t.res0.toNat / 2 ^ lsb % 2 ^ width = s.arg1.toNat ∧
      ∀ k, k < lsb ∨ lsb + width ≤ k → t.res0.getLsbD k = s.arg0.getLsbD k) ∧
    (lsb + width ≤ 32 → 2 ^ width ≤ s.arg1.toNat → FailsWith (.fins lsb width) s .badOperand s.arg1.toNat)

/-! ## Timestamps and the position report (45_position.md) -/

/-- BCD timestamps decode and encode inversely, and a bad nibble is reported at the first byte that has one (R220,
R221). -/
def Obligations.BcdInverse : Prop :=
  (∀ date time : BitVec 24, stampFieldsOk date → stampFieldsOk time →
    bcdDecode6 (bcdEncode6 (date.setWidth 32) (time.setWidth 32)) = .ok { date := date, time := time }) ∧
  (∀ (t : List Byte) (v : Stamp), t.length = 6 → bcdDecode6 t = .ok v →
    bcdEncode6 (v.date.setWidth 32) (v.time.setWidth 32) = t ∧ stampFieldsOk v.date ∧ stampFieldsOk v.time) ∧
  (∀ (t : List Byte) (j : Nat), t.length = 6 → (bcdDecode6 t = .error j ↔
    (∃ b, t[j]? = some b ∧ (10 ≤ b.toNat / 16 ∨ 10 ≤ b.toNat % 16)) ∧
      ∀ k < j, ∀ b, t[k]? = some b → b.toNat / 16 ≤ 9 ∧ b.toNat % 16 ≤ 9))

/-- `BCDDEC` reads six bytes of two decimal digits each, tens in the high nibble, and `BCDENC` writes them; their
refusals (R222, R223). -/
def Obligations.BcdCommands : Prop :=
  encode .bcddec = 0x00000041 ∧ encode .bcdenc = 0x00000042 ∧ ∀ s : State,
    (¬InMem s.src 6 → FailsWith .bcddec s .badOperand s.src) ∧
    (InMem s.src 6 → ∀ hi lo : Nat → Nat, (∀ k < 6, hi k ≤ 9 ∧ lo k ≤ 9) →
      (∀ k < 6, (s.byteAt (s.src + k)).toNat = 16 * hi k + lo k) →
      let v := fun k => 10 * hi k + lo k
      ∃ t, exec .bcddec s = .next t ∧ SameMemory s t ∧ { t with res0 := s.res0, res1 := s.res1 } = s.begin ∧
        t.res0.toNat = 65536 * v 0 + 256 * v 1 + v 2 ∧ t.res1.toNat = 65536 * v 3 + 256 * v 4 + v 5) ∧
    (InMem s.src 6 → ∀ j < 6, badBcdByte (s.byteAt (s.src + j)) = true →
      (∀ k < j, badBcdByte (s.byteAt (s.src + k)) = false) → FailsWith .bcddec s .bcd j) ∧
    (¬InMem s.dst 6 → FailsWith .bcdenc s .badOperand s.dst) ∧
    (InMem s.dst 6 → ∀ a b c d e f : Nat, a ≤ 99 → b ≤ 99 → c ≤ 99 → d ≤ 99 → e ≤ 99 → f ≤ 99 →
      s.arg0.toNat = 65536 * a + 256 * b + c → s.arg1.toNat = 65536 * d + 256 * e + f →
      ∃ t, exec .bcdenc s = .next t ∧
        Stored s t s.dst ([a, b, c, d, e, f].map (fun x => BitVec.ofNat 8 (16 * (x / 10) + x % 10))) ∧
        { t with mem := s.mem } = s.begin) ∧
    (InMem s.dst 6 → bcdFieldsOk s.arg0 = false → FailsWith .bcdenc s .badOperand s.arg0.toNat) ∧
    (InMem s.dst 6 → bcdFieldsOk s.arg0 = true → bcdFieldsOk s.arg1 = false →
      FailsWith .bcdenc s .badOperand s.arg1.toNat)

/-- `POSDEC` on a 28-byte core and a list of auxiliary items: every position register, one descriptor record per item in
order, the counts (R224, R97, R240). A body that ends at the very end of a MEM of `2^32` bytes is left out: the address of
an empty last value would need 33 bits (log 6). -/
def Obligations.PositionDecoded : Prop :=
  ∀ (s : State) (alarm status lat lon : Word) (alt speed bear : Half) (date time : BitVec 24)
      (items : List (List Byte × List Byte)),
    BuffersIn s (16 * s.dstCap) → s.src + s.srcLen < 2 ^ 32 → ItemsOk 1 items → items.length ≤ s.dstCap →
    stampFieldsOk date → stampFieldsOk time →
    s.source = be32 alarm ++ be32 status ++ be32 lat ++ be32 lon ++ be16 alt ++ be16 speed ++ be16 bear ++
      bcdEncode6 (date.setWidth 32) (time.setWidth 32) ++ itemList items →
    ∃ t, exec .posdec s = .next t ∧ Stored s t s.dst (itemRecords auxTable (s.src + 28) items) ∧
      { t with mem := s.mem } =
        { s.begin with
          pos := { alarm := alarm, status := status, lat := lat, lon := lon, alt := alt, speed := speed, bear := bear,
                   date := date, time := time, auxN := BitVec.ofNat 32 items.length },
          res0 := BitVec.ofNat 32 items.length, res1 := BitVec.ofNat 32 (s.srcLen - 28) }

/-- The source's concrete scenario: a 28-byte body gives no auxiliary item, and the same body with a 4-byte mileage item
appended gives the same core and one record with that value (R225). -/
def Obligations.MileageScenario : Prop :=
  ∀ (s : State) (core : List Byte) (v : Stamp) (mileage : Word),
    core.length = 28 → bcdDecode6 (core.drop 22) = .ok v → BuffersIn s (16 * s.dstCap) → s.src + s.srcLen < 2 ^ 32 →
    let regs : PosRegs :=
      { alarm := be32At core 0, status := be32At core 4, lat := be32At core 8, lon := be32At core 12,
        alt := be16At core 16, speed := be16At core 18, bear := be16At core 20, date := v.date, time := v.time,
        auxN := 0 }
    (s.source = core → ∃ t, exec .posdec s = .next t ∧ t.err = .ok ∧ t.res0 = 0 ∧ t.pos = regs ∧ SameMemory s t) ∧
    (s.source = core ++ [0x01, 0x04] ++ be32 mileage → 1 ≤ s.dstCap →
      ∃ t, exec .posdec s = .next t ∧ t.err = .ok ∧ t.res0 = 1 ∧ t.pos = { regs with auxN := 1 } ∧
        Stored s t s.dst ([0, 0, 0, 1, 4, 3, 1, 0] ++ be32 (BitVec.ofNat 32 (s.src + 30)) ++ be32 mileage))

/-! ## Tagged lists (46_tlv.md) -/

/-- `AUXDEC` and `PARDEC` on a list of items: one 16-byte record per item, in wire order, whatever the tables give for
any of them, so that an unknown tag is preserved (R240 to R244). As for `POSDEC`, a list that ends at `2^32` is left out
(log 6). -/
def Obligations.ListsDecoded : Prop :=
  ∀ (s : State) (items : List (List Byte × List Byte)),
    BuffersIn s (16 * s.dstCap) → s.src + s.srcLen < 2 ^ 32 → items.length ≤ s.dstCap → s.source = itemList items →
    (ItemsOk 1 items → ∃ t, exec .auxdec s = .next t ∧ Stored s t s.dst (itemRecords auxTable s.src items) ∧
      { t with mem := s.mem } = { s.begin with res0 := BitVec.ofNat 32 items.length, res1 := s.arg1 }) ∧
    (ItemsOk 4 items → ∃ t, exec .pardec s = .next t ∧ Stored s t s.dst (itemRecords parTable s.src items) ∧
      { t with mem := s.mem } = { s.begin with res0 := BitVec.ofNat 32 items.length, res1 := s.arg1 })

/-- What the three list decoders refuse in a list: a tail too short for an identifier and a length, or for the value its
length byte announces, at the offset where that item starts; a core that is short or whose timestamp is not BCD; and more
items than the capacity counts records (R224, R240, R242, R243). -/
def Obligations.ListsRefused : Prop :=
  ∀ (s : State) (items : List (List Byte × List Byte)) (tail core : List Byte), BuffersIn s (16 * s.dstCap) →
    let cut := fun w : Nat => tail ≠ [] ∧ (tail.length < w + 1 ∨ tail.length < w + 1 + (byteOf tail w).toNat)
    (s.source = itemList items ++ tail → ItemsOk 1 items → cut 1 →
      FailsWith .auxdec s .bodyShort (itemList items).length) ∧
    (s.source = itemList items ++ tail → ItemsOk 4 items → cut 4 →
      FailsWith .pardec s .bodyShort (itemList items).length) ∧
    (s.source = itemList items → ItemsOk 1 items → s.dstCap < items.length →
      FailsWith .auxdec s .noSpace items.length) ∧
    (s.source = itemList items → ItemsOk 4 items → s.dstCap < items.length →
      FailsWith .pardec s .noSpace items.length) ∧
    (s.srcLen < 28 → FailsWith .posdec s .bodyShort s.srcLen) ∧
    (28 ≤ s.srcLen → ∀ j, bcdDecode6 ((s.source.drop 22).take 6) = .error j →
      FailsWith .posdec s .bcd (22 + j)) ∧
    (∀ v, core.length = 28 → bcdDecode6 (core.drop 22) = .ok v → s.source = core ++ itemList items ++ tail →
      ItemsOk 1 items →
      (cut 1 → FailsWith .posdec s .bodyShort (28 + (itemList items).length)) ∧
      (tail = [] → s.dstCap < items.length → FailsWith .posdec s .noSpace items.length))

/-! ## Geofences (47_geofence.md) -/

/-- `GEODEC.shape.v` on an item of any shape, followed by anything: every geofence register, the route point records of
a Polyline, the item's length and its point count (R261 to R264, R266, R268). An item whose bytes reach `2^32` is left
out: the address of an empty block or name there would need 33 bits (log 6). -/
def Obligations.GeofenceDecoded : Prop :=
  ∀ (s : State) (shape : Shape) (v : Version) (g : GeoRegs) (points name rest : List Byte) (ps : List RoutePoint),
    let P := Config.params
    let item := geoWire P shape v g points name
    (shape ≠ .polyline → InMem s.src s.srcLen) → (shape = .polyline → BuffersIn s (32 * s.dstCap)) →
    s.src + s.srcLen < 2 ^ 32 →
    TimesOk g → BlockOk P shape v g points ps → (v = .v2019 → name.length = g.nameLen.toNat) →
    ps.length ≤ s.dstCap → s.source = item ++ rest →
    ∃ t, exec (.geodec shape v) s = .next t ∧
      Stored s t s.dst (ps.flatMap (routeRecord (nightPresent P v))) ∧
      { t with mem := s.mem } =
        { s.begin with
          geo := geoKept P shape v g s.src item.length points.length,
          res0 := BitVec.ofNat 32 item.length,
          res1 := if hasPoints shape then g.nPts.setWidth 32 else 0 }

/-- What `GEODEC.shape.v` refuses, for every shape and version: a source outside MEM; and, in a source that is an item cut
short anywhere or an item followed by anything, a digit of the start or the end time that is not BCD, at its offset in the
item; else, where the item is cut, the offset of the first field that does not fit, be it a fixed field, a vertex or a point
of the block, a field of a gated group, or the name; else more point records than the destination has room for. A time is
read before what follows it (R261 to R263, R266). -/
def Obligations.GeofenceDecodeRefused : Prop :=
  ∀ (s : State) (shape : Shape) (v : Version) (g : GeoRegs) (first second points name tail rest : List Byte)
      (ps : List RoutePoint),
    let P := Config.params
    let n := s.srcLen
    let timed := g.attr.getLsbD 0
    let item := geoLayout P shape v g (if timed then first ++ second else []) points name
    let at1 := timeOffset P shape points
    let good := fun t : List Byte => ∃ stamp, bcdDecode6 t = .ok stamp
    (¬InMem s.src n → FailsWith (.geodec shape v) s .badOperand s.src) ∧
    ((shape ≠ .polyline → InMem s.src n) → (shape = .polyline → BuffersIn s (32 * s.dstCap)) →
      first.length = 6 → second.length = 6 → BlockOk P shape v g points ps →
      (v = .v2019 → name.length = g.nameLen.toNat) → s.source ++ tail = item ++ rest →
      (timed = true → at1 + 6 ≤ n → ∀ j, bcdDecode6 first = .error j →
        FailsWith (.geodec shape v) s .bcd (at1 + j)) ∧
      (timed = true → at1 + 12 ≤ n → good first → ∀ j, bcdDecode6 second = .error j →
        FailsWith (.geodec shape v) s .bcd (at1 + 6 + j)) ∧
      ((timed = true → at1 + 6 ≤ n → good first) → (timed = true → at1 + 12 ≤ n → good second) →
        (n < item.length → FailsWith (.geodec shape v) s .bodyShort (cutField (geoWidths P shape v g ps) n)) ∧
        (item.length ≤ n → s.dstCap < ps.length → FailsWith (.geodec shape v) s .noSpace ps.length)))

/-- `GEOENC.shape.v` from valid registers writes the item on the wire and its length, with every gated field whose bit is
set, in the order `P_GEO_ORDER` gives (R265, R267). -/
def Obligations.GeofenceEncoded : Prop :=
  ∀ (s : State) (shape : Shape) (v : Version) (ps : List RoutePoint),
    let P := Config.params
    let g := s.geo
    let points := if hasPoints shape then s.bytesAt g.ptsAddr.toNat g.ptsLen.toNat else []
    let name := s.bytesAt g.nameAddr.toNat g.nameLen.toNat
    let out := geoWire P shape v g points name
    InMem s.dst s.dstCap → TimesOk g → BlockOk P shape v g points ps →
    (hasPoints shape = true →
      InMem g.ptsAddr.toNat g.ptsLen.toNat ∧ Apart s.dst s.dstCap g.ptsAddr.toNat g.ptsLen.toNat) →
    (v = .v2019 → InMem g.nameAddr.toNat g.nameLen.toNat ∧ Apart s.dst s.dstCap g.nameAddr.toNat g.nameLen.toNat) →
    (out.length ≤ s.dstCap → ∃ t, exec (.geoenc shape v) s = .next t ∧ Stored s t s.dst out ∧
      { t with mem := s.mem } = { s.begin with res0 := BitVec.ofNat 32 out.length }) ∧
    (s.dstCap < out.length → FailsWith (.geoenc shape v) s .noSpace out.length)

/-- What `GEOENC.shape.v` refuses, for every shape and version: a destination outside MEM; a time register with a field
above 99, a Polygon whose block is not 8 bytes a vertex, a block or a name outside MEM, a Polyline whose block is not
exactly its route points, each with the register's offset; and a destination that overlaps the block or the name. Every
region is checked before the Polyline's block is read (R265, R267, 20_memory.md R67). Which of several faulty registers
is named first is otherwise the model's reading, the rule's own order (log 13). -/
def Obligations.GeofenceRefused : Prop :=
  ∀ (s : State) (shape : Shape) (v : Version),
    let g := s.geo
    let blockAt := g.ptsAddr.toNat
    let blockLen := g.ptsLen.toNat
    let nameAt := g.nameAddr.toNat
    let nameLen := g.nameLen.toNat
    let sized := shape = .polygon → blockLen = 8 * g.nPts.toNat
    let blockIn := hasPoints shape = true → InMem blockAt blockLen
    let nameIn := v = .v2019 → InMem nameAt nameLen
    let parses := shape = .polyline → ∃ ps : List RoutePoint,
      s.bytesAt blockAt blockLen = ps.flatMap (routeWire (nightPresent Config.params v)) ∧ ps.length = g.nPts.toNat
    (¬InMem s.dst s.dstCap → FailsWith (.geoenc shape v) s .badOperand s.dst) ∧
    (InMem s.dst s.dstCap → g.attr.getLsbD 0 = true →
      (¬stampFieldsOk g.sdate → FailsWith (.geoenc shape v) s .badOperand 0x0DC) ∧
      (stampFieldsOk g.sdate → ¬stampFieldsOk g.stime → FailsWith (.geoenc shape v) s .badOperand 0x0E0) ∧
      (stampFieldsOk g.sdate → stampFieldsOk g.stime → ¬stampFieldsOk g.edate →
        FailsWith (.geoenc shape v) s .badOperand 0x0E4) ∧
      (stampFieldsOk g.sdate → stampFieldsOk g.stime → stampFieldsOk g.edate → ¬stampFieldsOk g.etime →
        FailsWith (.geoenc shape v) s .badOperand 0x0E8)) ∧
    (InMem s.dst s.dstCap → TimesOk g →
      (¬sized → FailsWith (.geoenc shape v) s .badOperand 0x100) ∧
      (sized → ¬blockIn → FailsWith (.geoenc shape v) s .badOperand 0x0FC) ∧
      (sized → blockIn → ¬nameIn → FailsWith (.geoenc shape v) s .badOperand 0x104) ∧
      (sized → blockIn → nameIn → ¬parses → FailsWith (.geoenc shape v) s .badOperand 0x100) ∧
      (sized → blockIn → nameIn → parses →
        (hasPoints shape = true → ¬Apart s.dst s.dstCap blockAt blockLen →
          FailsWith (.geoenc shape v) s .badOperand s.dst) ∧
        (v = .v2019 → ¬Apart s.dst s.dstCap nameAt nameLen → FailsWith (.geoenc shape v) s .badOperand s.dst)))

/-- The round trip of an item: what `GEODEC` decoded, `GEOENC` writes back byte for byte, into any destination apart from
the item (R268). As for `GEODEC`, an item whose bytes reach `2^32` is left out (log 6). -/
def Obligations.GeofenceRoundTrip : Prop :=
  ∀ (s t u : State) (shape : Shape) (v : Version) (d c : Word),
    exec (.geodec shape v) s = .next t → t.err = .ok → s.src + s.srcLen < 2 ^ 32 →
    u = { t with arg2 := d, arg3 := c } →
    InMem u.dst u.dstCap → Apart s.src s.srcLen u.dst u.dstCap → t.res0.toNat ≤ u.dstCap →
    ∃ w, exec (.geoenc shape v) u = .next w ∧ w.err = .ok ∧ w.res0 = t.res0 ∧
      Stored u w u.dst (s.bytesAt s.src t.res0.toNat) ∧ { w with mem := u.mem } = { u.begin with res0 := t.res0 }

/-- The other round trip of an item: what `GEOENC` wrote from valid registers, `GEODEC` reads back, every register of a
field that was written, the others 0, the block and the name located inside the item (R268). As for `GEODEC`, an item
whose bytes reach `2^32` is left out (log 6). -/
def Obligations.GeofenceReadsBack : Prop :=
  ∀ (s t u : State) (shape : Shape) (v : Version) (d c : Word),
    exec (.geoenc shape v) s = .next t → t.err = .ok → s.dst + t.res0.toNat < 2 ^ 32 →
    u = { t with arg0 := s.arg2, arg1 := t.res0, arg2 := d, arg3 := c } →
    (shape = .polyline → BuffersIn u (32 * u.dstCap) ∧ s.geo.nPts.toNat ≤ u.dstCap) →
    ∃ w, exec (.geodec shape v) u = .next w ∧ w.err = .ok ∧ w.res0 = t.res0 ∧
      w.geo = geoKept Config.params shape v s.geo s.dst t.res0.toNat s.geo.ptsLen.toNat

/-- The sizes of Circle items: 18 bytes, 12 more with the time gate set, 3 more with the speed gate set, 2 more for a night
word, and the name with its length in V2019 (R269). -/
def Obligations.CircleSizes : Prop :=
  ∀ (s t : State) (v : Version), exec (.geoenc .circle v) s = .next t → t.err = .ok →
    t.res0.toNat = 18 + (if s.geo.attr.getLsbD 0 then 12 else 0) + (if s.geo.attr.getLsbD 1 then 3 else 0) +
      (if s.geo.attr.getLsbD 1 ∧ v = .v2019 ∧ Config.params.nightSpeed = .present then 2 else 0) +
      (if v = .v2019 then 2 + s.geo.nameLen.toNat else 0)

/-! ## Every command (60_exceptions.md, 10_state.md) -/

/-- Errors are precise: the state after an error is the state before the command plus `ERR` and `ERRINFO`, and, for the
overflow of `FEED` and `FEEDM` alone, what the framer did before it (60_exceptions.md R306). -/
def Obligations.ErrorsArePrecise : Prop :=
  ∀ (i : Instr) (s t : State), exec i s = .next t → t.err ≠ .ok →
    ((takesLineBytes i = true ∧ t.err = .framing) ∨
      ({ t with err := s.err, errInfo := s.errInfo } = s ∧ SameMemory s t)) ∧
    { t with err := s.err, errInfo := s.errInfo, frs := s.frs, frv := s.frv, frLen := s.frLen, frFlen := s.frFlen,
             dropCnt := s.dropCnt, mem := s.mem } = s

/-- Every command ends in a next state, from every state, with no error or with one of the codes its row of the table
lists (60_exceptions.md R301, R304, R307). -/
def Obligations.CodesPerCommand : Prop :=
  ∀ (i : Instr) (s : State), ∃ t, exec i s = .next t ∧ ((t.err = .ok ∧ t.errInfo = 0) ∨ t.err ∈ raisable i)

/-- Which registers a command can change at all: never `CMD`, an `ARG`, `IE` or the window registers; the framer's
registers only in a framer command; the header registers only in header decode and encode; the position registers only in
`POSDEC`; the geofence registers only in `GEODEC` (10_state.md R23, R26, R33, R35, R36). -/
def Obligations.RegistersKept : Prop :=
  ∀ (i : Instr) (s t : State), exec i s = .next t →
    t.cmd = s.cmd ∧ t.arg0 = s.arg0 ∧ t.arg1 = s.arg1 ∧ t.arg2 = s.arg2 ∧ t.arg3 = s.arg3 ∧ t.ie = s.ie ∧
    t.frBase = s.frBase ∧ t.frCap = s.frCap ∧ t.memEpoch = s.memEpoch ∧ t.host = s.host ∧ t.reply = s.reply ∧
    (isFramer i = false → t.frv = s.frv ∧ t.frs = s.frs ∧ t.frLen = s.frLen ∧ t.frFlen = s.frFlen) ∧
    (takesLineBytes i = false → t.dropCnt = s.dropCnt) ∧
    (writesHeader i = false → t.hdr = s.hdr) ∧
    (i ≠ .posdec → t.pos = s.pos) ∧
    ((∀ shape v, i ≠ .geodec shape v) → t.geo = s.geo)

/-- No command writes MEM outside the range it names, in a state whose framer is sound (20_memory.md R67,
93_implementation_defined.md U13). -/
def Obligations.StoresStayInRange : Prop :=
  ∀ (i : Instr) (s t : State), s.framerOk → exec i s = .next t →
    ∀ a, (∀ d n, writeRange i s = some (d, n) → a < d ∨ d + n ≤ a) → t.byteAt a = s.byteAt a

/-- Every step keeps the invariant: MEM canonical and inside its size, the framer's registers in agreement, no code that is
never raised, decoded fields in range (10_state.md R31, R35, 30_encoding.md R93, 60_exceptions.md R304). -/
def Obligations.StepKeepsInv : Prop :=
  ∀ s t : State, s.Inv → step s = .next t → t.Inv

/-- The invariant holds after reset (70_reset_and_hazards.md R330). -/
def Obligations.ResetHasInv : Prop :=
  State.reset.Inv

/-! ## The host (10_state.md, 20_memory.md, 60_exceptions.md, 70_reset_and_hazards.md) -/

/-- `STATUS` bit by bit as the host reads it, with the number of every error code and of every framer state, and the
interrupt line (10_state.md R23, 60_exceptions.md R300, R310). -/
def Obligations.StatusWord : Prop :=
  ∀ s : State,
    s.irq = ((s.ie.getLsbD 0 && s.frv) || (s.ie.getLsbD 1 && decide (s.err ≠ .ok))) ∧
    ∃ code state : Nat,
      (s.err, code) ∈ [(ErrCode.ok, 0), (.framing, 1), (.checksum, 2), (.hdrLen, 3), (.unreg, 4), (.bodyShort, 5),
        (.typeMismatch, 6), (.text, 7), (.bcd, 8), (.sizeMismatch, 9), (.badOperand, 10), (.busy, 11), (.noSpace, 12),
        (.illegal, 13)] ∧
      (s.frs, state) ∈ [(FrState.hunt, 0), (.inFrame, 1), (.discard, 2)] ∧
      (s.readReg .status).toNat = code + 256 * s.frv.toNat + 512 * state + 2048 * s.irq.toNat

/-- A register read answers the register and changes nothing: at each offset of the register tables the field of the state
that the table names, zero-extended, and at any other offset 0 (10_state.md R20 to R36, 20_memory.md R65). `host` and
`reply` are the model's own fields (log 1, log 5). -/
def Obligations.RegisterReads : Prop :=
  ∀ (s : State) (rest : List HostAct) (off : RegOffset), s.host = .readReg 4 off :: rest → off.toNat % 4 = 0 →
    ∃ v, step s = .next { s with host := rest, reply := .word v } ∧
      (∀ n, (off.toNat, n) ∈ registerTable s → v.toNat = n) ∧
      ((∀ n, (off.toNat, n) ∉ registerTable s) → v = 0) ∧
      (∀ r ∈ allRegs, r.offset = off.toNat → v = s.readReg r) ∧
      ((∀ r ∈ allRegs, r.offset ≠ off.toNat) → v = 0)

/-- A write of a plain register stores the low bits of the value and changes no other register: only `STATUS.IRQ` can
follow a write of `IE` (10_state.md R21, R25, R26, R33, R36, 20_memory.md R65). -/
def Obligations.RegisterWrites : Prop :=
  ∀ (s : State) (rest : List HostAct) (r : Reg) (width : Nat) (v : Word),
    s.host = .writeReg 4 (BitVec.ofNat 9 r.offset) v :: rest → (r, width) ∈ writableRegs →
    ∃ t, step s = .next t ∧ (t.readReg r).toNat = v.toNat % 2 ^ width ∧
      (∀ q, q ≠ r → (q = .status → r ≠ .ie) → t.readReg q = s.readReg q) ∧ SameMemory s t ∧ t.host = rest

/-- The other register writes: `FR_BASE` and `FR_CAP` are stored only while the framer is idle, `DROPCNT` becomes 0, a
read-only register and an unlisted offset ignore the write (10_state.md R20, R21, R30, R32). -/
def Obligations.GuardedWrites : Prop :=
  ∀ (s : State) (rest : List HostAct) (off : RegOffset) (v : Word),
    s.host = .writeReg 4 off v :: rest → off.toNat % 4 = 0 →
    (off = 0x030 → step s = .next { s with
      host := rest, reply := .nothing, frBase := if s.frs = .hunt ∧ s.frv = false then v else s.frBase }) ∧
    (off = 0x034 → step s = .next { s with
      host := rest, reply := .nothing, frCap := if s.frs = .hunt ∧ s.frv = false then v else s.frCap }) ∧
    (off = 0x040 → step s = .next { s with host := rest, reply := .nothing, dropCnt := 0 }) ∧
    ((∃ r ∈ readOnlyRegs, r.offset = off.toNat) → step s = .next { s with host := rest, reply := .nothing }) ∧
    ((∀ r ∈ allRegs, r.offset ≠ off.toNat) → step s = .next { s with host := rest, reply := .nothing })

/-- The memory port reads and writes one byte below `P_MEM_SIZE` and changes nothing else (20_memory.md R65, R77). -/
def Obligations.MemoryPort : Prop :=
  ∀ (s : State) (rest : List HostAct) (a : Nat) (b : Byte), InMem a 1 →
    (s.host = .readMem a :: rest →
      ∃ t, step s = .next t ∧ t.reply = .byte (s.byteAt a) ∧ SameMemory s t ∧
        { t with reply := s.reply, host := s.host } = s) ∧
    (s.host = .writeMem a b :: rest →
      ∃ t, step s = .next t ∧ t.reply = .nothing ∧ Stored s t a [b] ∧
        { t with reply := s.reply, host := s.host, mem := s.mem } = s)

/-- A step refuses the host accesses the block does not have, and nothing else: a register access that is not a whole
word at a multiple of 4, and a MEM access at or above `P_MEM_SIZE`; with no action left it changes nothing (20_memory.md
R64, R65, 60_exceptions.md R318). No step faults. -/
def Obligations.StepRefusesOnlyBadAccesses : Prop :=
  ∀ s : State,
    (∀ rest width off, s.host = .readReg width off :: rest → (width ≠ 4 ∨ off.toNat % 4 ≠ 0) →
      step s = .refused .registerAccess) ∧
    (∀ rest width off v, s.host = .writeReg width off v :: rest → (width ≠ 4 ∨ off.toNat % 4 ≠ 0) →
      step s = .refused .registerAccess) ∧
    (∀ rest a, s.host = .readMem a :: rest → ¬InMem a 1 → step s = .refused .memoryPort) ∧
    (∀ rest a b, s.host = .writeMem a b :: rest → ¬InMem a 1 → step s = .refused .memoryPort) ∧
    (s.host = [] → step s = .next s) ∧
    (∀ r, step s = .refused r → ∃ a rest, s.host = a :: rest ∧
      ((∃ width off, (a = .readReg width off ∨ ∃ v, a = .writeReg width off v) ∧ (width ≠ 4 ∨ off.toNat % 4 ≠ 0)) ∨
        ∃ k, (a = .readMem k ∨ ∃ b, a = .writeMem k b) ∧ ¬InMem k 1))

/-- Reset: whatever the block held, every register reads 0 afterwards, the framer is in `HUNT` and the interrupt line is
low (70_reset_and_hazards.md R330). That the list of written bytes is empty afterwards is the model's way of holding MEM:
the spec says only that a byte written before is not guaranteed to survive, and that a model treats all of MEM as unwritten
after reset (R332). The log entries 3 and 4 declare it, both DESIGN CHOICE. -/
def Obligations.ResetClears : Prop :=
  (∀ r ∈ allRegs, State.reset.readReg r = 0) ∧
    ∀ (s : State) (rest : List HostAct), s.host = .reset :: rest →
      ∃ t, step s = .next t ∧ (∀ r ∈ allRegs, t.readReg r = 0) ∧ t.frs = .hunt ∧ t.frv = false ∧ t.irq = false ∧
        t.mem = []
end

