-- ==== Sys2Proof/Laws/State.lean ====
section
/-! SUPPORT. One lemma per field of State for each named update, so that no proof unfolds a record update. -/

namespace Sys2Proof.Machine

/-! ## `begin` -/

@[simp] theorem State.begin_cmd (s : State) : (s.begin).cmd = s.cmd := rfl
@[simp] theorem State.begin_err (s : State) : (s.begin).err = .ok := rfl
@[simp] theorem State.begin_frv (s : State) : (s.begin).frv = s.frv := rfl
@[simp] theorem State.begin_frs (s : State) : (s.begin).frs = s.frs := rfl
@[simp] theorem State.begin_errInfo (s : State) : (s.begin).errInfo = 0 := rfl
@[simp] theorem State.begin_ie (s : State) : (s.begin).ie = s.ie := rfl
@[simp] theorem State.begin_arg0 (s : State) : (s.begin).arg0 = s.arg0 := rfl
@[simp] theorem State.begin_arg1 (s : State) : (s.begin).arg1 = s.arg1 := rfl
@[simp] theorem State.begin_arg2 (s : State) : (s.begin).arg2 = s.arg2 := rfl
@[simp] theorem State.begin_arg3 (s : State) : (s.begin).arg3 = s.arg3 := rfl
@[simp] theorem State.begin_res0 (s : State) : (s.begin).res0 = s.res0 := rfl
@[simp] theorem State.begin_res1 (s : State) : (s.begin).res1 = s.res1 := rfl
@[simp] theorem State.begin_res2 (s : State) : (s.begin).res2 = s.res2 := rfl
@[simp] theorem State.begin_res3 (s : State) : (s.begin).res3 = s.res3 := rfl
@[simp] theorem State.begin_frBase (s : State) : (s.begin).frBase = s.frBase := rfl
@[simp] theorem State.begin_frCap (s : State) : (s.begin).frCap = s.frCap := rfl
@[simp] theorem State.begin_frFlen (s : State) : (s.begin).frFlen = s.frFlen := rfl
@[simp] theorem State.begin_frLen (s : State) : (s.begin).frLen = s.frLen := rfl
@[simp] theorem State.begin_dropCnt (s : State) : (s.begin).dropCnt = s.dropCnt := rfl
@[simp] theorem State.begin_hdr (s : State) : (s.begin).hdr = s.hdr := rfl
@[simp] theorem State.begin_pos (s : State) : (s.begin).pos = s.pos := rfl
@[simp] theorem State.begin_geo (s : State) : (s.begin).geo = s.geo := rfl
@[simp] theorem State.begin_mem (s : State) : (s.begin).mem = s.mem := rfl
@[simp] theorem State.begin_memEpoch (s : State) : (s.begin).memEpoch = s.memEpoch := rfl
@[simp] theorem State.begin_draws (s : State) : (s.begin).draws = s.draws := rfl
@[simp] theorem State.begin_host (s : State) : (s.begin).host = s.host := rfl
@[simp] theorem State.begin_reply (s : State) : (s.begin).reply = s.reply := rfl

/-! ## `raise` -/

@[simp] theorem State.raise_cmd (s : State) (c : ErrCode) (n : Nat) : (s.raise c n).cmd = s.cmd := rfl
@[simp] theorem State.raise_err (s : State) (c : ErrCode) (n : Nat) : (s.raise c n).err = c := rfl
@[simp] theorem State.raise_frv (s : State) (c : ErrCode) (n : Nat) : (s.raise c n).frv = s.frv := rfl
@[simp] theorem State.raise_frs (s : State) (c : ErrCode) (n : Nat) : (s.raise c n).frs = s.frs := rfl
@[simp] theorem State.raise_errInfo (s : State) (c : ErrCode) (n : Nat) : (s.raise c n).errInfo = s.fit n := rfl
@[simp] theorem State.raise_ie (s : State) (c : ErrCode) (n : Nat) : (s.raise c n).ie = s.ie := rfl
@[simp] theorem State.raise_arg0 (s : State) (c : ErrCode) (n : Nat) : (s.raise c n).arg0 = s.arg0 := rfl
@[simp] theorem State.raise_arg1 (s : State) (c : ErrCode) (n : Nat) : (s.raise c n).arg1 = s.arg1 := rfl
@[simp] theorem State.raise_arg2 (s : State) (c : ErrCode) (n : Nat) : (s.raise c n).arg2 = s.arg2 := rfl
@[simp] theorem State.raise_arg3 (s : State) (c : ErrCode) (n : Nat) : (s.raise c n).arg3 = s.arg3 := rfl
@[simp] theorem State.raise_res0 (s : State) (c : ErrCode) (n : Nat) : (s.raise c n).res0 = s.res0 := rfl
@[simp] theorem State.raise_res1 (s : State) (c : ErrCode) (n : Nat) : (s.raise c n).res1 = s.res1 := rfl
@[simp] theorem State.raise_res2 (s : State) (c : ErrCode) (n : Nat) : (s.raise c n).res2 = s.res2 := rfl
@[simp] theorem State.raise_res3 (s : State) (c : ErrCode) (n : Nat) : (s.raise c n).res3 = s.res3 := rfl
@[simp] theorem State.raise_frBase (s : State) (c : ErrCode) (n : Nat) : (s.raise c n).frBase = s.frBase := rfl
@[simp] theorem State.raise_frCap (s : State) (c : ErrCode) (n : Nat) : (s.raise c n).frCap = s.frCap := rfl
@[simp] theorem State.raise_frFlen (s : State) (c : ErrCode) (n : Nat) : (s.raise c n).frFlen = s.frFlen := rfl
@[simp] theorem State.raise_frLen (s : State) (c : ErrCode) (n : Nat) : (s.raise c n).frLen = s.frLen := rfl
@[simp] theorem State.raise_dropCnt (s : State) (c : ErrCode) (n : Nat) : (s.raise c n).dropCnt = s.dropCnt := rfl
@[simp] theorem State.raise_hdr (s : State) (c : ErrCode) (n : Nat) : (s.raise c n).hdr = s.hdr := rfl
@[simp] theorem State.raise_pos (s : State) (c : ErrCode) (n : Nat) : (s.raise c n).pos = s.pos := rfl
@[simp] theorem State.raise_geo (s : State) (c : ErrCode) (n : Nat) : (s.raise c n).geo = s.geo := rfl
@[simp] theorem State.raise_mem (s : State) (c : ErrCode) (n : Nat) : (s.raise c n).mem = s.mem := rfl
@[simp] theorem State.raise_memEpoch (s : State) (c : ErrCode) (n : Nat) : (s.raise c n).memEpoch = s.memEpoch := rfl
@[simp] theorem State.raise_draws (s : State) (c : ErrCode) (n : Nat) : (s.raise c n).draws = s.draws := rfl
@[simp] theorem State.raise_host (s : State) (c : ErrCode) (n : Nat) : (s.raise c n).host = s.host := rfl
@[simp] theorem State.raise_reply (s : State) (c : ErrCode) (n : Nat) : (s.raise c n).reply = s.reply := rfl

/-! ## `store` -/

@[simp] theorem State.store_cmd (s : State) (a : Nat) (bs : List Byte) : (s.store a bs).cmd = s.cmd := rfl
@[simp] theorem State.store_err (s : State) (a : Nat) (bs : List Byte) : (s.store a bs).err = s.err := rfl
@[simp] theorem State.store_frv (s : State) (a : Nat) (bs : List Byte) : (s.store a bs).frv = s.frv := rfl
@[simp] theorem State.store_frs (s : State) (a : Nat) (bs : List Byte) : (s.store a bs).frs = s.frs := rfl
@[simp] theorem State.store_errInfo (s : State) (a : Nat) (bs : List Byte) : (s.store a bs).errInfo = s.errInfo := rfl
@[simp] theorem State.store_ie (s : State) (a : Nat) (bs : List Byte) : (s.store a bs).ie = s.ie := rfl
@[simp] theorem State.store_arg0 (s : State) (a : Nat) (bs : List Byte) : (s.store a bs).arg0 = s.arg0 := rfl
@[simp] theorem State.store_arg1 (s : State) (a : Nat) (bs : List Byte) : (s.store a bs).arg1 = s.arg1 := rfl
@[simp] theorem State.store_arg2 (s : State) (a : Nat) (bs : List Byte) : (s.store a bs).arg2 = s.arg2 := rfl
@[simp] theorem State.store_arg3 (s : State) (a : Nat) (bs : List Byte) : (s.store a bs).arg3 = s.arg3 := rfl
@[simp] theorem State.store_res0 (s : State) (a : Nat) (bs : List Byte) : (s.store a bs).res0 = s.res0 := rfl
@[simp] theorem State.store_res1 (s : State) (a : Nat) (bs : List Byte) : (s.store a bs).res1 = s.res1 := rfl
@[simp] theorem State.store_res2 (s : State) (a : Nat) (bs : List Byte) : (s.store a bs).res2 = s.res2 := rfl
@[simp] theorem State.store_res3 (s : State) (a : Nat) (bs : List Byte) : (s.store a bs).res3 = s.res3 := rfl
@[simp] theorem State.store_frBase (s : State) (a : Nat) (bs : List Byte) : (s.store a bs).frBase = s.frBase := rfl
@[simp] theorem State.store_frCap (s : State) (a : Nat) (bs : List Byte) : (s.store a bs).frCap = s.frCap := rfl
@[simp] theorem State.store_frFlen (s : State) (a : Nat) (bs : List Byte) : (s.store a bs).frFlen = s.frFlen := rfl
@[simp] theorem State.store_frLen (s : State) (a : Nat) (bs : List Byte) : (s.store a bs).frLen = s.frLen := rfl
@[simp] theorem State.store_dropCnt (s : State) (a : Nat) (bs : List Byte) : (s.store a bs).dropCnt = s.dropCnt := rfl
@[simp] theorem State.store_hdr (s : State) (a : Nat) (bs : List Byte) : (s.store a bs).hdr = s.hdr := rfl
@[simp] theorem State.store_pos (s : State) (a : Nat) (bs : List Byte) : (s.store a bs).pos = s.pos := rfl
@[simp] theorem State.store_geo (s : State) (a : Nat) (bs : List Byte) : (s.store a bs).geo = s.geo := rfl
@[simp] theorem State.store_mem (s : State) (a : Nat) (bs : List Byte) : (s.store a bs).mem = Memory.putBytes s.mem a bs := rfl
@[simp] theorem State.store_memEpoch (s : State) (a : Nat) (bs : List Byte) : (s.store a bs).memEpoch = s.memEpoch := rfl
@[simp] theorem State.store_draws (s : State) (a : Nat) (bs : List Byte) : (s.store a bs).draws = s.draws := rfl
@[simp] theorem State.store_host (s : State) (a : Nat) (bs : List Byte) : (s.store a bs).host = s.host := rfl
@[simp] theorem State.store_reply (s : State) (a : Nat) (bs : List Byte) : (s.store a bs).reply = s.reply := rfl

/-! ## `writeCmd` -/

@[simp] theorem State.writeCmd_cmd (s : State) (w : Word) : (s.writeCmd w).cmd = w := rfl
@[simp] theorem State.writeCmd_err (s : State) (w : Word) : (s.writeCmd w).err = s.err := rfl
@[simp] theorem State.writeCmd_frv (s : State) (w : Word) : (s.writeCmd w).frv = s.frv := rfl
@[simp] theorem State.writeCmd_frs (s : State) (w : Word) : (s.writeCmd w).frs = s.frs := rfl
@[simp] theorem State.writeCmd_errInfo (s : State) (w : Word) : (s.writeCmd w).errInfo = s.errInfo := rfl
@[simp] theorem State.writeCmd_ie (s : State) (w : Word) : (s.writeCmd w).ie = s.ie := rfl
@[simp] theorem State.writeCmd_arg0 (s : State) (w : Word) : (s.writeCmd w).arg0 = s.arg0 := rfl
@[simp] theorem State.writeCmd_arg1 (s : State) (w : Word) : (s.writeCmd w).arg1 = s.arg1 := rfl
@[simp] theorem State.writeCmd_arg2 (s : State) (w : Word) : (s.writeCmd w).arg2 = s.arg2 := rfl
@[simp] theorem State.writeCmd_arg3 (s : State) (w : Word) : (s.writeCmd w).arg3 = s.arg3 := rfl
@[simp] theorem State.writeCmd_res0 (s : State) (w : Word) : (s.writeCmd w).res0 = s.res0 := rfl
@[simp] theorem State.writeCmd_res1 (s : State) (w : Word) : (s.writeCmd w).res1 = s.res1 := rfl
@[simp] theorem State.writeCmd_res2 (s : State) (w : Word) : (s.writeCmd w).res2 = s.res2 := rfl
@[simp] theorem State.writeCmd_res3 (s : State) (w : Word) : (s.writeCmd w).res3 = s.res3 := rfl
@[simp] theorem State.writeCmd_frBase (s : State) (w : Word) : (s.writeCmd w).frBase = s.frBase := rfl
@[simp] theorem State.writeCmd_frCap (s : State) (w : Word) : (s.writeCmd w).frCap = s.frCap := rfl
@[simp] theorem State.writeCmd_frFlen (s : State) (w : Word) : (s.writeCmd w).frFlen = s.frFlen := rfl
@[simp] theorem State.writeCmd_frLen (s : State) (w : Word) : (s.writeCmd w).frLen = s.frLen := rfl
@[simp] theorem State.writeCmd_dropCnt (s : State) (w : Word) : (s.writeCmd w).dropCnt = s.dropCnt := rfl
@[simp] theorem State.writeCmd_hdr (s : State) (w : Word) : (s.writeCmd w).hdr = s.hdr := rfl
@[simp] theorem State.writeCmd_pos (s : State) (w : Word) : (s.writeCmd w).pos = s.pos := rfl
@[simp] theorem State.writeCmd_geo (s : State) (w : Word) : (s.writeCmd w).geo = s.geo := rfl
@[simp] theorem State.writeCmd_mem (s : State) (w : Word) : (s.writeCmd w).mem = s.mem := rfl
@[simp] theorem State.writeCmd_memEpoch (s : State) (w : Word) : (s.writeCmd w).memEpoch = s.memEpoch := rfl
@[simp] theorem State.writeCmd_draws (s : State) (w : Word) : (s.writeCmd w).draws = s.draws + 1 := rfl
@[simp] theorem State.writeCmd_host (s : State) (w : Word) : (s.writeCmd w).host = s.host := rfl
@[simp] theorem State.writeCmd_reply (s : State) (w : Word) : (s.writeCmd w).reply = s.reply := rfl

/-! ## `takeHost` -/

@[simp] theorem State.takeHost_cmd (s : State) (r : List HostAct) : (s.takeHost r).cmd = s.cmd := rfl
@[simp] theorem State.takeHost_err (s : State) (r : List HostAct) : (s.takeHost r).err = s.err := rfl
@[simp] theorem State.takeHost_frv (s : State) (r : List HostAct) : (s.takeHost r).frv = s.frv := rfl
@[simp] theorem State.takeHost_frs (s : State) (r : List HostAct) : (s.takeHost r).frs = s.frs := rfl
@[simp] theorem State.takeHost_errInfo (s : State) (r : List HostAct) : (s.takeHost r).errInfo = s.errInfo := rfl
@[simp] theorem State.takeHost_ie (s : State) (r : List HostAct) : (s.takeHost r).ie = s.ie := rfl
@[simp] theorem State.takeHost_arg0 (s : State) (r : List HostAct) : (s.takeHost r).arg0 = s.arg0 := rfl
@[simp] theorem State.takeHost_arg1 (s : State) (r : List HostAct) : (s.takeHost r).arg1 = s.arg1 := rfl
@[simp] theorem State.takeHost_arg2 (s : State) (r : List HostAct) : (s.takeHost r).arg2 = s.arg2 := rfl
@[simp] theorem State.takeHost_arg3 (s : State) (r : List HostAct) : (s.takeHost r).arg3 = s.arg3 := rfl
@[simp] theorem State.takeHost_res0 (s : State) (r : List HostAct) : (s.takeHost r).res0 = s.res0 := rfl
@[simp] theorem State.takeHost_res1 (s : State) (r : List HostAct) : (s.takeHost r).res1 = s.res1 := rfl
@[simp] theorem State.takeHost_res2 (s : State) (r : List HostAct) : (s.takeHost r).res2 = s.res2 := rfl
@[simp] theorem State.takeHost_res3 (s : State) (r : List HostAct) : (s.takeHost r).res3 = s.res3 := rfl
@[simp] theorem State.takeHost_frBase (s : State) (r : List HostAct) : (s.takeHost r).frBase = s.frBase := rfl
@[simp] theorem State.takeHost_frCap (s : State) (r : List HostAct) : (s.takeHost r).frCap = s.frCap := rfl
@[simp] theorem State.takeHost_frFlen (s : State) (r : List HostAct) : (s.takeHost r).frFlen = s.frFlen := rfl
@[simp] theorem State.takeHost_frLen (s : State) (r : List HostAct) : (s.takeHost r).frLen = s.frLen := rfl
@[simp] theorem State.takeHost_dropCnt (s : State) (r : List HostAct) : (s.takeHost r).dropCnt = s.dropCnt := rfl
@[simp] theorem State.takeHost_hdr (s : State) (r : List HostAct) : (s.takeHost r).hdr = s.hdr := rfl
@[simp] theorem State.takeHost_pos (s : State) (r : List HostAct) : (s.takeHost r).pos = s.pos := rfl
@[simp] theorem State.takeHost_geo (s : State) (r : List HostAct) : (s.takeHost r).geo = s.geo := rfl
@[simp] theorem State.takeHost_mem (s : State) (r : List HostAct) : (s.takeHost r).mem = s.mem := rfl
@[simp] theorem State.takeHost_memEpoch (s : State) (r : List HostAct) : (s.takeHost r).memEpoch = s.memEpoch := rfl
@[simp] theorem State.takeHost_draws (s : State) (r : List HostAct) : (s.takeHost r).draws = s.draws := rfl
@[simp] theorem State.takeHost_host (s : State) (r : List HostAct) : (s.takeHost r).host = r := rfl
@[simp] theorem State.takeHost_reply (s : State) (r : List HostAct) : (s.takeHost r).reply = s.reply := rfl

/-! ## `answer` -/

@[simp] theorem State.answer_cmd (s : State) (r : Reply) : (s.answer r).cmd = s.cmd := rfl
@[simp] theorem State.answer_err (s : State) (r : Reply) : (s.answer r).err = s.err := rfl
@[simp] theorem State.answer_frv (s : State) (r : Reply) : (s.answer r).frv = s.frv := rfl
@[simp] theorem State.answer_frs (s : State) (r : Reply) : (s.answer r).frs = s.frs := rfl
@[simp] theorem State.answer_errInfo (s : State) (r : Reply) : (s.answer r).errInfo = s.errInfo := rfl
@[simp] theorem State.answer_ie (s : State) (r : Reply) : (s.answer r).ie = s.ie := rfl
@[simp] theorem State.answer_arg0 (s : State) (r : Reply) : (s.answer r).arg0 = s.arg0 := rfl
@[simp] theorem State.answer_arg1 (s : State) (r : Reply) : (s.answer r).arg1 = s.arg1 := rfl
@[simp] theorem State.answer_arg2 (s : State) (r : Reply) : (s.answer r).arg2 = s.arg2 := rfl
@[simp] theorem State.answer_arg3 (s : State) (r : Reply) : (s.answer r).arg3 = s.arg3 := rfl
@[simp] theorem State.answer_res0 (s : State) (r : Reply) : (s.answer r).res0 = s.res0 := rfl
@[simp] theorem State.answer_res1 (s : State) (r : Reply) : (s.answer r).res1 = s.res1 := rfl
@[simp] theorem State.answer_res2 (s : State) (r : Reply) : (s.answer r).res2 = s.res2 := rfl
@[simp] theorem State.answer_res3 (s : State) (r : Reply) : (s.answer r).res3 = s.res3 := rfl
@[simp] theorem State.answer_frBase (s : State) (r : Reply) : (s.answer r).frBase = s.frBase := rfl
@[simp] theorem State.answer_frCap (s : State) (r : Reply) : (s.answer r).frCap = s.frCap := rfl
@[simp] theorem State.answer_frFlen (s : State) (r : Reply) : (s.answer r).frFlen = s.frFlen := rfl
@[simp] theorem State.answer_frLen (s : State) (r : Reply) : (s.answer r).frLen = s.frLen := rfl
@[simp] theorem State.answer_dropCnt (s : State) (r : Reply) : (s.answer r).dropCnt = s.dropCnt := rfl
@[simp] theorem State.answer_hdr (s : State) (r : Reply) : (s.answer r).hdr = s.hdr := rfl
@[simp] theorem State.answer_pos (s : State) (r : Reply) : (s.answer r).pos = s.pos := rfl
@[simp] theorem State.answer_geo (s : State) (r : Reply) : (s.answer r).geo = s.geo := rfl
@[simp] theorem State.answer_mem (s : State) (r : Reply) : (s.answer r).mem = s.mem := rfl
@[simp] theorem State.answer_memEpoch (s : State) (r : Reply) : (s.answer r).memEpoch = s.memEpoch := rfl
@[simp] theorem State.answer_draws (s : State) (r : Reply) : (s.answer r).draws = s.draws := rfl
@[simp] theorem State.answer_host (s : State) (r : Reply) : (s.answer r).host = s.host := rfl
@[simp] theorem State.answer_reply (s : State) (r : Reply) : (s.answer r).reply = r := rfl

/-! ## `dropByte` -/

@[simp] theorem State.dropByte_cmd (s : State) : (s.dropByte).cmd = s.cmd := rfl
@[simp] theorem State.dropByte_err (s : State) : (s.dropByte).err = s.err := rfl
@[simp] theorem State.dropByte_frv (s : State) : (s.dropByte).frv = s.frv := rfl
@[simp] theorem State.dropByte_frs (s : State) : (s.dropByte).frs = s.frs := rfl
@[simp] theorem State.dropByte_errInfo (s : State) : (s.dropByte).errInfo = s.errInfo := rfl
@[simp] theorem State.dropByte_ie (s : State) : (s.dropByte).ie = s.ie := rfl
@[simp] theorem State.dropByte_arg0 (s : State) : (s.dropByte).arg0 = s.arg0 := rfl
@[simp] theorem State.dropByte_arg1 (s : State) : (s.dropByte).arg1 = s.arg1 := rfl
@[simp] theorem State.dropByte_arg2 (s : State) : (s.dropByte).arg2 = s.arg2 := rfl
@[simp] theorem State.dropByte_arg3 (s : State) : (s.dropByte).arg3 = s.arg3 := rfl
@[simp] theorem State.dropByte_res0 (s : State) : (s.dropByte).res0 = s.res0 := rfl
@[simp] theorem State.dropByte_res1 (s : State) : (s.dropByte).res1 = s.res1 := rfl
@[simp] theorem State.dropByte_res2 (s : State) : (s.dropByte).res2 = s.res2 := rfl
@[simp] theorem State.dropByte_res3 (s : State) : (s.dropByte).res3 = s.res3 := rfl
@[simp] theorem State.dropByte_frBase (s : State) : (s.dropByte).frBase = s.frBase := rfl
@[simp] theorem State.dropByte_frCap (s : State) : (s.dropByte).frCap = s.frCap := rfl
@[simp] theorem State.dropByte_frFlen (s : State) : (s.dropByte).frFlen = s.frFlen := rfl
@[simp] theorem State.dropByte_frLen (s : State) : (s.dropByte).frLen = s.frLen := rfl
@[simp] theorem State.dropByte_dropCnt (s : State) : (s.dropByte).dropCnt = if s.dropCnt = 0xFFFFFFFF then 0xFFFFFFFF else s.dropCnt + 1 := rfl
@[simp] theorem State.dropByte_hdr (s : State) : (s.dropByte).hdr = s.hdr := rfl
@[simp] theorem State.dropByte_pos (s : State) : (s.dropByte).pos = s.pos := rfl
@[simp] theorem State.dropByte_geo (s : State) : (s.dropByte).geo = s.geo := rfl
@[simp] theorem State.dropByte_mem (s : State) : (s.dropByte).mem = s.mem := rfl
@[simp] theorem State.dropByte_memEpoch (s : State) : (s.dropByte).memEpoch = s.memEpoch := rfl
@[simp] theorem State.dropByte_draws (s : State) : (s.dropByte).draws = s.draws := rfl
@[simp] theorem State.dropByte_host (s : State) : (s.dropByte).host = s.host := rfl
@[simp] theorem State.dropByte_reply (s : State) : (s.dropByte).reply = s.reply := rfl

end Sys2Proof.Machine
end

