-- ==== Sys2Proof/Laws/Memory.lean ====
section
/-! SUPPORT. MEM: read after write, and the canonical form kept by every memory operation. -/

namespace Sys2Proof.Machine

/-! ## One byte -/

@[simp] theorem Memory.find_put_self (m : Memory) (a : Nat) (b : Byte) :
    Memory.find (Memory.put m a b) a = some b := by
  induction m with
  | nil => simp [Memory.put, Memory.find]
  | cons c m ih =>
    simp only [Memory.put]
    split
    · simp [Memory.find]
    · split
      · simp [Memory.find]
      · rename_i h
        simp [Memory.find, Ne.symm h, ih]

theorem Memory.find_put_ne (m : Memory) {a a' : Nat} (b : Byte) (h : a' ≠ a) :
    Memory.find (Memory.put m a b) a' = Memory.find m a' := by
  induction m with
  | nil => simp [Memory.put, Memory.find, Ne.symm h]
  | cons c m ih =>
    simp only [Memory.put]
    split
    · simp [Memory.find, Ne.symm h]
    · split
      · rename_i hc
        subst hc
        simp [Memory.find, Ne.symm h]
      · simp only [Memory.find, ih]

theorem Memory.put_head_le (m : Memory) (a : Nat) (b : Byte) (x : Nat) (hx : x < a)
    (h : ∀ c ∈ m.head?, x < c.1) : ∀ c ∈ (Memory.put m a b).head?, x < c.1 := by
  cases m with
  | nil => simpa [Memory.put] using hx
  | cons c m =>
    have hc : x < c.1 := h c (by simp)
    simp only [Memory.put]
    split
    · simpa using hx
    · split
      · simpa using hx
      · simpa using hc

/-- The canonical form of a list with a head: the head is below the next address, and the rest is canonical. -/
theorem Memory.wf_cons_iff (c : Host.Cell) (m : Memory) :
    Memory.wf (c :: m) = true ↔ (∀ d ∈ m.head?, c.1 < d.1) ∧ Memory.wf m = true := by
  cases m with
  | nil => simp [Memory.wf]
  | cons d m => simp [Memory.wf]

theorem Memory.put_wf (m : Memory) (a : Nat) (b : Byte) (h : Memory.wf m = true) :
    Memory.wf (Memory.put m a b) = true := by
  induction m with
  | nil => simp [Memory.put, Memory.wf]
  | cons c m ih =>
    obtain ⟨h1, h2⟩ := (Memory.wf_cons_iff c m).1 h
    simp only [Memory.put]
    split
    · rename_i hlt
      exact (Memory.wf_cons_iff _ _).2 ⟨by simpa using hlt, h⟩
    · split
      · rename_i heq
        exact (Memory.wf_cons_iff _ _).2 ⟨by simpa [heq] using h1, h2⟩
      · rename_i h3 h4
        exact (Memory.wf_cons_iff _ _).2 ⟨Memory.put_head_le m a b c.1 (by omega) h1, ih h2⟩

theorem Memory.mem_put (m : Memory) (a : Nat) (b : Byte) {c : Host.Cell} (h : c ∈ Memory.put m a b) :
    c.1 = a ∨ c ∈ m := by
  induction m with
  | nil => simp [Memory.put] at h; simp [h]
  | cons d m ih =>
    simp only [Memory.put] at h
    split at h
    · rcases List.mem_cons.1 h with rfl | h
      · exact .inl rfl
      · exact .inr h
    · split at h
      · rcases List.mem_cons.1 h with rfl | h
        · exact .inl rfl
        · exact .inr (List.mem_cons_of_mem _ h)
      · rcases List.mem_cons.1 h with rfl | h
        · exact .inr (by simp)
        · rcases ih h with h | h
          · exact .inl h
          · exact .inr (List.mem_cons_of_mem _ h)

/-! ## Byte sequences -/

theorem Memory.putBytes_wf (bs : List Byte) (m : Memory) (a : Nat) (h : Memory.wf m = true) :
    Memory.wf (Memory.putBytes m a bs) = true := by
  induction bs generalizing m a with
  | nil => exact h
  | cons b t ih => exact ih _ _ (Memory.put_wf m a b h)

theorem Memory.mem_putBytes (bs : List Byte) (m : Memory) (a : Nat) {c : Host.Cell}
    (h : c ∈ Memory.putBytes m a bs) : (a ≤ c.1 ∧ c.1 < a + bs.length) ∨ c ∈ m := by
  induction bs generalizing m a with
  | nil => exact .inr h
  | cons b t ih =>
    simp only [List.length_cons]
    rcases ih _ _ h with h | h
    · exact .inl (by omega)
    · rcases Memory.mem_put m a b h with h | h
      · exact .inl (by omega)
      · exact .inr h

theorem Memory.find_putBytes_outside (bs : List Byte) (m : Memory) (a a' : Nat)
    (h : a' < a ∨ a + bs.length ≤ a') : Memory.find (Memory.putBytes m a bs) a' = Memory.find m a' := by
  induction bs generalizing m a with
  | nil => rfl
  | cons b t ih =>
    simp only [List.length_cons] at h
    rw [Memory.putBytes, ih _ _ (by omega), Memory.find_put_ne _ _ (by omega)]

theorem Memory.find_putBytes_inside (bs : List Byte) (m : Memory) (a k : Nat) (h : k < bs.length) :
    Memory.find (Memory.putBytes m a bs) (a + k) = some bs[k] := by
  induction bs generalizing m a k with
  | nil => simp at h
  | cons b t ih =>
    rw [Memory.putBytes]
    cases k with
    | zero =>
      rw [Memory.find_putBytes_outside _ _ _ _ (by omega)]
      simp
    | succ k =>
      have := ih (Memory.put m a b) (a + 1) k (by simpa using h)
      rw [show a + (k + 1) = a + 1 + k by omega, this]
      simp

/-! ## The state's bytes -/

theorem State.byteAt_store_outside (s : State) (a a' : Nat) (bs : List Byte)
    (h : a' < a ∨ a + bs.length ≤ a') : (s.store a bs).byteAt a' = s.byteAt a' := by
  simp only [State.byteAt, State.store_mem, State.store_memEpoch, Memory.find_putBytes_outside _ _ _ _ h]

theorem State.byteAt_store_inside (s : State) (a k : Nat) (bs : List Byte) (h : k < bs.length) :
    (s.store a bs).byteAt (a + k) = bs[k] := by
  simp only [State.byteAt, State.store_mem, Memory.find_putBytes_inside _ _ _ _ h]

/-- A byte depends on MEM and on the draw in force alone. -/
theorem State.byteAt_congr {s t : State} (hm : t.mem = s.mem) (he : t.memEpoch = s.memEpoch) (a : Nat) :
    t.byteAt a = s.byteAt a := by
  simp only [State.byteAt, hm, he]

@[simp] theorem State.length_bytesAt (s : State) (a n : Nat) : (s.bytesAt a n).length = n := by
  induction n generalizing a with
  | zero => rfl
  | succ n ih => simp [State.bytesAt, ih]

theorem State.bytesAt_getElem (s : State) (a n k : Nat) (h : k < (s.bytesAt a n).length) :
    (s.bytesAt a n)[k] = s.byteAt (a + k) := by
  induction n generalizing a k with
  | zero => simp [State.bytesAt] at h
  | succ n ih =>
    cases k with
    | zero => simp [State.bytesAt]
    | succ k =>
      simp only [State.bytesAt, List.getElem_cons_succ, ih]
      congr 1; omega

theorem State.bytesAt_congr {s t : State} {a n : Nat} (h : ∀ k < n, t.byteAt (a + k) = s.byteAt (a + k)) :
    t.bytesAt a n = s.bytesAt a n := by
  apply List.ext_getElem (by simp)
  intro k h1 h2
  simp only [State.bytesAt_getElem]
  exact h k (by simpa using h1)

theorem State.bytesAt_add (s : State) (a m n : Nat) :
    s.bytesAt a (m + n) = s.bytesAt a m ++ s.bytesAt (a + m) n := by
  induction m generalizing a with
  | zero => simp [State.bytesAt]
  | succ m ih =>
    rw [show m + 1 + n = (m + n) + 1 by omega]
    simp only [State.bytesAt, ih, List.cons_append]
    rw [show a + 1 + m = a + (m + 1) by omega]

/-- What was stored is read back. -/
theorem State.bytesAt_store_self (s : State) (a : Nat) (bs : List Byte) :
    (s.store a bs).bytesAt a bs.length = bs := by
  apply List.ext_getElem (by simp)
  intro k h1 h2
  rw [State.bytesAt_getElem, State.byteAt_store_inside _ _ _ _ h2]

theorem State.bytesAt_store_disjoint (s : State) (a n d : Nat) (bs : List Byte)
    (h : a + n ≤ d ∨ d + bs.length ≤ a) : (s.store d bs).bytesAt a n = s.bytesAt a n :=
  State.bytesAt_congr fun k hk => State.byteAt_store_outside _ _ _ _ (by omega)

/-! ## The canonical form -/

/-- Storing bytes keeps the canonical form. -/
theorem State.store_wf (s : State) (a : Nat) (bs : List Byte) (h : Memory.wf s.mem = true) :
    Memory.wf (s.store a bs).mem = true := Memory.putBytes_wf bs s.mem a h

/-- So does writing a number as bytes. -/
theorem State.memWrite_wf (s : State) (a n v : Nat) (h : Memory.wf s.mem = true) :
    Memory.wf (s.memWrite a n v).mem = true := State.store_wf s a _ h

/-- MEM after reset has the canonical form. -/
theorem State.reset_mem_wf : Memory.wf State.reset.mem = true := rfl

end Sys2Proof.Machine
end

