-- ==== Sys2Proof/Laws/Ops.lean ====
section
/-! SUPPORT. The shared operations: regions, overlap, the checks, the run of one command. Later proofs cite these and
unfold none of them. -/

namespace Sys2Proof.Machine

/-! ## Regions and overlap (R11) -/

theorem region_iff (P : Params) (a n : Nat) : region P a n = true ↔ a + n ≤ P.memSize := by
  have := P.memSize_ge
  simp only [region, Bool.or_eq_true, decide_eq_true_eq]
  omega

theorem region_false_iff (P : Params) (a n : Nat) : region P a n = false ↔ P.memSize < a + n := by
  rw [← Bool.not_eq_true, region_iff]; omega

theorem overlap_iff (a n b m : Nat) :
    overlap a n b m = true ↔ 0 < n ∧ 0 < m ∧ a < b + m ∧ b < a + n := by
  simp [overlap, and_assoc]

theorem overlap_false_iff (a n b m : Nat) :
    overlap a n b m = false ↔ n = 0 ∨ m = 0 ∨ b + m ≤ a ∨ a + n ≤ b := by
  rw [← Bool.not_eq_true, overlap_iff]; omega

/-- An address of MEM has at most 32 bits (R8). -/
theorem lt_of_region {P : Params} {a n : Nat} (h : region P a n = true) : a + n ≤ 2 ^ 32 :=
  Nat.le_trans ((region_iff P a n).1 h) P.memSize_le

/-! ## The value of a 32-bit register or field (R21, log 6) -/

theorem State.fit_of_lt (s : State) {v : Nat} (h : v < 2 ^ 32) : s.fit v = BitVec.ofNat 32 v := by
  simp only [State.fit, if_pos h]

theorem State.fit_toNat (s : State) (w : Word) : s.fit w.toNat = w := by
  rw [s.fit_of_lt w.isLt, BitVec.ofNat_toNat, BitVec.setWidth_eq]

theorem State.fit_congr {s t : State} (h : t.draws = s.draws) (v : Nat) : t.fit v = s.fit v := by
  simp only [State.fit, h]

/-! ## The start of a command changes no operand -/

@[simp] theorem State.byteAt_begin (s : State) (a : Nat) : s.begin.byteAt a = s.byteAt a := rfl

@[simp] theorem State.bytesAt_begin (s : State) (a n : Nat) : s.begin.bytesAt a n = s.bytesAt a n :=
  State.bytesAt_congr fun _ _ => rfl

@[simp] theorem State.src_begin (s : State) : s.begin.src = s.src := rfl
@[simp] theorem State.srcLen_begin (s : State) : s.begin.srcLen = s.srcLen := rfl
@[simp] theorem State.dst_begin (s : State) : s.begin.dst = s.dst := rfl
@[simp] theorem State.dstCap_begin (s : State) : s.begin.dstCap = s.dstCap := rfl
@[simp] theorem State.source_begin (s : State) : s.begin.source = s.source := by simp [State.source]
@[simp] theorem State.fit_begin (s : State) (v : Nat) : s.begin.fit v = s.fit v := rfl
@[simp] theorem State.begin_begin (s : State) : s.begin.begin = s.begin := rfl

/-- A report replaces the one before it (R308). -/
@[simp] theorem State.begin_raise (s : State) (c : ErrCode) (n : Nat) : s.begin.raise c n = s.raise c n := rfl

@[simp] theorem State.length_source (s : State) : s.source.length = s.srcLen := by simp [State.source]

/-! ## Checks and their sequence -/

@[simp] theorem require_true (c : ErrCode) (n : Nat) : require true c n = .ok () := rfl
@[simp] theorem require_false (c : ErrCode) (n : Nat) : require false c n = .error ⟨c, n⟩ := rfl

theorem require_ok_iff {c : Bool} {e : ErrCode} {n : Nat} {u : Unit} : require c e n = .ok u ↔ c = true := by
  cases c <;> simp

theorem require_error_iff {c : Bool} {e : ErrCode} {n : Nat} {r : Raise} :
    require c e n = .error r ↔ c = false ∧ r = ⟨e, n⟩ := by
  cases c <;> simp [eq_comm]

@[simp] theorem ok_bind {α β : Type} (a : α) (f : α → Except Raise β) : (Except.ok a >>= f) = f a := rfl
@[simp] theorem error_bind {α β : Type} (r : Raise) (f : α → Except Raise β) :
    ((Except.error r : Except Raise α) >>= f) = .error r := rfl

/-- A sequence succeeds when its first part gives a value from which the rest succeeds. -/
theorem bind_ok_iff {α β : Type} {x : Except Raise α} {f : α → Except Raise β} {b : β} :
    (x >>= f) = .ok b ↔ ∃ a, x = .ok a ∧ f a = .ok b := by
  cases x <;> simp

/-- A sequence fails in its first part, or after it. -/
theorem bind_error_iff {α β : Type} {x : Except Raise α} {f : α → Except Raise β} {r : Raise} :
    (x >>= f) = .error r ↔ x = .error r ∨ ∃ a, x = .ok a ∧ f a = .error r := by
  cases x <;> simp

theorem needRegion_ok_iff {P : Params} {a n : Nat} {u : Unit} :
    needRegion P a n = .ok u ↔ region P a n = true := require_ok_iff

theorem needDisjoint_ok_iff {a n d m : Nat} {u : Unit} :
    needDisjoint a n d m = .ok u ↔ overlap a n d m = false := by
  simp [needDisjoint, require_ok_iff]

theorem needSpace_ok_iff {need cap : Nat} {u : Unit} : needSpace need cap = .ok u ↔ need ≤ cap := by
  simp [needSpace, require_ok_iff]

/-- The buffer checks of a command pass exactly when both regions are in MEM and do not overlap (R67, R68). -/
theorem needBuffers_ok_iff {P : Params} {s : State} {cap : Nat} {u : Unit} :
    needBuffers P s cap = .ok u ↔
      region P s.src s.srcLen = true ∧ region P s.dst cap = true ∧ overlap s.src s.srcLen s.dst cap = false := by
  simp [needBuffers, bind_ok_iff, needRegion_ok_iff, needDisjoint_ok_iff]

@[simp] theorem needBuffers_begin (P : Params) (s : State) (cap : Nat) :
    needBuffers P s.begin cap = needBuffers P s cap := rfl

/-! ## The run of one command (R80, R306) -/

theorem runCommand_ok {f : State → Except Raise State} {s t : State} (h : f s.begin = .ok t) :
    runCommand f s = .next t := by
  simp [runCommand, h, State.settle]

theorem runCommand_error {f : State → Except Raise State} {s : State} {r : Raise} (h : f s.begin = .error r) :
    runCommand f s = .next (s.raise r.code r.info) := by
  simp [runCommand, h, State.settle]

/-- What the run of a command can do: the state its computation gives, or the report of its error (R306). -/
theorem runCommand_cases {f : State → Except Raise State} {s t : State} (h : runCommand f s = .next t) :
    f s.begin = .ok t ∨ ∃ r, f s.begin = .error r ∧ t = s.raise r.code r.info := by
  simp only [runCommand, Host.Outcome.next.injEq] at h
  cases hf : f s.begin with
  | ok u => rw [hf] at h; exact .inl (by rw [← h]; rfl)
  | error r => rw [hf] at h; exact .inr ⟨r, rfl, by rw [← h]; rfl⟩

end Sys2Proof.Machine
end

