-- ==== Sys2Proof/Laws/Framer.lean ====
section
/-! SUPPORT. The framer: what one framer step and one block feed can do (R130 to R132). -/

namespace Sys2Proof.Machine

/-- Everything a framer step can do: it drops a byte, opens a candidate, skips an empty one, closes one, discards one,
stores a byte, or ends a discard. -/
theorem frStep_cases {P : Params} {b : Byte} {s t : State} {r : FrResult} (h : frStep P b s = (t, r)) :
    (s.frs = .hunt ∧ b = delim ∧ t = { s with frs := .inFrame, frLen := 0 } ∧ r = .consumed) ∨
    (s.frs = .hunt ∧ b ≠ delim ∧ t = s.dropByte ∧ r = .consumed) ∨
    (s.frs = .inFrame ∧ b = delim ∧ s.frLen = 0 ∧ P.emptyFrame = .skip ∧ t = s ∧ r = .consumed) ∨
    (s.frs = .inFrame ∧ b = delim ∧ ¬(s.frLen = 0 ∧ P.emptyFrame = .skip) ∧
      t = { s with frFlen := s.frLen, frv := true, frs := .hunt, frLen := 0 } ∧ r = .closed) ∨
    (s.frs = .inFrame ∧ b ≠ delim ∧ s.frLen = s.frCap ∧
      t = { s.dropByte with frs := .discard, frLen := 0 } ∧ r = .overflow) ∨
    (s.frs = .inFrame ∧ b ≠ delim ∧ s.frLen ≠ s.frCap ∧
      t = { s.store (s.frBase.toNat + s.frLen.toNat) [b] with frLen := s.frLen + 1 } ∧ r = .consumed) ∨
    (s.frs = .discard ∧ b = delim ∧ t = { s with frs := .hunt } ∧ r = .consumed) ∨
    (s.frs = .discard ∧ b ≠ delim ∧ t = s.dropByte ∧ r = .consumed) := by
  unfold frStep at h
  cases hs : s.frs <;> simp only [hs] at h
  · unfold frHunt at h
    split at h <;> simp_all
  · split at h
    · unfold frClose at h
      split at h <;> simp_all
    · unfold frContent at h
      split at h <;> simp_all
  · unfold frDiscard at h
    split at h <;> simp_all

/-! The framer step, one lemma per arm of R130. -/

theorem frStep_open {P : Params} {s : State} (h : s.frs = .hunt) :
    frStep P delim s = ({ s with frs := .inFrame, frLen := 0 }, .consumed) := by
  simp only [frStep, h, frHunt, if_true]

theorem frStep_outside {P : Params} {s : State} {b : Byte} (h : s.frs = .hunt) (hb : b ≠ delim) :
    frStep P b s = (s.dropByte, .consumed) := by
  simp only [frStep, h, frHunt, if_neg hb]

theorem frStep_delim {P : Params} {s : State} (h : s.frs = .inFrame) :
    frStep P delim s =
      if s.frLen = 0 ∧ P.emptyFrame = .skip then (s, .consumed)
      else ({ s with frFlen := s.frLen, frv := true, frs := .hunt, frLen := 0 }, .closed) := by
  simp only [frStep, h, frClose, if_true]

theorem frStep_full {P : Params} {s : State} {b : Byte} (h : s.frs = .inFrame) (hb : b ≠ delim)
    (hl : s.frLen = s.frCap) :
    frStep P b s = ({ s.dropByte with frs := .discard, frLen := 0 }, .overflow) := by
  simp only [frStep, h, frContent, if_neg hb, if_pos hl]

theorem frStep_content {P : Params} {s : State} {b : Byte} (h : s.frs = .inFrame) (hb : b ≠ delim)
    (hl : s.frLen ≠ s.frCap) :
    frStep P b s =
      ({ s.store (s.frBase.toNat + s.frLen.toNat) [b] with frLen := s.frLen + 1 }, .consumed) := by
  simp only [frStep, h, frContent, if_neg hb, if_neg hl]

theorem frStep_resume {P : Params} {s : State} (h : s.frs = .discard) :
    frStep P delim s = ({ s with frs := .hunt }, .consumed) := by
  simp only [frStep, h, frDiscard, if_true]

theorem frStep_discard {P : Params} {s : State} {b : Byte} (h : s.frs = .discard) (hb : b ≠ delim) :
    frStep P b s = (s.dropByte, .consumed) := by
  simp only [frStep, h, frDiscard, if_neg hb]

/-- A framer step changes the framer's registers and MEM alone. -/
theorem frStep_frame {P : Params} {b : Byte} {s t : State} {r : FrResult} (h : frStep P b s = (t, r)) :
    { t with frs := s.frs, frv := s.frv, frLen := s.frLen, frFlen := s.frFlen, dropCnt := s.dropCnt, mem := s.mem } = s := by
  rcases frStep_cases h with ⟨-, -, rfl, -⟩ | ⟨-, -, rfl, -⟩ | ⟨-, -, -, -, rfl, -⟩ | ⟨-, -, -, rfl, -⟩ |
    ⟨-, -, -, rfl, -⟩ | ⟨-, -, -, rfl, -⟩ | ⟨-, -, rfl, -⟩ | ⟨-, -, rfl, -⟩ <;> rfl

/-- `o` with the framer's part of `s`: its registers, its window and MEM. -/
def State.withFramerOf (o s : State) : State :=
  { o with
    frs := s.frs, frv := s.frv, frLen := s.frLen, frFlen := s.frFlen, dropCnt := s.dropCnt, frBase := s.frBase,
    frCap := s.frCap, mem := s.mem, memEpoch := s.memEpoch }

/-- A framer step reads and writes the framer's part of the state alone. -/
theorem frStep_withFramerOf (P : Params) (b : Byte) (o s : State) :
    frStep P b (o.withFramerOf s) = (o.withFramerOf (frStep P b s).1, (frStep P b s).2) := by
  by_cases hb : b = delim
  · subst hb
    cases hs : s.frs with
    | hunt => rw [frStep_open hs, frStep_open (s := o.withFramerOf s) hs]; rfl
    | inFrame =>
      rw [frStep_delim hs, frStep_delim (s := o.withFramerOf s) hs]
      by_cases h : s.frLen = 0 ∧ P.emptyFrame = .skip
      · have h' : (o.withFramerOf s).frLen = 0 ∧ P.emptyFrame = .skip := h
        rw [if_pos h, if_pos h']
      · have h' : ¬((o.withFramerOf s).frLen = 0 ∧ P.emptyFrame = .skip) := h
        rw [if_neg h, if_neg h']
        rfl
    | discard => rw [frStep_resume hs, frStep_resume (s := o.withFramerOf s) hs]; rfl
  · cases hs : s.frs with
    | hunt => rw [frStep_outside hs hb, frStep_outside (s := o.withFramerOf s) hs hb]; rfl
    | inFrame =>
      by_cases h : s.frLen = s.frCap
      · rw [frStep_full hs hb h, frStep_full (s := o.withFramerOf s) hs hb h]; rfl
      · rw [frStep_content hs hb h, frStep_content (s := o.withFramerOf s) hs hb h]; rfl
    | discard => rw [frStep_discard hs hb, frStep_discard (s := o.withFramerOf s) hs hb]; rfl

/-- The state a block feed ends in. -/
def FeedEnd.state : FeedEnd → State
  | .done t _ _ => t
  | .overflowed t _ => t

/-- A block feed is a run of framer steps: what every step keeps, the block feed keeps. -/
theorem feedLoop_keeps (P : Params) (src : Nat) (Inv : State → Prop)
    (hstep : ∀ b s t r, Inv s → s.frv = false → frStep P b s = (t, r) → Inv t) :
    ∀ n k s, Inv s → s.frv = false → Inv (feedLoop P src n k s).state := by
  intro n
  induction n with
  | zero => intro k s h _; exact h
  | succ n ih =>
    intro k s h hv
    cases hs : frStep P (s.byteAt (src + k)) s with
    | mk t r =>
      have ht : Inv t := hstep _ _ _ _ h hv hs
      cases r with
      | overflow => simpa [feedLoop, hs, FeedEnd.state] using ht
      | closed => simpa [feedLoop, hs, FeedEnd.state] using ht
      | consumed =>
        have hfr : t.frv = false := by
          rcases frStep_cases hs with ⟨-, -, rfl, -⟩ | ⟨-, -, rfl, -⟩ | ⟨-, -, -, -, rfl, -⟩ | ⟨-, -, -, -, h⟩ |
            ⟨-, -, -, rfl, -⟩ | ⟨-, -, -, rfl, -⟩ | ⟨-, -, rfl, -⟩ | ⟨-, -, rfl, -⟩ <;>
            first | exact hv | exact absurd h (by simp)
        simpa [feedLoop, hs] using ih (k + 1) t ht hfr

/-- A block feed changes the framer's registers and MEM alone. -/
theorem feedLoop_frame (P : Params) (src n k : Nat) (s : State) :
    { (feedLoop P src n k s).state with
      frs := s.frs, frv := s.frv, frLen := s.frLen, frFlen := s.frFlen, dropCnt := s.dropCnt, mem := s.mem } = s := by
  induction n generalizing k s with
  | zero => rfl
  | succ n ih =>
    cases hs : frStep P (s.byteAt (src + k)) s with
    | mk t r =>
      have hf := frStep_frame hs
      cases r with
      | overflow => simpa [feedLoop, hs, FeedEnd.state] using hf
      | closed => simpa [feedLoop, hs, FeedEnd.state] using hf
      | consumed =>
        have h2 := ih (k + 1) t
        simp only [feedLoop, hs]
        rw [← hf]
        conv_rhs => rw [← h2]

/-! How a block feed goes on after its first byte. -/

theorem feedLoop_consumed {P : Params} {src n k : Nat} {s t : State}
    (h : frStep P (s.byteAt (src + k)) s = (t, .consumed)) :
    feedLoop P src (n + 1) k s = feedLoop P src n (k + 1) t := by
  simp only [feedLoop, h]

theorem feedLoop_closed {P : Params} {src n k : Nat} {s t : State}
    (h : frStep P (s.byteAt (src + k)) s = (t, .closed)) :
    feedLoop P src (n + 1) k s = .done t (k + 1) true := by
  simp only [feedLoop, h]

theorem feedLoop_overflow {P : Params} {src n k : Nat} {s t : State}
    (h : frStep P (s.byteAt (src + k)) s = (t, .overflow)) :
    feedLoop P src (n + 1) k s = .overflowed t k := by
  simp only [feedLoop, h]

/-- Change the state a block feed ends in. -/
def FeedEnd.mapState (f : State → State) : FeedEnd → FeedEnd
  | .done t k closed => .done (f t) k closed
  | .overflowed t k => .overflowed (f t) k

/-- Count bytes consumed before. -/
def FeedEnd.addBytes (d : Nat) : FeedEnd → FeedEnd
  | .done t k closed => .done t (d + k) closed
  | .overflowed t k => .overflowed t (d + k)

/-- A block feed reads and writes the framer's part of the state alone. -/
theorem feedLoop_withFramerOf (P : Params) (src n k : Nat) (o s : State) :
    feedLoop P src n k (o.withFramerOf s) = (feedLoop P src n k s).mapState o.withFramerOf := by
  induction n generalizing k s with
  | zero => rfl
  | succ n ih =>
    have hb : (o.withFramerOf s).byteAt (src + k) = s.byteAt (src + k) := rfl
    cases h : frStep P (s.byteAt (src + k)) s with
    | mk t r =>
      have h2 := frStep_withFramerOf P (s.byteAt (src + k)) o s
      rw [h, ← hb] at h2
      cases r with
      | consumed => rw [feedLoop_consumed h2, feedLoop_consumed h, ih]
      | closed => rw [feedLoop_closed h2, feedLoop_closed h]; rfl
      | overflow => rw [feedLoop_overflow h2, feedLoop_overflow h]; rfl

/-- A block feed of `m + n` bytes is one of `m` bytes and, if that closes no frame, one of the other `n`. -/
theorem feedLoop_add (P : Params) (src m n k : Nat) (s : State) :
    feedLoop P src (m + n) k s =
      match feedLoop P src m k s with
      | .done t k' false => feedLoop P src n k' t
      | e => e := by
  induction m generalizing k s with
  | zero => simp [feedLoop]
  | succ m ih =>
    cases h : frStep P (s.byteAt (src + k)) s with
    | mk t r =>
      rw [show m + 1 + n = m + n + 1 by omega]
      cases r with
      | consumed => rw [feedLoop_consumed h, feedLoop_consumed h, ih]
      | closed => rw [feedLoop_closed h, feedLoop_closed h]
      | overflow => rw [feedLoop_overflow h, feedLoop_overflow h]

/-- Where a block feed starts counting changes the counts alone. -/
theorem feedLoop_shift (P : Params) (src d n k : Nat) (s : State) :
    feedLoop P src n (d + k) s = (feedLoop P (src + d) n k s).addBytes d := by
  induction n generalizing k s with
  | zero => rfl
  | succ n ih =>
    cases h : frStep P (s.byteAt (src + d + k)) s with
    | mk t r =>
      have h' := h
      rw [Nat.add_assoc] at h'
      cases r with
      | consumed => rw [feedLoop_consumed h, feedLoop_consumed h', Nat.add_assoc d, ih]
      | closed => rw [feedLoop_closed h, feedLoop_closed h']; simp [FeedEnd.addBytes, Nat.add_assoc]
      | overflow => rw [feedLoop_overflow h, feedLoop_overflow h']; rfl

/-- A block feed that closes no frame consumes every byte. -/
theorem feedLoop_done_all {P : Params} {src n k k' : Nat} {s t : State}
    (h : feedLoop P src n k s = .done t k' false) : k' = k + n := by
  induction n generalizing k s with
  | zero => simp [feedLoop] at h; omega
  | succ n ih =>
    cases h2 : frStep P (s.byteAt (src + k)) s with
    | mk u r =>
      cases r with
      | consumed => rw [feedLoop_consumed h2] at h; have := ih h; omega
      | closed => rw [feedLoop_closed h2] at h; simp at h
      | overflow => rw [feedLoop_overflow h2] at h; simp at h

end Sys2Proof.Machine
end

