-- ==== Sys2Proof/Laws/Codec.lean ====
section
/-! SUPPORT. The byte-level codecs: big-endian values, escape and unescape, XOR (R10, R11, R140, R141, R160). -/

namespace Sys2Proof.Machine

/-! ## Big-endian values (R10) -/

@[simp] theorem length_be16 (v : Half) : (be16 v).length = 2 := rfl
@[simp] theorem length_be32 (v : Word) : (be32 v).length = 4 := rfl

@[simp] theorem length_beBytes (n v : Nat) : (beBytes n v).length = n := by
  induction n generalizing v with
  | zero => rfl
  | succ n ih => simp [beBytes, ih]

theorem be16At_be16 (v : Half) (t : List Byte) : be16At (be16 v ++ t) 0 = v := by
  simp only [be16At, byteOf, be16, List.cons_append, List.nil_append, List.getD_cons_zero, List.getD_cons_succ]
  apply BitVec.eq_of_getLsbD_eq
  intro i hi
  simp only [BitVec.getLsbD_append, BitVec.getLsbD_extractLsb']
  by_cases h : i < 8
  · simp [h]
  · simp [h, show i - 8 < 8 by omega, show 8 + (i - 8) = i by omega]

theorem be32At_be32 (v : Word) (t : List Byte) : be32At (be32 v ++ t) 0 = v := by
  simp only [be32At, byteOf, be32, List.cons_append, List.nil_append, List.getD_cons_zero, List.getD_cons_succ]
  apply BitVec.eq_of_getLsbD_eq
  intro i hi
  simp only [BitVec.getLsbD_append, BitVec.getLsbD_extractLsb']
  by_cases h : i < 8
  · simp [h]
  · by_cases h2 : i - 8 < 8
    · simp [h, h2, show 8 + (i - 8) = i by omega]
    · by_cases h3 : i - 8 - 8 < 8
      · simp [h, h2, h3, show 16 + (i - 8 - 8) = i by omega]
      · simp [h, h2, h3, show i - 8 - 8 - 8 < 8 by omega, show 24 + (i - 8 - 8 - 8) = i by omega]

/-- Reading within an appended tail. -/
theorem byteOf_append_right (s t : List Byte) (k : Nat) : byteOf (s ++ t) (s.length + k) = byteOf t k := by
  simp [byteOf, List.getD_eq_getElem?_getD, List.getElem?_append_right]

theorem be16At_append_right (s t : List Byte) (k : Nat) : be16At (s ++ t) (s.length + k) = be16At t k := by
  simp only [be16At, byteOf_append_right, Nat.add_assoc]

theorem be32At_append_right (s t : List Byte) (k : Nat) : be32At (s ++ t) (s.length + k) = be32At t k := by
  simp only [be32At, byteOf_append_right, Nat.add_assoc]

/-! ## Escape and unescape (R140, R141) -/

@[simp] theorem escape_nil : escape [] = [] := rfl

theorem escape_cons (b : Byte) (t : List Byte) : escape (b :: t) = escapeByte b ++ escape t := rfl

theorem escape_append (s t : List Byte) : escape (s ++ t) = escape s ++ escape t := by
  induction s with
  | nil => rfl
  | cons b s ih => simp [escape, ih]

/-! The cases of `unescapeFrom` (R141). -/

theorem unescapeFrom_delim (i : Nat) (t : List Byte) : unescapeFrom i (delim :: t) = .error i := by
  rw [unescapeFrom.eq_def]; rfl

theorem unescapeFrom_escape_end (i : Nat) : unescapeFrom i [escByte] = .error i := by
  rw [unescapeFrom.eq_def]; rfl

theorem unescapeFrom_escape_escape (i : Nat) (t : List Byte) :
    unescapeFrom i (escByte :: 0x01 :: t) = consResult escByte (unescapeFrom (i + 2) t) := by
  rw [unescapeFrom.eq_def]; rfl

theorem unescapeFrom_escape_delim (i : Nat) (t : List Byte) :
    unescapeFrom i (escByte :: 0x02 :: t) = consResult delim (unescapeFrom (i + 2) t) := by
  rw [unescapeFrom.eq_def]; rfl

theorem unescapeFrom_escape_bad (i : Nat) (c : Byte) (t : List Byte) (h1 : c ≠ 0x01) (h2 : c ≠ 0x02) :
    unescapeFrom i (escByte :: c :: t) = .error i := by
  rw [unescapeFrom.eq_def]
  have h : escByte ≠ delim := by decide
  simp only [if_neg h, if_neg h1, if_neg h2, if_true]

theorem unescapeFrom_plain (i : Nat) (b : Byte) (t : List Byte) (h1 : b ≠ delim) (h2 : b ≠ escByte) :
    unescapeFrom i (b :: t) = consResult b (unescapeFrom (i + 1) t) := by
  rw [unescapeFrom.eq_def]
  simp only [if_neg h1, if_neg h2]

/-- The offset an unescape reports counts from where it started. -/
theorem unescapeFrom_shift (i : Nat) (t : List Byte) :
    unescapeFrom i t =
      match unescapeFrom 0 t with
      | .ok u => .ok u
      | .error j => .error (i + j) := by
  induction h : t.length using Nat.strong_induction_on generalizing i t with
  | _ n ih =>
    have go : ∀ (c : Byte) (t' : List Byte) (k : Nat), t'.length < n →
        consResult c (unescapeFrom (i + k) t') =
          match consResult c (unescapeFrom (0 + k) t') with
          | .ok u => .ok u
          | .error j => .error (i + j) := by
      intro c t' k hl
      rw [ih _ hl (i + k) t' rfl, ih _ hl (0 + k) t' rfl]
      cases unescapeFrom 0 t' <;> simp [consResult, Nat.add_assoc]
    cases t with
    | nil => rfl
    | cons b t =>
      have hlen : t.length < n := by rw [← h]; simp
      by_cases h1 : b = delim
      · subst h1; simp only [unescapeFrom_delim, Nat.add_zero]
      · by_cases h2 : b = escByte
        · subst h2
          cases t with
          | nil => simp only [unescapeFrom_escape_end, Nat.add_zero]
          | cons c t =>
            have hl : t.length < n := by simp at hlen; omega
            by_cases hc1 : c = 0x01
            · subst hc1
              rw [unescapeFrom_escape_escape, unescapeFrom_escape_escape]
              exact go _ _ 2 hl
            · by_cases hc2 : c = 0x02
              · subst hc2
                rw [unescapeFrom_escape_delim, unescapeFrom_escape_delim]
                exact go _ _ 2 hl
              · simp only [unescapeFrom_escape_bad _ _ _ hc1 hc2, Nat.add_zero]
        · rw [unescapeFrom_plain _ _ _ h1 h2, unescapeFrom_plain _ _ _ h1 h2]
          exact go _ _ 1 hlen

/-! ## XOR (R11, R160) -/

theorem xorAll_append (s t : List Byte) : xorAll (s ++ t) = xorAll s ^^^ xorAll t := by
  induction s with
  | nil => simp [xorAll]
  | cons b s ih => simp [xorAll, ih, BitVec.xor_assoc]

@[simp] theorem xorAll_singleton (b : Byte) : xorAll [b] = b := by simp [xorAll]

end Sys2Proof.Machine
end

