-- ==== Sys2Proof/Laws/Tlv.lean ====
section
/-! SUPPORT. The tagged-list walk, without its bound (R240). -/

namespace Sys2Proof.Machine

/-- A larger bound changes nothing once the bound covers the list: every item takes at least one byte. -/
theorem tlvFrom_fuel (T : TlvShape) (base : Nat) (t : List Byte) (m n o : Nat) (hm : t.length ≤ m)
    (hn : t.length ≤ n) : tlvFrom T base m o t = tlvFrom T base n o t := by
  induction m generalizing n o t with
  | zero =>
    have : t = [] := by simpa using hm
    subst this
    cases n <;> simp [tlvFrom]
  | succ m ih =>
    cases n with
    | zero =>
      have : t = [] := by simpa using hn
      subst this
      simp [tlvFrom]
    | succ n =>
      by_cases ht : t = []
      · simp [tlvFrom, ht]
      · simp only [tlvFrom, ht, if_false]
        split
        · rfl
        · split
          · rfl
          · have h0 : 0 < t.length := List.length_pos_iff.2 ht
            have hl : (t.drop (tlvItemLen T t)).length + 1 ≤ t.length := by
              simp only [List.length_drop, tlvItemLen]; omega
            rw [ih _ n _ (by omega) (by omega)]

/-- The walk of R240: its next item, then the rest. -/
theorem tlvFrom_eq (T : TlvShape) (base o : Nat) (t : List Byte) :
    tlvFrom T base t.length o t =
      if t = [] then .ok []
      else if t.length < T.idWidth + 1 then .error o
      else if t.length < tlvItemLen T t then .error o
      else consRecord (tlvItem T base o t)
        (tlvFrom T base (t.drop (tlvItemLen T t)).length (o + tlvItemLen T t) (t.drop (tlvItemLen T t))) := by
  cases t with
  | nil => simp [tlvFrom]
  | cons b t =>
    simp only [List.length_cons, tlvFrom, reduceCtorEq, if_false]
    split
    · rfl
    · split
      · rfl
      · rw [tlvFrom_fuel T base _ t.length]
        · simp only [List.length_drop, tlvItemLen, List.length_cons]; omega
        · exact Nat.le_refl _

/-- What the walk can do to an item list: it yields a record, or it fails at this item or in the rest. -/
theorem consRecord_ok_iff {r : TlvRecord} {x : Except Nat (List TlvRecord)} {rs : List TlvRecord} :
    consRecord r x = .ok rs ↔ ∃ t, x = .ok t ∧ rs = r :: t := by
  cases x <;> simp [consRecord, eq_comm]

theorem length_encoded (fit : Nat → Word) (r : TlvRecord) : (r.encoded fit).length = 16 := rfl

theorem length_pointEncoded (p : RoutePoint) : p.encoded.length = 32 := rfl

theorem length_tlvBytes (s : State) (rs : List TlvRecord) : (tlvBytes s rs).length = 16 * rs.length := by
  induction rs with
  | nil => rfl
  | cons r rs ih =>
    simp only [tlvBytes, joinRecords, List.map_cons, List.flatten_cons, List.length_append, length_encoded,
      List.length_cons] at ih ⊢
    omega

theorem length_pointBytes (ps : List RoutePoint) : (pointBytes ps).length = 32 * ps.length := by
  induction ps with
  | nil => rfl
  | cons p ps ih =>
    simp only [pointBytes, joinRecords, List.map_cons, List.flatten_cons, List.length_append, length_pointEncoded,
      List.length_cons] at ih ⊢
    omega

end Sys2Proof.Machine
end

