-- ==== Sys2Proof/Laws/Commands.lean ====
section
/-! SUPPORT. One lemma per command: everything its computation can give. Later proofs cite these and unfold none of
the computations. -/

namespace Sys2Proof.Machine

/-- The buffer checks of R67 and R68, as facts. -/
def BuffersOk (P : Params) (s : State) (cap : Nat) : Prop :=
  region P s.src s.srcLen = true ∧ region P s.dst cap = true ∧ overlap s.src s.srcLen s.dst cap = false

theorem needBuffers_ok {P : Params} {s : State} {cap : Nat} {u : Unit} :
    needBuffers P s cap = .ok u ↔ BuffersOk P s cap := needBuffers_ok_iff

/-- The answer of a computation, as the state it gives. -/
theorem ok_next_iff {s t : State} : (Except.ok s : Except Raise State) = .ok t ↔ t = s := by
  simp [eq_comm]

/-! ## Framer -/

theorem feed_ok_iff {P : Params} {b : Byte} {s t : State} :
    feed P b s = .ok t ↔
      s.frv = false ∧ region P s.frBase.toNat s.frCap.toNat = true ∧
        match frStep P b s with
        | (u, .overflow) => t = u.raise .framing s.frCap.toNat
        | (u, .closed) => t = { u with res0 := 1 }
        | (u, .consumed) => t = { u with res0 := 0 } := by
  simp only [feed, needNoFrame, needWindow, bind_ok_iff, require_ok_iff, needRegion_ok_iff, Bool.not_eq_true']
  cases h : frStep P b s with
  | mk u r => cases r <;> simp [-Except.ok.injEq, ok_next_iff]

theorem feedm_ok_iff {P : Params} {s t : State} :
    feedm P s = .ok t ↔
      s.frv = false ∧ region P s.src s.srcLen = true ∧ region P s.frBase.toNat s.frCap.toNat = true ∧
        overlap s.src s.srcLen s.frBase.toNat s.frCap.toNat = false ∧
        match feedLoop P s.src s.srcLen 0 s with
        | .overflowed u k => t = u.raise .framing k
        | .done u k closed => t = { u with res0 := u.fit k, res1 := if closed then 1 else 0 } := by
  simp only [feedm, needNoFrame, needWindow, bind_ok_iff, require_ok_iff, needRegion_ok_iff, needDisjoint_ok_iff,
    Bool.not_eq_true']
  cases h : feedLoop P s.src s.srcLen 0 s <;> simp [-Except.ok.injEq, ok_next_iff]

/-! ## Escape codec -/

theorem unescapeOr_ok_iff {t u : List Byte} : unescapeOr t = .ok u ↔ unescape t = .ok u := by
  unfold unescapeOr
  cases unescape t <;> simp

theorem writeOutput_ok_iff {out : List Byte} {s t : State} :
    writeOutput out s = .ok t ↔
      out.length ≤ s.dstCap ∧ t = { s.store s.dst out with res0 := s.fit out.length } := by
  simp [writeOutput, bind_ok_iff, needSpace_ok_iff, -Except.ok.injEq, ok_next_iff]

theorem unesc_ok_iff {P : Params} {s t : State} :
    unesc P s = .ok t ↔
      BuffersOk P s s.dstCap ∧ ∃ u, unescape s.source = .ok u ∧ u.length ≤ s.dstCap ∧
        t = { s.store s.dst u with res0 := s.fit u.length } := by
  simp [unesc, bind_ok_iff, needBuffers_ok, unescapeOr_ok_iff, writeOutput_ok_iff]

theorem esc_ok_iff {P : Params} {s t : State} :
    esc P s = .ok t ↔
      BuffersOk P s s.dstCap ∧ (escape s.source).length ≤ s.dstCap ∧
        t = { s.store s.dst (escape s.source) with res0 := s.fit (escape s.source).length } := by
  simp [esc, bind_ok_iff, needBuffers_ok, writeOutput_ok_iff]

theorem fwrap_ok_iff {P : Params} {s t : State} :
    fwrap P s = .ok t ↔
      BuffersOk P s s.dstCap ∧ (wireFrame s.source).length ≤ s.dstCap ∧
        t = { s.store s.dst (wireFrame s.source) with res0 := s.fit (wireFrame s.source).length } := by
  simp [fwrap, bind_ok_iff, needBuffers_ok, writeOutput_ok_iff]

/-! ## Checksum -/

theorem needChecksum_ok_iff {c r : Byte} {u : Unit} : needChecksum c r = .ok u ↔ c = r := by
  simp [needChecksum, require_ok_iff]

theorem xsum_ok_iff {P : Params} {s t : State} :
    xsum P s = .ok t ↔
      region P s.src s.srcLen = true ∧ t = { s with res0 := (xorAll s.source).setWidth 32 } := by
  simp [xsum, bind_ok_iff, needRegion_ok_iff, -Except.ok.injEq, ok_next_iff]

theorem xchk_ok_iff {P : Params} {s t : State} :
    xchk P s = .ok t ↔
      region P s.src s.srcLen = true ∧ s.srcLen ≠ 0 ∧
        xorAll (s.bytesAt s.src (s.srcLen - 1)) = s.byteAt (s.src + s.srcLen - 1) ∧
        t = { s with res0 := (xorAll (s.bytesAt s.src (s.srcLen - 1))).setWidth 32 } := by
  simp [xchk, bind_ok_iff, needRegion_ok_iff, require_ok_iff, needChecksum_ok_iff, -Except.ok.injEq, ok_next_iff]

theorem xapp_ok_iff {P : Params} {s t : State} :
    xapp P s = .ok t ↔
      region P s.src (s.srcLen + 1) = true ∧
        t = { s.store (s.src + s.srcLen) [xorAll s.source] with
          res0 := (xorAll s.source).setWidth 32, res1 := s.fit (s.srcLen + 1) } := by
  simp [xapp, bind_ok_iff, needRegion_ok_iff, -Except.ok.injEq, ok_next_iff]

/-! ## Attribute words and flag words -/

theorem aget_ok_iff {f : AttrField} {s t : State} :
    aget f s = .ok t ↔ s.arg0.extractLsb' 16 16 = 0 ∧ t = { s with res0 := getAttrField f s.arg0 } := by
  simp [aget, needHalf, bind_ok_iff, require_ok_iff, -Except.ok.injEq, ok_next_iff]

theorem aset_ok_iff {f : AttrField} {s t : State} :
    aset f s = .ok t ↔
      s.arg0.extractLsb' 16 16 = 0 ∧ s.arg1.toNat < 2 ^ f.width ∧
        t = { s with res0 := setAttrField f s.arg0 s.arg1 } := by
  simp [aset, needHalf, bind_ok_iff, require_ok_iff, -Except.ok.injEq, ok_next_iff]

theorem bput_ok_iff {i : Nat} {s t : State} :
    bput i s = .ok t ↔ s.arg1.toNat ≤ 1 ∧ t = { s with res0 := putBit s.arg0 i s.arg1 } := by
  simp [bput, bind_ok_iff, require_ok_iff, -Except.ok.injEq, ok_next_iff]

theorem fext_ok_iff {lsb width : Nat} {s t : State} :
    fext lsb width s = .ok t ↔ lsb + width ≤ 32 ∧ t = { s with res0 := extractField s.arg0 lsb width } := by
  simp [fext, needField, bind_ok_iff, require_ok_iff, -Except.ok.injEq, ok_next_iff]

theorem fins_ok_iff {lsb width : Nat} {s t : State} :
    fins lsb width s = .ok t ↔
      lsb + width ≤ 32 ∧ s.arg1.toNat ≤ (fieldMask width).toNat ∧
        t = { s with res0 := insertField s.arg0 lsb width s.arg1 } := by
  simp [fins, needField, bind_ok_iff, require_ok_iff, -Except.ok.injEq, ok_next_iff]

/-! ## Header and packets -/

theorem hdec_ok_iff {P : Params} {s t : State} :
    hdec P s = .ok t ↔
      region P s.src s.srcLen = true ∧ ∃ h, parseHeader P s.source = .ok h ∧
        t = { s with
          hdr := h.regs, res0 := s.fit (s.src + h.hl), res1 := s.fit h.blen, res2 := v2019Flag h.regs.attr } := by
  simp [hdec, bind_ok_iff, needRegion_ok_iff, -Except.ok.injEq, ok_next_iff]

theorem henc_ok_iff {P : Params} {v : Version} {f : Bool} {s t : State} :
    henc P v f s = .ok t ↔
      region P s.dst s.dstCap = true ∧ s.srcLen ≤ maxBody ∧ identFits s.hdr v = true ∧
        (buildHeader s.hdr v f s.srcLen s.hdr.ftot s.hdr.fidx).length ≤ s.dstCap ∧
        t = { s.store s.dst (buildHeader s.hdr v f s.srcLen s.hdr.ftot s.hdr.fidx) with
          hdr := { s.hdr with
            attr := buildAttr s.hdr v f s.srcLen
            hlen := BitVec.ofNat 5 (buildHeader s.hdr v f s.srcLen s.hdr.ftot s.hdr.fidx).length }
          res0 := BitVec.ofNat 32 (buildHeader s.hdr v f s.srcLen s.hdr.ftot s.hdr.fidx).length
          res1 := (buildAttr s.hdr v f s.srcLen).setWidth 32 } := by
  simp [henc, bind_ok_iff, needRegion_ok_iff, require_ok_iff, needSpace_ok_iff, -Except.ok.injEq, ok_next_iff]

theorem fdec_ok_iff {P : Params} {s t : State} :
    fdec P s = .ok t ↔
      BuffersOk P s s.dstCap ∧ ∃ u, unescape s.source = .ok u ∧ u.length ≠ 0 ∧
        xorAll (u.take (u.length - 1)) = byteOf u (u.length - 1) ∧
        ∃ h, parseHeader P (u.take (u.length - 1)) = .ok h ∧ u.length ≤ s.dstCap ∧
          t = { s.store s.dst u with
            hdr := h.regs, res0 := s.fit (s.dst + h.hl), res1 := s.fit h.blen, res2 := v2019Flag h.regs.attr,
            res3 := s.fit u.length } := by
  simp [fdec, bind_ok_iff, needBuffers_ok, unescapeOr_ok_iff, require_ok_iff, needChecksum_ok_iff, needSpace_ok_iff,
    -Except.ok.injEq, ok_next_iff]

theorem penc_ok_iff {P : Params} {v : Version} {s t : State} :
    penc P v s = .ok t ↔
      BuffersOk P s s.dstCap ∧ identFits s.hdr v = true ∧ chunkCount s.srcLen ≤ 65535 ∧
        (packetFrames s.hdr v s.source).length ≤ s.dstCap ∧
        t = { s.store s.dst (packetFrames s.hdr v s.source) with
          res0 := s.fit (packetFrames s.hdr v s.source).length, res1 := s.fit (chunkCount s.srcLen) } := by
  simp [penc, bind_ok_iff, needBuffers_ok, require_ok_iff, needSpace_ok_iff, -Except.ok.injEq, ok_next_iff]

/-! ## Timestamps, lists, the position report -/

theorem stampOr_ok_iff {k : Nat} {t : List Byte} {v : Stamp} : stampOr k t = .ok v ↔ bcdDecode6 t = .ok v := by
  unfold stampOr
  cases bcdDecode6 t <;> simp

theorem bcddec_ok_iff {P : Params} {s t : State} :
    bcddec P s = .ok t ↔
      region P s.src 6 = true ∧ ∃ v, bcdDecode6 (s.bytesAt s.src 6) = .ok v ∧
        t = { s with res0 := v.date.setWidth 32, res1 := v.time.setWidth 32 } := by
  simp [bcddec, bind_ok_iff, needRegion_ok_iff, stampOr_ok_iff, -Except.ok.injEq, ok_next_iff]

theorem bcdenc_ok_iff {P : Params} {s t : State} :
    bcdenc P s = .ok t ↔
      region P s.dst 6 = true ∧ bcdFieldsOk s.arg0 = true ∧ bcdFieldsOk s.arg1 = true ∧
        t = s.store s.dst (bcdEncode6 s.arg0 s.arg1) := by
  simp [bcdenc, bind_ok_iff, needRegion_ok_iff, require_ok_iff, -Except.ok.injEq, ok_next_iff]

theorem tlvWalkOr_ok_iff {T : TlvShape} {base k : Nat} {t : List Byte} {rs : List TlvRecord} :
    tlvWalkOr T base k t = .ok rs ↔ tlvWalk T base t = .ok rs := by
  unfold tlvWalkOr
  cases tlvWalk T base t <;> simp

theorem decodeList_ok_iff {P : Params} {T : TlvShape} {s t : State} :
    decodeList P T s = .ok t ↔
      BuffersOk P s (16 * s.dstCap) ∧ ∃ rs, tlvWalk T s.src s.source = .ok rs ∧ rs.length ≤ s.dstCap ∧
        t = { s.store s.dst (tlvBytes s rs) with res0 := s.fit rs.length, res1 := s.arg1 } := by
  simp [decodeList, bind_ok_iff, needBuffers_ok, tlvWalkOr_ok_iff, needSpace_ok_iff, -Except.ok.injEq, ok_next_iff]

theorem posdec_ok_iff {P : Params} {s t : State} :
    posdec P s = .ok t ↔
      BuffersOk P s (16 * s.dstCap) ∧ coreLen ≤ s.srcLen ∧
        ∃ v, bcdDecode6 (sliceOf s.source 22 28) = .ok v ∧
        ∃ rs, tlvWalk (auxShape P) (s.src + coreLen) (s.source.drop coreLen) = .ok rs ∧ rs.length ≤ s.dstCap ∧
          t = { s.store s.dst (tlvBytes s rs) with
            pos := positionRegs s.source v (s.fit rs.length), res0 := s.fit rs.length,
            res1 := s.fit (s.srcLen - coreLen) } := by
  simp [posdec, bind_ok_iff, needBuffers_ok, require_ok_iff, stampOr_ok_iff, tlvWalkOr_ok_iff, needSpace_ok_iff,
    -Except.ok.injEq, ok_next_iff]

/-! ## Geofences -/

theorem needGeoBuffers_ok_iff {P : Params} {shape : Shape} {s : State} {u : Unit} :
    needGeoBuffers P shape s = .ok u ↔
      if shape = .polyline then BuffersOk P s (32 * s.dstCap) else region P s.src s.srcLen = true := by
  unfold needGeoBuffers
  split <;> simp [needBuffers_ok, needRegion_ok_iff]

theorem writePoints_ok_iff {shape : Shape} {ps : List RoutePoint} {s t : State} :
    writePoints shape ps s = .ok t ↔
      if shape = .polyline then ps.length ≤ s.dstCap ∧ t = s.store s.dst (pointBytes ps) else t = s := by
  unfold writePoints
  split <;> simp [bind_ok_iff, needSpace_ok_iff, -Except.ok.injEq, ok_next_iff]

theorem geodec_ok_iff {P : Params} {shape : Shape} {v : Version} {s t : State} :
    geodec P shape v s = .ok t ↔
      (if shape = .polyline then BuffersOk P s (32 * s.dstCap) else region P s.src s.srcLen = true) ∧
        ∃ x, geoParse P (geoInput P s v s.source s.src) shape = .ok x ∧
        ∃ u, (if shape = .polyline then x.recs.length ≤ s.dstCap ∧ u = s.store s.dst (pointBytes x.recs) else u = s) ∧
          t = { u with geo := x.g, res0 := s.fit x.o, res1 := x.g.nPts.setWidth 32 } := by
  simp [geodec, bind_ok_iff, needGeoBuffers_ok_iff, writePoints_ok_iff, -Except.ok.injEq, ok_next_iff]

theorem geoValid_ok_iff {P : Params} {shape : Shape} {v : Version} {s : State} :
    geoValid P shape v s = .ok () ↔
      validTime s.geo = .ok () ∧ validPoints P shape s.geo = .ok () ∧ validName P v s.geo = .ok () ∧
        validBlock P shape v s = .ok () := by
  simp only [geoValid, bind_ok_iff]
  constructor
  · rintro ⟨_, h1, _, h2, _, h3, h4⟩; exact ⟨h1, h2, h3, h4⟩
  · rintro ⟨h1, h2, h3, h4⟩; exact ⟨(), h1, (), h2, (), h3, h4⟩

theorem geoenc_ok_iff {P : Params} {shape : Shape} {v : Version} {s t : State} :
    geoenc P shape v s = .ok t ↔
      region P s.dst s.dstCap = true ∧ geoValid P shape v s = .ok () ∧
        (hasPoints shape && overlap s.dst s.dstCap s.geo.ptsAddr.toNat s.geo.ptsLen.toNat) = false ∧
        ((v == .v2019) && overlap s.dst s.dstCap s.geo.nameAddr.toNat s.geo.nameLen.toNat) = false ∧
        (geoItem P shape v s).length ≤ s.dstCap ∧
        t = { s.store s.dst (geoItem P shape v s) with res0 := s.fit (geoItem P shape v s).length } := by
  simp only [geoenc, bind_ok_iff, needRegion_ok_iff, require_ok_iff, needSpace_ok_iff, Bool.not_eq_true',
    ok_next_iff]
  constructor
  · rintro ⟨_, h1, _, h2, _, h3, _, h4, _, h5, h6⟩; exact ⟨h1, h2, h3, h4, h5, h6⟩
  · rintro ⟨h1, h2, h3, h4, h5, h6⟩; exact ⟨(), h1, (), h2, (), h3, (), h4, (), h5, h6⟩

end Sys2Proof.Machine
end

