-- ==== Sys2Proof/Laws/Claims.lean ====
section
/-! SUPPORT. The vocabulary of Safety.lean, tied to the operations: when a command fails, what a store leaves, the checks
as facts about addresses. -/

namespace Sys2Proof.Machine

/-- A command whose computation raises an error fails with it (R306). -/
theorem failsWith_of {i : Instr} {f : State → Except Raise State} {s : State} {c : ErrCode} {n : Nat}
    (he : exec i s = runCommand f s) (h : f s.begin = .error ⟨c, n⟩) : FailsWith i s c n :=
  ⟨s.raise c n, by rw [he, runCommand_error h], rfl, fun hn => s.fit_of_lt hn, rfl, fun _ => rfl⟩

theorem region_iff_inMem {a n : Nat} : region Config.params a n = true ↔ InMem a n := region_iff _ _ _

theorem region_false_iff_inMem {a n : Nat} : region Config.params a n = false ↔ ¬InMem a n := by
  rw [← region_iff_inMem]; simp

theorem overlap_false_iff_apart {a n b m : Nat} : overlap a n b m = false ↔ Apart a n b m := overlap_false_iff _ _ _ _

theorem overlap_iff_not_apart {a n b m : Nat} : overlap a n b m = true ↔ ¬Apart a n b m := by
  rw [← overlap_false_iff_apart]; simp

theorem buffersOk_iff {s : State} {cap : Nat} : BuffersOk Config.params s cap ↔ BuffersIn s cap := by
  simp [BuffersOk, BuffersIn, region_iff_inMem, overlap_false_iff_apart]

/-- What stands in MEM after a store. -/
theorem stored_store (s : State) (d : Nat) (bs : List Byte) : Stored s (s.store d bs) d bs :=
  ⟨fun _ h => s.byteAt_store_inside d _ bs h, fun a h => s.byteAt_store_outside d a bs h⟩

theorem stored_of {s t : State} {d : Nat} {bs : List Byte} (hm : t.mem = (s.store d bs).mem)
    (he : t.memEpoch = s.memEpoch) : Stored s t d bs := by
  obtain ⟨h1, h2⟩ := stored_store s d bs
  have h : ∀ a, t.byteAt a = (s.store d bs).byteAt a := fun a => State.byteAt_congr hm he a
  exact ⟨fun k hk => by rw [h, h1 k hk], fun a ha => by rw [h, h2 a ha]⟩

/-- Storing nothing leaves every byte. -/
theorem stored_nil {s t : State} {d : Nat} : Stored s t d [] ↔ SameMemory s t := by
  constructor
  · intro h a
    exact h.2 a (by simp; omega)
  · intro h
    exact ⟨fun k hk => absurd hk (by simp), fun a _ => h a⟩

theorem sameMemory_of {s t : State} (hm : t.mem = s.mem) (he : t.memEpoch = s.memEpoch) : SameMemory s t :=
  fun a => State.byteAt_congr hm he a

/-- The register tables list every register at its offset with what it reads. -/
theorem registerTable_eq (s : State) : registerTable s = allRegs.map (fun r => (r.offset, (s.readReg r).toNat)) := by
  simp only [registerTable, allRegs, List.map, Reg.offset, State.readReg, BitVec.toNat_setWidth]
  repeat' first | rfl | (congr 1; done) | (congr 2; omega) | congr 1

/-! ## The saturating count of dropped bytes -/

theorem dropByte_eq (s : State) : s.dropByte = { s with dropCnt := satAdd s.dropCnt 1 } := by
  have h : (if s.dropCnt = 0xFFFFFFFF then 0xFFFFFFFF else s.dropCnt + 1) = satAdd s.dropCnt 1 := by
    unfold satAdd
    apply BitVec.eq_of_toNat_eq
    have := s.dropCnt.isLt
    split
    · rename_i h; rw [h]; decide
    · rename_i h
      have h2 : s.dropCnt.toNat ≠ 0xFFFFFFFF := fun h3 => h (BitVec.eq_of_toNat_eq h3)
      rw [BitVec.toNat_add, BitVec.toNat_ofNat, Nat.min_eq_left (by omega)]
      simp
  unfold State.dropByte
  rw [h]

theorem satAdd_satAdd (c : Word) (m n : Nat) : satAdd (satAdd c m) n = satAdd c (m + n) := by
  unfold satAdd
  congr 1
  rw [BitVec.toNat_ofNat, Nat.mod_eq_of_lt (by omega)]
  omega

theorem satAdd_zero (c : Word) : satAdd c 0 = c := by
  unfold satAdd
  have := c.isLt
  rw [Nat.add_zero, Nat.min_eq_left (by omega)]
  simp

end Sys2Proof.Machine
end

