-- ==== Sys2Proof/Laws/Encoding.lean ====
section
/-! SUPPORT. Lemmas about the fields of a command word (30_encoding.md R81, R82, R88). -/

namespace Sys2Proof

/-- A word is made of its four fields. -/
theorem word_fields (w : Word) :
    w = commandWord (immField w).toNat (selField w).toNat (opcField w).toNat ||| ((rsvField w).setWidth 32 <<< 12) := by
  apply BitVec.eq_of_getLsbD_eq
  intro i hi
  simp only [commandWord, immField, selField, opcField, rsvField, BitVec.ofNat_toNat, BitVec.getLsbD_or,
    BitVec.getLsbD_shiftLeft, BitVec.getLsbD_setWidth, BitVec.getLsbD_extractLsb', hi, decide_true, Bool.true_and]
  by_cases h1 : i < 8
  · simp [h1, show i < 16 by omega, show i < 12 by omega]
  · by_cases h2 : i < 12
    · simp [h1, h2, show i < 16 by omega, show i - 8 < 4 by omega, show i - 8 < 32 by omega,
        show 8 + (i - 8) = i by omega]
    · by_cases h3 : i < 16
      · simp [h1, h2, h3, show ¬ (i - 8 < 4) by omega, show i - 12 < 4 by omega, show i - 12 < 32 by omega,
          show 12 + (i - 12) = i by omega]
      · simp [h1, h2, h3, show ¬ (i - 8 < 4) by omega, show ¬ (i - 12 < 4) by omega, show i - 16 < 16 by omega,
          show i - 16 < 32 by omega, show 16 + (i - 16) = i by omega]

/-- With `RSV = 0` the other three fields determine the word. -/
theorem commandWord_of_fields (w : Word) (h : rsvField w = 0) (o s m : Nat) (ho : (opcField w).toNat = o)
    (hs : (selField w).toNat = s) (hm : (immField w).toNat = m) : commandWord m s o = w := by
  rw [word_fields w, h, ho, hs, hm]
  simp

/-- Putting two numbers side by side in binary. -/
theorem shiftLeft_or_eq (a b k : Nat) (h : b < 2 ^ k) : (a <<< k) ||| b = a * 2 ^ k + b := by
  rw [Nat.shiftLeft_eq, Nat.mul_comm, Nat.two_pow_add_eq_or_of_lt h]

theorem opcField_and (a b : Word) : opcField (a &&& b) = opcField a &&& opcField b := by
  simp [opcField, BitVec.extractLsb'_and]

theorem selField_and (a b : Word) : selField (a &&& b) = selField a &&& selField b := by
  simp [selField, BitVec.extractLsb'_and]

theorem rsvField_and (a b : Word) : rsvField (a &&& b) = rsvField a &&& rsvField b := by
  simp [rsvField, BitVec.extractLsb'_and]

theorem immField_and (a b : Word) : immField (a &&& b) = immField a &&& immField b := by
  simp [immField, BitVec.extractLsb'_and]

/-- A word that matches a row matches it in each field. -/
theorem Row.holds_fields {r : Row} {w : Word} (h : r.holds w = true) :
    opcField w &&& opcField r.mask = opcField r.pattern ∧ selField w &&& selField r.mask = selField r.pattern ∧
      rsvField w &&& rsvField r.mask = rsvField r.pattern ∧ immField w &&& immField r.mask = immField r.pattern := by
  have e : w &&& r.mask = r.pattern := by simpa [Row.holds] using h
  rw [← e, opcField_and, selField_and, rsvField_and, immField_and]
  simp

end Sys2Proof
end

