-- ==== Sys2Proof/Laws/PerInstr.lean ====
section
/-! SUPPORT. Per-instruction facts of the encoding: the word of a well-formed command matches the command's row of
opcode_table.json (30_encoding.md R82, R88). -/

namespace Sys2Proof.Laws

/-- The word of the command matches its row, and its row is in the table. -/
def opcodeRow.Statement (i : Instr) : Prop :=
  i.wellFormed = true → i.row.holds (encode i) = true ∧ i.row ∈ opcodeRows

/-- The row of a bit command, for every bit index. -/
theorem bit_row_holds : ∀ k : Fin 32, ∀ opc ∈ [0x30, 0x31, 0x32, 0x33],
    (Row.mk 0xFFE0FFFF (BitVec.ofNat 32 opc)).holds (commandWord k.val 0 opc) = true := by decide

/-- The row of a field command, for every `lsb` and `width`. -/
theorem field_row_holds : ∀ l w : Fin 32, ∀ opc ∈ [0x34, 0x35],
    (Row.mk 0xFC00FFFF (BitVec.ofNat 32 opc)).holds (commandWord (fieldImm l.val (w.val + 1)) 0 opc) = true := by
  decide +kernel

/-- The row of `FEED`, for every byte. -/
theorem byte_row_holds : ∀ b : Fin 256,
    (Row.mk 0xFF00FFFF 0x00000001).holds (commandWord b.val 0 0x01) = true := by decide +kernel

theorem opcodeRow.nop : opcodeRow.Statement .nop := fun _ => by decide

theorem opcodeRow.feed (b : Nat) : opcodeRow.Statement (.feed b) := fun h =>
  ⟨byte_row_holds ⟨b, by simpa [Instr.wellFormed, byteOperandOk] using h⟩, by simp [opcodeRows, Instr.row]⟩

theorem opcodeRow.feedm : opcodeRow.Statement .feedm := fun _ => by decide

theorem opcodeRow.frel : opcodeRow.Statement .frel := fun _ => by decide

theorem opcodeRow.frst : opcodeRow.Statement .frst := fun _ => by decide

theorem opcodeRow.unesc : opcodeRow.Statement .unesc := fun _ => by decide

theorem opcodeRow.esc : opcodeRow.Statement .esc := fun _ => by decide

theorem opcodeRow.fwrap : opcodeRow.Statement .fwrap := fun _ => by decide

theorem opcodeRow.xsum : opcodeRow.Statement .xsum := fun _ => by decide

theorem opcodeRow.xchk : opcodeRow.Statement .xchk := fun _ => by decide

theorem opcodeRow.xapp : opcodeRow.Statement .xapp := fun _ => by decide

theorem opcodeRow.agetSize : opcodeRow.Statement .agetSize := fun _ => by decide

theorem opcodeRow.agetEnc : opcodeRow.Statement .agetEnc := fun _ => by decide

theorem opcodeRow.agetFrag : opcodeRow.Statement .agetFrag := fun _ => by decide

theorem opcodeRow.agetVtag : opcodeRow.Statement .agetVtag := fun _ => by decide

theorem opcodeRow.agetRsvd : opcodeRow.Statement .agetRsvd := fun _ => by decide

theorem opcodeRow.asetSize : opcodeRow.Statement .asetSize := fun _ => by decide

theorem opcodeRow.asetEnc : opcodeRow.Statement .asetEnc := fun _ => by decide

theorem opcodeRow.asetFrag : opcodeRow.Statement .asetFrag := fun _ => by decide

theorem opcodeRow.asetVtag : opcodeRow.Statement .asetVtag := fun _ => by decide

theorem opcodeRow.asetRsvd : opcodeRow.Statement .asetRsvd := fun _ => by decide

theorem opcodeRow.hdec : opcodeRow.Statement .hdec := fun _ => by decide

theorem opcodeRow.henc (v : Version) (f : Bool) : opcodeRow.Statement (.henc v f) := fun _ => by
  cases v <;> cases f <;> decide

theorem opcodeRow.fdec : opcodeRow.Statement .fdec := fun _ => by decide

theorem opcodeRow.penc (v : Version) : opcodeRow.Statement (.penc v) := fun _ => by
  cases v <;> decide

theorem opcodeRow.bset (i : Nat) : opcodeRow.Statement (.bset i) := fun h =>
  ⟨bit_row_holds ⟨i, by simpa [Instr.wellFormed, bitOperandOk] using h⟩ 0x30 (by simp),
    by simp [opcodeRows, Instr.row]⟩

theorem opcodeRow.bclr (i : Nat) : opcodeRow.Statement (.bclr i) := fun h =>
  ⟨bit_row_holds ⟨i, by simpa [Instr.wellFormed, bitOperandOk] using h⟩ 0x31 (by simp),
    by simp [opcodeRows, Instr.row]⟩

theorem opcodeRow.btst (i : Nat) : opcodeRow.Statement (.btst i) := fun h =>
  ⟨bit_row_holds ⟨i, by simpa [Instr.wellFormed, bitOperandOk] using h⟩ 0x32 (by simp),
    by simp [opcodeRows, Instr.row]⟩

theorem opcodeRow.bput (i : Nat) : opcodeRow.Statement (.bput i) := fun h =>
  ⟨bit_row_holds ⟨i, by simpa [Instr.wellFormed, bitOperandOk] using h⟩ 0x33 (by simp),
    by simp [opcodeRows, Instr.row]⟩

theorem opcodeRow.fext (lsb width : Nat) : opcodeRow.Statement (.fext lsb width) := fun h => by
  have h : (lsb < 32 ∧ 1 ≤ width) ∧ width ≤ 32 := by simpa [Instr.wellFormed, fieldOperandOk] using h
  have := field_row_holds ⟨lsb, h.1.1⟩ ⟨width - 1, by omega⟩ 0x34 (by simp)
  simp only [show width - 1 + 1 = width by omega] at this
  exact ⟨this, by simp [opcodeRows, Instr.row]⟩

theorem opcodeRow.fins (lsb width : Nat) : opcodeRow.Statement (.fins lsb width) := fun h => by
  have h : (lsb < 32 ∧ 1 ≤ width) ∧ width ≤ 32 := by simpa [Instr.wellFormed, fieldOperandOk] using h
  have := field_row_holds ⟨lsb, h.1.1⟩ ⟨width - 1, by omega⟩ 0x35 (by simp)
  simp only [show width - 1 + 1 = width by omega] at this
  exact ⟨this, by simp [opcodeRows, Instr.row]⟩

theorem opcodeRow.posdec : opcodeRow.Statement .posdec := fun _ => by decide

theorem opcodeRow.bcddec : opcodeRow.Statement .bcddec := fun _ => by decide

theorem opcodeRow.bcdenc : opcodeRow.Statement .bcdenc := fun _ => by decide

theorem opcodeRow.auxdec : opcodeRow.Statement .auxdec := fun _ => by decide

theorem opcodeRow.pardec : opcodeRow.Statement .pardec := fun _ => by decide

theorem opcodeRow.geodec (shape : Shape) (v : Version) : opcodeRow.Statement (.geodec shape v) := fun _ => by
  cases shape <;> cases v <;> decide

theorem opcodeRow.geoenc (shape : Shape) (v : Version) : opcodeRow.Statement (.geoenc shape v) := fun _ => by
  cases shape <;> cases v <;> decide

/-- No two rows of the table share a word (R82). -/
theorem opcodeRows_disjoint :
    opcodeRows.Pairwise (fun a b => (a.mask &&& b.mask) &&& (a.pattern ^^^ b.pattern) ≠ 0) := by decide

end Sys2Proof.Laws
end

