-- ==== Sys2Proof/Laws/Stream.lean ====
section
/-! SUPPORT. What a block feed does with a run of bytes: bytes outside any frame, a frame's content, the discarded rest
of an oversized frame (R130, R132). -/

namespace Sys2Proof.Machine

/-- MEM reads as `l` from address `a` on. -/
def State.ReadsAt (s : State) (a : Nat) (l : List Byte) : Prop :=
  ∀ j, (h : j < l.length) → s.byteAt (a + j) = l[j]

theorem State.readsAt_source {s : State} {l : List Byte} (h : s.source = l) : s.ReadsAt s.src l := by
  subst h
  intro j hj
  simp [State.source, State.bytesAt_getElem]

theorem State.readsAt_append {s : State} {a : Nat} {l m : List Byte} :
    s.ReadsAt a (l ++ m) ↔ s.ReadsAt a l ∧ s.ReadsAt (a + l.length) m := by
  constructor
  · intro h
    constructor
    · intro j hj
      rw [h j (by simp; omega), List.getElem_append_left hj]
    · intro j hj
      rw [Nat.add_assoc, h (l.length + j) (by simp; omega), List.getElem_append_right (by omega)]
      simp
  · rintro ⟨h1, h2⟩ j hj
    by_cases hl : j < l.length
    · rw [h1 j hl, List.getElem_append_left hl]
    · have hm : j - l.length < m.length := by simp at hj; omega
      rw [List.getElem_append_right (by omega), ← h2 _ hm]
      congr 1
      omega

theorem State.readsAt_cons {s : State} {a : Nat} {b : Byte} {l : List Byte} :
    s.ReadsAt a (b :: l) ↔ s.byteAt a = b ∧ s.ReadsAt (a + 1) l := by
  rw [← List.singleton_append, State.readsAt_append]
  constructor
  · rintro ⟨h1, h2⟩
    exact ⟨by simpa using h1 0 (by simp), h2⟩
  · rintro ⟨h1, h2⟩
    exact ⟨fun j hj => by
      have : j = 0 := by simpa using hj
      subst this
      simpa using h1, h2⟩

/-- Reading the same bytes in a state with the same MEM. -/
theorem State.ReadsAt.congr {s t : State} {a : Nat} {l : List Byte} (h : s.ReadsAt a l)
    (ht : ∀ j < l.length, t.byteAt (a + j) = s.byteAt (a + j)) : t.ReadsAt a l :=
  fun j hj => by rw [ht j hj, h j hj]

theorem State.bytesAt_of_readsAt {s : State} {a : Nat} {l : List Byte} (h : s.ReadsAt a l) :
    s.bytesAt a l.length = l := by
  apply List.ext_getElem (by simp)
  intro k h1 h2
  rw [State.bytesAt_getElem, h k h2]

/-- The length of a delimiter-free run matters only to the addresses: every byte of it is no delimiter. -/
theorem ne_delim {b : Byte} {l : List Byte} (h : delim ∉ b :: l) : b ≠ delim ∧ delim ∉ l := by
  simp only [List.mem_cons, not_or] at h
  exact ⟨fun e => h.1 e.symm, h.2⟩

/-- Bytes outside any frame are dropped and counted. -/
theorem feedLoop_outside (P : Params) (src : Nat) (junk : List Byte) (n k : Nat) (s : State) (hs : s.frs = .hunt)
    (hj : delim ∉ junk) (hr : s.ReadsAt (src + k) junk) :
    feedLoop P src (junk.length + n) k s =
      feedLoop P src n (k + junk.length) { s with dropCnt := satAdd s.dropCnt junk.length } := by
  induction junk generalizing k s with
  | nil => simp [satAdd_zero]
  | cons b t ih =>
    obtain ⟨h1, h2⟩ := State.readsAt_cons.1 hr
    obtain ⟨h3, h4⟩ := ne_delim hj
    have hstep : frStep P (s.byteAt (src + k)) s = (s.dropByte, .consumed) := by
      rw [h1]; exact frStep_outside hs h3
    rw [show (b :: t).length + n = t.length + n + 1 by simp; omega, feedLoop_consumed hstep]
    rw [ih (k + 1) s.dropByte hs h4 h2, dropByte_eq]
    simp only [satAdd_satAdd, List.length_cons, show k + 1 + t.length = k + (t.length + 1) by omega,
      Nat.add_comm 1 t.length]

/-- The same while a frame is being discarded. -/
theorem feedLoop_discard (P : Params) (src : Nat) (junk : List Byte) (n k : Nat) (s : State) (hs : s.frs = .discard)
    (hj : delim ∉ junk) (hr : s.ReadsAt (src + k) junk) :
    feedLoop P src (junk.length + n) k s =
      feedLoop P src n (k + junk.length) { s with dropCnt := satAdd s.dropCnt junk.length } := by
  induction junk generalizing k s with
  | nil => simp [satAdd_zero]
  | cons b t ih =>
    obtain ⟨h1, h2⟩ := State.readsAt_cons.1 hr
    obtain ⟨h3, h4⟩ := ne_delim hj
    have hstep : frStep P (s.byteAt (src + k)) s = (s.dropByte, .consumed) := by
      rw [h1]; exact frStep_discard hs h3
    rw [show (b :: t).length + n = t.length + n + 1 by simp; omega, feedLoop_consumed hstep]
    rw [ih (k + 1) s.dropByte hs h4 h2, dropByte_eq]
    simp only [satAdd_satAdd, List.length_cons, show k + 1 + t.length = k + (t.length + 1) by omega,
      Nat.add_comm 1 t.length]

/-- Delimiters in a row under `P_EMPTY_FRAME = SKIP` leave an empty candidate as it is. -/
theorem feedLoop_delims (P : Params) (src m n k : Nat) (s : State) (hs : s.frs = .inFrame)
    (he : m ≠ 0 → P.emptyFrame = .skip ∧ s.frLen = 0) (hr : s.ReadsAt (src + k) (List.replicate m delim)) :
    feedLoop P src (m + n) k s = feedLoop P src n (k + m) s := by
  induction m generalizing k with
  | zero => simp
  | succ m ih =>
    obtain ⟨hp, hl⟩ := he (by omega)
    rw [List.replicate_succ] at hr
    obtain ⟨h1, h2⟩ := State.readsAt_cons.1 hr
    have hstep : frStep P (s.byteAt (src + k)) s = (s, .consumed) := by
      rw [h1, frStep_delim hs, if_pos ⟨hl, hp⟩]
    rw [show m + 1 + n = m + n + 1 by omega, feedLoop_consumed hstep, ih (k + 1) (fun _ => ⟨hp, hl⟩) h2,
      show k + 1 + m = k + (m + 1) by omega]

/-- A delimiter in `HUNT`, and those that follow it under `SKIP`, open an empty candidate. -/
theorem feedLoop_hunt_opens (P : Params) (src m n k : Nat) (s : State) (hs : s.frs = .hunt)
    (he : m ≠ 0 → P.emptyFrame = .skip) (hr : s.ReadsAt (src + k) (delim :: List.replicate m delim)) :
    feedLoop P src (m + 1 + n) k s = feedLoop P src n (k + (m + 1)) { s with frs := .inFrame, frLen := 0 } := by
  obtain ⟨h1, h2⟩ := State.readsAt_cons.1 hr
  have hstep : frStep P (s.byteAt (src + k)) s = ({ s with frs := .inFrame, frLen := 0 }, .consumed) := by
    rw [h1]; exact frStep_open hs
  rw [show m + 1 + n = m + n + 1 by omega, feedLoop_consumed hstep,
    feedLoop_delims P src m n (k + 1) { s with frs := .inFrame, frLen := 0 } rfl (fun h => ⟨he h, rfl⟩) h2, show k + 1 + m = k + (m + 1) by omega]

/-- The bytes that bring the framer into a candidate do so, in whatever state it is. -/
theorem feedLoop_opens {s : State} {lead : List Byte} {dropped : Nat} (h : OpensFrame s lead dropped)
    (src n k : Nat) (hr : s.ReadsAt (src + k) lead) :
    feedLoop Config.params src (lead.length + n) k s =
      feedLoop Config.params src n (k + lead.length)
        { s with frs := .inFrame, frLen := BitVec.ofNat 32 s.collected, dropCnt := satAdd s.dropCnt dropped } := by
  obtain ⟨tail, junk, m, ht, hj, hm, hc⟩ := h
  cases hs : s.frs with
  | hunt =>
    have h0 : s.collected = 0 := by simp [State.collected, hs]
    rw [hs] at hc
    obtain ⟨rfl, rfl⟩ := hc
    obtain ⟨h1, h2⟩ := State.readsAt_append.1 hr
    rw [Nat.add_assoc] at h2
    have hlen : (junk ++ 0x7E :: List.replicate m 0x7E).length = junk.length + (m + 1) := by simp
    rw [h0, hlen, Nat.add_assoc junk.length, feedLoop_outside Config.params src junk _ k s hs hj h1,
      feedLoop_hunt_opens Config.params src m n (k + junk.length)
        { s with dropCnt := satAdd s.dropCnt junk.length } hs (fun h => (hm h).1) h2, Nat.add_assoc k]
    rfl
  | inFrame =>
    have h0 : BitVec.ofNat 32 s.collected = s.frLen := by simp [State.collected, hs]
    rw [hs] at hc
    obtain ⟨rfl, rfl⟩ := hc
    have hl : m ≠ 0 → Config.params.emptyFrame = .skip ∧ s.frLen = 0 := fun h =>
      ⟨(hm h).1, by rw [← h0, (hm h).2]; rfl⟩
    rw [List.length_replicate, feedLoop_delims Config.params src m n k s hs hl hr, h0, satAdd_zero, ← hs]
  | discard =>
    have h0 : s.collected = 0 := by simp [State.collected, hs]
    rw [hs] at hc
    obtain ⟨rfl, rfl⟩ := hc
    obtain ⟨h1, h2⟩ := State.readsAt_append.1 hr
    obtain ⟨h3, h4⟩ := State.readsAt_cons.1 h2
    obtain ⟨h5, h6⟩ := State.readsAt_append.1 h4
    have hstep : frStep Config.params (s.byteAt (src + (k + tail.length)))
        { s with dropCnt := satAdd s.dropCnt tail.length } =
        ({ s with dropCnt := satAdd s.dropCnt tail.length, frs := .hunt }, .consumed) := by
      rw [← Nat.add_assoc, h3]; exact frStep_resume hs
    have hlen : (tail ++ 0x7E :: (junk ++ 0x7E :: List.replicate m 0x7E)).length =
        tail.length + (junk.length + (m + 1) + 1) := by simp
    rw [show src + k + tail.length + 1 = src + (k + tail.length + 1) by omega] at h5 h6
    rw [Nat.add_assoc src] at h6
    have h7 : k + tail.length + 1 + junk.length + (m + 1) = k + (tail.length + (junk.length + (m + 1) + 1)) := by omega
    rw [h0, hlen, Nat.add_assoc tail.length, Nat.add_right_comm _ 1 n, Nat.add_assoc junk.length,
      feedLoop_discard Config.params src tail _ k s hs ht h1, feedLoop_consumed hstep,
      feedLoop_outside Config.params src junk (m + 1 + n) (k + tail.length + 1)
        { s with dropCnt := satAdd s.dropCnt tail.length, frs := .hunt } rfl hj h5,
      feedLoop_hunt_opens Config.params src m n (k + tail.length + 1 + junk.length)
        { s with dropCnt := satAdd (satAdd s.dropCnt tail.length) junk.length, frs := .hunt } rfl
        (fun h => (hm h).1) h6, satAdd_satAdd, h7]
    rfl

/-- The state after a run of content bytes is stored in the window. -/
def State.collect (s : State) (bs : List Byte) : State :=
  { s.store (s.frBase.toNat + s.frLen.toNat) bs with frLen := BitVec.ofNat 32 (s.frLen.toNat + bs.length) }

/-- A frame's content is stored in the window, byte after byte, while it fits and the source is apart from the window. -/
theorem feedLoop_content (P : Params) (src : Nat) (bs : List Byte) (n k : Nat) (s : State) (hs : s.frs = .inFrame)
    (hj : delim ∉ bs) (hl : s.frLen.toNat + bs.length ≤ s.frCap.toNat)
    (ha : ∀ j < bs.length, src + k + j < s.frBase.toNat ∨ s.frBase.toNat + s.frCap.toNat ≤ src + k + j)
    (hr : s.ReadsAt (src + k) bs) :
    feedLoop P src (bs.length + n) k s = feedLoop P src n (k + bs.length) (s.collect bs) := by
  induction bs generalizing k s with
  | nil => simp [State.collect, State.store, Memory.putBytes]
  | cons b t ih =>
    obtain ⟨h1, h2⟩ := State.readsAt_cons.1 hr
    obtain ⟨h3, h4⟩ := ne_delim hj
    have hcap := s.frCap.isLt
    simp only [List.length_cons] at hl ha
    have hfull : s.frLen ≠ s.frCap := by
      intro h
      rw [h] at hl
      omega
    have hstep : frStep P (s.byteAt (src + k)) s = (s.collect [b], .consumed) := by
      rw [h1, frStep_content hs h3 hfull]
      have : s.frLen + 1 = BitVec.ofNat 32 (s.frLen.toNat + [b].length) := by
        apply BitVec.eq_of_toNat_eq
        simp [BitVec.toNat_add]
      simp only [State.collect, ← this]
    have hlen : (s.collect [b]).frLen.toNat = s.frLen.toNat + 1 := by
      simp only [State.collect, List.length_cons, List.length_nil, BitVec.toNat_ofNat]
      omega
    rw [show (b :: t).length + n = t.length + n + 1 by simp; omega, feedLoop_consumed hstep]
    rw [ih (k + 1) (s.collect [b]) hs h4]
    · have : (s.collect [b]).collect t = s.collect (b :: t) := by
        simp only [State.collect, List.length_cons, List.length_nil] at hlen
        simp only [State.collect, List.length_cons, List.length_nil]
        rw [hlen]
        simp only [State.store, Memory.putBytes, Nat.add_assoc, Nat.add_comm 1 t.length]
      rw [this, List.length_cons, show k + 1 + t.length = k + (t.length + 1) by omega]
    · rw [hlen]
      show _ ≤ s.frCap.toNat
      omega
    · intro j hj
      have := ha (j + 1) (by omega)
      show src + (k + 1) + j < s.frBase.toNat ∨ s.frBase.toNat + s.frCap.toNat ≤ _
      omega
    · rw [show src + (k + 1) = src + k + 1 by omega]
      apply h2.congr
      intro j hj
      have := ha (j + 1) (by omega)
      show (s.store _ _).byteAt _ = _
      apply State.byteAt_store_outside
      simp only [List.length_cons, List.length_nil]
      omega

/-! The checks of a ready `FEEDM` pass, so that the loop decides what it leaves (R132). -/

theorem execFeedm_done {s u : State} {k : Nat} {closed : Bool} (h : FeedReady s)
    (hl : feedLoop Config.params s.src s.srcLen 0 s.begin = .done u k closed) :
    exec .feedm s = .next { u with res0 := u.fit k, res1 := if closed then 1 else 0 } := by
  show runCommand _ s = _
  apply runCommand_ok
  rw [feedm_ok_iff]
  refine ⟨h.1, region_iff_inMem.2 h.2.1, region_iff_inMem.2 h.2.2.1, overlap_false_iff_apart.2 h.2.2.2, ?_⟩
  have hl : feedLoop Config.params s.begin.src s.begin.srcLen 0 s.begin = .done u k closed := hl
  rw [hl]

theorem execFeedm_overflowed {s u : State} {k : Nat} (h : FeedReady s)
    (hl : feedLoop Config.params s.src s.srcLen 0 s.begin = .overflowed u k) :
    exec .feedm s = .next (u.raise .framing k) := by
  show runCommand _ s = _
  apply runCommand_ok
  rw [feedm_ok_iff]
  refine ⟨h.1, region_iff_inMem.2 h.2.1, region_iff_inMem.2 h.2.2.1, overlap_false_iff_apart.2 h.2.2.2, ?_⟩
  have hl : feedLoop Config.params s.begin.src s.begin.srcLen 0 s.begin = .overflowed u k := hl
  rw [hl]

end Sys2Proof.Machine
end

