-- ==== Sys2Proof/Machine/Assembler.lean ====
section
/-! DEFINITION. The assembler notation of 30_encoding.md R86 and R87: the text of a command, and the host actions that
`li`, `sb`, a command line and `call` stand for. -/

namespace Sys2Proof.Machine

/-- The version suffix (R86). -/
def versionText : Version → String
  | .v2011 => "V2011"
  | .v2019 => "V2019"

/-- The shape suffix (R86). -/
def shapeText : Shape → String
  | .circle => "CIRCLE"
  | .rect => "RECT"
  | .polygon => "POLYGON"
  | .polyline => "POLYLINE"

/-- A command as the assembler writes it (R86). -/
def commandText : Instr → String
  | .nop => "NOP"
  | .feed b => "FEED " ++ toString b
  | .feedm => "FEEDM"
  | .frel => "FREL"
  | .frst => "FRST"
  | .unesc => "UNESC"
  | .esc => "ESC"
  | .fwrap => "FWRAP"
  | .xsum => "XSUM"
  | .xchk => "XCHK"
  | .xapp => "XAPP"
  | .agetSize => "AGET.SIZE"
  | .agetEnc => "AGET.ENC"
  | .agetFrag => "AGET.FRAG"
  | .agetVtag => "AGET.VTAG"
  | .agetRsvd => "AGET.RSVD"
  | .asetSize => "ASET.SIZE"
  | .asetEnc => "ASET.ENC"
  | .asetFrag => "ASET.FRAG"
  | .asetVtag => "ASET.VTAG"
  | .asetRsvd => "ASET.RSVD"
  | .hdec => "HDEC"
  | .henc v f => "HENC." ++ versionText v ++ (if f then ".F" else "")
  | .fdec => "FDEC"
  | .penc v => "PENC." ++ versionText v
  | .bset i => "BSET " ++ toString i
  | .bclr i => "BCLR " ++ toString i
  | .btst i => "BTST " ++ toString i
  | .bput i => "BPUT " ++ toString i
  | .fext lsb width => "FEXT " ++ toString lsb ++ ", " ++ toString width
  | .fins lsb width => "FINS " ++ toString lsb ++ ", " ++ toString width
  | .posdec => "POSDEC"
  | .bcddec => "BCDDEC"
  | .bcdenc => "BCDENC"
  | .auxdec => "AUXDEC"
  | .pardec => "PARDEC"
  | .geodec shape v => "GEODEC." ++ shapeText shape ++ "." ++ versionText v
  | .geoenc shape v => "GEOENC." ++ shapeText shape ++ "." ++ versionText v

/-- `li NAME, v`: write a register (R86). -/
def liAct (r : Reg) (v : Word) : HostAct := .writeReg 4 (BitVec.ofNat 9 r.offset) v

/-- `sb a, b0, b1, ...`: write bytes to MEM at `a, a+1, ...` (R86). -/
def sbActs : Nat → List Byte → List HostAct
  | _, [] => []
  | a, b :: t => .writeMem a b :: sbActs (a + 1) t

/-- The read of an `expect NAME, v` line (R86); the comparison is the program's. -/
def expectAct (r : Reg) : HostAct := .readReg 4 (BitVec.ofNat 9 r.offset)

/-- A command line: the command word is written to `CMD` (R80, R86). -/
def commandAct (i : Instr) : HostAct := liAct .cmd (encode i)

/-- `call MNEMONIC a0, a1, a2, a3` (R87): write the arguments given, then issue the command. -/
def callActs (i : Instr) (args : List Word) : List HostAct :=
  List.zipWith liAct [.arg0, .arg1, .arg2, .arg3] args ++ [commandAct i]

end Sys2Proof.Machine
end

