-- ==== Sys2Proof/Tests/Slice0.lean ====
section
/-! SUPPORT. Tests: ill-formed commands are refused, words written out field by field decode, one step of every command
against values worked out from the spec (the examples of the rules and 95_test_vectors.md, moved to addresses every MEM
has), and a state and operands that meet the hypotheses of each statement. -/

namespace Sys2Proof.Tests

open Sys2Proof Sys2Proof.Machine

/-! ## Well-formedness (30_encoding.md R84, R86) -/

theorem test_feed_byte_range : (Instr.feed 256).wellFormed = false ∧ (Instr.feed 255).wellFormed = true := by decide
theorem test_bset_range : (Instr.bset 32).wellFormed = false ∧ (Instr.bset 31).wellFormed = true := by decide
theorem test_bclr_range : (Instr.bclr 32).wellFormed = false ∧ (Instr.bclr 0).wellFormed = true := by decide
theorem test_btst_range : (Instr.btst 32).wellFormed = false ∧ (Instr.btst 31).wellFormed = true := by decide
theorem test_bput_range : (Instr.bput 32).wellFormed = false ∧ (Instr.bput 31).wellFormed = true := by decide
theorem test_fext_lsb_range : (Instr.fext 32 1).wellFormed = false ∧ (Instr.fext 31 1).wellFormed = true := by decide
theorem test_fext_width_range :
    (Instr.fext 0 0).wellFormed = false ∧ (Instr.fext 0 33).wellFormed = false ∧
      (Instr.fext 0 32).wellFormed = true := by decide
theorem test_fins_range :
    (Instr.fins 32 1).wellFormed = false ∧ (Instr.fins 0 0).wellFormed = false ∧
      (Instr.fins 31 33).wellFormed = false ∧ (Instr.fins 31 32).wellFormed = true := by decide

/-! ## Decoding: words written as `IMM`, `RSV`, `SEL`, `OPC` from the map of R83 -/

/-- A command word from its fields, the highest bits first (R81). -/
def fields (imm : Half) (rsv sel : BitVec 4) (opc : Byte) : Word := imm ++ rsv ++ sel ++ opc

theorem test_decode_system : decode (fields 0 0 0 0b00000000) = .ok .nop := by decide

theorem test_decode_framer :
    decode (fields 0b0000000001111110 0 0 0b00000001) = .ok (.feed 0x7E) ∧
    decode (fields 0b0000000011111111 0 0 0b00000001) = .ok (.feed 255) ∧
    decode (fields 0 0 0 0b00000010) = .ok .feedm ∧
    decode (fields 0 0 0 0b00000011) = .ok .frel ∧ decode (fields 0 0 0 0b00000100) = .ok .frst ∧
    decode (fields 0 0 0 0b00000101) = .ok .unesc ∧ decode (fields 0 0 0 0b00000110) = .ok .esc ∧
    decode (fields 0 0 0 0b00000111) = .ok .fwrap := by decide

theorem test_decode_checksum :
    decode (fields 0 0 0 0b00010000) = .ok .xsum ∧ decode (fields 0 0 0 0b00010001) = .ok .xchk ∧
    decode (fields 0 0 0 0b00010010) = .ok .xapp := by decide

theorem test_decode_attribute :
    decode (fields 0 0 0 0b00100000) = .ok .agetSize ∧ decode (fields 0 0 1 0b00100000) = .ok .agetEnc ∧
    decode (fields 0 0 2 0b00100000) = .ok .agetFrag ∧ decode (fields 0 0 3 0b00100000) = .ok .agetVtag ∧
    decode (fields 0 0 4 0b00100000) = .ok .agetRsvd ∧ decode (fields 0 0 0 0b00100001) = .ok .asetSize ∧
    decode (fields 0 0 1 0b00100001) = .ok .asetEnc ∧ decode (fields 0 0 2 0b00100001) = .ok .asetFrag ∧
    decode (fields 0 0 3 0b00100001) = .ok .asetVtag ∧ decode (fields 0 0 4 0b00100001) = .ok .asetRsvd := by decide

theorem test_decode_header :
    decode (fields 0 0 0 0b00100010) = .ok .hdec ∧
    decode (fields 0 0 0b0001 0b00100011) = .ok (.henc .v2019 false) ∧
    decode (fields 0 0 0b0010 0b00100011) = .ok (.henc .v2011 true) ∧
    decode (fields 0 0 0 0b00100100) = .ok .fdec ∧
    decode (fields 0 0 0b0000 0b00100101) = .ok (.penc .v2011) ∧
    decode (fields 0 0 0b0001 0b00100101) = .ok (.penc .v2019) := by decide

theorem test_decode_flag_words :
    decode (fields 0b0000000000011111 0 0 0b00110000) = .ok (.bset 31) ∧
    decode (fields 0b0000000000000001 0 0 0b00110001) = .ok (.bclr 1) ∧
    decode (fields 0b0000000000000100 0 0 0b00110010) = .ok (.btst 4) ∧
    decode (fields 0b0000000000010000 0 0 0b00110011) = .ok (.bput 16) ∧
    decode (fields 0b0000000000101000 0 0 0b00110100) = .ok (.fext 8 2) ∧
    decode (fields 0b0000001111111111 0 0 0b00110101) = .ok (.fins 31 32) := by decide

theorem test_decode_position :
    decode (fields 0 0 0 0b01000000) = .ok .posdec ∧ decode (fields 0 0 0 0b01000001) = .ok .bcddec ∧
    decode (fields 0 0 0 0b01000010) = .ok .bcdenc := by decide

theorem test_decode_lists :
    decode (fields 0 0 0 0b01010000) = .ok .auxdec ∧ decode (fields 0 0 0 0b01010001) = .ok .pardec := by decide

theorem test_decode_geofence :
    decode (fields 0 0 0b0000 0b01100000) = .ok (.geodec .circle .v2011) ∧
    decode (fields 0 0 0b0101 0b01100000) = .ok (.geodec .rect .v2019) ∧
    decode (fields 0 0 0b0010 0b01100001) = .ok (.geoenc .polygon .v2011) ∧
    decode (fields 0 0 0b0111 0b01100001) = .ok (.geoenc .polyline .v2019) := by decide

/-- The four grounds of R82, one word each. -/
theorem test_decode_rejects :
    decode (fields 0 1 0 0) = .error .reserved ∧ decode (fields 0 0 0 0xFF) = .error .opcode ∧
    decode (fields 0 0 5 0x20) = .error .selector ∧ decode (fields 0x0100 0 0 0x01) = .error .immediate ∧
    decode (fields 0x0020 0 0 0x30) = .error .immediate ∧ decode (fields 0x0400 0 0 0x34) = .error .immediate ∧
    decode (fields 0 0 4 0x23) = .error .selector ∧ decode (fields 0 0 8 0x60) = .error .selector := by decide

theorem test_decode_table_word :
    decodeTableWord 32 0x00280034 = some (.fext 8 2) ∧ decodeTableWord 32 0x1000 = none := by decide

/-! ## One step of every command -/

/-- The state a command ends in. -/
def after (i : Instr) (s : State) : State :=
  match exec i s with
  | .next t => t
  | .fault _ => s
  | .refused _ => s

/-- The error report a command leaves. -/
def report (i : Instr) (s : State) : ErrCode × Nat := ((after i s).err, (after i s).errInfo.toNat)

/-- The block after reset with its arguments set. -/
def args (a b c d : Word) : State := { State.reset with arg0 := a, arg1 := b, arg2 := c, arg3 := d }

/-- The source bytes `bs` at 0x200, a destination of capacity `cap` at 0x300. -/
def work (bs : List Byte) (cap : Word) : State :=
  (args 0x200 (BitVec.ofNat 32 bs.length) 0x300 cap).store 0x200 bs

/-- A framer with a window of `cap` bytes at 0x100, and the source bytes `bs` at 0x200. -/
def line (bs : List Byte) (cap : Word) : State := { work bs 0 with frBase := 0x100, frCap := cap }

/-- R120: the report of an earlier error is cleared. -/
theorem test_nop :
    report .nop { State.reset with err := .busy, errInfo := 7 } = (.ok, 0) := by decide

/-- Vectors F-1 and F-5. -/
theorem test_feed :
    let s := after (.feed 0x7E) { line [] 8 with dropCnt := 1 }
    let t := after (.feed 0x30) s
    s.frs = .inFrame ∧ (after (.feed 0x11) (line [] 8)).dropCnt = 1 ∧ t.byteAt 0x100 = 0x30 ∧ t.frLen = 1 ∧
      (after (.feed 0x7E) t).frv = true ∧ (after (.feed 0x7E) t).frFlen = 1 ∧ (after (.feed 0x7E) t).res0 = 1 := by
  decide

theorem test_feed_refused :
    let s := after (.feed 0x7E) (line [] 0)
    report (.feed 0x41) s = (.framing, 0) ∧ (after (.feed 0x41) s).frs = .discard ∧
      report (.feed 0x22) { line [] 8 with frv := true } = (.busy, 0) := by decide

/-- Vector F-2. -/
theorem test_feedm :
    let t := after .feedm (line [0x7E, 1, 2, 0x7E, 0x7E] 8)
    t.res0 = 4 ∧ t.res1 = 1 ∧ t.frFlen = 2 ∧ t.frv = true ∧ t.bytesAt 0x100 2 = [1, 2] := by decide

/-- Vector F-3. -/
theorem test_feedm_overflow :
    let s := line [0x7E, 0x41, 0x42, 0x43, 0x44, 0x7E, 0x7E, 0x45, 0x7E] 2
    report .feedm s = (.framing, 3) ∧ (after .feedm s).dropCnt = 1 ∧ (after .feedm s).frs = .discard ∧
      (after .feedm s).bytesAt 0x100 2 = [0x41, 0x42] := by decide

theorem test_frel :
    let t := after .frel { State.reset with frv := true, frFlen := 3, dropCnt := 9 }
    t.frv = false ∧ t.frFlen = 0 ∧ t.dropCnt = 9 := by decide

theorem test_frst :
    let t := after .frst { State.reset with frs := .inFrame, frLen := 3, frCap := 8, dropCnt := 9 }
    t.frs = .hunt ∧ t.frLen = 0 ∧ t.frCap = 8 ∧ t.dropCnt = 9 := by decide

/-- The vectors of section 2.3. -/
theorem test_unesc :
    (after .unesc (work [0x30, 0x7D, 2, 0x31] 8)).bytesAt 0x300 3 = [0x30, 0x7E, 0x31] ∧
      (after .unesc (work [0x30, 0x7D, 2, 0x31] 8)).res0 = 3 := by decide

theorem test_unesc_stops :
    report .unesc (work [0x7D, 3] 8) = (.framing, 0) ∧ report .unesc (work [0x41, 0x7D] 8) = (.framing, 1) ∧
      report .unesc (work [0x41, 0x7E, 0x42] 8) = (.framing, 1) ∧
      report .unesc (work [0x7D, 1, 0x7D, 2] 1) = (.noSpace, 2) := by decide

theorem test_esc :
    (after .esc (work [0x7E, 0x7D, 0] 8)).bytesAt 0x300 5 = [0x7D, 2, 0x7D, 1, 0] ∧
      report .esc (work [0x7E, 0x7E] 3) = (.noSpace, 4) ∧
      report .esc (args 0x200 4 0x202 8) = (.badOperand, 0x202) := by decide

theorem test_fwrap :
    (after .fwrap (work [0x41, 0x7E] 8)).bytesAt 0x300 5 = [0x7E, 0x41, 0x7D, 2, 0x7E] ∧
      (after .fwrap (work [] 2)).bytesAt 0x300 2 = [0x7E, 0x7E] ∧
      report .fwrap (work [0x7D] 3) = (.noSpace, 4) := by decide

/-- The vectors of section 2.4. -/
theorem test_xsum : (after .xsum (work [1, 2, 4] 0)).res0 = 7 ∧ (after .xsum (work [] 0)).res0 = 0 := by decide

theorem test_xchk :
    (after .xchk (work [1, 2, 4, 7] 0)).res0 = 7 ∧ report .xchk (work [1, 2, 4, 6] 0) = (.checksum, 0x706) ∧
      report .xchk (work [] 0) = (.badOperand, 0) ∧ report .xchk (work [0] 0) = (.ok, 0) := by decide

theorem test_xapp :
    let t := after .xapp (work [1, 2, 4] 0)
    t.byteAt 0x203 = 7 ∧ t.res0 = 7 ∧ t.res1 = 4 := by decide

/-- Vector H-1. -/
theorem test_aget :
    (after .agetSize (args 0x401C 0 0 0)).res0 = 28 ∧ (after .agetEnc (args 0x5C1C 0 0 0)).res0 = 7 ∧
      (after .agetFrag (args 0x601C 0 0 0)).res0 = 1 ∧ (after .agetVtag (args 0x401C 0 0 0)).res0 = 1 ∧
      (after .agetRsvd (args 0x401C 0 0 0)).res0 = 0 ∧
      report .agetSize (args 0x10000 0 0 0) = (.badOperand, 0x10000) := by decide

theorem test_aset :
    (after .asetSize (args 0x401C 1023 0 0)).res0 = 0x43FF ∧ (after .asetEnc (args 0x401C 7 0 0)).res0 = 0x5C1C ∧
      (after .asetFrag (args 0x401C 1 0 0)).res0 = 0x601C ∧ (after .asetVtag (args 0x401C 0 0 0)).res0 = 0x1C ∧
      (after .asetRsvd (args 0x401C 1 0 0)).res0 = 0xC01C ∧
      report .asetSize (args 0x401C 1024 0 0) = (.badOperand, 1024) ∧
      report .asetEnc (args 0x401C 8 0 0) = (.badOperand, 8) := by decide

/-- The V2011 header of the vectors, with a body of `n` bytes announced. -/
def head11 (n : Byte) : List Byte := [2, 0, 0, n, 1, 0x23, 0x45, 0x67, 0x89, 1, 0, 7]

/-- Vector H-2f, with a two-byte body. -/
theorem test_hdec :
    let t := after .hdec (work (head11 2 ++ [0x7C, 1]) 0)
    t.err = .ok ∧ t.hdr.msgId = 0x200 ∧ t.hdr.attr = 2 ∧ t.hdr.idh = 0 ∧ t.hdr.idm = 0x123 ∧
      t.hdr.idl = 0x45678901 ∧ t.hdr.seq = 7 ∧ t.hdr.hlen = 12 ∧ t.res0 = 0x20C ∧ t.res1 = 2 ∧ t.res2 = 0 := by decide

theorem test_hdec_refused :
    report .hdec (work [2, 0, 0] 0) = (.hdrLen, 3) ∧ report .hdec (work ((head11 2).take 11) 0) = (.hdrLen, 11) ∧
      report .hdec (work (head11 2 ++ [1]) 0) = (.sizeMismatch, 1) := by decide

/-- The header registers of vector H-2. -/
def regs11 : HeaderRegs :=
  { HeaderRegs.reset with msgId := 0x200, idm := 0x123, idl := 0x45678901, seq := 7, ftot := 3, fidx := 1 }

/-- Vector H-2, the V2019 fragment. -/
theorem test_henc :
    let t := after (.henc .v2019 true) { args 0 28 0x300 32 with hdr := { regs11 with ver := 1 } }
    t.bytesAt 0x300 21 =
      [2, 0, 0x60, 0x1C, 1, 0, 0, 0, 0, 1, 0x23, 0x45, 0x67, 0x89, 1, 0, 7, 0, 3, 0, 1] ∧
      t.res0 = 21 ∧ t.res1 = 0x601C ∧ t.hdr.attr = 0x601C ∧ t.hdr.hlen = 21 := by decide

theorem test_henc_refused :
    report (.henc .v2011 false) { args 0 28 0x300 32 with hdr := { regs11 with idh := 1 } } = (.badOperand, 0) ∧
      report (.henc .v2011 false) { args 0 1024 0x300 32 with hdr := regs11 } = (.badOperand, 1024) ∧
      report (.henc .v2011 false) { args 0 5 0x300 11 with hdr := regs11 } = (.noSpace, 12) := by decide

/-- The content of the frame of vector H-7 (sequence number 8, body `7C 01`). -/
def frame7 : List Byte := [0, 1, 0, 2, 1, 0x23, 0x45, 0x67, 0x89, 1, 0, 8, 0x7C, 1, 0xFE]

/-- Vector X-4. -/
theorem test_fdec :
    let t := after .fdec (work frame7 64)
    t.err = .ok ∧ t.res0 = 0x30C ∧ t.res1 = 2 ∧ t.res3 = 15 ∧ t.bytesAt 0x30C 2 = [0x7C, 1] ∧
      report .fdec (work (frame7.set 12 0x7D) 64) = (.sizeMismatch, 1) := by decide

/-- Vector H-3b. -/
theorem test_fdec_refused :
    report .fdec (work [] 64) = (.hdrLen, 0) ∧ report .fdec (work [0] 64) = (.hdrLen, 0) ∧
      report .fdec (work [1, 2, 3] 64) = (.hdrLen, 2) ∧ report .fdec (work [1, 2, 4] 64) = (.checksum, 0x304) ∧
      report .fdec (work frame7 14) = (.noSpace, 15) := by decide

/-- Vector H-7. -/
theorem test_penc :
    let t := after (.penc .v2011) { work [0x7C, 1] 64 with hdr := { regs11 with msgId := 1, seq := 8 } }
    t.bytesAt 0x300 17 = 0x7E :: (frame7 ++ [0x7E]) ∧ t.res0 = 17 ∧ t.res1 = 1 := by decide

theorem test_bit_commands :
    (after (.bset 31) (args 0 0 0 0)).res0 = 0x80000000 ∧ (after (.bclr 0) (args 0xFFFFFFFF 0 0 0)).res0 = 0xFFFFFFFE ∧
      (after (.btst 31) (args 0x80000000 0 0 0)).res0 = 1 ∧ (after (.btst 0) (args 2 0 0 0)).res0 = 0 ∧
      (after (.bput 2) (args 15 0 0 0)).res0 = 11 ∧ (after (.bput 31) (args 0 1 0 0)).res0 = 0x80000000 ∧
      report (.bput 0) (args 0 2 0 0) = (.badOperand, 2) := by decide

/-- The field vectors of section 2.6. -/
theorem test_field_commands :
    (after (.fext 8 2) (args 0x300 0 0 0)).res0 = 3 ∧ (after (.fext 0 32) (args 0x12345678 0 0 0)).res0 = 0x12345678 ∧
      (after (.fins 8 2) (args 0xFFFFFFFF 1 0 0)).res0 = 0xFFFFFDFF ∧
      (after (.fins 0 32) (args 0x12345678 0xCAFEBABE 0 0)).res0 = 0xCAFEBABE ∧
      report (.fext 31 2) (args 0 0 0 0) = (.badOperand, 33) ∧
      report (.fins 8 2) (args 0 4 0 0) = (.badOperand, 4) := by decide

/-- Vector D-1. -/
theorem test_bcddec :
    let t := after .bcddec (work [0x24, 0x01, 0x15, 0x08, 0x30, 0x59] 0)
    t.res0 = 0x18010F ∧ t.res1 = 0x081E3B ∧
      report .bcddec (work [0x24, 0x1A, 0x15, 0x08, 0x30, 0x59] 0) = (.bcd, 1) ∧
      report .bcddec (work [0x24, 0x01, 0x15, 0x08, 0x30, 0xA9] 0) = (.bcd, 5) := by decide

/-- Vector D-2. -/
theorem test_bcdenc :
    (after .bcdenc (args 0x18010F 0x081E3B 0x300 0)).bytesAt 0x300 6 = [0x24, 0x01, 0x15, 0x08, 0x30, 0x59] ∧
      report .bcdenc (args 0x186401 0 0x300 0) = (.badOperand, 0x186401) ∧
      report .bcdenc (args 0x180101 0x1000000 0x300 0) = (.badOperand, 0x1000000) := by decide

/-- The position core of the vectors. -/
def core28 : List Byte :=
  [0, 0, 0, 1, 0, 0, 0, 3, 0x01, 0xDC, 0x88, 0x30, 0x07, 0x3D, 0x7C, 0x30, 0x00, 0x32, 0x00, 0x7E, 0x00, 0x7D,
   0x24, 0x01, 0x15, 0x08, 0x30, 0x59]

/-- Vector P-2: the mileage item. -/
theorem test_posdec :
    let t := after .posdec (work (core28 ++ [1, 4, 0, 0, 4, 0xD2]) 1)
    t.pos.lat = 0x01DC8830 ∧ t.pos.speed = 0x7E ∧ t.pos.bear = 0x7D ∧ t.pos.date = 0x18010F ∧
      t.pos.time = 0x081E3B ∧ t.pos.auxN = 1 ∧ t.res0 = 1 ∧ t.res1 = 6 ∧
      t.bytesAt 0x300 16 = [0, 0, 0, 1, 4, 3, 1, 0, 0, 0, 2, 0x1E, 0, 0, 4, 0xD2] := by decide

/-- Vector P-3. -/
theorem test_posdec_refused :
    report .posdec (work (core28.take 27) 4) = (.bodyShort, 27) ∧
      report .posdec (work (core28.set 25 0x3A) 4) = (.bcd, 25) ∧
      report .posdec (work (core28 ++ [1]) 4) = (.bodyShort, 28) ∧
      report .posdec (work (core28 ++ [1, 4, 0, 0, 4, 0xD2]) 0) = (.noSpace, 1) := by decide

/-- The mileage item of vector T-1, and the corners of T-2. -/
theorem test_auxdec :
    let t := after .auxdec (work [1, 4, 0, 0, 4, 0xD2] 1)
    t.bytesAt 0x300 16 = [0, 0, 0, 1, 4, 3, 1, 0, 0, 0, 2, 2, 0, 0, 4, 0xD2] ∧ t.res0 = 1 ∧ t.res1 = 6 ∧
      report .auxdec (work [0x30] 4) = (.bodyShort, 0) ∧
      report .auxdec (work [1, 4, 0, 0, 4, 0xD2, 2] 4) = (.bodyShort, 6) := by decide

/-- Vectors T-2 and T-3: a wrong width; the identifier, the length and the address of an entry whatever its kind. -/
theorem test_auxdec_width :
    (after .auxdec (work [1, 2, 0x12, 0x34] 4)).bytesAt 0x300 16 =
      [0, 0, 0, 1, 2, 3, 3, 0, 0, 0, 2, 2, 0, 0, 0, 0] := by decide

theorem test_pardec :
    let t := after .pardec (work [0, 0, 0, 0x31, 2, 0, 0x10] 4)
    t.res0 = 1 ∧ t.bytesAt 0x300 5 = [0, 0, 0, 0x31, 2] ∧ t.bytesAt 0x307 5 = [0, 0, 0, 2, 5] ∧
      report .pardec (work [0, 0, 0, 0x13] 4) = (.bodyShort, 0) := by decide

/-- The item of vector G-2, and that of G-1 with both gates set. -/
def circle2 : List Byte := [0, 0, 0, 1, 0, 0, 0x01, 0xDC, 0x88, 0x30, 0x07, 0x3D, 0x7C, 0x30, 0, 0, 1, 0xF4]
def circle1 : List Byte :=
  circle2.set 5 3 ++ [0x24, 1, 1, 0, 0, 0, 0x24, 0x12, 0x31, 0x23, 0x59, 0x59, 0, 0x50, 0x0A]

/-- Vector G-1. -/
theorem test_geodec :
    let t := after (.geodec .circle .v2011) (work circle1 0)
    t.res0 = 33 ∧ t.geo.id = 1 ∧ t.geo.radius = 500 ∧ t.geo.sdate = 0x180101 ∧ t.geo.edate = 0x180C1F ∧
      t.geo.etime = 0x173B3B ∧ t.geo.maxSpd = 0x50 ∧ t.geo.ovDur = 10 ∧ t.geo.present = 3 := by decide

/-- Vectors G-3 and G-7. -/
theorem test_geodec_version :
    let t := after (.geodec .circle .v2019) (work (circle2 ++ [0, 2, 0x41, 0x42]) 0)
    t.res0 = 22 ∧ t.geo.nameLen = 2 ∧ t.geo.nameAddr = 0x214 ∧ t.geo.present = 8 ∧
      report (.geodec .circle .v2019) (work circle2 0) = (.bodyShort, 18) ∧
      report (.geodec .circle .v2011) (work (circle1.set 20 0x3F) 0) = (.bcd, 20) := by decide

/-- Vector G-2: a decoded item written back. -/
theorem test_geoenc :
    let t := after (.geoenc .circle .v2011)
      { after (.geodec .circle .v2011) (work circle1 0) with arg2 := 0x400, arg3 := 64 }
    t.bytesAt 0x400 33 = circle1 ∧ t.res0 = 33 := by decide

/-- Vector G-8. -/
theorem test_geoenc_refused :
    let g := (after (.geodec .circle .v2011) (work circle1 0)).geo
    report (.geoenc .circle .v2011) { args 0 0 0x400 32 with geo := g } = (.noSpace, 33) ∧
      report (.geoenc .circle .v2011) { args 0 0 0x400 64 with geo := { g with sdate := 0x186401 } } =
        (.badOperand, 0xDC) ∧
      report (.geoenc .polygon .v2011) { args 0 0 0x400 64 with geo := { g with nPts := 3, ptsLen := 23 } } =
        (.badOperand, 0x100) := by decide

/-- 20_memory.md R67, in a MEM of 8192 bytes: a name outside MEM is reported before the point block of a Polyline is
read, and the block that does not parse only where the name is inside. -/
theorem test_geoenc_regions_first :
    let P : Params := { Config.params with memSize := 8192, memSize_ge := by decide, memSize_le := by decide }
    let g := { GeoRegs.reset with nPts := 1, ptsAddr := 0x200, ptsLen := 3, nameLen := 1 }
    let s := work [0, 0, 0] 64
    geoValid P .polyline .v2019 { s with geo := { g with nameAddr := 0x2000 } } = .error ⟨.badOperand, 0x104⟩ ∧
      geoValid P .polyline .v2019 { s with geo := { g with nameAddr := 0x1FFF } } = .error ⟨.badOperand, 0x100⟩ := by
  decide

/-! ## The host -/

/-- The state after the step that performs one host action. -/
def acted (a : HostAct) (s : State) : State :=
  match step { s with host := [a] } with
  | .next t => t
  | .fault _ => s
  | .refused _ => s

theorem test_step_runs_command :
    (acted (commandAct (.bset 4)) (args 1 0 0 0)).res0 = 17 ∧ (acted (commandAct (.bset 4)) (args 1 0 0 0)).cmd = 0x00040030 ∧
      (acted (.writeReg 4 0 0x1000) State.reset).err = .illegal := by decide

theorem test_fetch_word :
    (match step (State.reset.withFetchWord 32 0x00000003) with | .next t => t.cmd | _ => 0) = 3 := by decide

theorem test_register_port :
    (acted (.writeReg 4 0x00C 0xFFFFFFFF) State.reset).ie = 3 ∧
      (acted (.writeReg 4 0x004 5) State.reset).err = .ok ∧
      (acted (.writeReg 4 0x030 5) { State.reset with frs := .inFrame }).frBase = 0 ∧
      (acted (.writeReg 4 0x040 5) { State.reset with dropCnt := 9 }).dropCnt = 0 ∧
      (acted (.readReg 4 0x004) { State.reset with err := .busy, frv := true, ie := 3 }).reply = .word 0x90B ∧
      (acted (.readReg 4 0x044) { State.reset with dropCnt := 9 }).reply = .word 0 := by decide

theorem test_reset : (acted .reset { args 1 2 3 4 with err := .busy }).arg3 = 0 ∧
    (acted .reset { args 1 2 3 4 with err := .busy }).err = .ok := by decide

/-! ## Witnesses: what meets the hypotheses of a statement -/

/-- A region in the first 8192 bytes is in MEM, whatever its size (00_scope.md R8). -/
theorem inMem_low {a n : Nat} (h : a + n ≤ 8192) : InMem a n := Nat.le_trans h Config.params.memSize_ge

/-- A region that ends above `2^32` is not. -/
theorem not_inMem_high {a n : Nat} (h : 2 ^ 32 < a + n) : ¬InMem a n :=
  fun hi => absurd (Nat.le_trans hi Config.params.memSize_le) (Nat.not_le.mpr h)

/-- Every command answers the state `after` names. -/
theorem exec_after (i : Instr) (s : State) : exec i s = .next (after i s) := by cases i <;> rfl

/-- A source region that ends above `2^32`. -/
def farSource : State := args 0xFFFFFFFF 2 0x300 8

/-- A destination region that ends above `2^32`. -/
def farDest : State := args 0x200 2 0xFFFFFFFF 8

/-- A source and a destination that overlap by one byte. -/
def overlapping : State := args 0x200 2 0x201 1

theorem buffers_work (s : State) (cap : Nat) (h1 : s.src + s.srcLen ≤ 8192) (h2 : s.dst + cap ≤ 8192)
    (h3 : s.src + s.srcLen ≤ s.dst) : BuffersIn s cap :=
  ⟨inMem_low h1, inMem_low h2, .inr (.inr (.inr h3))⟩

theorem witness_DecodeOfEncode :
    (Instr.feed 255).wellFormed = true ∧ (Instr.bput 31).wellFormed = true ∧ (Instr.fins 31 32).wellFormed = true := by
  decide

theorem witness_EncodeOfDecode : decode 0x03FF0035 = .ok (.fins 31 32) := by decide

theorem witness_DecodesOneRowElseIllegal :
    (opcodeRows.filter (fun r => r.holds 0x1000)).length ≠ 1 ∧
      (opcodeRows.filter (fun r => r.holds 0x01000001)).length ≠ 1 ∧
      (opcodeRows.filter (fun r => r.holds 0x00FF0001)).length = 1 := by decide

theorem witness_StepRunsCommand :
    ({ State.reset with host := [.writeReg 4 0 0x00FF0001, .reset] } : State).host =
      .writeReg 4 0 0x00FF0001 :: [.reset] ∧ decode 0x00FF0001 = .ok (.feed 255) := by decide

theorem witness_FeedTakesByte :
    let s := line [] 1
    (0x7E < 256 ∧ 255 < 256) ∧ s.frv = false ∧ InMem s.frBase.toNat s.frCap.toNat ∧ s.frs = .hunt ∧
      (after (.feed 0x7E) s).frs = .inFrame ∧ (after (.feed 0x7E) s).frv = false ∧
      (after (.feed 0x7E) s).frLen ≠ (after (.feed 0x7E) s).frCap ∧
      ({ s with frs := .discard } : State).frs = .discard :=
  ⟨by decide, by decide, inMem_low (by decide), by decide, by decide, by decide, by decide, rfl⟩

theorem witness_FramerRefusals :
    (line [] 1).frv = false ∧ ({ line [] 1 with frv := true } : State).frv = true ∧
      ¬InMem ({ line [] 1 with frBase := 0xFFFFFFFF, frCap := 2 } : State).frBase.toNat 2 ∧
      ¬InMem farSource.src farSource.srcLen ∧
      InMem (line [1, 2] 1).src (line [1, 2] 1).srcLen ∧
      InMem (line [1, 2] 0x101).frBase.toNat (line [1, 2] 0x101).frCap.toNat ∧
      ¬Apart (line [1, 2] 0x101).src (line [1, 2] 0x101).srcLen (line [1, 2] 0x101).frBase.toNat
        (line [1, 2] 0x101).frCap.toNat ∧
      (after (.feed 0x7E) (line [] 0)).frs = .inFrame ∧
      (after (.feed 0x7E) (line [] 0)).frLen = (after (.feed 0x7E) (line [] 0)).frCap :=
  ⟨by decide, rfl, not_inMem_high (by decide), not_inMem_high (by decide), inMem_low (by decide),
    inMem_low (by decide), by unfold Apart; decide, by decide, by decide⟩

theorem feedReady_line (bs : List Byte) (cap : Word) (h : bs.length ≤ 0x1000) (hc : cap.toNat ≤ 0x100) :
    FeedReady (line bs cap) := by
  have hn : (BitVec.ofNat 32 bs.length).toNat = bs.length := by
    rw [BitVec.toNat_ofNat, Nat.mod_eq_of_lt (by omega)]
  have e : (line bs cap).srcLen = bs.length := hn
  have f : (line bs cap).src = 0x200 := rfl
  refine ⟨rfl, inMem_low (by rw [e, f]; omega), inMem_low ?_, .inr (.inr (.inl ?_))⟩
  · show (0x100 : Nat) + cap.toNat ≤ 8192
    omega
  · show (0x100 : Nat) + cap.toNat ≤ 0x200
    omega

/-- A framer in `DISCARD`. -/
def discarding (bs : List Byte) (cap : Word) : State := { line bs cap with frs := .discard }

/-- A framer inside a candidate with `n` bytes stored. -/
def collecting (bs : List Byte) (cap n : Word) : State := { line bs cap with frs := .inFrame, frLen := n }

/-- A frame found from `HUNT`, from `DISCARD`, and from `IN` with one of the window's two bytes filled; the content fills
the window each time. -/
theorem witness_FeedmFindsFrame :
    (let s := line [0x55, 0xAA, 0x7E, 1, 2, 0x7E, 3] 2
     FeedReady s ∧ OpensFrame s [0x55, 0xAA, 0x7E] 2 ∧
      s.source = ([0x55, 0xAA, 0x7E] : List Byte) ++ (([1, 2] : List Byte) ++ 0x7E :: [3]) ∧
      0x7E ∉ ([1, 2] : List Byte) ∧ s.collected + 2 ≠ 0 ∧ s.collected + 2 ≤ s.frCap.toNat) ∧
    (let s := discarding [0x55, 0x7E, 0xAA, 0x7E, 1, 2, 0x7E] 2
     FeedReady s ∧ OpensFrame s [0x55, 0x7E, 0xAA, 0x7E] 2 ∧
      s.source = ([0x55, 0x7E, 0xAA, 0x7E] : List Byte) ++ (([1, 2] : List Byte) ++ 0x7E :: []) ∧
      s.collected + 2 ≠ 0 ∧ s.collected + 2 ≤ s.frCap.toNat) ∧
    (let s := collecting [2, 0x7E] 2 1
     FeedReady s ∧ OpensFrame s [] 0 ∧ s.source = ([] : List Byte) ++ (([2] : List Byte) ++ 0x7E :: []) ∧
      s.collected + 1 = 2 ∧ s.collected + 1 ≤ s.frCap.toNat) :=
  ⟨⟨feedReady_line _ _ (by decide) (by decide),
      ⟨[], [0x55, 0xAA], 0, by decide, by decide, fun h => absurd rfl h, rfl, rfl⟩, by decide, by decide, by decide,
      by decide⟩,
    ⟨feedReady_line _ _ (by decide) (by decide),
      ⟨[0x55], [0xAA], 0, by decide, by decide, fun h => absurd rfl h, rfl, rfl⟩, by decide, by decide, by decide⟩,
    feedReady_line _ _ (by decide) (by decide),
    ⟨[], [], 0, by decide, by decide, fun h => absurd rfl h, rfl, rfl⟩, by decide, by decide, by decide⟩

/-- Two delimiters in a row: an empty frame under `P_EMPTY_FRAME = EMIT`, and both of them before the content under
`SKIP`, whichever of the two the parameter is. -/
theorem witness_FeedmFindsFrame_empty :
    (let s := line [0x7E, 0x7E] 2
     FeedReady s ∧ OpensFrame s [0x7E] 0 ∧ s.source = ([0x7E] : List Byte) ++ (([] : List Byte) ++ 0x7E :: []) ∧
      s.collected + 0 = 0) ∧
    (let s := line [0x7E, 0x7E, 1, 0x7E] 1
     FeedReady s ∧ (Config.params.emptyFrame = .skip → OpensFrame s [0x7E, 0x7E] 0) ∧
      s.source = ([0x7E, 0x7E] : List Byte) ++ (([1] : List Byte) ++ 0x7E :: []) ∧
      s.collected + 1 ≤ s.frCap.toNat) :=
  ⟨⟨feedReady_line _ _ (by decide) (by decide),
      ⟨[], [], 0, by decide, by decide, fun h => absurd rfl h, rfl, rfl⟩, by decide, by decide⟩,
    feedReady_line _ _ (by decide) (by decide),
    fun h => ⟨[], [], 1, by decide, by decide, fun _ => ⟨h, by decide⟩, rfl, rfl⟩, by decide, by decide⟩

theorem witness_FeedmOverflows :
    (let s := line [0x55, 0x7E, 1, 2, 3, 0x7E] 2
     FeedReady s ∧ OpensFrame s [0x55, 0x7E] 1 ∧
      s.source = ([0x55, 0x7E] : List Byte) ++ (([1, 2] : List Byte) ++ 3 :: [0x7E]) ∧
      0x7E ∉ ([1, 2] : List Byte) ∧ (3 : Byte) ≠ 0x7E ∧ s.collected + 2 = s.frCap.toNat) ∧
    (let s := collecting [3] 2 2
     FeedReady s ∧ OpensFrame s [] 0 ∧ s.source = ([] : List Byte) ++ (([] : List Byte) ++ 3 :: []) ∧
      s.collected + 0 = s.frCap.toNat) ∧
    (let s := discarding [0x7E, 0x7E, 1] 0
     FeedReady s ∧ OpensFrame s [0x7E, 0x7E] 0 ∧
      s.source = ([0x7E, 0x7E] : List Byte) ++ (([] : List Byte) ++ 1 :: []) ∧ s.collected + 0 = s.frCap.toNat) :=
  ⟨⟨feedReady_line _ _ (by decide) (by decide),
      ⟨[], [0x55], 0, by decide, by decide, fun h => absurd rfl h, rfl, rfl⟩, by decide, by decide, by decide,
      by decide⟩,
    ⟨feedReady_line _ _ (by decide) (by decide),
      ⟨[], [], 0, by decide, by decide, fun h => absurd rfl h, rfl, rfl⟩, by decide, by decide⟩,
    feedReady_line _ _ (by decide) (by decide),
    ⟨[], [], 0, by decide, by decide, fun h => absurd rfl h, rfl, rfl⟩, by decide, by decide⟩

theorem witness_FeedmAwaitsData :
    (FeedReady (line [1, 2] 2) ∧ (line [1, 2] 2).frs ≠ .inFrame ∧ 0x7E ∉ (line [1, 2] 2).source) ∧
    (FeedReady (discarding [1, 0x7E, 2] 2) ∧ (discarding [1, 0x7E, 2] 2).frs = .discard ∧
      (discarding [1, 0x7E, 2] 2).source = ([1] : List Byte) ++ 0x7E :: [2]) ∧
    (let s := line [1, 0x7E, 2, 3] 2
     FeedReady s ∧ OpensFrame s [1, 0x7E] 1 ∧ s.source = ([1, 0x7E] : List Byte) ++ [2, 3] ∧
      0x7E ∉ ([2, 3] : List Byte) ∧ s.collected + 2 ≤ s.frCap.toNat) ∧
    (let s := collecting [3] 2 1
     FeedReady s ∧ OpensFrame s [] 0 ∧ s.source = ([] : List Byte) ++ [3] ∧ s.collected + 1 ≤ s.frCap.toNat) :=
  ⟨⟨feedReady_line _ _ (by decide) (by decide), by decide, by decide⟩,
    ⟨feedReady_line _ _ (by decide) (by decide), by decide, by decide⟩,
    ⟨feedReady_line _ _ (by decide) (by decide),
      ⟨[], [1], 0, by decide, by decide, fun h => absurd rfl h, rfl, rfl⟩, by decide, by decide, by decide⟩,
    feedReady_line _ _ (by decide) (by decide),
    ⟨[], [], 0, by decide, by decide, fun h => absurd rfl h, rfl, rfl⟩, by decide, by decide⟩

/-- The first part of a split block ends inside a frame, the second closes it. -/
theorem witness_FeedmSplitsAnywhere :
    let s := line [0x7E, 1, 2, 0x7E] 2
    let t := after .feedm { s with arg1 := BitVec.ofNat 32 2 }
    let u := after .feedm { t with arg0 := BitVec.ofNat 32 (s.src + 2), arg1 := BitVec.ofNat 32 2 }
    FeedReady s ∧ s.srcLen = 2 + 2 ∧ s.src + 2 < 2 ^ 32 ∧
      exec .feedm { s with arg1 := BitVec.ofNat 32 2 } = .next t ∧ t.err = .ok ∧ t.res1 = 0 ∧
      exec .feedm { t with arg0 := BitVec.ofNat 32 (s.src + 2), arg1 := BitVec.ofNat 32 2 } = .next u ∧ u.err = .ok :=
  ⟨feedReady_line _ _ (by decide) (by decide), by decide, by decide, rfl, by decide, by decide, rfl, by decide⟩

theorem witness_UnescapeInvertsEscape :
    unescape [0x30, 0x7D, 2, 0x31] = .ok [0x30, 0x7E, 0x31] ∧ unescape [0x30, 0x7D] = .error 1 := by decide

theorem witness_EscapeCommands :
    (BuffersIn (work [0x7E, 0x7D, 0] 5) 5 ∧ (work [0x7E, 0x7D, 0] 5).dstCap = 5 ∧
      (escape (work [0x7E, 0x7D, 0] 5).source).length = 5) ∧
    (BuffersIn (work [0x7E, 0x7E] 3) 3 ∧ (work [0x7E, 0x7E] 3).dstCap = 3 ∧
      3 < (escape (work [0x7E, 0x7E] 3).source).length) ∧
    (0x7E :: (escape (work [0x41, 0x7E] 5).source ++ [0x7E])).length = (work [0x41, 0x7E] 5).dstCap ∧
    ((work [0x7D, 1] 1).source = escape [0x7D] ∧ (work [0x7D, 1] 1).dstCap = 1) ∧
    unescape (work [0x7D, 3] 8).source = .error 0 ∧ BuffersIn (work [0x7D, 3] 8) (work [0x7D, 3] 8).dstCap :=
  ⟨⟨buffers_work _ _ (by decide) (by decide) (by decide), by decide, by decide⟩,
    ⟨buffers_work _ _ (by decide) (by decide) (by decide), by decide, by decide⟩, by decide, ⟨by decide, by decide⟩,
    by decide, buffers_work _ _ (by decide) (by decide) (by decide)⟩

theorem witness_BufferRefusals :
    (destinationBytes .fdec farSource = some 8 ∧ ¬InMem farSource.src farSource.srcLen) ∧
    (destinationBytes (.geodec .polyline .v2011) farDest = some 256 ∧ InMem farDest.src farDest.srcLen ∧
      ¬InMem farDest.dst 256) ∧
    destinationBytes .esc overlapping = some 1 ∧ InMem overlapping.src overlapping.srcLen ∧
      InMem overlapping.dst 1 ∧ ¬Apart overlapping.src overlapping.srcLen overlapping.dst 1 :=
  ⟨⟨by decide, not_inMem_high (by decide)⟩, ⟨by decide, inMem_low (by decide), not_inMem_high (by decide)⟩,
    by decide, inMem_low (by decide), inMem_low (by decide), by unfold Apart; decide⟩

/-- A window just large enough for the wrapped source. -/
theorem witness_WrappedFrameIsFound :
    let s := line [0x41, 0x7E] 3
    let s := { s with arg3 := 8 }
    let t := after .fwrap s
    BuffersIn s s.dstCap ∧ exec .fwrap s = .next t ∧ t.err = .ok ∧ (s.source = [] → Config.params.emptyFrame = .emit) ∧ s.frs = .hunt ∧ s.frv = false ∧
      InMem s.frBase.toNat s.frCap.toNat ∧ Apart s.dst s.dstCap s.frBase.toNat s.frCap.toNat ∧
      (escape s.source).length ≤ s.frCap.toNat :=
  ⟨buffers_work _ _ (by decide) (by decide) (by decide), rfl, by decide, fun h => absurd h (by decide), by decide,
    by decide, inMem_low (by decide), .inr (.inr (.inl (by decide))), by decide⟩

theorem witness_ChecksumCommands :
    (InMem (work [1, 2, 4, 7] 0).src 4 ∧ (work [1, 2, 4, 7] 0).srcLen = 4 ∧
      (work [1, 2, 4, 7] 0).source.dropLast.foldl (· ^^^ ·) 0 = (work [1, 2, 4, 7] 0).byteAt (0x200 + 4 - 1)) ∧
    (work [1, 2, 4, 6] 0).source.dropLast.foldl (· ^^^ ·) 0 ≠ (work [1, 2, 4, 6] 0).byteAt (0x200 + 4 - 1) ∧
    ((work [] 0).srcLen = 0 ∧ InMem (work [] 0).src 0) ∧
    ¬InMem farSource.src farSource.srcLen ∧ ¬InMem farSource.src (farSource.srcLen + 1) ∧
    InMem (work [1, 2, 4] 0).src ((work [1, 2, 4] 0).srcLen + 1) :=
  ⟨⟨inMem_low (by decide), by decide, by decide⟩, by decide, ⟨by decide, inMem_low (by decide)⟩,
    not_inMem_high (by decide), not_inMem_high (by decide), inMem_low (by decide)⟩

theorem witness_AppendedChecksumVerifies :
    let s := work [1, 2, 4] 0
    InMem s.src (s.srcLen + 1) ∧ s.srcLen + 1 < 2 ^ 32 ∧ exec .xapp s = .next (after .xapp s) :=
  ⟨inMem_low (by decide), by decide, rfl⟩

theorem witness_SingleBitFlipDetected :
    7 < 8 ∧ xorAll (([1, 2] : List Byte) ++ 4 :: [7]) = 0 := by decide

theorem witness_AttributeFieldsRead :
    (Instr.agetSize, (0x020 : Word), 0, 10) ∈ [(Instr.agetSize, (0x020 : Word), 0, 10), (.agetEnc, 0x120, 10, 3),
      (.agetFrag, 0x220, 13, 1), (.agetVtag, 0x320, 14, 1), (.agetRsvd, 0x420, 15, 1)] ∧
    (args 65535 0 0 0).arg0.toNat < 65536 ∧ 65536 ≤ (args 65536 0 0 0).arg0.toNat := by decide

theorem witness_AttributeFieldsWritten :
    (Instr.asetEnc, (0x121 : Word), 10, 3) ∈ [(Instr.asetSize, (0x021 : Word), 0, 10), (.asetEnc, 0x121, 10, 3),
      (.asetFrag, 0x221, 13, 1), (.asetVtag, 0x321, 14, 1), (.asetRsvd, 0x421, 15, 1)] ∧
    (args 65535 7 0 0).arg0.toNat < 65536 ∧ (args 65535 7 0 0).arg1.toNat < 2 ^ 3 ∧
    65536 ≤ (args 65536 7 0 0).arg0.toNat ∧ 2 ^ 3 ≤ (args 65535 8 0 0).arg1.toNat := by decide

/-- A V2019-shaped fragment and a V2011-shaped packet. -/
theorem witness_HeaderDecoded :
    (let s := work (headerBytes true true 0x200 0x6001 1 [0, 0, 0, 0, 1, 0x23, 0x45, 0x67, 0x89, 1] 7 3 1 ++ [0xAA]) 0
     InMem s.src s.srcLen ∧
      s.source = headerBytes true true 0x200 0x6001 1 [0, 0, 0, 0, 1, 0x23, 0x45, 0x67, 0x89, 1] 7 3 1 ++ [0xAA] ∧
      (0x6001 : Half).getLsbD 14 = true ∧ (0x6001 : Half).getLsbD 13 = true ∧
      ([0, 0, 0, 0, 1, 0x23, 0x45, 0x67, 0x89, 1] : List Byte).length = 10 ∧
      ([0xAA] : List Byte).length = ((0x6001 : Half).extractLsb' 0 10).toNat ∧
      ∀ b ∈ ([0, 0, 0, 0, 1, 0x23, 0x45, 0x67, 0x89, 1] : List Byte), badBcdByte b = false) ∧
    (let s := work (headerBytes false false 1 0 0 [1, 0x23, 0x45, 0x67, 0x89, 1] 8 0 0 ++ []) 0
     InMem s.src s.srcLen ∧ s.source = headerBytes false false 1 0 0 [1, 0x23, 0x45, 0x67, 0x89, 1] 8 0 0 ++ [] ∧
      (0 : Half).getLsbD 14 = false ∧ (0 : Half).getLsbD 13 = false ∧
      ([] : List Byte).length = ((0 : Half).extractLsb' 0 10).toNat ∧
      ∀ b ∈ ([1, 0x23, 0x45, 0x67, 0x89, 1] : List Byte), badBcdByte b = false) :=
  ⟨⟨inMem_low (by decide), by decide, by decide, by decide, by decide, by decide, by decide⟩,
    inMem_low (by decide), by decide, by decide, by decide, by decide, by decide⟩

theorem witness_HeaderRefused :
    ¬InMem farSource.src farSource.srcLen ∧ (work [2, 0, 0] 0).srcLen < 4 ∧
    ((work ((head11 2).take 11) 0).srcLen = 11 ∧ (be16At (work ((head11 2).take 11) 0).source 2).getLsbD 14 = false) ∧
    ((work (head11 2 ++ [1]) 0).srcLen - 12 = 1 ∧
      ((be16At (work (head11 2 ++ [1]) 0).source 2).extractLsb' 0 10).toNat = 2 ∧
      ∀ b ∈ ((work (head11 2 ++ [1]) 0).source.drop 4).take 6, badBcdByte b = false) ∧
    (((work ((head11 2).set 9 0xA1 ++ [1]) 0).source.drop 4).take 6)[5]? = some 0xA1 ∧ badBcdByte 0xA1 = true ∧
      (∀ k < 5, ∀ b, (((work ((head11 2).set 9 0xA1 ++ [1]) 0).source.drop 4).take 6)[k]? = some b →
        badBcdByte b = false) ∧
      InMem (work ((head11 2).set 9 0xA1 ++ [1]) 0).src (work ((head11 2).set 9 0xA1 ++ [1]) 0).srcLen := by
  refine ⟨not_inMem_high (by decide), by decide, by decide, by decide, by decide, by decide, ?_,
    inMem_low (by decide)⟩
  have e : ((work ((head11 2).set 9 0xA1 ++ [1]) 0).source.drop 4).take 6 = [1, 0x23, 0x45, 0x67, 0x89, 0xA1] := by
    decide
  rw [e]
  intro k hk b hb
  have h : k = 0 ∨ k = 1 ∨ k = 2 ∨ k = 3 ∨ k = 4 := by omega
  rcases h with rfl | rfl | rfl | rfl | rfl <;> cases hb <;> decide

theorem witness_HeaderEncoded :
    (let s : State := { args 0 1023 0x300 12 with hdr := { regs11 with idm := 0xFFFF } }
     InMem s.dst s.dstCap ∧ s.srcLen ≤ 1023 ∧ (s.hdr.idh = 0 ∧ s.hdr.idm.toNat < 65536) ∧ 12 ≤ s.dstCap) ∧
    (let s : State := { args 0 0 0x300 21 with hdr := { regs11 with idh := 1 } }
     InMem s.dst s.dstCap ∧ s.srcLen ≤ 1023 ∧ Version.v2019 ≠ .v2011 ∧ 17 + 4 ≤ s.dstCap) :=
  ⟨⟨inMem_low (by decide), by decide, by decide, by decide⟩, inMem_low (by decide), by decide, by decide, by decide⟩

theorem witness_EncodeRefusals :
    ¬InMem farDest.dst farDest.dstCap ∧
    (InMem (args 0 1024 0x300 12).dst (args 0 1024 0x300 12).dstCap ∧ 1023 < (args 0 1024 0x300 12).srcLen) ∧
    (let s : State := { work [1] 64 with hdr := { regs11 with idm := 0x10000 } }
     BuffersIn s s.dstCap ∧ s.srcLen ≤ 1023 ∧ ¬(Version.v2011 = .v2011 → s.hdr.idh = 0 ∧ s.hdr.idm.toNat < 65536)) ∧
    (let s : State := { work [1] 11 with hdr := regs11 }
     BuffersIn s s.dstCap ∧ (s.hdr.idh = 0 ∧ s.hdr.idm.toNat < 65536) ∧ s.dstCap < 12 ∧
      s.dstCap < (packetFrames s.hdr .v2011 s.source).length) :=
  ⟨not_inMem_high (by decide), ⟨inMem_low (by decide), by decide⟩,
    ⟨buffers_work _ _ (by decide) (by decide) (by decide), by decide, by decide⟩,
    buffers_work _ _ (by decide) (by decide) (by decide), by decide, by decide, by decide⟩

/-- The clause of `EncodeRefusals` about more than 65535 fragments needs a MEM of at least `2^26` bytes; where
`P_MEM_SIZE` is that large these operands meet it. -/
theorem witness_EncodeRefusals_large (h : 1023 * 65535 + 1 ≤ Config.params.memSize) :
    let s := args 0 67042306 0 0
    BuffersIn s s.dstCap ∧ 1023 * 65535 < s.srcLen :=
  ⟨⟨h, inMem_low (by decide), .inr (.inl rfl)⟩, by decide⟩

theorem witness_FrameDecoded :
    let hdr := headerBytes false false 1 2 0 [1, 0x23, 0x45, 0x67, 0x89, 1] 8 0 0
    let u := hdr ++ [0x7C, 1] ++ [xorAll (hdr ++ [0x7C, 1])]
    let s := work frame7 15
    BuffersIn s s.dstCap ∧ s.source = escape u ∧ (2 : Half).getLsbD 14 = false ∧ (2 : Half).getLsbD 13 = false ∧
      ([0x7C, 1] : List Byte).length = ((2 : Half).extractLsb' 0 10).toNat ∧
      (∀ b ∈ ([1, 0x23, 0x45, 0x67, 0x89, 1] : List Byte), badBcdByte b = false) ∧ u.length ≤ s.dstCap :=
  ⟨buffers_work _ _ (by decide) (by decide) (by decide), by decide, by decide, by decide, by decide, by decide,
    by decide⟩

theorem witness_FrameRefused :
    (BuffersIn (work [0x7D, 3] 8) 8 ∧ unescape (work [0x7D, 3] 8).source = .error 0) ∧ (work [] 8).srcLen = 0 ∧
    ((work [1, 2, 4] 8).source = escape ([1, 2] ++ [4]) ∧ xorAll [1, 2] ≠ 4) ∧
    ((work [1, 2, 3] 8).source = escape ([1, 2] ++ [3]) ∧ xorAll [1, 2] = 3) ∧
    (work [0, 0, 0x40, 0, 0x40] 8).source = escape ([0, 0, 0x40, 0] ++ [0x40]) ∧ xorAll [0, 0, 0x40, 0] = 0x40 ∧
      (be16At ([0, 0, 0x40, 0] : List Byte) 2).getLsbD 14 = true :=
  ⟨⟨buffers_work _ _ (by decide) (by decide) (by decide), by decide⟩, by decide, by decide, by decide, by decide,
    by decide, by decide⟩

/-- The last two clauses of `FrameRefused`: a V2011 packet of 14 bytes whose size field says 2 (vector H-7), with one byte
of the body missing, and with a destination one byte short. -/
theorem witness_FrameRefused_size :
    let p := frame7.take 14
    let q := frame7.take 13
    (work frame7 14).source = escape (p ++ [0xFE]) ∧ xorAll p = 0xFE ∧ (be16At p 2).getLsbD 14 = false ∧
      (be16At p 2).getLsbD 13 = false ∧ p.length - 12 = ((be16At p 2).extractLsb' 0 10).toNat ∧
      (∀ b ∈ (p.drop 4).take 6, badBcdByte b = false) ∧ (work frame7 14).dstCap < p.length + 1 ∧
      (work (q ++ [0xFF]) 64).source = escape (q ++ [0xFF]) ∧ xorAll q = 0xFF ∧
      q.length - 12 ≠ ((be16At q 2).extractLsb' 0 10).toNat ∧
      badBcdByte 0xA1 = true ∧ (((frame7.set 9 0xA1).drop 4).take 6)[5]? = some 0xA1 := by decide

theorem witness_PacketEncoded :
    let s : State := { work [0x7C, 1] 17 with hdr := { regs11 with msgId := 1, seq := 8 } }
    BuffersIn s s.dstCap ∧ (s.hdr.idh = 0 ∧ s.hdr.idm.toNat < 65536) ∧ chunkCount s.source.length ≤ 65535 ∧
      (packetFrames s.hdr .v2011 s.source).length ≤ s.dstCap :=
  ⟨buffers_work _ _ (by decide) (by decide) (by decide), by decide, by decide, by decide⟩

theorem witness_ChunksCoverBody : 1023 < (List.replicate 1024 (0 : Byte)).length := by
  rw [List.length_replicate]; decide

theorem witness_PacketRoundTrip :
    let s : State := { work [0x7C, 1] 17 with hdr := { regs11 with msgId := 1, seq := 8 } }
    let t := after (.penc .v2011) s
    let u : State := { t with arg0 := s.arg2 + 1, arg1 := t.res0 - 2, arg2 := 0x400, arg3 := 24 }
    exec (.penc .v2011) s = .next t ∧ t.err = .ok ∧ s.srcLen ≤ 1023 ∧
      (∀ b ∈ be16 s.hdr.idh ++ be32 s.hdr.idm ++ be32 s.hdr.idl, badBcdByte b = false) ∧
      BuffersIn u u.dstCap ∧ s.srcLen + 22 ≤ (24 : Word).toNat :=
  ⟨rfl, by decide, by decide, by decide, buffers_work _ _ (by decide) (by decide) (by decide), by decide⟩

theorem witness_BitCommands :
    31 < 32 ∧ (args 0 1 0 0).arg1.toNat = true.toNat ∧ (args 0 0 0 0).arg1.toNat = false.toNat ∧
      1 < (args 0 2 0 0).arg1.toNat := by decide

theorem witness_FieldCommands :
    (31 + 1 ≤ 32 ∧ 0 + 32 ≤ 32 ∧ 32 < 31 + 2) ∧ (args 0 0xFFFFFFFF 0 0).arg1.toNat < 2 ^ 32 ∧
      (args 0 1 0 0).arg1.toNat < 2 ^ 1 ∧ 2 ^ 1 ≤ (args 0 2 0 0).arg1.toNat := by decide

theorem witness_BcdInverse :
    (stampFieldsOk 0x18010F ∧ stampFieldsOk 0x636363) ∧
    bcdDecode6 [0x24, 0x01, 0x15, 0x08, 0x30, 0x59] = .ok { date := 0x18010F, time := 0x081E3B } ∧
    bcdDecode6 [0x99, 0x99, 0x99, 0x99, 0x99, 0xA9] = .error 5 :=
  ⟨by unfold stampFieldsOk; decide, by decide, by decide⟩

theorem witness_BcdCommands :
    ¬InMem farSource.src 6 ∧ ¬InMem farDest.dst 6 ∧
    (let s := work [0x99, 0x01, 0x15, 0x08, 0x30, 0x59] 0
     let hi := fun k : Nat => [9, 0, 1, 0, 3, 5].getD k 0
     let lo := fun k : Nat => [9, 1, 5, 8, 0, 9].getD k 0
     InMem s.src 6 ∧ (∀ k < 6, hi k ≤ 9 ∧ lo k ≤ 9) ∧
      ∀ k < 6, (s.byteAt (s.src + k)).toNat = 16 * hi k + lo k) ∧
    (let s := work [0x99, 0x01, 0x15, 0x08, 0x30, 0xA9] 0
     badBcdByte (s.byteAt (s.src + 5)) = true ∧ ∀ k < 5, badBcdByte (s.byteAt (s.src + k)) = false) ∧
    (let s := args 0x636363 0x18010F 0x300 0
     InMem s.dst 6 ∧ s.arg0.toNat = 65536 * 99 + 256 * 99 + 99 ∧ s.arg1.toNat = 65536 * 24 + 256 * 1 + 15) ∧
    bcdFieldsOk (args 0x636364 0 0x300 0).arg0 = false ∧ bcdFieldsOk (args 0x636363 0x1000000 0x300 0).arg0 = true ∧
      bcdFieldsOk (args 0x636363 0x1000000 0x300 0).arg1 = false :=
  ⟨not_inMem_high (by decide), not_inMem_high (by decide), ⟨inMem_low (by decide), by decide, by decide⟩, by decide,
    ⟨inMem_low (by decide), by decide, by decide⟩, by decide, by decide, by decide⟩

theorem witness_PositionDecoded :
    let items : List (List Byte × List Byte) := [([1], [0, 0, 4, 0xD2])]
    let s := work (core28 ++ [1, 4, 0, 0, 4, 0xD2]) 1
    BuffersIn s (16 * s.dstCap) ∧ s.src + s.srcLen < 2 ^ 32 ∧ ItemsOk 1 items ∧ items.length ≤ s.dstCap ∧
      stampFieldsOk 0x18010F ∧ stampFieldsOk 0x081E3B ∧
      s.source = be32 1 ++ be32 3 ++ be32 0x01DC8830 ++ be32 0x073D7C30 ++ be16 0x32 ++ be16 0x7E ++ be16 0x7D ++
        bcdEncode6 ((0x18010F : BitVec 24).setWidth 32) ((0x081E3B : BitVec 24).setWidth 32) ++ itemList items :=
  ⟨buffers_work _ _ (by decide) (by decide) (by decide), by decide, by unfold ItemsOk; decide, by decide,
    by unfold stampFieldsOk; decide, by unfold stampFieldsOk; decide, by decide⟩

theorem witness_MileageScenario :
    core28.length = 28 ∧ bcdDecode6 (core28.drop 22) = .ok { date := 0x18010F, time := 0x081E3B } ∧
    (BuffersIn (work core28 0) (16 * (work core28 0).dstCap) ∧ (work core28 0).source = core28) ∧
    BuffersIn (work (core28 ++ [1, 4, 0, 0, 4, 0xD2]) 1) (16 * 1) ∧
      (work (core28 ++ [1, 4, 0, 0, 4, 0xD2]) 1).source = core28 ++ [0x01, 0x04] ++ be32 0x4D2 ∧
      1 ≤ (work (core28 ++ [1, 4, 0, 0, 4, 0xD2]) 1).dstCap :=
  ⟨by decide, by decide, ⟨buffers_work _ _ (by decide) (by decide) (by decide), by decide⟩,
    buffers_work _ _ (by decide) (by decide) (by decide), by decide, by decide⟩

theorem witness_ListsDecoded :
    (let items : List (List Byte × List Byte) := [([1], [0, 0, 4, 0xD2]), ([0xE5], [])]
     let s := work [1, 4, 0, 0, 4, 0xD2, 0xE5, 0] 2
     BuffersIn s (16 * s.dstCap) ∧ s.src + s.srcLen < 2 ^ 32 ∧ items.length ≤ s.dstCap ∧ s.source = itemList items ∧
      ItemsOk 1 items) ∧
    (let items : List (List Byte × List Byte) := [([0, 0, 0, 1], [0, 0, 0, 0x1E])]
     let s := work [0, 0, 0, 1, 4, 0, 0, 0, 0x1E] 1
     BuffersIn s (16 * s.dstCap) ∧ items.length ≤ s.dstCap ∧ s.source = itemList items ∧ ItemsOk 4 items) :=
  ⟨⟨buffers_work _ _ (by decide) (by decide) (by decide), by decide, by decide, by decide, by unfold ItemsOk; decide⟩,
    buffers_work _ _ (by decide) (by decide) (by decide), by decide, by decide, by unfold ItemsOk; decide⟩

theorem witness_ListsRefused :
    (let s := work [1, 4, 0, 0, 4, 0xD2, 2, 2, 1] 4
     let tail : List Byte := [2, 2, 1]
     BuffersIn s (16 * s.dstCap) ∧ s.source = itemList [([1], [0, 0, 4, 0xD2])] ++ tail ∧ tail ≠ [] ∧
      tail.length < 1 + 1 + (byteOf tail 1).toNat) ∧
    (let s := work [0, 0, 0, 0x13] 4
     let tail : List Byte := [0, 0, 0, 0x13]
     BuffersIn s (16 * s.dstCap) ∧ s.source = itemList [] ++ tail ∧ tail ≠ [] ∧ tail.length < 4 + 1) ∧
    ((work [1, 0] 0).source = itemList [([1], [])] ∧ (work [1, 0] 0).dstCap < 1) ∧
    ((work [0, 0, 0, 1, 0] 0).source = itemList [([0, 0, 0, 1], [])] ∧ (work [0, 0, 0, 1, 0] 0).dstCap < 1) ∧
    (work (core28.take 27) 0).srcLen < 28 ∧
    bcdDecode6 (((work (core28.set 27 0x5A) 0).source.drop 22).take 6) = .error 5 ∧
    (bcdDecode6 (core28.drop 22) = .ok { date := 0x18010F, time := 0x081E3B } ∧
      (work (core28 ++ [1]) 0).source = core28 ++ itemList [] ++ [1]) ∧
    (work (core28 ++ [1, 0]) 0).source = core28 ++ itemList [([1], [])] ++ [] ∧ (work (core28 ++ [1, 0]) 0).dstCap < 1 :=
  ⟨⟨buffers_work _ _ (by decide) (by decide) (by decide), by decide, by decide, by decide⟩,
    ⟨buffers_work _ _ (by decide) (by decide) (by decide), by decide, by decide, by decide⟩, by decide, by decide,
    by decide, by decide, by decide, by decide, by decide⟩

/-- The registers of the item of vector G-1. -/
def geo1 : GeoRegs := (after (.geodec .circle .v2011) (work circle1 0)).geo

theorem timesOk_geo1 : TimesOk geo1 := by
  unfold TimesOk stampFieldsOk; decide

/-- No time group: nothing is asked of the time registers. -/
theorem timesOk_untimed {g : GeoRegs} (h : g.attr.getLsbD 0 = false) : TimesOk g :=
  fun ht => absurd (h.symm.trans ht) (by decide)

/-- A Polyline of one point whose conditional parts are absent. -/
def geoLine : GeoRegs := { GeoRegs.reset with id := 0x10, nPts := 1 }
def pointLine : RoutePoint :=
  { ptid := 1, segid := 1, lat := 2, lon := 3, width := 4, sattr := 0, pres := 0, maxT := 0, minT := 0, sMax := 0,
    sOvd := 0, sNight := 0 }
def blockLine : List Byte := be32 1 ++ be32 1 ++ be32 2 ++ be32 3 ++ [4, 0]
def workLine : State := work (be32 0x10 ++ [0, 0] ++ ([0, 1] ++ blockLine)) 1

theorem geoWire_line :
    geoWire Config.params .polyline .v2011 geoLine blockLine [] = be32 0x10 ++ [0, 0] ++ ([0, 1] ++ blockLine) := by
  by_cases h : Config.params.geoOrder = .doc
  · simp only [geoWire, geoLayout, geoArrange, if_pos h]; decide
  · simp only [geoWire, geoLayout, geoArrange, if_neg h]; decide

/-- A Circle followed by two more bytes, and a Polyline. -/
theorem witness_GeofenceDecoded :
    (let s := work (circle1 ++ [0xEE, 0xEE]) 0
     InMem s.src s.srcLen ∧ s.src + s.srcLen < 2 ^ 32 ∧ TimesOk geo1 ∧
      BlockOk Config.params .circle .v2011 geo1 [] [] ∧
      s.source = geoWire Config.params .circle .v2011 geo1 [] [] ++ [0xEE, 0xEE]) ∧
    BuffersIn workLine (32 * workLine.dstCap) ∧ TimesOk geoLine ∧
      BlockOk Config.params .polyline .v2011 geoLine blockLine [pointLine] ∧ [pointLine].length ≤ workLine.dstCap ∧
      workLine.source = geoWire Config.params .polyline .v2011 geoLine blockLine [] ++ [] :=
  ⟨⟨inMem_low (by decide), by decide, timesOk_geo1, ⟨rfl, rfl⟩, by decide⟩,
    buffers_work _ _ (by decide) (by decide) (by decide), timesOk_untimed (by decide), ⟨by decide, by decide⟩,
    by decide, by rw [geoWire_line]; decide⟩

/-- The layout of the Polyline with one point, under either order. -/
theorem geoLayout_line :
    geoLayout Config.params .polyline .v2011 geoLine [] blockLine [] = be32 0x10 ++ [0, 0] ++ ([0, 1] ++ blockLine) :=
  geoWire_line

/-- A source outside MEM; the item of vector G-1 with a bad digit in its start time, in its end time, and cut before its
last field; a Polyline cut inside its point, and one with no room for its record; a V2019 Rectangle cut inside its name. -/
theorem witness_GeofenceDecodeRefused :
    ¬InMem farSource.src farSource.srcLen ∧
    (let s := work (circle1.set 20 0x3F) 0
     let first : List Byte := [0x24, 1, 0x3F, 0, 0, 0]
     let second : List Byte := [0x24, 0x12, 0x31, 0x23, 0x59, 0x59]
     InMem s.src s.srcLen ∧ geo1.attr.getLsbD 0 = true ∧ BlockOk Config.params .circle .v2011 geo1 [] [] ∧
      s.source ++ [] = geoLayout Config.params .circle .v2011 geo1 (first ++ second) [] [] ++ [] ∧
      timeOffset Config.params .circle [] + 6 ≤ s.srcLen ∧ bcdDecode6 first = .error 2) ∧
    (let s := work ((circle1.set 29 0xA9).take 30) 0
     let first : List Byte := [0x24, 1, 1, 0, 0, 0]
     let second : List Byte := [0x24, 0x12, 0x31, 0x23, 0x59, 0xA9]
     s.source ++ [0, 0x50, 0x0A] = geoLayout Config.params .circle .v2011 geo1 (first ++ second) [] [] ++ [] ∧
      timeOffset Config.params .circle [] + 12 ≤ s.srcLen ∧ (∃ x, bcdDecode6 first = .ok x) ∧
      bcdDecode6 second = .error 5) ∧
    (let s := work (circle1.take 32) 0
     let first : List Byte := [0x24, 1, 1, 0, 0, 0]
     let second : List Byte := [0x24, 0x12, 0x31, 0x23, 0x59, 0x59]
     s.source ++ [0x0A] = geoLayout Config.params .circle .v2011 geo1 (first ++ second) [] [] ++ [] ∧
      (∃ x, bcdDecode6 first = .ok x) ∧ (∃ x, bcdDecode6 second = .ok x) ∧
      s.srcLen < (geoLayout Config.params .circle .v2011 geo1 (first ++ second) [] []).length ∧
      cutField (geoWidths Config.params .circle .v2011 geo1 []) s.srcLen = 32) ∧
    (let s := work ((be32 0x10 ++ [0, 0] ++ ([0, 1] ++ blockLine)).take 25) 1
     BuffersIn s (32 * s.dstCap) ∧ BlockOk Config.params .polyline .v2011 geoLine blockLine [pointLine] ∧
      geoLine.attr.getLsbD 0 = false ∧
      s.source ++ [0] = geoLayout Config.params .polyline .v2011 geoLine [] blockLine [] ++ []) ∧
    (let s := { workLine with arg3 := 0 }
     BuffersIn s (32 * s.dstCap) ∧ s.dstCap < [pointLine].length ∧
      (geoLayout Config.params .polyline .v2011 geoLine [] blockLine []).length ≤ s.srcLen) ∧
    (let g : GeoRegs := { GeoRegs.reset with nameLen := 2 }
     let s := work (List.replicate 23 0 ++ [2, 0x41]) 0
     InMem s.src s.srcLen ∧ s.source ++ [0x42] = geoLayout Config.params .rect .v2019 g [] [] [0x41, 0x42] ++ [] ∧
      cutField (geoWidths Config.params .rect .v2019 g []) s.srcLen = 24) :=
  ⟨not_inMem_high (by decide),
    ⟨inMem_low (by decide), by decide, ⟨rfl, rfl⟩, by decide, by decide, by decide⟩,
    ⟨by decide, by decide, ⟨_, rfl⟩, by decide⟩,
    ⟨by decide, ⟨_, rfl⟩, ⟨_, rfl⟩, by decide, by decide⟩,
    ⟨buffers_work _ _ (by decide) (by decide) (by decide), ⟨by decide, by decide⟩, by decide,
      by rw [geoLayout_line]; decide⟩,
    ⟨buffers_work _ _ (by decide) (by decide) (by decide), by decide, by rw [geoLayout_line]; decide⟩,
    inMem_low (by decide), by decide, by decide⟩

/-- A Circle of vector G-1, written to a destination that just holds it and to one that does not; a Polygon of one
vertex; a named Rectangle. -/
theorem witness_GeofenceEncoded :
    (let s : State := { args 0 0 0x400 33 with geo := geo1 }
     InMem s.dst s.dstCap ∧ TimesOk s.geo ∧ BlockOk Config.params .circle .v2011 s.geo [] [] ∧
      hasPoints .circle = false ∧ (geoWire Config.params .circle .v2011 s.geo [] []).length = s.dstCap ∧
      ({ s with arg3 := 32 } : State).dstCap < (geoWire Config.params .circle .v2011 s.geo [] []).length) ∧
    (let s : State := { args 0 0 0x400 64 with geo := { GeoRegs.reset with nPts := 1, ptsAddr := 0x100, ptsLen := 8 } }
     TimesOk s.geo ∧ BlockOk Config.params .polygon .v2011 s.geo (s.bytesAt 0x100 8) [] ∧
      InMem s.geo.ptsAddr.toNat s.geo.ptsLen.toNat ∧
      Apart s.dst s.dstCap s.geo.ptsAddr.toNat s.geo.ptsLen.toNat) ∧
    (let s : State := { args 0 0 0x400 64 with geo := { GeoRegs.reset with nameAddr := 0x100, nameLen := 2 } }
     TimesOk s.geo ∧ BlockOk Config.params .rect .v2019 s.geo [] [] ∧
      InMem s.geo.nameAddr.toNat s.geo.nameLen.toNat ∧
      Apart s.dst s.dstCap s.geo.nameAddr.toNat s.geo.nameLen.toNat) :=
  ⟨⟨inMem_low (by decide), timesOk_geo1, ⟨rfl, rfl⟩, rfl, by decide, by decide⟩,
    ⟨timesOk_untimed (by decide), ⟨by decide, rfl⟩, inMem_low (by decide), .inr (.inr (.inl (by decide)))⟩,
    timesOk_untimed (by decide), ⟨rfl, rfl⟩, inMem_low (by decide), .inr (.inr (.inl (by decide)))⟩

/-- The hypotheses of each clause of `GeofenceRefused`, the later ones for a V2019 Polyline of one point whose block is
`blockLine` at 0x200. -/
theorem witness_GeofenceRefused :
    let lineAt : GeoRegs := { geoLine with ptsAddr := 0x200, ptsLen := 18, nameAddr := 0x400, nameLen := 2 }
    let s : State := { work blockLine 64 with geo := lineAt }
    ¬InMem farDest.dst farDest.dstCap ∧ InMem s.dst s.dstCap ∧
    (stampFieldsOk 0x636363 ∧ ¬stampFieldsOk 0x636364) ∧ (1 : Half).getLsbD 0 = true ∧
    (let g : GeoRegs := { GeoRegs.reset with nPts := 3, ptsLen := 23 }
     TimesOk g ∧ g.ptsLen.toNat ≠ 8 * g.nPts.toNat) ∧
    (let g : GeoRegs := { GeoRegs.reset with nPts := 1, ptsLen := 8, ptsAddr := 0xFFFFFFFF }
     TimesOk g ∧ g.ptsLen.toNat = 8 * g.nPts.toNat ∧ ¬InMem g.ptsAddr.toNat g.ptsLen.toNat) ∧
    (let g : GeoRegs := { lineAt with nameAddr := 0xFFFFFFFF }
     TimesOk g ∧ InMem g.ptsAddr.toNat g.ptsLen.toNat ∧ ¬InMem g.nameAddr.toNat g.nameLen.toNat) ∧
    (TimesOk lineAt ∧ InMem lineAt.ptsAddr.toNat lineAt.ptsLen.toNat ∧
      InMem lineAt.nameAddr.toNat lineAt.nameLen.toNat) ∧
    (¬∃ ps : List RoutePoint, ([] : List Byte) = ps.flatMap (routeWire false) ∧ ps.length = 1) ∧
    (s.bytesAt 0x200 18 = [pointLine].flatMap (routeWire false) ∧ [pointLine].length = lineAt.nPts.toNat) ∧
    ¬Apart 0x1FF 2 lineAt.ptsAddr.toNat lineAt.ptsLen.toNat ∧
    ¬Apart 0x401 64 lineAt.nameAddr.toNat lineAt.nameLen.toNat :=
  ⟨not_inMem_high (by decide), inMem_low (by decide), by unfold stampFieldsOk; decide, by decide,
    ⟨timesOk_untimed (by decide), by decide⟩, ⟨timesOk_untimed (by decide), by decide, not_inMem_high (by decide)⟩,
    ⟨timesOk_untimed (by decide), inMem_low (by decide), not_inMem_high (by decide)⟩,
    ⟨timesOk_untimed (by decide), inMem_low (by decide), inMem_low (by decide)⟩,
    fun ⟨ps, h, hl⟩ => by
      match ps, hl with
      | [p], _ => exact absurd h (by simp [routeWire, be32]),
    by decide, by unfold Apart; decide, by unfold Apart; decide⟩

theorem witness_GeofenceRoundTrip :
    let s := work circle1 0
    let t := after (.geodec .circle .v2011) s
    let u : State := { t with arg2 := 0x400, arg3 := 33 }
    exec (.geodec .circle .v2011) s = .next t ∧ t.err = .ok ∧ s.src + s.srcLen < 2 ^ 32 ∧ InMem u.dst u.dstCap ∧
      Apart s.src s.srcLen u.dst u.dstCap ∧ t.res0.toNat ≤ u.dstCap :=
  ⟨rfl, by decide, by decide, inMem_low (by decide), .inr (.inr (.inr (by decide))), by decide⟩

theorem witness_GeofenceReadsBack :
    let s : State := { args 0 0 0x400 33 with geo := geo1 }
    let t := after (.geoenc .circle .v2011) s
    exec (.geoenc .circle .v2011) s = .next t ∧ t.err = .ok ∧ s.dst + t.res0.toNat < 2 ^ 32 ∧
      Shape.circle ≠ .polyline :=
  ⟨rfl, by decide, by decide, by decide⟩

theorem witness_CircleSizes :
    let s : State := { args 0 0 0x400 33 with geo := geo1 }
    exec (.geoenc .circle .v2011) s = .next (after (.geoenc .circle .v2011) s) ∧
      (after (.geoenc .circle .v2011) s).err = .ok :=
  ⟨rfl, by decide⟩

/-- An error of each kind `ErrorsArePrecise` tells apart. -/
theorem witness_ErrorsArePrecise :
    let s := after (.feed 0x7E) (line [] 0)
    (exec (.feed 0x41) s = .next (after (.feed 0x41) s) ∧ (after (.feed 0x41) s).err = .framing) ∧
      exec .esc overlapping = .next (after .esc overlapping) ∧ (after .esc overlapping).err ≠ .ok :=
  ⟨⟨rfl, by decide⟩, rfl, by decide⟩

theorem witness_RegistersKept :
    exec .xsum (work [1] 0) = .next (after .xsum (work [1] 0)) ∧ isFramer .xsum = false ∧
      takesLineBytes .frel = false ∧ writesHeader (.penc .v2019) = false ∧ Instr.xsum ≠ .posdec ∧
      ∀ shape v, Instr.xsum ≠ .geodec shape v :=
  ⟨rfl, rfl, rfl, rfl, by decide, fun _ _ h => by cases h⟩

/-- A framer inside a frame, with two of its window's eight bytes filled. -/
def inFrame : State := { line [0x7E] 8 with frs := .inFrame, frLen := 2, host := [.writeReg 4 0 0x007E0001] }

theorem inFrame_framerOk : inFrame.framerOk :=
  ⟨fun h => absurd rfl h, by decide, fun h => absurd h (by decide), fun _ => rfl, by decide, fun _ => by decide⟩

/-- The last byte before the range of `ESC`, the first after it. -/
theorem witness_StoresStayInRange :
    inFrame.framerOk ∧ exec .fwrap { inFrame with arg3 := 4 } = .next (after .fwrap { inFrame with arg3 := 4 }) ∧
      writeRange .fwrap { inFrame with arg3 := 4 } = some (0x300, 4) ∧
      writeRange (.feed 0x41) inFrame = some (0x100, 8) ∧ (0x2FF < 0x300 ∨ 0x300 + 4 ≤ 0x2FF) ∧
      (0x304 < 0x300 ∨ 0x300 + 4 ≤ 0x304) :=
  ⟨inFrame_framerOk, rfl, by decide, by decide, by decide, by decide⟩

/-- A sound state whose next action is a command. -/
theorem witness_StepKeepsInv : inFrame.Inv ∧ ∃ t, step inFrame = .next t := by
  refine ⟨⟨⟨by decide, fun c hc => ?_⟩, inFrame_framerOk, ⟨rfl, fun _ => rfl⟩, ?_, ?_, .inl rfl⟩, _, rfl⟩
  · have h : c = (0x200, 0x7E) := List.mem_singleton.mp hc
    rw [h]
    exact Nat.lt_of_lt_of_le (by decide) Config.params.memSize_ge
  · unfold stampFieldsOk; decide
  · unfold stampFieldsOk; decide

theorem witness_RegisterReads :
    (0x10C : RegOffset).toNat % 4 = 0 ∧ (∃ r ∈ allRegs, r.offset = (0x10C : RegOffset).toNat) ∧
      ((0x10C : RegOffset).toNat, 0) ∈ registerTable State.reset ∧ (0x1FC : RegOffset).toNat % 4 = 0 ∧
      (∀ r ∈ allRegs, r.offset ≠ (0x1FC : RegOffset).toNat) ∧
      ∀ x ∈ registerTable State.reset, x.1 ≠ (0x1FC : RegOffset).toNat := by decide

theorem witness_RegisterWrites : (Reg.ie, 2) ∈ writableRegs ∧ (Reg.gNameLen, 16) ∈ writableRegs := by decide

theorem witness_GuardedWrites :
    (0x030 : RegOffset).toNat % 4 = 0 ∧ (0x034 : RegOffset).toNat % 4 = 0 ∧ (0x040 : RegOffset).toNat % 4 = 0 ∧
      (∃ r ∈ readOnlyRegs, r.offset = (0x10C : RegOffset).toNat) ∧
      ∀ r ∈ allRegs, r.offset ≠ (0x1FC : RegOffset).toNat := by decide

theorem witness_MemoryPort :
    InMem 8191 1 ∧ ({ State.reset with host := [.readMem 8191] } : State).host = [.readMem 8191] ∧
      ({ State.reset with host := [.writeMem 8191 5] } : State).host = [.writeMem 8191 5] :=
  ⟨inMem_low (by decide), rfl, rfl⟩

theorem witness_StepRefusesOnlyBadAccesses :
    (2 ≠ 4 ∨ (0 : RegOffset).toNat % 4 ≠ 0) ∧ (4 ≠ 4 ∨ (1 : RegOffset).toNat % 4 ≠ 0) ∧ ¬InMem (2 ^ 32) 1 ∧
      step { State.reset with host := [.readReg 2 0] } = .refused .registerAccess ∧ State.reset.host = [] :=
  ⟨by decide, by decide, not_inMem_high (by decide), rfl, rfl⟩

theorem witness_ResetClears :
    ({ args 1 2 3 4 with host := [.reset, .readMem 0] } : State).host = .reset :: [.readMem 0] := rfl

end Sys2Proof.Tests
end

section
/-! The opcode map read row by row (30_encoding.md R82, R83): the decoder's arm for an opcode accepts a word exactly when
one of that opcode's rows holds of it; no two rows hold of one word; a word with no row raises `ILLEGAL`. -/

namespace Sys2Proof

open Sys2Proof.Machine

/-! ## A row by its fields -/

/-- A word is fixed by its four fields (R81). -/
theorem word_ext_fields {a b : Word} (ho : opcField a = opcField b) (hs : selField a = selField b)
    (hr : rsvField a = rsvField b) (hi : immField a = immField b) : a = b := by
  rw [word_fields a, word_fields b, ho, hs, hr, hi]

/-- A row matches a word when it matches it in each field (R82). -/
theorem Row.holds_iff_fields {r : Row} {w : Word} :
    r.holds w = true ↔
      opcField w &&& opcField r.mask = opcField r.pattern ∧ selField w &&& selField r.mask = selField r.pattern ∧
        rsvField w &&& rsvField r.mask = rsvField r.pattern ∧ immField w &&& immField r.mask = immField r.pattern := by
  refine ⟨Row.holds_fields, fun ⟨ho, hs, hr, hi⟩ => ?_⟩
  simp only [← opcField_and, ← selField_and, ← rsvField_and, ← immField_and] at ho hs hr hi
  simpa [Row.holds] using word_ext_fields ho hs hr hi

/-- The row of opcode `opc` with `SEL & selMask = sel` and `IMM & immMask = 0`, as R83 lists it; `RSV` is 0 in every
row. -/
def rowOf (opc : Nat) (selMask sel : BitVec 4) (immMask : Half) : Row :=
  ⟨immMask ++ 0xF#4 ++ selMask ++ 0xFF#8, 0#16 ++ 0#4 ++ sel ++ BitVec.ofNat 8 opc⟩

/-- The four fields of a word written as their concatenation (R81). -/
theorem fields_append (i : Half) (r s : BitVec 4) (o : Byte) :
    opcField (i ++ r ++ s ++ o) = o ∧ selField (i ++ r ++ s ++ o) = s ∧ rsvField (i ++ r ++ s ++ o) = r ∧
      immField (i ++ r ++ s ++ o) = i := by
  refine ⟨?_, ?_, ?_, ?_⟩ <;>
    · ext k hk
      grind [opcField, selField, rsvField, immField]

theorem rowOf_mask_fields (opc : Nat) (selMask sel : BitVec 4) (immMask : Half) :
    opcField (rowOf opc selMask sel immMask).mask = 0xFF ∧ selField (rowOf opc selMask sel immMask).mask = selMask ∧
      rsvField (rowOf opc selMask sel immMask).mask = 0xF ∧ immField (rowOf opc selMask sel immMask).mask = immMask :=
  fields_append ..

theorem rowOf_pattern_fields (opc : Nat) (selMask sel : BitVec 4) (immMask : Half) :
    opcField (rowOf opc selMask sel immMask).pattern = BitVec.ofNat 8 opc ∧
      selField (rowOf opc selMask sel immMask).pattern = sel ∧
      rsvField (rowOf opc selMask sel immMask).pattern = 0 ∧ immField (rowOf opc selMask sel immMask).pattern = 0 :=
  fields_append ..

/-- Of a word with the row's opcode and `RSV = 0`, the row asks only what its SEL and IMM columns say. -/
theorem rowOf_holds_iff {w : Word} {opc : Nat} {selMask sel : BitVec 4} {immMask : Half} (hr : rsvField w = 0)
    (ho : (opcField w).toNat = opc) :
    (rowOf opc selMask sel immMask).holds w = true ↔
      selField w &&& selMask = sel ∧ immField w &&& immMask = 0 := by
  obtain ⟨mo, ms, mr, mi⟩ := rowOf_mask_fields opc selMask sel immMask
  obtain ⟨po, ps, pr, pi⟩ := rowOf_pattern_fields opc selMask sel immMask
  have opc_eq : opcField w &&& 0xFF = BitVec.ofNat 8 opc := by
    rw [← ho, BitVec.ofNat_toNat, BitVec.setWidth_eq]
    exact BitVec.and_allOnes
  rw [Row.holds_iff_fields, mo, ms, mr, mi, po, ps, pr, pi, hr, opc_eq]
  simp

/-! ## The rows of one opcode -/

/-- The rows of the table with opcode `opc`. -/
def rowsOf (opc : Nat) : List Row := opcodeRows.filter (fun r => (opcField r.pattern).toNat = opc)

/-- Every row fixes `OPC` whole and asks `RSV = 0` (R82). -/
theorem opcodeRows_fix_opc_rsv :
    ∀ r ∈ opcodeRows, opcField r.mask = 0xFF ∧ rsvField r.mask = 0xF ∧ rsvField r.pattern = 0 := by decide

theorem rsvField_of_holds {r : Row} {w : Word} (hr : r ∈ opcodeRows) (h : r.holds w = true) : rsvField w = 0 := by
  obtain ⟨-, mask, pattern⟩ := opcodeRows_fix_opc_rsv r hr
  obtain ⟨-, -, h, -⟩ := Row.holds_fields h
  rw [mask, pattern] at h
  exact BitVec.and_allOnes.symm.trans h

theorem mem_rowsOf_of_holds {r : Row} {w : Word} (hr : r ∈ opcodeRows) (h : r.holds w = true) :
    r ∈ rowsOf (opcField w).toNat := by
  obtain ⟨mask, -, -⟩ := opcodeRows_fix_opc_rsv r hr
  obtain ⟨h, -, -, -⟩ := Row.holds_fields h
  rw [mask] at h
  have opc_eq : opcField w = opcField r.pattern := BitVec.and_allOnes.symm.trans h
  simp [rowsOf, hr, opc_eq]

/-- A word matches a row of the table when it matches one of its own opcode. -/
theorem exists_row_iff (w : Word) :
    (∃ r ∈ opcodeRows, r.holds w = true) ↔ ∃ r ∈ rowsOf (opcField w).toNat, r.holds w = true :=
  ⟨fun ⟨r, hr, h⟩ => ⟨r, mem_rowsOf_of_holds hr h, h⟩, fun ⟨r, hr, h⟩ => ⟨r, (List.mem_filter.1 hr).1, h⟩⟩

/-- The opcodes of the map (R83). -/
def opcodes : List Nat :=
  [0x00, 0x01, 0x02, 0x03, 0x04, 0x05, 0x06, 0x07, 0x10, 0x11, 0x12, 0x20, 0x21, 0x22, 0x23, 0x24, 0x25,
   0x30, 0x31, 0x32, 0x33, 0x34, 0x35, 0x40, 0x41, 0x42, 0x50, 0x51, 0x60, 0x61]

/-- An opcode the map does not list has no row (R85). -/
theorem rowsOf_unlisted {opc : Nat} (h : opc ∉ opcodes) : rowsOf opc = [] := by
  have listed : ∀ r ∈ opcodeRows, (opcField r.pattern).toNat ∈ opcodes := by decide
  refine List.filter_eq_nil_iff.2 fun r hr e => h ?_
  rw [← of_decide_eq_true e]
  exact listed r hr

/-! ## What each form of row accepts (R83, R84) -/

/-- A checked row accepts a word that passes the check, when the rest of the row accepts it. -/
theorem guard_ok_iff {c : Prop} [Decidable c] {k : Except DecodeReject Instr} {e : DecodeReject} :
    (∃ i, (if c then k else .error e) = .ok i) ↔ c ∧ ∃ i, k = .ok i := by
  by_cases h : c <;> simp [h]

/-- A check that is the last of its row. -/
theorem last_guard_ok_iff {c : Prop} [Decidable c] {j : Instr} {e : DecodeReject} :
    (∃ i, (if c then Except.ok j else .error e) = .ok i) ↔ c :=
  guard_ok_iff.trans (and_iff_left ⟨j, rfl⟩)

theorem eq_zero_iff_and_ones {v : Nat} (x : BitVec v) : x = 0 ↔ x &&& BitVec.allOnes v = 0 := by
  rw [BitVec.and_allOnes]

/-- The top bits of a field are 0 when the field under their mask is. -/
theorem top_eq_zero_iff {v : Nat} (x : BitVec v) (k n : Nat) (h : k + n = v) :
    x.extractLsb' k n = 0 ↔ x &&& (BitVec.allOnes v <<< k) = 0 := by
  subst h
  constructor <;> intro e <;> ext i hi
  · have := congrArg (·.getLsbD (i - k)) e
    grind
  · have := congrArg (·.getLsbD (k + i)) e
    grind

theorem needNoImm_ok_iff (imm : Half) (j : Instr) : (∃ i, needNoImm imm j = .ok i) ↔ imm &&& 0xFFFF = 0 :=
  last_guard_ok_iff.trans (eq_zero_iff_and_ones imm)

theorem needNoSel_ok_iff (sel : BitVec 4) (k : Except DecodeReject Instr) :
    (∃ i, needNoSel sel k = .ok i) ↔ sel &&& 0xF = 0 ∧ ∃ i, k = .ok i :=
  guard_ok_iff.trans (and_congr_left' (eq_zero_iff_and_ones sel))

theorem plainRow_ok_iff (sel : BitVec 4) (imm : Half) (j : Instr) :
    (∃ i, plainRow sel imm j = .ok i) ↔ sel &&& 0xF = 0 ∧ imm &&& 0xFFFF = 0 :=
  (needNoSel_ok_iff ..).trans (and_congr_right' (needNoImm_ok_iff ..))

theorem byteRow_ok_iff (sel : BitVec 4) (imm : Half) :
    (∃ i, needNoSel sel (byteRow imm) = .ok i) ↔ sel &&& 0xF = 0 ∧ imm &&& 0xFF00 = 0 :=
  (needNoSel_ok_iff ..).trans (and_congr_right' (last_guard_ok_iff.trans (top_eq_zero_iff imm 8 8 rfl)))

theorem bitRow_ok_iff (sel : BitVec 4) (imm : Half) (f : Nat → Instr) :
    (∃ i, needNoSel sel (bitRow imm f) = .ok i) ↔ sel &&& 0xF = 0 ∧ imm &&& 0xFFE0 = 0 :=
  (needNoSel_ok_iff ..).trans (and_congr_right' (last_guard_ok_iff.trans (top_eq_zero_iff imm 5 11 rfl)))

theorem fieldRow_ok_iff (sel : BitVec 4) (imm : Half) (f : Nat → Nat → Instr) :
    (∃ i, needNoSel sel (fieldRow imm f) = .ok i) ↔ sel &&& 0xF = 0 ∧ imm &&& 0xFC00 = 0 :=
  (needNoSel_ok_iff ..).trans (and_congr_right' (last_guard_ok_iff.trans (top_eq_zero_iff imm 10 6 rfl)))

theorem hencRow_ok_iff (sel : BitVec 4) (imm : Half) :
    (∃ i, hencRow sel imm = .ok i) ↔ sel &&& 0xC = 0 ∧ imm &&& 0xFFFF = 0 :=
  guard_ok_iff.trans (and_congr (top_eq_zero_iff sel 2 2 rfl) (needNoImm_ok_iff ..))

theorem pencRow_ok_iff (sel : BitVec 4) (imm : Half) :
    (∃ i, pencRow sel imm = .ok i) ↔ sel &&& 0xE = 0 ∧ imm &&& 0xFFFF = 0 :=
  guard_ok_iff.trans (and_congr (top_eq_zero_iff sel 1 3 rfl) (needNoImm_ok_iff ..))

theorem geoRow_ok_iff (sel : BitVec 4) (imm : Half) (f : Shape → Version → Instr) :
    (∃ i, geoRow sel imm f = .ok i) ↔ sel &&& 8 = 0 ∧ imm &&& 0xFFFF = 0 := by
  have top : ¬sel.getLsbD 3 = true ↔ sel &&& 8 = 0 := by revert sel; decide
  rw [geoRow, ← ite_not, guard_ok_iff, top, needNoImm_ok_iff]

/-- `AGET` and `ASET` take the field numbers 0 to 4 (R90). -/
theorem attrRow_ok_iff (sel : BitVec 4) (imm : Half) (size enc frag vtag rsvd : Instr) :
    (∃ i, attrRow sel imm size enc frag vtag rsvd = .ok i) ↔ sel.toNat ≤ 4 ∧ imm &&& 0xFFFF = 0 := by
  unfold attrRow
  split
  case h_6 =>
    have beyond : ¬sel.toNat ≤ 4 := by grind
    simp [beyond]
  all_goals simp [needNoImm_ok_iff, *]

/-! ## The decoder's arms and the rows of their opcodes -/

/-- An arm of the decoder whose opcode has one row. -/
theorem singleRowArm_iff {w : Word} {opc : Nat} {k : Except DecodeReject Instr} {selMask : BitVec 4} {immMask : Half}
    (hr : rsvField w = 0) (ho : (opcField w).toNat = opc)
    (hk : (∃ i, k = .ok i) ↔ selField w &&& selMask = 0 ∧ immField w &&& immMask = 0)
    (hrows : rowsOf opc = [rowOf opc selMask 0 immMask]) :
    (∃ i, k = .ok i) ↔ ∃ r ∈ rowsOf (opcField w).toNat, r.holds w = true := by
  rw [hk, ho, hrows]
  simp [rowOf_holds_iff hr ho]

/-- The arms of `AGET` and `ASET`, whose opcodes have one row for each field number (R90). -/
theorem attrArm_iff_rows {w : Word} {opc : Nat} {size enc frag vtag rsvd : Instr} (hr : rsvField w = 0)
    (ho : (opcField w).toNat = opc)
    (hrows : rowsOf opc = [0, 1, 2, 3, 4].map (fun n => rowOf opc 0xF n 0xFFFF)) :
    (∃ i, attrRow (selField w) (immField w) size enc frag vtag rsvd = .ok i) ↔
      ∃ r ∈ rowsOf (opcField w).toNat, r.holds w = true := by
  have numbers : ∀ sel : BitVec 4, sel.toNat ≤ 4 ↔ ∃ n ∈ [0, 1, 2, 3, 4], sel &&& 0xF = n := by decide
  rw [attrRow_ok_iff, numbers, ho, hrows]
  simp only [List.map_cons, List.map_nil, List.exists_mem_cons_iff, List.not_mem_nil, false_and, exists_false,
    rowOf_holds_iff hr ho, or_and_right]

/-- `Decodes(w)` with `RSV = 0`: opcode by opcode, the decoder accepts what the opcode's rows hold of. -/
theorem decodes_iff_rowsOf {w : Word} (hr : rsvField w = 0) :
    (∃ i, decode w = .ok i) ↔ ∃ r ∈ rowsOf (opcField w).toNat, r.holds w = true := by
  simp only [decode, hr, ne_eq, not_true_eq_false, if_false]
  split
  case h_2 ho => exact singleRowArm_iff hr ho (byteRow_ok_iff ..) (by decide)
  case h_12 ho | h_13 ho => exact attrArm_iff_rows hr ho (by decide)
  case h_15 ho => exact singleRowArm_iff hr ho (hencRow_ok_iff ..) (by decide)
  case h_17 ho => exact singleRowArm_iff hr ho (pencRow_ok_iff ..) (by decide)
  case h_18 ho | h_19 ho | h_20 ho | h_21 ho => exact singleRowArm_iff hr ho (bitRow_ok_iff ..) (by decide)
  case h_22 ho | h_23 ho => exact singleRowArm_iff hr ho (fieldRow_ok_iff ..) (by decide)
  case h_29 ho | h_30 ho => exact singleRowArm_iff hr ho (geoRow_ok_iff ..) (by decide)
  case h_31 =>
    have unlisted : (opcField w).toNat ∉ opcodes := by
      simp only [opcodes, List.mem_cons, List.not_mem_nil, or_false, not_or]
      and_intros <;> assumption
    simp [rowsOf_unlisted unlisted]
  all_goals exact singleRowArm_iff hr ‹_› (plainRow_ok_iff ..) (by decide)

/-- A word decodes exactly when it matches a row of the table (R82). -/
theorem decodes_iff_exists_row (w : Word) : (∃ i, decode w = .ok i) ↔ ∃ r ∈ opcodeRows, r.holds w = true := by
  by_cases hr : rsvField w = 0
  · rw [decodes_iff_rowsOf hr, exists_row_iff]
  · have rejected : decode w = .error .reserved := if_pos hr
    simp only [rejected, reduceCtorEq, exists_false, false_iff]
    exact fun ⟨r, hm, h⟩ => hr (rsvField_of_holds hm h)

/-! ## At most one row -/

/-- Two rows that hold of one word ask the same of every bit that both fix. -/
theorem Row.agree_of_holds {a b : Row} {w : Word} (ha : a.holds w = true) (hb : b.holds w = true) :
    (a.mask &&& b.mask) &&& (a.pattern ^^^ b.pattern) = 0 := by
  have ea : w &&& a.mask = a.pattern := by simpa [Row.holds] using ha
  have eb : w &&& b.mask = b.pattern := by simpa [Row.holds] using hb
  rw [← ea, ← eb]
  ext i hi
  grind

/-- Of disjoint rows at most one holds of a word. -/
theorem length_le_one_of_disjoint {w : Word} :
    ∀ {l : List Row}, l.Pairwise (fun a b => (a.mask &&& b.mask) &&& (a.pattern ^^^ b.pattern) ≠ 0) →
      (∀ r ∈ l, r.holds w = true) → l.length ≤ 1
  | [], _, _ => Nat.zero_le 1
  | [_], _, _ => Nat.le_refl 1
  | a :: b :: _, apart, holding =>
    absurd (Row.agree_of_holds (holding a (by simp)) (holding b (by simp))) (List.rel_of_pairwise_cons apart (by simp))

/-- A word decodes exactly when it matches exactly one row (R82). -/
theorem decodes_iff_one_row (w : Word) :
    (∃ i, decode w = .ok i) ↔ (opcodeRows.filter (fun r => r.holds w)).length = 1 := by
  have at_most_one : (opcodeRows.filter (fun r => r.holds w)).length ≤ 1 :=
    length_le_one_of_disjoint (Laws.opcodeRows_disjoint.filter _) fun r hr => (List.mem_filter.1 hr).2
  have some_row : 0 < (opcodeRows.filter (fun r => r.holds w)).length ↔ ∃ r ∈ opcodeRows, r.holds w = true := by
    simp only [List.length_pos_iff_exists_mem, List.mem_filter]
  rw [decodes_iff_exists_row, ← some_row]
  omega

/-! ## A word that does not decode -/

theorem issue_of_rejected {w : Word} (s : State) (h : ¬∃ i, decode w = .ok i) :
    issue w s = .next ((s.writeCmd w).raise .illegal w.toNat) := by
  unfold issue
  split
  case h_1 i hi => exact absurd ⟨i, hi⟩ h
  case h_2 => exact runCommand_error (r := ⟨.illegal, w.toNat⟩) rfl

/-- Settles O3: opcode by opcode the decoder accepts what the opcode's rows hold of, and the rows are disjoint. -/
theorem decodesOneRowElseIllegal : Obligations.DecodesOneRowElseIllegal := by
  intro w s
  refine ⟨decodes_iff_one_row w, fun not_one => ?_⟩
  have rejected : ¬∃ i, decode w = .ok i := fun d => not_one ((decodes_iff_one_row w).1 d)
  refine ⟨_, issue_of_rejected s rejected, rfl, rfl, ?_, rfl, sameMemory_of rfl rfl⟩
  exact State.fit_toNat _ w

end Sys2Proof
end

section
/-! The escape codec as a code (41_framer.md R140, R141): every byte sequence is an escaped one followed by nothing
or by what `Unescape` refuses. -/

namespace Sys2Proof

open Sys2Proof.Machine

/-! ## What `Escape` gives (R140) -/

theorem escape_eq_flatMap (s : List Byte) : escape s = s.flatMap escapeByte := by
  induction s with
  | nil => rfl
  | cons b s ih => rw [escape_cons, List.flatMap_cons, ih]

theorem escapeByte_plain {b : Byte} (not_delim : b ≠ delim) (not_esc : b ≠ escByte) : escapeByte b = [b] := by
  simp only [escapeByte, if_neg not_delim, if_neg not_esc]

theorem length_escapeByte (b : Byte) :
    (escapeByte b).length = 1 + if (b == 0x7E || b == 0x7D) = true then 1 else 0 := by
  by_cases is_delim : b = delim
  · subst is_delim; rfl
  · by_cases is_esc : b = escByte
    · subst is_esc; rfl
    · have plain : ¬(b == 0x7E || b == 0x7D) = true := by simpa using ⟨is_delim, is_esc⟩
      rw [escapeByte_plain is_delim is_esc, if_neg plain]
      rfl

theorem length_escape (s : List Byte) :
    (escape s).length = s.length + s.countP (fun b => b == 0x7E || b == 0x7D) := by
  induction s with
  | nil => rfl
  | cons b s ih =>
    rw [escape_cons, List.length_append, length_escapeByte, ih, List.length_cons, List.countP_cons]
    omega

theorem escape_eq_nil_iff {s : List Byte} : escape s = [] ↔ s = [] := by
  rw [← List.length_eq_zero_iff, ← List.length_eq_zero_iff, length_escape]
  have at_most := s.countP_le_length (p := fun b => b == 0x7E || b == 0x7D)
  omega

theorem delim_notMem_escapeByte (b : Byte) : delim ∉ escapeByte b := by
  by_cases is_delim : b = delim
  · subst is_delim; decide
  · by_cases is_esc : b = escByte
    · subst is_esc; decide
    · rw [escapeByte_plain is_delim is_esc]
      exact fun h => is_delim (List.mem_singleton.1 h).symm

/-- An escaped sequence holds no delimiter (R145). -/
theorem delim_notMem_escape (s : List Byte) : delim ∉ escape s := by
  rw [escape_eq_flatMap, List.mem_flatMap]
  rintro ⟨b, -, h⟩
  exact delim_notMem_escapeByte b h

/-- Settles O14, byte by byte. -/
theorem escapeTable : Obligations.EscapeTable :=
  fun s => ⟨escape_eq_flatMap s, length_escape s⟩

/-! ## How `Unescape` reads an escaped beginning (R141) -/

theorem unescapeFrom_escapeByte (i : Nat) (b : Byte) (t : List Byte) :
    unescapeFrom i (escapeByte b ++ t) = consResult b (unescapeFrom (i + (escapeByte b).length) t) := by
  by_cases is_delim : b = delim
  · subst is_delim; exact unescapeFrom_escape_delim i t
  · by_cases is_esc : b = escByte
    · subst is_esc; exact unescapeFrom_escape_escape i t
    · rw [escapeByte_plain is_delim is_esc]
      exact unescapeFrom_plain i b t is_delim is_esc

/-- Past an escaped beginning, what was escaped stands before the result for the rest. -/
theorem unescapeFrom_escape_append (i : Nat) (u rest : List Byte) :
    unescapeFrom i (escape u ++ rest) = u.foldr consResult (unescapeFrom (i + (escape u).length) rest) := by
  induction u generalizing i with
  | nil => rfl
  | cons b u ih =>
    rw [escape_cons, List.append_assoc, unescapeFrom_escapeByte, ih, List.length_append, ← Nat.add_assoc]
    rfl

theorem foldr_consResult_ok (u : List Byte) : u.foldr consResult (.ok []) = .ok u := by
  induction u with
  | nil => rfl
  | cons b u ih => rw [List.foldr_cons, ih]; rfl

theorem foldr_consResult_error (u : List Byte) (i : Nat) : u.foldr consResult (.error i) = .error i := by
  induction u with
  | nil => rfl
  | cons b u ih => rw [List.foldr_cons, ih]; rfl

/-- Where `Unescape` stops: a raw delimiter, an escape byte at the end or before a byte not in the table. -/
def Offending (rest : List Byte) : Prop :=
  (∃ r, rest = 0x7E :: r) ∨ rest = [0x7D] ∨ ∃ c r, rest = 0x7D :: c :: r ∧ c ≠ 0x01 ∧ c ≠ 0x02

theorem unescapeFrom_offending (i : Nat) {rest : List Byte} (h : Offending rest) : unescapeFrom i rest = .error i := by
  obtain ⟨r, rfl⟩ | rfl | ⟨c, r, rfl, not_esc, not_delim⟩ := h
  · exact unescapeFrom_delim i r
  · exact unescapeFrom_escape_end i
  · exact unescapeFrom_escape_bad i c r not_esc not_delim

theorem unescape_escape (u : List Byte) : unescape (escape u) = .ok u := by
  have read := unescapeFrom_escape_append 0 u []
  rw [List.append_nil] at read
  exact read.trans (foldr_consResult_ok u)

theorem unescape_escape_offending (u : List Byte) {rest : List Byte} (h : Offending rest) :
    unescape (escape u ++ rest) = .error (escape u).length := by
  rw [unescape, unescapeFrom_escape_append, unescapeFrom_offending _ h, foldr_consResult_error, Nat.zero_add]

/-! ## Every sequence is escaped up to something offending -/

/-- `t` is an escaped sequence followed by nothing, or by something offending. -/
def Splits (t : List Byte) : Prop := ∃ u rest, t = escape u ++ rest ∧ (rest = [] ∨ Offending rest)

theorem Splits.nil : Splits [] := ⟨[], [], rfl, .inl rfl⟩

theorem Splits.of_offending {t : List Byte} (h : Offending t) : Splits t := ⟨[], t, rfl, .inr h⟩

theorem Splits.cons (b : Byte) {t : List Byte} (h : Splits t) : Splits (escapeByte b ++ t) := by
  obtain ⟨u, rest, rfl, h⟩ := h
  exact ⟨b :: u, rest, by rw [escape_cons, List.append_assoc], h⟩

theorem splits (t : List Byte) : Splits t := by
  match t with
  | [] => exact .nil
  | b :: t =>
    by_cases is_delim : b = delim
    · exact .of_offending (.inl ⟨t, by rw [is_delim]; rfl⟩)
    · by_cases is_esc : b = escByte
      · subst is_esc
        match t with
        | [] => exact .of_offending (.inr (.inl rfl))
        | c :: t =>
          by_cases one : c = 0x01
          · subst one; exact (splits t).cons escByte
          · by_cases two : c = 0x02
            · subst two; exact (splits t).cons delim
            · exact .of_offending (.inr (.inr ⟨c, t, rfl, one, two⟩))
      · have plain := (splits t).cons b
        rwa [escapeByte_plain is_delim is_esc] at plain

theorem eq_escape_of_unescape_ok {t u : List Byte} (h : unescape t = .ok u) : t = escape u := by
  obtain ⟨v, rest, rfl, rfl | bad⟩ := splits t
  · rw [List.append_nil, unescape_escape] at h
    cases h
    exact List.append_nil _
  · rw [unescape_escape_offending v bad] at h
    cases h

theorem unescape_error_iff {t : List Byte} {i : Nat} :
    unescape t = .error i ↔ ∃ u rest, t = escape u ++ rest ∧ i = (escape u).length ∧ Offending rest := by
  constructor
  · intro h
    obtain ⟨u, rest, rfl, rfl | bad⟩ := splits t
    · rw [List.append_nil, unescape_escape] at h
      cases h
    · rw [unescape_escape_offending u bad] at h
      cases h
      exact ⟨u, rest, rfl, rfl, bad⟩
  · rintro ⟨u, rest, rfl, rfl, bad⟩
    exact unescape_escape_offending u bad

/-- Settles O15: an input is an escaped sequence, or one followed by something offending, and `Unescape` tells the two
apart. -/
theorem unescapeInvertsEscape : Obligations.UnescapeInvertsEscape :=
  ⟨unescape_escape, fun _ _ => eq_escape_of_unescape_ok, fun _ _ => unescape_error_iff⟩

end Sys2Proof
end

section
/-! The framer's commands (41_framer.md R131 to R136): what `FEED` and `FEEDM` refuse, the byte that overflows the
window, release and soft reset. -/

namespace Sys2Proof

open Sys2Proof.Machine

/-! ## Release and soft reset (R134, R135) -/

theorem exec_frel (s : State) : exec .frel s = .next (frel s.begin) := rfl

theorem exec_frst (s : State) : exec .frst s = .next (frst s.begin) := rfl

/-- Settles O13: both write the framer's own registers only. -/
theorem releaseAndReset : Obligations.ReleaseAndReset := by
  refine ⟨by decide, by decide, fun s => ⟨⟨_, exec_frel s, ?_⟩, ⟨_, exec_frst s, ?_⟩⟩⟩
  · exact ⟨sameMemory_of rfl rfl, rfl, rfl, rfl⟩
  · exact ⟨sameMemory_of rfl rfl, rfl, rfl, rfl, rfl, rfl⟩

/-! ## The refusals of `FEED` and `FEEDM` (R131 to R133) -/

theorem needNoFrame_held {s : State} (held : s.frv = true) : needNoFrame s = .error ⟨.busy, 0⟩ := by
  rw [needNoFrame, held]; rfl

theorem needNoFrame_free {s : State} (free : s.frv = false) : needNoFrame s = .ok () := by
  rw [needNoFrame, free]; rfl

theorem needRegion_outside {a n : Nat} (h : ¬InMem a n) :
    needRegion Config.params a n = .error ⟨.badOperand, a⟩ := by
  rw [needRegion, region_false_iff_inMem.2 h]; rfl

theorem needRegion_inside {a n : Nat} (h : InMem a n) : needRegion Config.params a n = .ok () :=
  needRegion_ok_iff.2 (region_iff_inMem.2 h)

theorem needDisjoint_overlapping {a n d m : Nat} (h : ¬Apart a n d m) :
    needDisjoint a n d m = .error ⟨.badOperand, d⟩ := by
  rw [needDisjoint, overlap_iff_not_apart.2 h]; rfl

theorem feed_held {b : Byte} {s : State} (held : s.frv = true) :
    feed Config.params b s = .error ⟨.busy, 0⟩ := by
  rw [feed, needNoFrame_held held]; rfl

theorem feed_window_outside {b : Byte} {s : State} (free : s.frv = false)
    (window : ¬InMem s.frBase.toNat s.frCap.toNat) :
    feed Config.params b s = .error ⟨.badOperand, s.frBase.toNat⟩ := by
  rw [feed, needNoFrame_free free, needWindow, needRegion_outside window]; rfl

theorem feedm_held {s : State} (held : s.frv = true) : feedm Config.params s = .error ⟨.busy, 0⟩ := by
  rw [feedm, needNoFrame_held held]; rfl

theorem feedm_source_outside {s : State} (free : s.frv = false) (source : ¬InMem s.src s.srcLen) :
    feedm Config.params s = .error ⟨.badOperand, s.src⟩ := by
  rw [feedm, needNoFrame_free free, needRegion_outside source]; rfl

theorem feedm_window_outside {s : State} (free : s.frv = false) (source : InMem s.src s.srcLen)
    (window : ¬InMem s.frBase.toNat s.frCap.toNat) :
    feedm Config.params s = .error ⟨.badOperand, s.frBase.toNat⟩ := by
  rw [feedm, needNoFrame_free free, needRegion_inside source, needWindow, needRegion_outside window]; rfl

theorem feedm_overlapping {s : State} (free : s.frv = false) (source : InMem s.src s.srcLen)
    (window : InMem s.frBase.toNat s.frCap.toNat)
    (overlapping : ¬Apart s.src s.srcLen s.frBase.toNat s.frCap.toNat) :
    feedm Config.params s = .error ⟨.badOperand, s.frBase.toNat⟩ := by
  rw [feedm, needNoFrame_free free, needRegion_inside source, needWindow, needRegion_inside window,
    needDisjoint_overlapping overlapping]
  rfl

/-! ## The byte that finds the window full (R131) -/

theorem byte_ne_delim {b : Nat} (hb : b < 256) (h : b ≠ 0x7E) : BitVec.ofNat 8 b ≠ delim := by
  intro e
  have same_number : b % 256 = 0x7E := by simpa [delim] using congrArg BitVec.toNat e
  omega

/-- The state an overflow leaves: the framer step's writes stand beside the report (R306). -/
def afterOverflow (s : State) : State :=
  { s with err := .framing, errInfo := s.frCap, frs := .discard, frLen := 0, dropCnt := satAdd s.dropCnt 1 }

theorem exec_feed_full {b : Nat} {s : State} (free : s.frv = false) (window : InMem s.frBase.toNat s.frCap.toNat)
    (inside : s.frs = .inFrame) (content : BitVec.ofNat 8 b ≠ delim) (full : s.frLen = s.frCap) :
    exec (.feed b) s = .next (afterOverflow s) := by
  have report : afterOverflow s =
      ({ s.begin.dropByte with frs := .discard, frLen := 0 } : State).raise .framing s.frCap.toNat := by
    rw [dropByte_eq, State.raise, State.fit_toNat]
    rfl
  refine runCommand_ok (feed_ok_iff.2 ⟨free, region_iff_inMem.2 window, ?_⟩)
  rw [frStep_full (s := s.begin) inside content full]
  exact report

/-- Settles O8: each refusal is the first check that fails, and the overflow is `FrStep`'s in a full window. -/
theorem framerRefusals : Obligations.FramerRefusals := by
  intro b s byte
  refine ⟨fun held => ⟨?_, ?_⟩, fun free window => ?_, fun free source => ?_, fun free source window => ?_,
    fun free source window overlapping => ?_, fun free window inside content full => ?_⟩
  · exact failsWith_of rfl (feed_held held)
  · exact failsWith_of rfl (feedm_held held)
  · exact failsWith_of rfl (feed_window_outside free window)
  · exact failsWith_of rfl (feedm_source_outside free source)
  · exact failsWith_of rfl (feedm_window_outside free source window)
  · exact failsWith_of rfl (feedm_overlapping free source window overlapping)
  · exact ⟨afterOverflow s, exec_feed_full free window inside (byte_ne_delim byte content) full,
      sameMemory_of rfl rfl, rfl⟩

end Sys2Proof
end

section
/-! A wrapped frame fed back to the framer (41_framer.md R132, R144, R145). -/

namespace Sys2Proof

open Sys2Proof.Machine

/-! ## `FWRAP` with its buffers in MEM and apart (R144) -/

/-- The state `FWRAP` leaves when the wire frame fits. -/
def wrapped (s : State) : State :=
  { s.begin.store s.dst (wireFrame s.source) with res0 := BitVec.ofNat 32 (wireFrame s.source).length }

theorem code_of_writeOutput_error {out : List Byte} {s : State} {r : Raise} (h : writeOutput out s = .error r) :
    r.code = .noSpace := by
  obtain no_space | ⟨_, -, stored⟩ := bind_error_iff.1 h
  · obtain ⟨-, rfl⟩ := require_error_iff.1 no_space
    rfl
  · cases stored

theorem fwrap_eq_writeOutput {s : State} (buffers : BuffersIn s s.dstCap) :
    fwrap Config.params s = writeOutput (wireFrame s.source) s := by
  rw [fwrap, (needBuffers_ok (u := ())).2 (buffersOk_iff.2 buffers)]
  rfl

/-- A `FWRAP` that reports no error has written the whole wire frame. -/
theorem exec_fwrap_ok {s t : State} (buffers : BuffersIn s s.dstCap) (run : exec .fwrap s = .next t)
    (no_error : t.err = .ok) : (wireFrame s.source).length ≤ s.dstCap ∧ t = wrapped s := by
  have source : s.begin.source = s.source := State.source_begin s
  obtain done | ⟨r, failed, rfl⟩ := runCommand_cases run
  · obtain ⟨-, fits, rfl⟩ := fwrap_ok_iff.1 done
    rw [source] at fits ⊢
    exact ⟨fits, by rw [State.fit_of_lt _ (Nat.lt_of_le_of_lt fits s.arg3.isLt)]; rfl⟩
  · rw [fwrap_eq_writeOutput (s := s.begin) buffers] at failed
    cases (code_of_writeOutput_error failed).symm.trans no_error

/-! ## `FEEDM` on a whole frame (R130, R132) -/

/-- The state in which a block feed closes a frame that ends in `content`, the bytes stored by this feed. -/
def frameClosed (s : State) (content : List Byte) (dropped : Nat) : State :=
  { s.store (s.frBase.toNat + s.collected) content with
    frs := .hunt, frv := true, frLen := 0, dropCnt := satAdd s.dropCnt dropped,
    frFlen := BitVec.ofNat 32 (s.collected + content.length) }

/-- Every source byte of a ready `FEEDM` lies outside the window, unless the window is empty. -/
theorem source_outside_window {s : State} (ready : FeedReady s) {j : Nat} (hj : j < s.srcLen) :
    s.frCap.toNat = 0 ∨ s.src + j < s.frBase.toNat ∨ s.frBase.toNat + s.frCap.toNat ≤ s.src + j := by
  obtain ⟨-, -, -, apart⟩ := ready
  unfold Apart at apart
  omega

theorem toNat_ofNat_of_le {n : Nat} {w : Word} (h : n ≤ w.toNat) : (BitVec.ofNat 32 n).toNat = n := by
  rw [BitVec.toNat_ofNat, Nat.mod_eq_of_lt (Nat.lt_of_le_of_lt h w.isLt)]

/-- Inside a candidate of `s.collected` bytes, `dropped` bytes discarded before it. -/
def candidateOpen (s : State) (dropped : Nat) : State :=
  { s with frs := .inFrame, frLen := BitVec.ofNat 32 s.collected, dropCnt := satAdd s.dropCnt dropped }

theorem candidateOpen_len {s : State} (dropped : Nat) (h : s.collected ≤ s.frCap.toNat) :
    (candidateOpen s dropped).frLen.toNat = s.collected := toNat_ofNat_of_le h

theorem collect_candidateOpen {s : State} {content : List Byte} (dropped : Nat) (h : s.collected ≤ s.frCap.toNat) :
    (candidateOpen s dropped).collect content =
      { s.store (s.frBase.toNat + s.collected) content with
        frs := .inFrame, frLen := BitVec.ofNat 32 (s.collected + content.length),
        dropCnt := satAdd s.dropCnt dropped } := by
  rw [State.collect, candidateOpen_len dropped h]
  rfl

/-- The delimiter after the content closes the candidate, unless it is empty under `P_EMPTY_FRAME = SKIP`. -/
theorem frStep_delim_closes {s : State} {content : List Byte} (dropped : Nat)
    (nonempty : s.collected + content.length = 0 → Config.params.emptyFrame = .emit)
    (fits : s.collected + content.length ≤ s.frCap.toNat) :
    frStep Config.params delim ((candidateOpen s dropped).collect content) =
      (frameClosed s content dropped, .closed) := by
  have not_skipped : ¬(BitVec.ofNat 32 (s.collected + content.length) = 0 ∧ Config.params.emptyFrame = .skip) := by
    rintro ⟨empty, skip⟩
    have none : s.collected + content.length = 0 := by rw [← toNat_ofNat_of_le fits, empty]; rfl
    cases skip.symm.trans (nonempty none)
  rw [collect_candidateOpen dropped (by omega), frStep_delim rfl, if_neg not_skipped]
  rfl

/-- Bytes that open a candidate, content that fits, and a delimiter close a frame, in whatever state the framer was. -/
theorem feedLoop_frame_found {s : State} {lead content rest : List Byte} {dropped : Nat} (ready : FeedReady s)
    (opens : OpensFrame s lead dropped) (source : s.source = lead ++ (content ++ delim :: rest))
    (no_delim : delim ∉ content) (nonempty : s.collected + content.length = 0 → Config.params.emptyFrame = .emit)
    (fits : s.collected + content.length ≤ s.frCap.toNat) :
    feedLoop Config.params s.src s.srcLen 0 s =
      .done (frameClosed s content dropped) (lead.length + content.length + 1) true := by
  have length_eq : s.srcLen = lead.length + (content.length + (rest.length + 1)) := by
    simpa [State.source] using congrArg List.length source
  have open_len := candidateOpen_len dropped (Nat.le_trans (Nat.le_add_right _ _) fits)
  obtain ⟨read_lead, read_tail⟩ := State.readsAt_append.1 (State.readsAt_source source)
  obtain ⟨read_content, read_close⟩ := State.readsAt_append.1 read_tail
  have content_stored := feedLoop_content Config.params s.src content (rest.length + 1) (0 + lead.length)
    (candidateOpen s dropped) rfl no_delim (by rw [open_len]; exact fits)
    (fun j hj => by
      have outside := source_outside_window ready (j := lead.length + j) (by omega)
      show _ < s.frBase.toNat ∨ s.frBase.toNat + s.frCap.toNat ≤ _
      omega)
    (by rw [Nat.zero_add]; exact read_content)
  have close_byte : ((candidateOpen s dropped).collect content).byteAt
      (s.src + (0 + lead.length + content.length)) = delim := by
    have outside := source_outside_window ready (j := lead.length + content.length) (by omega)
    rw [collect_candidateOpen dropped (by omega)]
    show (s.store _ content).byteAt _ = delim
    rw [State.byteAt_store_outside _ _ _ _ (by omega), Nat.zero_add, ← Nat.add_assoc]
    exact (State.readsAt_cons.1 read_close).1
  have closes := frStep_delim_closes dropped nonempty fits
  rw [← close_byte] at closes
  calc feedLoop Config.params s.src s.srcLen 0 s
      = feedLoop Config.params s.src (content.length + (rest.length + 1)) (0 + lead.length)
          (candidateOpen s dropped) := by rw [length_eq]; exact feedLoop_opens opens _ _ 0 read_lead
    _ = feedLoop Config.params s.src (rest.length + 1) (0 + lead.length + content.length)
          ((candidateOpen s dropped).collect content) := content_stored
    _ = .done (frameClosed s content dropped) (lead.length + content.length + 1) true := by
          rw [feedLoop_closed closes, Nat.zero_add]

/-- A store is read back in any state that has its MEM. -/
theorem bytesAt_of_stored {s t : State} {d : Nat} {bs : List Byte} (h : Stored s t d bs) :
    t.bytesAt d bs.length = bs := State.bytesAt_of_readsAt h.1

/-! ## The round trip (R145) -/

/-- The state in which the host feeds `FWRAP`'s output back: its address and length are the source of `FEEDM`. -/
def refeed (s : State) : State := { wrapped s with arg0 := s.arg2, arg1 := (wrapped s).res0 }

theorem srcLen_refeed {s : State} (fits : (wireFrame s.source).length ≤ s.dstCap) :
    (refeed s).srcLen = (wireFrame s.source).length := toNat_ofNat_of_le (w := s.arg3) fits

theorem source_refeed {s : State} (fits : (wireFrame s.source).length ≤ s.dstCap) :
    (refeed s).source = wireFrame s.source := by
  rw [State.source, srcLen_refeed fits]
  exact bytesAt_of_stored (stored_of (s := s.begin) rfl rfl)

theorem feedReady_refeed {s : State} (buffers : BuffersIn s s.dstCap)
    (fits : (wireFrame s.source).length ≤ s.dstCap) (free : s.frv = false)
    (window : InMem s.frBase.toNat s.frCap.toNat) (apart : Apart s.dst s.dstCap s.frBase.toNat s.frCap.toNat) :
    FeedReady (refeed s) := by
  obtain ⟨-, dst_in, -⟩ := buffers
  unfold FeedReady
  rw [srcLen_refeed fits]
  refine ⟨free, ?_, window, ?_⟩
  · show s.dst + _ ≤ _
    unfold InMem at dst_in
    omega
  · show Apart s.dst _ s.frBase.toNat s.frCap.toNat
    unfold Apart at apart ⊢
    omega

/-- The opening delimiter of a wire frame opens a candidate in `HUNT`. -/
theorem opensFrame_delim {s : State} (hunt : s.frs = .hunt) : OpensFrame s [delim] 0 := by
  refine ⟨[], [], 0, List.not_mem_nil, List.not_mem_nil, fun h => absurd rfl h, ?_⟩
  rw [hunt]
  exact ⟨rfl, rfl⟩

theorem collected_hunt {s : State} (hunt : s.frs = .hunt) : s.collected = 0 := by
  rw [State.collected, hunt]; rfl

/-- Settles O18: the escaped source holds no delimiter, so the delimiters `FWRAP` puts around it are the ones that open
and close the frame. -/
theorem wrappedFrameIsFound : Obligations.WrappedFrameIsFound := by
  refine ⟨fun b => ⟨unescape_escape b, delim_notMem_escape b⟩, ?_⟩
  intro s t buffers run no_error nonempty hunt free window apart room
  obtain ⟨fits, rfl⟩ := exec_fwrap_ok buffers run no_error
  have ready := feedReady_refeed buffers fits free window apart
  have none_collected : (refeed s).begin.collected = 0 := collected_hunt hunt
  have found := feedLoop_frame_found (s := (refeed s).begin) (rest := []) ready (opensFrame_delim hunt)
    (source_refeed fits) (delim_notMem_escape s.source)
    (fun h => nonempty (escape_eq_nil_iff.1 (List.length_eq_zero_iff.1 (by omega))))
    (by rw [none_collected, Nat.zero_add]; exact room)
  have flen : (BitVec.ofNat 32 ((refeed s).begin.collected + (escape s.source).length)).toNat =
      (escape s.source).length := by
    rw [none_collected, Nat.zero_add, toNat_ofNat_of_le room]
  refine ⟨_, execFeedm_done ready found, rfl, rfl, flen, satAdd_zero s.dropCnt, ?_⟩
  refine Eq.trans (congrArg _ flen) (bytesAt_of_stored (stored_of (s := (refeed s).begin) ?_ rfl))
  show (frameClosed (refeed s).begin (escape s.source) 0).mem = _
  rw [frameClosed, none_collected]
  rfl

end Sys2Proof
end

section
/-! The checksum commands (42_checksum.md R161 to R163): the exclusive-or as a fold, what each command leaves when its
checks pass, and what it refuses. -/

namespace Sys2Proof

open Sys2Proof.Machine

/-! ## The exclusive-or of a byte sequence, and the part of the source it covers (R160, R162) -/

theorem foldl_xor_eq (bs : List Byte) (acc : Byte) : bs.foldl (· ^^^ ·) acc = acc ^^^ xorAll bs := by
  induction bs generalizing acc with
  | nil => simp [xorAll]
  | cons b bs ih => rw [List.foldl_cons, ih, xorAll, BitVec.xor_assoc]

theorem foldl_xor_zero (bs : List Byte) : bs.foldl (· ^^^ ·) 0 = xorAll bs := by
  rw [foldl_xor_eq]; exact BitVec.zero_xor

theorem dropLast_bytesAt (s : State) (a n : Nat) : (s.bytesAt a n).dropLast = s.bytesAt a (n - 1) := by
  cases n with
  | zero => rfl
  | succ n =>
    rw [State.bytesAt_add]
    exact List.dropLast_concat

/-- The value `XCHK` computes: the exclusive-or of every source byte but the last (R162). -/
def computedChecksum (s : State) : Byte := xorAll (s.bytesAt s.src (s.srcLen - 1))

/-- The value `XCHK` compares it with: the last source byte (R162). -/
def receivedChecksum (s : State) : Byte := s.byteAt (s.src + s.srcLen - 1)

theorem computedChecksum_begin (s : State) : computedChecksum s.begin = computedChecksum s := by
  rw [computedChecksum, State.bytesAt_begin]; rfl

theorem foldl_xor_dropLast_source (s : State) :
    s.source.dropLast.foldl (· ^^^ ·) 0 = computedChecksum s := by
  rw [foldl_xor_zero, State.source, dropLast_bytesAt, computedChecksum]

/-! ## When the checks pass -/

theorem exec_xsum_inMem {s : State} (source : InMem s.src s.srcLen) :
    exec .xsum s = .next { s.begin with res0 := (xorAll s.source).setWidth 32 } :=
  runCommand_ok (xsum_ok_iff.2 ⟨region_iff_inMem.2 source, by rw [State.source_begin]⟩)

theorem exec_xchk_matching {s : State} (source : InMem s.src s.srcLen) (nonempty : s.srcLen ≠ 0)
    (same : computedChecksum s = receivedChecksum s) :
    exec .xchk s = .next { s.begin with res0 := (computedChecksum s).setWidth 32 } := by
  have computed := computedChecksum_begin s
  refine runCommand_ok (xchk_ok_iff.2 ⟨region_iff_inMem.2 source, nonempty, computed.trans same, ?_⟩)
  rw [← computed]; rfl

/-- The state `XAPP` leaves: the checksum stands after the source (R163). -/
def checksumAppended (s : State) : State :=
  { s.begin.store (s.src + s.srcLen) [xorAll s.source] with
    res0 := (xorAll s.source).setWidth 32, res1 := s.fit (s.srcLen + 1) }

theorem exec_xapp_inMem {s : State} (source : InMem s.src (s.srcLen + 1)) :
    exec .xapp s = .next (checksumAppended s) :=
  runCommand_ok (xapp_ok_iff.2 ⟨region_iff_inMem.2 source, by rw [State.source_begin]; rfl⟩)

theorem stored_checksumAppended (s : State) :
    Stored s (checksumAppended s) (s.src + s.srcLen) [xorAll s.source] := stored_of rfl rfl

theorem checksumAppended_res1 {s : State} (fits : s.srcLen + 1 < 2 ^ 32) :
    (checksumAppended s).res1.toNat = s.srcLen + 1 := by
  rw [checksumAppended, s.fit_of_lt fits, BitVec.toNat_ofNat, Nat.mod_eq_of_lt fits]

/-! ## The refusals, in the order of the checks -/

theorem xsum_source_outside {s : State} (source : ¬InMem s.src s.srcLen) :
    xsum Config.params s = .error ⟨.badOperand, s.src⟩ := by
  rw [xsum, needRegion_outside source]; rfl

theorem xchk_source_outside {s : State} (source : ¬InMem s.src s.srcLen) :
    xchk Config.params s = .error ⟨.badOperand, s.src⟩ := by
  rw [xchk, needRegion_outside source]; rfl

theorem xchk_source_empty {s : State} (source : InMem s.src s.srcLen) (empty : s.srcLen = 0) :
    xchk Config.params s = .error ⟨.badOperand, 0⟩ := by
  rw [xchk, needRegion_inside source, empty]; rfl

theorem needChecksum_differing {c r : Byte} (differ : c ≠ r) :
    needChecksum c r = .error ⟨.checksum, 256 * c.toNat + r.toNat⟩ := by
  rw [needChecksum, beq_false_of_ne differ, checksumInfo, Nat.mul_comm]; rfl

theorem xchk_differing {s : State} (source : InMem s.src s.srcLen) (nonempty : s.srcLen ≠ 0)
    (differ : computedChecksum s ≠ receivedChecksum s) :
    xchk Config.params s =
      .error ⟨.checksum, 256 * (computedChecksum s).toNat + (receivedChecksum s).toNat⟩ := by
  rw [xchk, needRegion_inside source, decide_eq_true nonempty, ok_bind, require_true, ok_bind]
  exact bind_error_iff.2 (.inl (needChecksum_differing differ))

theorem xapp_source_outside {s : State} (source : ¬InMem s.src (s.srcLen + 1)) :
    xapp Config.params s = .error ⟨.badOperand, s.src⟩ := by
  rw [xapp, needRegion_outside source]; rfl

/-- Settles O19: each command's checks in their order, then what it leaves. -/
theorem checksumCommands : Obligations.ChecksumCommands := by
  refine ⟨by decide, by decide, by decide, ?_⟩
  intro s n c c'
  have fold_source : c = xorAll s.source := foldl_xor_zero s.source
  have fold_computed : c' = computedChecksum s := foldl_xor_dropLast_source s
  rw [fold_source, fold_computed]
  refine ⟨fun source => ?_, fun outside => ⟨?_, ?_⟩, fun source empty => ?_, fun source nonempty same => ?_,
    fun source nonempty differ => ?_, fun source => ?_, fun outside => ?_⟩
  · exact ⟨_, exec_xsum_inMem source, sameMemory_of rfl rfl, rfl⟩
  · exact failsWith_of rfl (xsum_source_outside (s := s.begin) outside)
  · exact failsWith_of rfl (xchk_source_outside (s := s.begin) outside)
  · exact failsWith_of rfl (xchk_source_empty (s := s.begin) source empty)
  · exact ⟨_, exec_xchk_matching source nonempty same, sameMemory_of rfl rfl, rfl⟩
  · have computed := computedChecksum_begin s
    rw [← computed] at differ ⊢
    exact failsWith_of rfl (xchk_differing (s := s.begin) source nonempty differ)
  · exact ⟨_, exec_xapp_inMem source, stored_checksumAppended s, rfl, checksumAppended_res1, rfl⟩
  · exact failsWith_of rfl (xapp_source_outside (s := s.begin) outside)

end Sys2Proof
end

section
/-! `AGET` and `ASET` (43_header.md R170 to R172): which bits of an `H_ATTR` word a read takes and a write replaces,
which operands are refused, and what the commands leave. -/

namespace Sys2Proof

open Sys2Proof.Machine

/-! ## The bits a field's read takes and its write replaces (R170 to R172) -/

/-- Every field lies in the low 16 bits. -/
theorem attrLsb_add_width_le (f : AttrField) : f.lsb + f.width ≤ 16 := by cases f <;> decide

theorem getLsbD_attrMask (f : AttrField) {k : Nat} (word : k < 32) :
    f.mask.getLsbD k = decide (f.lsb ≤ k ∧ k < f.lsb + f.width) := by
  have bits : ∀ k : Fin 32, f.mask.getLsbD k = decide (f.lsb ≤ k ∧ k < f.lsb + f.width) := by
    cases f <;> decide
  exact bits ⟨k, word⟩

theorem getLsbD_eq_false_of_toNat_lt {a : Word} {n k : Nat} (small : a.toNat < 2 ^ n) (above : n ≤ k) :
    a.getLsbD k = false :=
  Nat.testBit_lt_two_pow (Nat.lt_of_lt_of_le small (Nat.pow_le_pow_right (by decide) above))

theorem and_lowHalf {a : Word} (narrow : a.toNat < 65536) : a &&& 0xFFFF = a := by
  apply BitVec.eq_of_toNat_eq
  rw [BitVec.toNat_and]
  exact (Nat.and_two_pow_sub_one_eq_mod a.toNat 16).trans (Nat.mod_eq_of_lt narrow)

theorem getLsbD_getAttrField (f : AttrField) (a : Word) (k : Nat) :
    (getAttrField f a).getLsbD k = (decide (k < f.width) && a.getLsbD (f.lsb + k)) := by
  rw [getAttrField, BitVec.getLsbD_ushiftRight, BitVec.getLsbD_and]
  by_cases word : f.lsb + k < 32
  · simp [getLsbD_attrMask f word, Bool.and_comm]
  · simp [BitVec.getLsbD_of_ge a (f.lsb + k) (by omega)]

theorem toNat_getAttrField (f : AttrField) (a : Word) :
    (getAttrField f a).toNat = a.toNat / 2 ^ f.lsb % 2 ^ f.width := by
  apply Nat.eq_of_testBit_eq
  intro k
  rw [← Nat.shiftRight_eq_div_pow, Nat.testBit_mod_two_pow, Nat.testBit_shiftRight]
  exact getLsbD_getAttrField f a k

/-- A write puts the value's bits in the field and keeps every other bit of the word. -/
theorem getLsbD_setAttrField {f : AttrField} {a v : Word} (narrow : a.toNat < 65536) (fits : v.toNat < 2 ^ f.width)
    (k : Nat) :
    (setAttrField f a v).getLsbD k =
      if f.lsb ≤ k ∧ k < f.lsb + f.width then v.getLsbD (k - f.lsb) else a.getLsbD k := by
  have low := attrLsb_add_width_le f
  rw [setAttrField, BitVec.and_assoc, BitVec.and_comm (~~~f.mask), ← BitVec.and_assoc, and_lowHalf narrow]
  simp only [BitVec.getLsbD_or, BitVec.getLsbD_and, BitVec.getLsbD_not, BitVec.getLsbD_shiftLeft]
  by_cases word : k < 32
  · rw [getLsbD_attrMask f word]
    by_cases below : k < f.lsb
    · simp [word, below, Nat.not_le.2 below]
    · by_cases field : k < f.lsb + f.width
      · simp [word, below, field, Nat.not_lt.1 below]
      · simp [word, below, field, getLsbD_eq_false_of_toNat_lt fits (k := k - f.lsb) (by omega)]
  · simp [word, BitVec.getLsbD_of_ge a k (by omega), show ¬k < f.lsb + f.width by omega]

theorem getAttrField_setAttrField {f : AttrField} {a v : Word} (narrow : a.toNat < 65536)
    (fits : v.toNat < 2 ^ f.width) : getAttrField f (setAttrField f a v) = v := by
  apply BitVec.eq_of_getLsbD_eq
  intro k _
  rw [getLsbD_getAttrField, getLsbD_setAttrField narrow fits]
  by_cases field : k < f.width
  · simp [field]
  · simp [field, getLsbD_eq_false_of_toNat_lt fits (Nat.not_lt.1 field)]

theorem toNat_setAttrField_lt {f : AttrField} {a v : Word} (narrow : a.toNat < 65536) (fits : v.toNat < 2 ^ f.width) :
    (setAttrField f a v).toNat < 65536 := by
  have low := attrLsb_add_width_le f
  refine Nat.lt_pow_two_of_testBit (n := 16) _ fun k high => ?_
  have outside : ¬(f.lsb ≤ k ∧ k < f.lsb + f.width) := by omega
  exact ((getLsbD_setAttrField narrow fits k).trans (if_neg outside)).trans (getLsbD_eq_false_of_toNat_lt narrow high)

/-! ## The size of a 16-bit operand (R171) -/

theorem highHalf_eq_zero_iff (a : Word) : a.extractLsb' 16 16 = 0 ↔ a.toNat < 65536 := by
  have word := a.isLt
  rw [← BitVec.toNat_inj, BitVec.extractLsb'_toNat, Nat.shiftRight_eq_div_pow]
  change a.toNat / 2 ^ 16 % 2 ^ 16 = 0 ↔ a.toNat < 65536
  omega

theorem needHalf_wide {a : Word} (wide : 65536 ≤ a.toNat) : needHalf a = .error ⟨.badOperand, a.toNat⟩ := by
  have high : a.extractLsb' 16 16 ≠ 0 := fun zero => absurd ((highHalf_eq_zero_iff a).1 zero) (Nat.not_lt.2 wide)
  rw [needHalf, beq_false_of_ne high, require_false]

theorem needHalf_narrow {a : Word} (narrow : a.toNat < 65536) : needHalf a = .ok () :=
  require_ok_iff.2 (beq_iff_eq.2 ((highHalf_eq_zero_iff a).2 narrow))

/-! ## The commands of a field -/

/-- The fields in the order of `SEL` (30_encoding.md R90). -/
def allAttrFields : List AttrField := [.size, .enc, .frag, .vtag, .rsvd]

/-- `AGET.f`. -/
def agetCommand : AttrField → Instr
  | .size => .agetSize
  | .enc => .agetEnc
  | .frag => .agetFrag
  | .vtag => .agetVtag
  | .rsvd => .agetRsvd

/-- `ASET.f`. -/
def asetCommand : AttrField → Instr
  | .size => .asetSize
  | .enc => .asetEnc
  | .frag => .asetFrag
  | .vtag => .asetVtag
  | .rsvd => .asetRsvd

theorem exec_agetCommand (f : AttrField) (s : State) : exec (agetCommand f) s = runCommand (aget f) s := by
  cases f <;> rfl

theorem exec_asetCommand (f : AttrField) (s : State) : exec (asetCommand f) s = runCommand (aset f) s := by
  cases f <;> rfl

/-- The row of a table that lists for every field its command, the command's word, the field's place and width. -/
def attrFieldRow (command : AttrField → Instr) (f : AttrField) : Instr × Word × Nat × Nat :=
  (command f, encode (command f), f.lsb, f.width)

/-! ## Reading a field (R171) -/

theorem exec_aget_narrow (f : AttrField) {s : State} (narrow : s.arg0.toNat < 65536) :
    exec (agetCommand f) s = .next { s.begin with res0 := getAttrField f s.arg0 } :=
  (exec_agetCommand f s).trans (runCommand_ok (aget_ok_iff.2 ⟨(highHalf_eq_zero_iff s.arg0).2 narrow, rfl⟩))

theorem aget_wide (f : AttrField) {s : State} (wide : 65536 ≤ s.arg0.toNat) :
    aget f s = .error ⟨.badOperand, s.arg0.toNat⟩ := by
  rw [aget, needHalf_wide wide]; rfl

/-- Settles O22, for the field of each row. -/
theorem attributeFieldsRead : Obligations.AttributeFieldsRead := by
  intro s i w lsb width row
  change (i, w, lsb, width) ∈ allAttrFields.map (attrFieldRow agetCommand) at row
  obtain ⟨f, -, same⟩ := List.mem_map.1 row
  cases same
  refine ⟨rfl, fun narrow => ?_, fun wide => ?_⟩
  · exact ⟨_, exec_aget_narrow f narrow, sameMemory_of rfl rfl, toNat_getAttrField f s.arg0, rfl⟩
  · exact failsWith_of (exec_agetCommand f s) (aget_wide f (s := s.begin) wide)

/-! ## Writing a field (R172) -/

theorem exec_aset_fits {f : AttrField} {s : State} (narrow : s.arg0.toNat < 65536)
    (fits : s.arg1.toNat < 2 ^ f.width) :
    exec (asetCommand f) s = .next { s.begin with res0 := setAttrField f s.arg0 s.arg1 } :=
  (exec_asetCommand f s).trans
    (runCommand_ok (aset_ok_iff.2 ⟨(highHalf_eq_zero_iff s.arg0).2 narrow, fits, rfl⟩))

theorem aset_wide (f : AttrField) {s : State} (wide : 65536 ≤ s.arg0.toNat) :
    aset f s = .error ⟨.badOperand, s.arg0.toNat⟩ := by
  rw [aset, needHalf_wide wide]; rfl

theorem aset_value_too_large {f : AttrField} {s : State} (narrow : s.arg0.toNat < 65536)
    (large : 2 ^ f.width ≤ s.arg1.toNat) : aset f s = .error ⟨.badOperand, s.arg1.toNat⟩ := by
  rw [aset, needHalf_narrow narrow, decide_eq_false (Nat.not_lt.2 large)]; rfl

/-- Settles O23, for the field of each row. -/
theorem attributeFieldsWritten : Obligations.AttributeFieldsWritten := by
  intro s i w lsb width row
  change (i, w, lsb, width) ∈ allAttrFields.map (attrFieldRow asetCommand) at row
  obtain ⟨f, -, same⟩ := List.mem_map.1 row
  cases same
  refine ⟨rfl, fun narrow fits => ?_, fun wide => ?_, fun narrow large => ?_⟩
  · have written : (setAttrField f s.arg0 s.arg1).toNat / 2 ^ f.lsb % 2 ^ f.width = s.arg1.toNat := by
      rw [← toNat_getAttrField, getAttrField_setAttrField narrow fits]
    have kept : ∀ k, k < f.lsb ∨ f.lsb + f.width ≤ k →
        (setAttrField f s.arg0 s.arg1).getLsbD k = s.arg0.getLsbD k := fun k outside =>
      (getLsbD_setAttrField narrow fits k).trans (if_neg (by omega))
    exact ⟨_, exec_aset_fits narrow fits, sameMemory_of rfl rfl, written,
      toNat_setAttrField_lt narrow fits, kept, rfl⟩
  · exact failsWith_of (exec_asetCommand f s) (aset_wide f (s := s.begin) wide)
  · exact failsWith_of (exec_asetCommand f s) (aset_value_too_large (s := s.begin) narrow large)

end Sys2Proof
end

section
/-! The fragment split (43_header.md R178): how many chunks a body has, and each chunk as a stretch of the body. -/

namespace Sys2Proof

open Sys2Proof.Machine

/-! ## How many chunks -/

theorem chunkCount_pos (len : Nat) : 1 ≤ chunkCount len := by
  unfold chunkCount maxBody
  split <;> omega

/-- All chunks but the last are full, and the last one ends the body. -/
theorem chunkCount_bounds (len : Nat) : (chunkCount len - 1) * 1023 ≤ len ∧ len ≤ chunkCount len * 1023 := by
  unfold chunkCount maxBody
  split <;> omega

/-- The last chunk of a split body is not empty. -/
theorem chunkCount_pred_lt {len : Nat} (long : 1023 < len) : (chunkCount len - 1) * 1023 < len := by
  have many : chunkCount len = (len + 1022) / 1023 := if_neg (Nat.not_le.2 long)
  omega

/-! ## The bytes of a chunk -/

theorem chunkOf_succ (body : List Byte) (k : Nat) : chunkOf body (k + 1) = (body.drop (1023 * k)).take 1023 := by
  rw [chunkOf, sliceOf, maxBody, Nat.add_sub_cancel, Nat.mul_comm k, List.take_eq_take_iff, List.length_drop]
  omega

theorem length_chunkOf_succ (body : List Byte) (k : Nat) :
    (chunkOf body (k + 1)).length = min 1023 (body.length - 1023 * k) := by
  rw [chunkOf_succ, List.length_take, List.length_drop]

/-- The first `n` chunks back to back are the first `1023 * n` bytes. -/
theorem flatMap_chunkOf (body : List Byte) (n : Nat) :
    (List.range n).flatMap (fun k => chunkOf body (k + 1)) = body.take (1023 * n) := by
  induction n with
  | zero => rfl
  | succ n ih =>
    rw [List.range_succ, List.flatMap_append, ih, List.flatMap_singleton, chunkOf_succ, Nat.mul_succ, List.take_add]

theorem length_last_chunk (body : List Byte) :
    (chunkOf body (chunkCount body.length)).length = body.length - (chunkCount body.length - 1) * 1023 := by
  have pos := chunkCount_pos body.length
  obtain ⟨-, covered⟩ := chunkCount_bounds body.length
  rw [← Nat.sub_add_cancel pos, length_chunkOf_succ]
  omega

/-- Settles O31: the chunks are consecutive stretches of 1023 bytes, the last one cut where the body ends. -/
theorem chunksCoverBody : Obligations.ChunksCoverBody := by
  intro body n
  obtain ⟨full, covered⟩ : (n - 1) * 1023 ≤ body.length ∧ body.length ≤ n * 1023 :=
    chunkCount_bounds body.length
  have last : (chunkOf body n).length = body.length - (n - 1) * 1023 := length_last_chunk body
  refine ⟨rfl, fun k _ => chunkOf_succ body k, ?_, fun k before => ?_, last, ?_, fun long => ?_⟩
  · rw [flatMap_chunkOf, List.take_of_length_le (by omega)]
  · rw [length_chunkOf_succ]
    omega
  · rw [last]
    omega
  · have rest : (n - 1) * 1023 < body.length := chunkCount_pred_lt long
    rw [last]
    omega

end Sys2Proof
end

section
/-! The flag words (44_flags.md R200 to R207): the words of the bit and field commands, which bits a field's read takes
and its write replaces, and what the commands leave and refuse. A single bit is the field of width 1. -/

namespace Sys2Proof

open Sys2Proof.Machine

/-! ## The command words (30_encoding.md R83, R84, R88) -/

theorem ofNat_shiftLeft (n k : Nat) : BitVec.ofNat 32 n <<< k = BitVec.ofNat 32 (n <<< k) := by
  apply BitVec.eq_of_toNat_eq
  rw [BitVec.toNat_shiftLeft, BitVec.toNat_ofNat, BitVec.toNat_ofNat, Nat.shiftLeft_eq, Nat.shiftLeft_eq,
    Nat.mod_mul_mod]

theorem commandWord_eq_ofNat (imm : Nat) {opc : Nat} (small : opc < 2 ^ 16) :
    commandWord imm 0 opc = BitVec.ofNat 32 (65536 * imm + opc) := by
  have joined : imm <<< 16 ||| opc = 65536 * imm + opc :=
    (shiftLeft_or_eq imm opc 16 small).trans (by omega)
  rw [← joined, BitVec.ofNat_or, ← ofNat_shiftLeft, commandWord, ofNat_shiftLeft 0, Nat.zero_shiftLeft,
    BitVec.or_zero]

theorem fieldImm_eq {lsb : Nat} (width : Nat) (low : lsb < 32) : fieldImm lsb width = 32 * (width - 1) + lsb :=
  (shiftLeft_or_eq (width - 1) lsb 5 low).trans (by omega)

/-! ## The mask of a single bit (R201, R202) -/

theorem getLsbD_bitMask {i : Nat} (word : i < 32) (k : Nat) : (bitMask i).getLsbD k = decide (k = i) := by
  rw [bitMask, ← BitVec.twoPow_eq, BitVec.getLsbD_twoPow, decide_eq_true word, Bool.true_and]
  exact decide_eq_decide.2 eq_comm

theorem getLsbD_setBit (w : Word) {i : Nat} (word : i < 32) (k : Nat) :
    (setBit w i).getLsbD k = (decide (k = i) || w.getLsbD k) := by
  rw [setBit, BitVec.getLsbD_or, getLsbD_bitMask word, Bool.or_comm]

theorem getLsbD_clearBit (w : Word) {i k : Nat} (word : i < 32) (inWord : k < 32) :
    (clearBit w i).getLsbD k = (decide (k ≠ i) && w.getLsbD k) := by
  rw [clearBit, BitVec.getLsbD_and, BitVec.getLsbD_not, getLsbD_bitMask word, Bool.and_comm, decide_eq_true inWord,
    Bool.true_and, decide_not]

/-! ## The mask of a field (R205) -/

theorem toNat_fieldMask {width : Nat} (word : width ≤ 32) : (fieldMask width).toNat = 2 ^ width - 1 := by
  have bound : 2 ^ width ≤ 2 ^ 32 := Nat.pow_le_pow_right (by decide) word
  rw [fieldMask, BitVec.toNat_ofNat, Nat.mod_eq_of_lt (by omega)]

theorem le_fieldMask_iff {width n : Nat} (word : width ≤ 32) : n ≤ (fieldMask width).toNat ↔ n < 2 ^ width := by
  rw [toNat_fieldMask word, Nat.le_sub_one_iff_lt (Nat.two_pow_pos width)]

theorem getLsbD_fieldMask {width : Nat} (word : width ≤ 32) (k : Nat) :
    (fieldMask width).getLsbD k = decide (k < width) := by
  rw [BitVec.getLsbD, toNat_fieldMask word, Nat.testBit_two_pow_sub_one]

/-! ## The bits a field's read takes and its write replaces (R205, R206) -/

theorem toNat_extractField (w : Word) (lsb : Nat) {width : Nat} (word : width ≤ 32) :
    (extractField w lsb width).toNat = w.toNat / 2 ^ lsb % 2 ^ width := by
  rw [extractField, BitVec.toNat_and, BitVec.toNat_ushiftRight, toNat_fieldMask word,
    Nat.and_two_pow_sub_one_eq_mod, Nat.shiftRight_eq_div_pow]

theorem getLsbD_extractField (w : Word) (lsb : Nat) {width : Nat} (word : width ≤ 32) (k : Nat) :
    (extractField w lsb width).getLsbD k = (w.getLsbD (lsb + k) && decide (k < width)) := by
  rw [extractField, BitVec.getLsbD_and, BitVec.getLsbD_ushiftRight, getLsbD_fieldMask word]

/-- A write puts the value's bits in the field and keeps every other bit of the word (R207). -/
theorem getLsbD_insertField (w : Word) {v : Word} {lsb width : Nat} (inside : lsb + width ≤ 32)
    (fits : v.toNat < 2 ^ width) (k : Nat) :
    (insertField w lsb width v).getLsbD k =
      if lsb ≤ k ∧ k < lsb + width then v.getLsbD (k - lsb) else w.getLsbD k := by
  simp only [insertField, BitVec.getLsbD_or, BitVec.getLsbD_and, BitVec.getLsbD_not, BitVec.getLsbD_shiftLeft,
    getLsbD_fieldMask (show width ≤ 32 by omega)]
  by_cases word : k < 32
  · by_cases below : k < lsb
    · simp [word, below, Nat.not_le.2 below]
    · by_cases field : k < lsb + width
      · simp [word, below, field, Nat.not_lt.1 below, show k - lsb < width by omega]
      · simp [word, below, field, show ¬k - lsb < width by omega,
          getLsbD_eq_false_of_toNat_lt fits (k := k - lsb) (by omega)]
  · simp [word, BitVec.getLsbD_of_ge w k (by omega), show ¬k < lsb + width by omega]

theorem extractField_insertField (w : Word) {v : Word} {lsb width : Nat} (inside : lsb + width ≤ 32)
    (fits : v.toNat < 2 ^ width) : extractField (insertField w lsb width v) lsb width = v := by
  apply BitVec.eq_of_getLsbD_eq
  intro k _
  rw [getLsbD_extractField _ _ (by omega), getLsbD_insertField w inside fits]
  by_cases field : k < width
  · simp [field]
  · simp [field, getLsbD_eq_false_of_toNat_lt fits (Nat.not_lt.1 field)]

/-! ## A bit as the field of width 1 (R203 to R205) -/

theorem testBit_eq_extractField (w : Word) (i : Nat) : testBit w i = extractField w i 1 := rfl

theorem putBit_eq_insertField (w : Word) (i : Nat) (b : Word) : putBit w i b = insertField w i 1 b := rfl

theorem toNat_testBit (w : Word) (i : Nat) : (testBit w i).toNat = (w.getLsbD i).toNat := by
  rw [testBit_eq_extractField, toNat_extractField w i (by decide), Nat.pow_one]
  exact (Nat.toNat_testBit w.toNat i).symm

theorem getLsbD_putBit (w : Word) {v : Word} {i : Nat} {b : Bool} (word : i < 32) (isBool : v.toNat = b.toNat)
    (k : Nat) : (putBit w i v).getLsbD k = if k = i then b else w.getLsbD k := by
  have fits : v.toNat < 2 ^ 1 := isBool ▸ Bool.toNat_lt b
  have value : v.getLsbD 0 = b := by
    rw [BitVec.getLsbD, isBool]; cases b <;> rfl
  rw [putBit_eq_insertField, getLsbD_insertField w word fits]
  by_cases same : k = i
  · rw [if_pos same, if_pos (by omega), same, Nat.sub_self, value]
  · rw [if_neg same, if_neg (by omega)]

/-! ## The bit commands (R201 to R204) -/

theorem exec_bset (i : Nat) (s : State) : exec (.bset i) s = .next { s.begin with res0 := setBit s.arg0 i } := rfl

theorem exec_bclr (i : Nat) (s : State) : exec (.bclr i) s = .next { s.begin with res0 := clearBit s.arg0 i } := rfl

theorem exec_btst (i : Nat) (s : State) : exec (.btst i) s = .next { s.begin with res0 := testBit s.arg0 i } := rfl

theorem exec_bput_bool (i : Nat) {s : State} (isBool : s.arg1.toNat ≤ 1) :
    exec (.bput i) s = .next { s.begin with res0 := putBit s.arg0 i s.arg1 } :=
  runCommand_ok (bput_ok_iff.2 ⟨isBool, rfl⟩)

theorem bput_not_bool (i : Nat) {s : State} (large : 1 < s.arg1.toNat) :
    bput i s = .error ⟨.badOperand, s.arg1.toNat⟩ := by
  rw [bput, decide_eq_false (Nat.not_le.2 large)]; rfl

/-- Settles O33, a clause per command. -/
theorem bitCommands : Obligations.BitCommands := by
  intro s i word
  refine ⟨⟨?_, ?_, ?_, ?_⟩, ?_, ?_, ?_, fun b isBool => ?_, fun large => ?_⟩
  iterate 4 exact commandWord_eq_ofNat i (by decide)
  · exact ⟨_, exec_bset i s, sameMemory_of rfl rfl, rfl, fun j _ => getLsbD_setBit s.arg0 word j⟩
  · exact ⟨_, exec_bclr i s, sameMemory_of rfl rfl, rfl, fun j inWord => getLsbD_clearBit s.arg0 word inWord⟩
  · exact ⟨_, exec_btst i s, sameMemory_of rfl rfl, rfl, toNat_testBit s.arg0 i⟩
  · exact ⟨_, exec_bput_bool i (isBool ▸ Bool.toNat_le b), sameMemory_of rfl rfl, rfl,
      fun j _ => getLsbD_putBit s.arg0 word isBool j⟩
  · exact failsWith_of rfl (bput_not_bool i (s := s.begin) large)

/-! ## The field commands (R205, R206) -/

theorem exec_fext_inside {lsb width : Nat} (s : State) (inside : lsb + width ≤ 32) :
    exec (.fext lsb width) s = .next { s.begin with res0 := extractField s.arg0 lsb width } :=
  runCommand_ok (fext_ok_iff.2 ⟨inside, rfl⟩)

theorem exec_fins_fits {lsb width : Nat} {s : State} (inside : lsb + width ≤ 32) (fits : s.arg1.toNat < 2 ^ width) :
    exec (.fins lsb width) s = .next { s.begin with res0 := insertField s.arg0 lsb width s.arg1 } :=
  runCommand_ok (fins_ok_iff.2 ⟨inside, (le_fieldMask_iff (by omega)).2 fits, rfl⟩)

theorem needField_outside {lsb width : Nat} (outside : 32 < lsb + width) :
    needField lsb width = .error ⟨.badOperand, lsb + width⟩ := by
  rw [needField, decide_eq_false (Nat.not_le.2 outside), require_false]

theorem needField_inside {lsb width : Nat} (inside : lsb + width ≤ 32) : needField lsb width = .ok () :=
  require_ok_iff.2 (decide_eq_true inside)

theorem fext_outside {lsb width : Nat} (s : State) (outside : 32 < lsb + width) :
    fext lsb width s = .error ⟨.badOperand, lsb + width⟩ := by
  rw [fext, needField_outside outside]; rfl

theorem fins_outside {lsb width : Nat} (s : State) (outside : 32 < lsb + width) :
    fins lsb width s = .error ⟨.badOperand, lsb + width⟩ := by
  rw [fins, needField_outside outside]; rfl

theorem fins_value_too_large {lsb width : Nat} {s : State} (inside : lsb + width ≤ 32)
    (large : 2 ^ width ≤ s.arg1.toNat) : fins lsb width s = .error ⟨.badOperand, s.arg1.toNat⟩ := by
  have tooLarge : ¬s.arg1.toNat ≤ (fieldMask width).toNat := fun le =>
    absurd ((le_fieldMask_iff (by omega)).1 le) (Nat.not_lt.2 large)
  rw [fins, needField_inside inside, decide_eq_false tooLarge]; rfl

/-- Settles O34: the field's place is checked before the value, and the write is read back by the read. -/
theorem fieldCommands : Obligations.FieldCommands := by
  intro s lsb width low _ narrow
  refine ⟨⟨?_, ?_⟩, fun inside => ?_, fun outside => ⟨?_, ?_⟩, fun inside fits => ?_, fun inside large => ?_⟩
  iterate 2 exact fieldImm_eq width low ▸ commandWord_eq_ofNat _ (by decide)
  · exact ⟨_, exec_fext_inside s inside, sameMemory_of rfl rfl, rfl, toNat_extractField s.arg0 lsb narrow⟩
  · exact failsWith_of rfl (fext_outside s.begin outside)
  · exact failsWith_of rfl (fins_outside s.begin outside)
  · have written : (insertField s.arg0 lsb width s.arg1).toNat / 2 ^ lsb % 2 ^ width = s.arg1.toNat := by
      rw [← toNat_extractField _ _ narrow, extractField_insertField s.arg0 inside fits]
    have kept : ∀ k, k < lsb ∨ lsb + width ≤ k →
        (insertField s.arg0 lsb width s.arg1).getLsbD k = s.arg0.getLsbD k := fun k outside =>
      (getLsbD_insertField s.arg0 inside fits k).trans (if_neg (by omega))
    exact ⟨_, exec_fins_fits inside fits, sameMemory_of rfl rfl, rfl, written, kept⟩
  · exact failsWith_of rfl (fins_value_too_large (s := s.begin) inside large)

end Sys2Proof
end

section
/-! The timestamp commands (45_position.md R220 to R223): the two digits of a byte, the three fields of a packed word,
what `BCDDEC` and `BCDENC` leave and what they refuse. -/

namespace Sys2Proof

open Sys2Proof.Machine

/-! ## The two digits of a byte (30_encoding.md R96) -/

theorem toNat_highNibble (b : Byte) : (b.extractLsb' 4 4).toNat = b.toNat / 16 := by
  have byte := b.isLt
  rw [BitVec.extractLsb'_toNat, Nat.shiftRight_eq_div_pow]
  omega

theorem toNat_lowNibble (b : Byte) : (b.extractLsb' 0 4).toNat = b.toNat % 16 := by
  rw [BitVec.extractLsb'_toNat]; rfl

theorem badBcdByte_eq_false_of_digits {b : Byte} {hi lo : Nat} (tens : hi ≤ 9) (ones : lo ≤ 9)
    (digits : b.toNat = 16 * hi + lo) : badBcdByte b = false := by
  rw [badBcdByte, toNat_highNibble, toNat_lowNibble, Bool.or_eq_false_iff]
  exact ⟨decide_eq_false (by omega), decide_eq_false (by omega)⟩

theorem toNat_bcdValue_of_digits {b : Byte} {hi lo : Nat} (ones : lo ≤ 9)
    (digits : b.toNat = 16 * hi + lo) : (bcdValue b).toNat = 10 * hi + lo := by
  rw [bcdValue, toNat_highNibble, toNat_lowNibble, BitVec.toNat_ofNat]
  omega

/-- Encoding a number as tens and ones (R221). -/
theorem bcdByte_eq_ofNat (v : Byte) : bcdByte v = BitVec.ofNat 8 (16 * (v.toNat / 10) + v.toNat % 10) := by
  rw [bcdByte, Nat.mul_comm]

/-! ## The three fields of a packed date or time of day (R220, R221) -/

theorem toNat_pack3 (a b c : Byte) : (pack3 a b c).toNat = 65536 * a.toNat + 256 * b.toNat + c.toNat := by
  rw [pack3, BitVec.toNat_append, BitVec.toNat_append, shiftLeft_or_eq _ _ _ b.isLt, shiftLeft_or_eq _ _ _ c.isLt]
  omega

/-- A packed triple in a result register. -/
theorem toNat_setWidth_pack3 {a b c : Byte} {x y z : Nat} (first : a.toNat = x) (second : b.toNat = y)
    (third : c.toNat = z) : ((pack3 a b c).setWidth 32).toNat = 65536 * x + 256 * y + z := by
  rw [BitVec.toNat_setWidth_of_le (by decide), toNat_pack3, first, second, third]

theorem toNat_extractByte (v : Word) (k : Nat) : (v.extractLsb' k 8).toNat = v.toNat / 2 ^ k % 256 := by
  rw [BitVec.extractLsb'_toNat, Nat.shiftRight_eq_div_pow]

/-- The bytes of a word given as three bytes below a zero one. -/
theorem toNat_fields_of_packed {v : Word} {a b c : Nat} (ha : a ≤ 99) (hb : b ≤ 99) (hc : c ≤ 99)
    (packed : v.toNat = 65536 * a + 256 * b + c) :
    (v.extractLsb' 24 8).toNat = 0 ∧ (v.extractLsb' 16 8).toNat = a ∧ (v.extractLsb' 8 8).toNat = b ∧
      (v.extractLsb' 0 8).toNat = c := by
  simp only [toNat_extractByte, packed]
  omega

theorem bcdFieldsOk_of_packed {v : Word} {a b c : Nat} (ha : a ≤ 99) (hb : b ≤ 99) (hc : c ≤ 99)
    (packed : v.toNat = 65536 * a + 256 * b + c) : bcdFieldsOk v = true := by
  obtain ⟨top, first, second, third⟩ := toNat_fields_of_packed ha hb hc packed
  have zero : v.extractLsb' 24 8 = 0 := BitVec.eq_of_toNat_eq top
  simp [bcdFieldsOk, zero, first, second, third, ha, hb, hc]

theorem bcdBytes3_of_packed {v : Word} {a b c : Nat} (ha : a ≤ 99) (hb : b ≤ 99) (hc : c ≤ 99)
    (packed : v.toNat = 65536 * a + 256 * b + c) :
    bcdBytes3 v = [a, b, c].map (fun x => BitVec.ofNat 8 (16 * (x / 10) + x % 10)) := by
  obtain ⟨-, first, second, third⟩ := toNat_fields_of_packed ha hb hc packed
  simp only [bcdBytes3, bcdByte_eq_ofNat, first, second, third, List.map]

/-! ## The first bad byte of a timestamp in MEM (R220) -/

theorem firstBadBcdFrom_eq_findIdx? (i : Nat) (t : List Byte) :
    firstBadBcdFrom i t = (t.findIdx? badBcdByte).map (i + ·) := by
  induction t generalizing i with
  | nil => rfl
  | cons b t ih =>
    rw [firstBadBcdFrom, List.findIdx?_cons, ih]
    cases badBcdByte b with
    | true => rfl
    | false => simp [Function.comp_def, Nat.add_comm, Nat.add_left_comm]

theorem firstBadBcd_eq_findIdx? (t : List Byte) : firstBadBcd t = t.findIdx? badBcdByte := by
  simp [firstBadBcd, firstBadBcdFrom_eq_findIdx?]

theorem byteOf_bytesAt (s : State) (a : Nat) {n k : Nat} (inside : k < n) :
    byteOf (s.bytesAt a n) k = s.byteAt (a + k) := by
  have bound : k < (s.bytesAt a n).length := by rwa [State.length_bytesAt]
  rw [byteOf, List.getD_eq_getElem _ _ bound, State.bytesAt_getElem]

/-- The timestamp `BcdDecode6` reads in the six bytes at an address, all of them digits. -/
def stampAt (s : State) (a : Nat) : Stamp :=
  { date := pack3 (bcdValue (s.byteAt a)) (bcdValue (s.byteAt (a + 1))) (bcdValue (s.byteAt (a + 2)))
    time := pack3 (bcdValue (s.byteAt (a + 3))) (bcdValue (s.byteAt (a + 4))) (bcdValue (s.byteAt (a + 5))) }

theorem bcdDecode6_bytesAt_of_good {s : State} {a : Nat} (good : ∀ k < 6, badBcdByte (s.byteAt (a + k)) = false) :
    bcdDecode6 (s.bytesAt a 6) = .ok (stampAt s a) := by
  have none_bad : firstBadBcd ((s.bytesAt a 6).take 6) = none := by
    rw [List.take_of_length_le (s.length_bytesAt a 6).le, firstBadBcd_eq_findIdx?, List.findIdx?_eq_none_iff]
    intro b mem
    obtain ⟨k, bound, rfl⟩ := List.mem_iff_getElem.1 mem
    rw [State.bytesAt_getElem]
    exact good k (by rwa [State.length_bytesAt] at bound)
  rw [bcdDecode6, none_bad]
  rfl

theorem bcdDecode6_bytesAt_of_bad {s : State} {a j : Nat} (inside : j < 6)
    (bad : badBcdByte (s.byteAt (a + j)) = true) (good : ∀ k < j, badBcdByte (s.byteAt (a + k)) = false) :
    bcdDecode6 (s.bytesAt a 6) = .error j := by
  have first_bad : firstBadBcd ((s.bytesAt a 6).take 6) = some j := by
    rw [List.take_of_length_le (s.length_bytesAt a 6).le, firstBadBcd_eq_findIdx?,
      List.findIdx?_eq_some_iff_getElem]
    refine ⟨by rwa [State.length_bytesAt], ?_, fun k before => ?_⟩
    · rwa [State.bytesAt_getElem]
    · rw [State.bytesAt_getElem, good k before]
      decide
  rw [bcdDecode6, first_bad]

theorem stampOr_of_bad {t : List Byte} {j : Nat} (offset : Nat) (bad : bcdDecode6 t = .error j) :
    stampOr offset t = .error ⟨.bcd, offset + j⟩ := by
  rw [stampOr, bad]

/-! ## `BCDDEC` (R222) -/

theorem exec_bcddec_good {s : State} (source : InMem s.src 6)
    (good : ∀ k < 6, badBcdByte (s.byteAt (s.src + k)) = false) :
    exec .bcddec s = .next { s.begin with res0 := (stampAt s s.src).date.setWidth 32,
                                          res1 := (stampAt s s.src).time.setWidth 32 } := by
  refine runCommand_ok (bcddec_ok_iff.2 ⟨region_iff_inMem.2 source, stampAt s s.src, ?_, rfl⟩)
  rw [State.bytesAt_begin]
  exact bcdDecode6_bytesAt_of_good good

theorem bcddec_source_outside {s : State} (source : ¬InMem s.src 6) :
    bcddec Config.params s = .error ⟨.badOperand, s.src⟩ := by
  rw [bcddec, needRegion_outside source]; rfl

theorem bcddec_bad_byte {s : State} {j : Nat} (source : InMem s.src 6) (inside : j < 6)
    (bad : badBcdByte (s.byteAt (s.src + j)) = true) (good : ∀ k < j, badBcdByte (s.byteAt (s.src + k)) = false) :
    bcddec Config.params s = .error ⟨.bcd, j⟩ := by
  rw [bcddec, needRegion_inside source, ok_bind, stampOr_of_bad 0 (bcdDecode6_bytesAt_of_bad inside bad good),
    Nat.zero_add]
  rfl

/-! ## `BCDENC` (R223) -/

theorem exec_bcdenc_fields {s : State} (dest : InMem s.dst 6) (date : bcdFieldsOk s.arg0 = true)
    (time : bcdFieldsOk s.arg1 = true) :
    exec .bcdenc s = .next (s.begin.store s.dst (bcdEncode6 s.arg0 s.arg1)) :=
  runCommand_ok (bcdenc_ok_iff.2 ⟨region_iff_inMem.2 dest, date, time, rfl⟩)

theorem bcdenc_dest_outside {s : State} (dest : ¬InMem s.dst 6) :
    bcdenc Config.params s = .error ⟨.badOperand, s.dst⟩ := by
  rw [bcdenc, needRegion_outside dest]; rfl

theorem bcdenc_bad_date {s : State} (dest : InMem s.dst 6) (date : bcdFieldsOk s.arg0 = false) :
    bcdenc Config.params s = .error ⟨.badOperand, s.arg0.toNat⟩ := by
  rw [bcdenc, needRegion_inside dest, date]; rfl

theorem bcdenc_bad_time {s : State} (dest : InMem s.dst 6) (date : bcdFieldsOk s.arg0 = true)
    (time : bcdFieldsOk s.arg1 = false) : bcdenc Config.params s = .error ⟨.badOperand, s.arg1.toNat⟩ := by
  rw [bcdenc, needRegion_inside dest, date, time]; rfl

/-- Settles O36: each command's checks in their order, then what it leaves. -/
theorem bcdCommands : Obligations.BcdCommands := by
  refine ⟨rfl, rfl, fun s => ⟨fun outside => ?_, fun source hi lo range digits => ?_,
    fun source j inside bad good => ?_, fun outside => ?_, fun dest a b c d e f ha hb hc hd he hf date time => ?_,
    fun dest date => ?_, fun dest date time => ?_⟩⟩
  · exact failsWith_of rfl (bcddec_source_outside (s := s.begin) outside)
  · have good : ∀ k < 6, badBcdByte (s.byteAt (s.src + k)) = false := fun k inside =>
      badBcdByte_eq_false_of_digits (range k inside).1 (range k inside).2 (digits k inside)
    have value : ∀ k < 6, (bcdValue (s.byteAt (s.src + k))).toNat = 10 * hi k + lo k := fun k inside =>
      toNat_bcdValue_of_digits (range k inside).2 (digits k inside)
    refine ⟨_, exec_bcddec_good source good, sameMemory_of rfl rfl, rfl, ?_, ?_⟩
    · exact toNat_setWidth_pack3 (value 0 (by decide)) (value 1 (by decide)) (value 2 (by decide))
    · exact toNat_setWidth_pack3 (value 3 (by decide)) (value 4 (by decide)) (value 5 (by decide))
  · exact failsWith_of rfl (bcddec_bad_byte (s := s.begin) source inside bad good)
  · exact failsWith_of rfl (bcdenc_dest_outside (s := s.begin) outside)
  · have bytes : bcdEncode6 s.arg0 s.arg1 =
        [a, b, c, d, e, f].map (fun x => BitVec.ofNat 8 (16 * (x / 10) + x % 10)) := by
      rw [bcdEncode6, bcdBytes3_of_packed ha hb hc date, bcdBytes3_of_packed hd he hf time]; rfl
    rw [← bytes]
    exact ⟨_, exec_bcdenc_fields dest (bcdFieldsOk_of_packed ha hb hc date) (bcdFieldsOk_of_packed hd he hf time),
      stored_of rfl rfl, rfl⟩
  · exact failsWith_of rfl (bcdenc_bad_date (s := s.begin) dest date)
  · exact failsWith_of rfl (bcdenc_bad_time (s := s.begin) dest date time)

end Sys2Proof
end

section
/-! The position report with and without a mileage item (45_position.md R224, R225): what `POSDEC` leaves once its list
of items is walked, the walk past one item, and the core's fields under whatever follows the core. -/

namespace Sys2Proof

open Sys2Proof.Machine

/-! ## Reading within the first part of a concatenation (00_scope.md R10) -/

theorem byteOf_append_left {t : List Byte} (u : List Byte) {k : Nat} (inside : k < t.length) :
    byteOf (t ++ u) k = byteOf t k :=
  List.getD_append t u 0 k inside

theorem be16At_append_left {t : List Byte} (u : List Byte) {k : Nat} (inside : k + 2 ≤ t.length) :
    be16At (t ++ u) k = be16At t k := by
  rw [be16At, be16At, byteOf_append_left u (by omega), byteOf_append_left u (by omega)]

theorem be32At_append_left {t : List Byte} (u : List Byte) {k : Nat} (inside : k + 4 ≤ t.length) :
    be32At (t ++ u) k = be32At t k := by
  rw [be32At, be32At, byteOf_append_left u (by omega), byteOf_append_left u (by omega),
    byteOf_append_left u (by omega), byteOf_append_left u (by omega)]

/-! ## The core of a body (R97) -/

/-- The core's registers depend on the first 28 bytes alone. -/
theorem positionRegs_append {core : List Byte} (items : List Byte) (whole : core.length = coreLen) (v : Stamp)
    (n : Word) : positionRegs (core ++ items) v n = positionRegs core v n := by
  have ends : core.length = 28 := whole
  simp only [positionRegs, be32At_append_left items (show 0 + 4 ≤ core.length by omega),
    be32At_append_left items (show 4 + 4 ≤ core.length by omega),
    be32At_append_left items (show 8 + 4 ≤ core.length by omega),
    be32At_append_left items (show 12 + 4 ≤ core.length by omega),
    be16At_append_left items (show 16 + 2 ≤ core.length by omega),
    be16At_append_left items (show 18 + 2 ≤ core.length by omega),
    be16At_append_left items (show 20 + 2 ≤ core.length by omega)]

theorem sliceOf_timestamp_append {core : List Byte} (items : List Byte) (whole : core.length = coreLen) :
    sliceOf (core ++ items) 22 28 = core.drop 22 := by
  have ends : core.length = 28 := whole
  rw [sliceOf, List.drop_append_of_le_length (by omega), List.take_left' (by rw [List.length_drop]; omega)]

/-! ## `POSDEC` once its items are walked (R224) -/

/-- The state `POSDEC` leaves for the timestamp `v` and the records `rs`. -/
def positionDecoded (s : State) (v : Stamp) (rs : List TlvRecord) : State :=
  { s.begin.store s.dst (tlvBytes s rs) with
    pos := positionRegs s.source v (s.fit rs.length), res0 := s.fit rs.length, res1 := s.fit (s.srcLen - coreLen) }

theorem exec_posdec_walked {s : State} {core items : List Byte} {v : Stamp} {rs : List TlvRecord}
    (buffers : BuffersIn s (16 * s.dstCap)) (body : s.source = core ++ items) (whole : core.length = coreLen)
    (stamp : bcdDecode6 (core.drop 22) = .ok v)
    (walk : tlvWalk (auxShape Config.params) (s.src + coreLen) items = .ok rs) (space : rs.length ≤ s.dstCap) :
    exec .posdec s = .next (positionDecoded s v rs) := by
  have long : coreLen ≤ s.srcLen := by
    rw [← State.length_source, body, List.length_append, whole]
    exact Nat.le_add_right _ _
  refine runCommand_ok (posdec_ok_iff.2 ⟨buffersOk_iff.2 buffers, long, v, ?_, rs, ?_, space, ?_⟩)
  · rw [State.source_begin, body, sliceOf_timestamp_append items whole, stamp]
  · rw [State.source_begin, body, List.drop_left' whole]
    exact walk
  · rw [State.source_begin]
    rfl

theorem stored_positionDecoded (s : State) (v : Stamp) (rs : List TlvRecord) :
    Stored s (positionDecoded s v rs) s.dst (tlvBytes s rs) := stored_of rfl rfl

theorem positionDecoded_pos {s : State} {core items : List Byte} (v : Stamp) (rs : List TlvRecord)
    (body : s.source = core ++ items) (whole : core.length = coreLen) :
    (positionDecoded s v rs).pos = positionRegs core v (s.fit rs.length) := by
  rw [positionDecoded, body, positionRegs_append items whole]

/-! ## The walk past one item (46_tlv.md R240) -/

theorem length_itemBytes (ident value : List Byte) :
    (itemBytes ident value).length = ident.length + 1 + value.length := by
  rw [itemBytes, List.length_append, List.length_append]; rfl

theorem tlvItemLen_item {T : TlvShape} {ident value : List Byte} (rest : List Byte)
    (width : ident.length = T.idWidth) (short : value.length < 256) :
    tlvItemLen T (itemBytes ident value ++ rest) = (itemBytes ident value).length := by
  have length_byte : byteOf (itemBytes ident value ++ rest) T.idWidth = BitVec.ofNat 8 value.length := by
    rw [itemBytes, List.append_assoc, List.append_assoc, ← width]
    exact byteOf_append_right ident _ 0
  rw [tlvItemLen, length_byte, length_itemBytes, BitVec.toNat_ofNat, Nat.mod_eq_of_lt short, width]

theorem tlvFrom_item {T : TlvShape} {ident value : List Byte} (base o : Nat) (rest : List Byte)
    (width : ident.length = T.idWidth) (short : value.length < 256) :
    tlvFrom T base (itemBytes ident value ++ rest).length o (itemBytes ident value ++ rest) =
      consRecord (tlvItem T base o (itemBytes ident value ++ rest))
        (tlvFrom T base rest.length (o + (itemBytes ident value).length) rest) := by
  have item_length := length_itemBytes ident value
  have total : (itemBytes ident value ++ rest).length = (itemBytes ident value).length + rest.length :=
    List.length_append
  have nonempty : itemBytes ident value ++ rest ≠ [] := List.ne_nil_of_length_pos (by omega)
  rw [tlvFrom_eq, tlvItemLen_item rest width short, if_neg nonempty, if_neg (by omega), if_neg (by omega),
    List.drop_left]

/-! ## The mileage item (R225) -/

/-- The record of a mileage item at address `base` (30_encoding.md R105). -/
def mileageRecord (base : Nat) (mileage : Word) : TlvRecord :=
  { id := 1, len := 4, kind := some .u32, wmis := false, vaddr := base + 2, value := mileage }

theorem tlvItem_mileage (P : Params) (base : Nat) (mileage : Word) :
    tlvItem (auxShape P) base 0 (itemBytes [1] (be32 mileage)) = mileageRecord base mileage := by
  have kind : (auxShape P).table ((auxShape P).idAt (itemBytes [1] (be32 mileage))) = some .u32 := P.auxTypes_mileage
  have value : be32At (be32 mileage) 0 = mileage := be32At_be32 mileage []
  simp only [tlvItem, kind]
  rw [mileageRecord, TlvRecord.mk.injEq]
  exact ⟨rfl, rfl, rfl, rfl, rfl, value⟩

theorem tlvWalk_mileage (P : Params) (base : Nat) (mileage : Word) :
    tlvWalk (auxShape P) base (itemBytes [1] (be32 mileage)) = .ok [mileageRecord base mileage] := by
  have walk := tlvFrom_item (T := auxShape P) (ident := [1]) (value := be32 mileage) base 0 [] rfl
    (show 4 < 256 by decide)
  rw [List.append_nil, tlvItem_mileage] at walk
  exact walk

theorem encoded_mileageRecord (fit : Nat → Word) (base : Nat) (mileage : Word) :
    (mileageRecord base mileage).encoded fit = [0, 0, 0, 1, 4, 3, 1, 0] ++ be32 (fit (base + 2)) ++ be32 mileage := by
  have ident : be32 1 = [0, 0, 0, 1] := by decide
  have flags : (mileageRecord base mileage).flags = 1 := rfl
  rw [TlvRecord.encoded, flags, mileageRecord, ident]
  rfl

theorem tlvBytes_mileage {s : State} {base : Nat} (mileage : Word) (below : base + 2 < 2 ^ 32) :
    tlvBytes s [mileageRecord base mileage] =
      [0, 0, 0, 1, 4, 3, 1, 0] ++ be32 (BitVec.ofNat 32 (base + 2)) ++ be32 mileage := by
  rw [← s.fit_of_lt below, ← encoded_mileageRecord]
  exact List.append_nil _

/-- Settles O38: no item to walk after the core, then one. -/
theorem mileageScenario : Obligations.MileageScenario := by
  intro s core v mileage whole stamp buffers below regs
  refine ⟨fun body => ?_, fun body room => ?_⟩
  · have bare : s.source = core ++ [] := body.trans (List.append_nil core).symm
    exact ⟨_, exec_posdec_walked buffers bare whole stamp rfl (Nat.zero_le _), rfl, rfl,
      positionDecoded_pos v [] bare whole, stored_nil.1 (stored_positionDecoded s v [])⟩
  · have one_item : s.source = core ++ itemBytes [1] (be32 mileage) := by rw [body, List.append_assoc]; rfl
    have long : s.srcLen = 34 := by
      rw [← State.length_source, one_item, List.length_append, whole]; rfl
    have stored := stored_positionDecoded s v [mileageRecord (s.src + coreLen) mileage]
    rw [tlvBytes_mileage mileage (by rw [coreLen]; omega)] at stored
    exact ⟨_, exec_posdec_walked buffers one_item whole stamp (tlvWalk_mileage _ _ mileage) room, rfl, rfl,
      positionDecoded_pos v _ one_item whole, stored⟩

end Sys2Proof
end

section
/-! The size of a Circle item (47_geofence.md R267, R269): `GEOENC` reports an error exactly when its computation raises
one, and otherwise `RES0` is the length of the item, one step of the table after the other. -/

namespace Sys2Proof

open Sys2Proof.Machine

/-! ## The codes a computation can raise -/

/-- Whatever the computation raises has one of the listed codes. -/
def RaisesOnly {α : Type} (codes : List ErrCode) (x : Except Raise α) : Prop :=
  ∀ r, x = .error r → r.code ∈ codes

theorem raisesOnly_ok {α : Type} (codes : List ErrCode) (a : α) : RaisesOnly codes (.ok a) := by
  intro r raised
  cases raised

theorem raisesOnly_require {codes : List ErrCode} {e : ErrCode} (c : Bool) (n : Nat) (listed : e ∈ codes) :
    RaisesOnly codes (require c e n) := by
  intro r raised
  obtain ⟨-, rfl⟩ := require_error_iff.1 raised
  exact listed

theorem raisesOnly_bind {α β : Type} {codes : List ErrCode} {x : Except Raise α} {f : α → Except Raise β}
    (first : RaisesOnly codes x) (next : ∀ a, RaisesOnly codes (f a)) : RaisesOnly codes (x >>= f) := by
  intro r raised
  obtain raised | ⟨a, -, raised⟩ := bind_error_iff.1 raised
  · exact first r raised
  · exact next a r raised

/-- A command none of whose codes is 0 has, when it reports no error, the state its computation gives. -/
theorem computed_of_no_error {codes : List ErrCode} {f : State → Except Raise State} {s t : State}
    (codes_listed : RaisesOnly codes (f s.begin)) (errors : .ok ∉ codes) (run : runCommand f s = .next t)
    (no_error : t.err = .ok) : f s.begin = .ok t := by
  obtain done | ⟨r, raised, rfl⟩ := runCommand_cases run
  · exact done
  · have code_zero : r.code = .ok := no_error
    exact absurd (code_zero ▸ codes_listed r raised) errors

/-! ## What `GEOENC` can raise (R265, R267) -/

section
variable {codes : List ErrCode} (operand : .badOperand ∈ codes)
include operand

theorem raisesOnly_needReg (c : Bool) (reg : Reg) : RaisesOnly codes (needReg c reg) :=
  raisesOnly_require c _ operand

theorem raisesOnly_validTime (g : GeoRegs) : RaisesOnly codes (validTime g) := by
  unfold validTime
  split
  · exact raisesOnly_bind (raisesOnly_needReg operand _ _) fun _ =>
      raisesOnly_bind (raisesOnly_needReg operand _ _) fun _ =>
      raisesOnly_bind (raisesOnly_needReg operand _ _) fun _ => raisesOnly_needReg operand _ _
  · exact raisesOnly_ok codes ()

theorem raisesOnly_validPoints (P : Params) (shape : Shape) (g : GeoRegs) :
    RaisesOnly codes (validPoints P shape g) := by
  cases shape with
  | circle => exact raisesOnly_ok codes ()
  | rect => exact raisesOnly_ok codes ()
  | polygon => exact raisesOnly_bind (raisesOnly_needReg operand _ _) fun _ => raisesOnly_needReg operand _ _
  | polyline => exact raisesOnly_needReg operand _ _

theorem raisesOnly_validName (P : Params) (v : Version) (g : GeoRegs) : RaisesOnly codes (validName P v g) := by
  unfold validName
  split
  · exact raisesOnly_needReg operand _ _
  · exact raisesOnly_ok codes ()

theorem raisesOnly_validBlock (P : Params) (shape : Shape) (v : Version) (s : State) :
    RaisesOnly codes (validBlock P shape v s) := by
  unfold validBlock
  split
  · exact raisesOnly_needReg operand _ _
  · exact raisesOnly_ok codes ()

theorem raisesOnly_geoValid (P : Params) (shape : Shape) (v : Version) (s : State) :
    RaisesOnly codes (geoValid P shape v s) :=
  raisesOnly_bind (raisesOnly_validTime operand s.geo) fun _ =>
    raisesOnly_bind (raisesOnly_validPoints operand P shape s.geo) fun _ =>
    raisesOnly_bind (raisesOnly_validName operand P v s.geo) fun _ => raisesOnly_validBlock operand P shape v s

end

theorem raisesOnly_geoenc (P : Params) (shape : Shape) (v : Version) (s : State) :
    RaisesOnly (raisable (.geoenc shape v)) (geoenc P shape v s) := by
  have operand : ErrCode.badOperand ∈ raisable (.geoenc shape v) := List.mem_cons_self
  have space : ErrCode.noSpace ∈ raisable (.geoenc shape v) := List.mem_cons_of_mem _ List.mem_cons_self
  exact raisesOnly_bind (raisesOnly_require _ _ operand) fun _ =>
    raisesOnly_bind (raisesOnly_geoValid operand P shape v s) fun _ =>
    raisesOnly_bind (raisesOnly_require _ _ operand) fun _ =>
    raisesOnly_bind (raisesOnly_require _ _ operand) fun _ =>
    raisesOnly_bind (raisesOnly_require _ _ space) fun _ => raisesOnly_ok _ _

/-- A `GEOENC` that reports no error leaves the length of its item in `RES0`: the item fits a 32-bit count of bytes. -/
theorem exec_geoenc_res0 {shape : Shape} {v : Version} {s t : State} (run : exec (.geoenc shape v) s = .next t)
    (no_error : t.err = .ok) : t.res0.toNat = (geoItem Config.params shape v s.begin).length := by
  have errors : ErrCode.ok ∉ raisable (.geoenc shape v) :=
    show ErrCode.ok ∉ [ErrCode.badOperand, ErrCode.noSpace] by decide
  obtain ⟨-, -, -, -, fits, rfl⟩ :=
    geoenc_ok_iff.1 (computed_of_no_error (raisesOnly_geoenc _ shape v s.begin) errors run no_error)
  show (s.begin.fit _).toNat = _
  rw [State.fit_of_lt _ (Nat.lt_of_le_of_lt fits s.arg3.isLt)]
  exact toNat_ofNat_of_le (w := s.arg3) fits

/-! ## The length of each step of an item (R267) -/

theorem nightPresent_iff {P : Params} {v : Version} :
    nightPresent P v = true ↔ v = .v2019 ∧ P.nightSpeed = .present := by
  simp [nightPresent]

section
variable (P : Params) (s : State) (v : Version)

theorem length_encodeStep_circle : (encodeStep P s v .circle).length = 12 := rfl

theorem length_encodeStep_time :
    (encodeStep P s v .time).length = if s.geo.attr.getLsbD 0 then 12 else 0 := by
  rw [encodeStep, apply_ite List.length]; rfl

theorem length_encodeStep_speedHead :
    (encodeStep P s v .speedHead).length = if s.geo.attr.getLsbD 1 then 3 else 0 := by
  rw [encodeStep, apply_ite List.length]; rfl

theorem length_encodeStep_night : (encodeStep P s v .night).length =
    if s.geo.attr.getLsbD 1 ∧ v = .v2019 ∧ P.nightSpeed = .present then 2 else 0 := by
  rw [encodeStep, apply_ite List.length]
  simp only [Bool.and_eq_true, nightPresent_iff, length_be16, List.length_nil]

theorem length_encodeStep_name :
    (encodeStep P s v .name).length = if v = .v2019 then 2 + s.geo.nameLen.toNat else 0 := by
  rw [encodeStep, apply_ite List.length, List.length_append, length_be16, nameBlock, State.length_bytesAt,
    List.length_nil]

theorem geoItem_circle : geoItem P .circle v s =
    be32 s.geo.id ++ be16 s.geo.attr ++ (encodeStep P s v .circle ++ (encodeStep P s v .time ++
      (encodeStep P s v .speedHead ++ (encodeStep P s v .night ++ (encodeStep P s v .name ++ []))))) := rfl

end

/-- Settles O47: the head and the circle are 18 bytes, and each step after them adds its own. -/
theorem circleSizes : Obligations.CircleSizes := by
  intro s t v run no_error
  rw [exec_geoenc_res0 run no_error, geoItem_circle]
  simp only [List.length_append, List.length_nil, length_be32, length_be16, length_encodeStep_circle,
    length_encodeStep_time, length_encodeStep_speedHead, length_encodeStep_night, length_encodeStep_name]
  rw [State.begin_geo]
  omega

end Sys2Proof
end

section
/-! Precise errors and the status word (60_exceptions.md R300, R306, R310): which computations leave the report as they
found it, what an overflow of the framer leaves, and the fields of `STATUS` as parts of one number. -/

namespace Sys2Proof

open Sys2Proof.Machine

/-! ## A command that ends in an error (R306) -/

/-- Where the computation succeeds it leaves `STATUS.ERR` as it found it. -/
def KeepsErr (f : State → Except Raise State) : Prop :=
  ∀ s t, f s = .ok t → t.err = s.err

/-- `t` is `s` but for the framer's registers and MEM. -/
def SameButFramer (s t : State) : Prop :=
  { t with frs := s.frs, frv := s.frv, frLen := s.frLen, frFlen := s.frFlen, dropCnt := s.dropCnt, mem := s.mem } = s

/-- `t` is `s` but for the report, the framer's registers and MEM. -/
def SameButFramerAndReport (s t : State) : Prop :=
  { t with err := s.err, errInfo := s.errInfo, frs := s.frs, frv := s.frv, frLen := s.frLen, frFlen := s.frFlen,
           dropCnt := s.dropCnt, mem := s.mem } = s

/-- Where the computation succeeds it leaves `STATUS.ERR` as it found it, or reports `FRAMING` on what the framer
did. -/
def KeepsErrOrOverflows (f : State → Except Raise State) : Prop :=
  ∀ s t, f s = .ok t → t.err = s.err ∨ ∃ u n, t = u.raise .framing n ∧ SameButFramer s u

theorem SameButFramer.err_eq {s t : State} (same : SameButFramer s t) : t.err = s.err := by
  have kept := congrArg State.err same
  exact kept

/-- A report on what the framer did since the start of the command. -/
theorem SameButFramer.raise {s u : State} (same : SameButFramer s.begin u) (c : ErrCode) (n : Nat) :
    SameButFramerAndReport s (u.raise c n) := by
  have reported := congrArg (fun v : State => { v with err := s.err, errInfo := s.errInfo }) same
  exact reported

/-- The error of a command whose computation sets no code of its own is one the computation raised. -/
theorem raised_of_keepsErr {f : State → Except Raise State} {s t : State} (keeps : KeepsErr f)
    (run : runCommand f s = .next t) (error : t.err ≠ .ok) : ∃ r : Raise, t = s.raise r.code r.info := by
  obtain done | ⟨r, -, report⟩ := runCommand_cases run
  · exact absurd (keeps _ _ done) error
  · exact ⟨r, report⟩

theorem raised_or_overflowed {f : State → Except Raise State} {s t : State} (keeps : KeepsErrOrOverflows f)
    (run : runCommand f s = .next t) (error : t.err ≠ .ok) :
    (∃ r : Raise, t = s.raise r.code r.info) ∨ (t.err = .framing ∧ SameButFramerAndReport s t) := by
  obtain done | ⟨r, -, report⟩ := runCommand_cases run
  · obtain kept | ⟨u, n, rfl, same⟩ := keeps _ _ done
    · exact absurd kept error
    · exact .inr ⟨rfl, same.raise .framing n⟩
  · exact .inl ⟨r, report⟩

/-! ## The computations that set no code of their own -/

theorem keepsErr_ok {g : State → State} (keeps : ∀ s, (g s).err = s.err) : KeepsErr (fun s => .ok (g s)) := by
  intro s t done
  cases done
  exact keeps s

/-- Every command but the two that take line bytes is the run of a computation that sets no code of its own. -/
theorem exec_eq_run_keepsErr {i : Instr} (noLine : takesLineBytes i = false) :
    ∃ f, (∀ s, exec i s = runCommand f s) ∧ KeepsErr f := by
  cases i with
  | feed b => cases noLine
  | feedm => cases noLine
  | nop => exact ⟨.ok, fun _ => rfl, keepsErr_ok fun _ => rfl⟩
  | frel => exact ⟨fun u => .ok (frel u), fun _ => rfl, keepsErr_ok fun _ => rfl⟩
  | frst => exact ⟨fun u => .ok (frst u), fun _ => rfl, keepsErr_ok fun _ => rfl⟩
  | bset k => exact ⟨fun u => .ok { u with res0 := setBit u.arg0 k }, fun _ => rfl, keepsErr_ok fun _ => rfl⟩
  | bclr k => exact ⟨fun u => .ok { u with res0 := clearBit u.arg0 k }, fun _ => rfl, keepsErr_ok fun _ => rfl⟩
  | btst k => exact ⟨fun u => .ok { u with res0 := testBit u.arg0 k }, fun _ => rfl, keepsErr_ok fun _ => rfl⟩
  | unesc => exact ⟨_, fun _ => rfl, fun _ _ done => by obtain ⟨-, _, -, -, rfl⟩ := unesc_ok_iff.1 done; rfl⟩
  | esc => exact ⟨_, fun _ => rfl, fun _ _ done => by obtain ⟨-, -, rfl⟩ := esc_ok_iff.1 done; rfl⟩
  | fwrap => exact ⟨_, fun _ => rfl, fun _ _ done => by obtain ⟨-, -, rfl⟩ := fwrap_ok_iff.1 done; rfl⟩
  | xsum => exact ⟨_, fun _ => rfl, fun _ _ done => by obtain ⟨-, rfl⟩ := xsum_ok_iff.1 done; rfl⟩
  | xchk => exact ⟨_, fun _ => rfl, fun _ _ done => by obtain ⟨-, -, -, rfl⟩ := xchk_ok_iff.1 done; rfl⟩
  | xapp => exact ⟨_, fun _ => rfl, fun _ _ done => by obtain ⟨-, rfl⟩ := xapp_ok_iff.1 done; rfl⟩
  | agetSize | agetEnc | agetFrag | agetVtag | agetRsvd =>
    exact ⟨_, fun _ => rfl, fun _ _ done => by obtain ⟨-, rfl⟩ := aget_ok_iff.1 done; rfl⟩
  | asetSize | asetEnc | asetFrag | asetVtag | asetRsvd =>
    exact ⟨_, fun _ => rfl, fun _ _ done => by obtain ⟨-, -, rfl⟩ := aset_ok_iff.1 done; rfl⟩
  | hdec => exact ⟨_, fun _ => rfl, fun _ _ done => by obtain ⟨-, _, -, rfl⟩ := hdec_ok_iff.1 done; rfl⟩
  | henc v f => exact ⟨_, fun _ => rfl, fun _ _ done => by obtain ⟨-, -, -, -, rfl⟩ := henc_ok_iff.1 done; rfl⟩
  | fdec =>
    exact ⟨_, fun _ => rfl, fun _ _ done => by obtain ⟨-, _, -, -, -, _, -, -, rfl⟩ := fdec_ok_iff.1 done; rfl⟩
  | penc v => exact ⟨_, fun _ => rfl, fun _ _ done => by obtain ⟨-, -, -, -, rfl⟩ := penc_ok_iff.1 done; rfl⟩
  | bput k => exact ⟨_, fun _ => rfl, fun _ _ done => by obtain ⟨-, rfl⟩ := bput_ok_iff.1 done; rfl⟩
  | fext lsb width => exact ⟨_, fun _ => rfl, fun _ _ done => by obtain ⟨-, rfl⟩ := fext_ok_iff.1 done; rfl⟩
  | fins lsb width => exact ⟨_, fun _ => rfl, fun _ _ done => by obtain ⟨-, -, rfl⟩ := fins_ok_iff.1 done; rfl⟩
  | posdec =>
    exact ⟨_, fun _ => rfl, fun _ _ done => by obtain ⟨-, -, _, -, _, -, -, rfl⟩ := posdec_ok_iff.1 done; rfl⟩
  | bcddec => exact ⟨_, fun _ => rfl, fun _ _ done => by obtain ⟨-, _, -, rfl⟩ := bcddec_ok_iff.1 done; rfl⟩
  | bcdenc => exact ⟨_, fun _ => rfl, fun _ _ done => by obtain ⟨-, -, -, rfl⟩ := bcdenc_ok_iff.1 done; rfl⟩
  | auxdec | pardec =>
    exact ⟨_, fun _ => rfl, fun _ _ done => by obtain ⟨-, _, -, -, rfl⟩ := decodeList_ok_iff.1 done; rfl⟩
  | geodec shape v =>
    refine ⟨_, fun _ => rfl, fun s t done => ?_⟩
    obtain ⟨-, _, -, u, points, rfl⟩ := geodec_ok_iff.1 done
    split at points
    · obtain ⟨-, rfl⟩ := points; rfl
    · subst points; rfl
  | geoenc shape v =>
    exact ⟨_, fun _ => rfl, fun _ _ done => by obtain ⟨-, -, -, -, -, rfl⟩ := geoenc_ok_iff.1 done; rfl⟩

/-! ## The framer's overflow -/

theorem feed_keepsErrOrOverflows (P : Params) (b : Byte) : KeepsErrOrOverflows (feed P b) := by
  intro s t done
  obtain ⟨-, -, answer⟩ := feed_ok_iff.1 done
  cases stepped : frStep P b s with
  | mk u r =>
    have same : SameButFramer s u := frStep_frame stepped
    rw [stepped] at answer
    cases r with
    | overflow => exact .inr ⟨u, _, answer, same⟩
    | closed | consumed => subst answer; exact .inl same.err_eq

theorem feedm_keepsErrOrOverflows (P : Params) : KeepsErrOrOverflows (feedm P) := by
  intro s t done
  obtain ⟨-, -, -, -, answer⟩ := feedm_ok_iff.1 done
  have same : SameButFramer s (feedLoop P s.src s.srcLen 0 s).state := feedLoop_frame P s.src s.srcLen 0 s
  cases ended : feedLoop P s.src s.srcLen 0 s with
  | overflowed u k =>
    rw [ended] at answer same
    exact .inr ⟨u, k, answer, same⟩
  | done u k closed =>
    rw [ended] at answer same
    subst answer
    exact .inl same.err_eq

theorem exec_eq_run_keepsErrOrOverflows {i : Instr} (line : takesLineBytes i = true) :
    ∃ f, (∀ s, exec i s = runCommand f s) ∧ KeepsErrOrOverflows f := by
  cases i with
  | feed b => exact ⟨_, fun _ => rfl, feed_keepsErrOrOverflows _ _⟩
  | feedm => exact ⟨_, fun _ => rfl, feedm_keepsErrOrOverflows _⟩
  | _ => cases line

/-- A report alone is a precise error. -/
theorem raise_precise (s : State) (c : ErrCode) (n : Nat) :
    ({ s.raise c n with err := s.err, errInfo := s.errInfo } = s ∧ SameMemory s (s.raise c n)) ∧
      SameButFramerAndReport s (s.raise c n) :=
  ⟨⟨rfl, sameMemory_of rfl rfl⟩, rfl⟩

/-- Settles O48: an error is raised by the command's computation, whose writes are then dropped, or is the framer's
overflow. -/
theorem errorsArePrecise : Obligations.ErrorsArePrecise := by
  intro i s t run error
  cases line : takesLineBytes i with
  | false =>
    obtain ⟨f, runs, keeps⟩ := exec_eq_run_keepsErr line
    obtain ⟨r, rfl⟩ := raised_of_keepsErr keeps (runs s ▸ run) error
    exact (raise_precise s r.code r.info).imp_left .inr
  | true =>
    obtain ⟨f, runs, keeps⟩ := exec_eq_run_keepsErrOrOverflows line
    obtain ⟨r, rfl⟩ | ⟨framing, same⟩ := raised_or_overflowed keeps (runs s ▸ run) error
    · exact (raise_precise s r.code r.info).imp_left .inr
    · exact ⟨.inl ⟨rfl, framing⟩, same⟩

/-! ## The status word (10_state.md R23, R300, R310) -/

theorem errCode_number_listed (e : ErrCode) :
    (e, e.code.toNat) ∈ [(ErrCode.ok, 0), (.framing, 1), (.checksum, 2), (.hdrLen, 3), (.unreg, 4), (.bodyShort, 5),
      (.typeMismatch, 6), (.text, 7), (.bcd, 8), (.sizeMismatch, 9), (.badOperand, 10), (.busy, 11), (.noSpace, 12),
      (.illegal, 13)] := by
  cases e <;> decide

theorem frState_number_listed (f : FrState) :
    (f, f.code.toNat) ∈ [(FrState.hunt, 0), (.inFrame, 1), (.discard, 2)] := by
  cases f <;> decide

/-- The fields of `STATUS` at their places: `ERR` from bit 0, `FRV` at 8, `FRS` from 9, `IRQ` at 11 (R23). -/
theorem toNat_status (s : State) :
    s.status.toNat = s.err.code.toNat + 256 * s.frv.toNat + 512 * s.frs.code.toNat + 2048 * s.irq.toNat := by
  have frv_bit : s.frv.toNat < 2 ^ 1 := Bool.toNat_lt s.frv
  have irq_bit : s.irq.toNat < 2 ^ 1 := Bool.toNat_lt s.irq
  simp only [State.status, BitVec.toNat_append, BitVec.toNat_ofBool, shiftLeft_or_eq _ _ _ s.err.code.isLt,
    shiftLeft_or_eq _ _ _ frv_bit, shiftLeft_or_eq _ _ _ s.frs.code.isLt, shiftLeft_or_eq _ _ _ irq_bit,
    BitVec.ofNat_eq_ofNat, BitVec.toNat_ofNat]
  omega

/-- Settles O54: the numbers are those of the code and of the framer state, each at its place in the word. -/
theorem statusWord : Obligations.StatusWord := by
  intro s
  exact ⟨rfl, s.err.code.toNat, s.frs.code.toNat, errCode_number_listed s.err, frState_number_listed s.frs,
    toNat_status s⟩

end Sys2Proof
end

section
/-! Reset (70_reset_and_hazards.md R330, R332): what a step does with the host's next action, and what every register
reads once that action was a reset. -/

namespace Sys2Proof

open Sys2Proof.Machine

/-! ## One step performs the host's oldest action (20_memory.md R71) -/

theorem step_of_host {s : State} {a : HostAct} {rest : List HostAct} (next : s.host = a :: rest) :
    step s = perform a (s.takeHost rest) := by
  simp only [step, next]

/-! ## What the host reads after a reset (R330) -/

/-- No register shows the model's own fields: which contents of MEM are in force, the count of commands, the host's
actions still to come (logs 3, 6, 1). -/
theorem readReg_ownFields (s : State) (epoch draws : Nat) (host : List HostAct) (r : Reg) :
    { s with memEpoch := epoch, draws := draws, host := host }.readReg r = s.readReg r := by
  cases r <;> rfl

/-- With both sources masked the interrupt line is low (60_exceptions.md R310). -/
theorem irq_of_masked {s : State} (masked : s.ie = 0) : s.irq = false := by
  simp [State.irq, masked]

/-- `STATUS` is made up of four fields (10_state.md R23); the other registers are each stored as 0. -/
theorem readReg_reset (r : Reg) : State.reset.readReg r = 0 := by
  cases r with
  | status => decide
  | _ => rfl

theorem readReg_afterReset (s : State) (r : Reg) : s.afterReset.readReg r = 0 := by
  rw [State.afterReset, readReg_ownFields, readReg_reset]

/-- Settles O60: a step on a host's reset ends in the reset state but for the model's own fields, which no register
shows. -/
theorem resetClears : Obligations.ResetClears := by
  refine ⟨fun r _ => readReg_reset r, fun s rest next => ⟨(s.takeHost rest).afterReset, ?performed, ?cleared⟩⟩
  case performed => rw [step_of_host next, perform]
  case cleared => exact ⟨fun r _ => readReg_afterReset _ r, rfl, rfl, irq_of_masked rfl, rfl⟩

end Sys2Proof
end

section
/-! The decoder and the encoder are inverse to each other (30_encoding.md R81 to R88): what each form of row makes of the
fields of a word, and the same fields put together again. -/

namespace Sys2Proof

open Sys2Proof.Machine

/-! ## The fields of an encoded word (R81, R88) -/

theorem fields_commandWord {imm sel opc : Nat} (himm : imm < 2 ^ 16) (hsel : sel < 2 ^ 4) (hopc : opc < 2 ^ 8) :
    opcField (commandWord imm sel opc) = BitVec.ofNat 8 opc ∧ selField (commandWord imm sel opc) = BitVec.ofNat 4 sel ∧
      rsvField (commandWord imm sel opc) = 0 ∧ immField (commandWord imm sel opc) = BitVec.ofNat 16 imm := by
  have value : (commandWord imm sel opc).toNat = 65536 * imm + 256 * sel + opc := by
    have low : sel <<< 8 ||| opc = sel * 2 ^ 8 + opc := shiftLeft_or_eq _ _ 8 hopc
    rw [commandWord, ofNat_shiftLeft, ofNat_shiftLeft, ← BitVec.ofNat_or, ← BitVec.ofNat_or, BitVec.toNat_ofNat,
      Nat.or_assoc, low, shiftLeft_or_eq _ _ 16 (by omega)]
    omega
  simp only [opcField, selField, rsvField, immField, ← BitVec.toNat_inj, BitVec.extractLsb'_toNat, value,
    Nat.shiftRight_eq_div_pow, BitVec.toNat_ofNat, BitVec.ofNat_eq_ofNat]
  omega

/-! ## What each form of row makes of an immediate, and back (R83, R84) -/

/-- A checked row accepts a word that passes the check, as what the rest of the row gives. -/
theorem guard_eq_ok_iff {c : Prop} [Decidable c] {k : Except DecodeReject Instr} {e : DecodeReject} {i : Instr} :
    (if c then k else .error e) = .ok i ↔ c ∧ k = .ok i := by
  by_cases h : c <;> simp [h]

theorem needNoImm_eq_ok_iff {imm : Half} {j i : Instr} : needNoImm imm j = .ok i ↔ imm = 0 ∧ i = j := by
  rw [needNoImm, guard_eq_ok_iff, Except.ok.injEq, eq_comm (a := j)]

theorem needNoSel_eq_ok_iff {sel : BitVec 4} {k : Except DecodeReject Instr} {i : Instr} :
    needNoSel sel k = .ok i ↔ sel = 0 ∧ k = .ok i := guard_eq_ok_iff

theorem plainRow_eq_ok_iff {sel : BitVec 4} {imm : Half} {j i : Instr} :
    plainRow sel imm j = .ok i ↔ sel = 0 ∧ imm = 0 ∧ i = j := by
  rw [plainRow, needNoSel_eq_ok_iff, needNoImm_eq_ok_iff]

theorem toNat_extractLsb'_half (imm : Half) (k n : Nat) : (imm.extractLsb' k n).toNat = imm.toNat / 2 ^ k % 2 ^ n := by
  rw [BitVec.extractLsb'_toNat, Nat.shiftRight_eq_div_pow]

theorem extractLsb'_half_eq_zero_iff (imm : Half) (k n : Nat) :
    imm.extractLsb' k n = 0 ↔ imm.toNat / 2 ^ k % 2 ^ n = 0 := by
  rw [← BitVec.toNat_inj, toNat_extractLsb'_half]
  simp

theorem byteRow_eq_ok_iff {imm : Half} {i : Instr} :
    byteRow imm = .ok i ↔ imm.toNat < 256 ∧ i = .feed imm.toNat := by
  have bound := imm.isLt
  have low : imm.toNat < 256 → (imm.extractLsb' 0 8).toNat = imm.toNat := by
    rw [toNat_extractLsb'_half]; omega
  have high : imm.extractLsb' 8 8 = 0 ↔ imm.toNat < 256 := by
    rw [extractLsb'_half_eq_zero_iff]; omega
  rw [byteRow, guard_eq_ok_iff, high, Except.ok.injEq, eq_comm (b := i)]
  exact and_congr_right fun small => by rw [low small]

theorem bitRow_eq_ok_iff {imm : Half} {f : Nat → Instr} {i : Instr} :
    bitRow imm f = .ok i ↔ imm.toNat < 32 ∧ i = f imm.toNat := by
  have bound := imm.isLt
  have low : imm.toNat < 32 → (imm.extractLsb' 0 5).toNat = imm.toNat := by
    rw [toNat_extractLsb'_half]; omega
  have high : imm.extractLsb' 5 11 = 0 ↔ imm.toNat < 32 := by
    rw [extractLsb'_half_eq_zero_iff]; omega
  rw [bitRow, guard_eq_ok_iff, high, Except.ok.injEq, eq_comm (b := i)]
  exact and_congr_right fun small => by rw [low small]

theorem fieldRow_eq_ok_iff {imm : Half} {f : Nat → Nat → Instr} {i : Instr} :
    fieldRow imm f = .ok i ↔ imm.toNat < 1024 ∧ i = f (imm.toNat % 32) (imm.toNat / 32 + 1) := by
  have bound := imm.isLt
  have lsb : (imm.extractLsb' 0 5).toNat = imm.toNat % 32 := by
    rw [toNat_extractLsb'_half]; omega
  have width : imm.toNat < 1024 → (imm.extractLsb' 5 5).toNat = imm.toNat / 32 := by
    rw [toNat_extractLsb'_half]; omega
  have high : imm.extractLsb' 10 6 = 0 ↔ imm.toNat < 1024 := by
    rw [extractLsb'_half_eq_zero_iff]; omega
  rw [fieldRow, guard_eq_ok_iff, high, Except.ok.injEq, eq_comm (b := i)]
  exact and_congr_right fun small => by rw [lsb, width small]

/-! ## Decoding an encoded command -/

theorem decode_bit {i opc : Nat} {f : Nat → Instr} (bit : i < 32)
    (arm : ∀ w, rsvField w = 0 → (opcField w).toNat = opc →
      decode w = needNoSel (selField w) (bitRow (immField w) f)) (hopc : opc < 2 ^ 8) :
    decode (commandWord i 0 opc) = .ok (f i) := by
  obtain ⟨o, s, r, m⟩ := fields_commandWord (imm := i) (sel := 0) (opc := opc) (by omega) (by omega) hopc
  have value : (BitVec.ofNat 16 i).toNat = i := by rw [BitVec.toNat_ofNat]; omega
  rw [arm _ r (by rw [o, BitVec.toNat_ofNat]; omega), s, m, needNoSel_eq_ok_iff, bitRow_eq_ok_iff, value]
  exact ⟨rfl, bit, rfl⟩

theorem decode_field {lsb width opc : Nat} {f : Nat → Nat → Instr} (ok : fieldOperandOk lsb width = true)
    (arm : ∀ w, rsvField w = 0 → (opcField w).toNat = opc →
      decode w = needNoSel (selField w) (fieldRow (immField w) f)) (hopc : opc < 2 ^ 8) :
    decode (commandWord (fieldImm lsb width) 0 opc) = .ok (f lsb width) := by
  obtain ⟨⟨low, pos⟩, top⟩ : (lsb < 32 ∧ 1 ≤ width) ∧ width ≤ 32 := by simpa [fieldOperandOk] using ok
  have imm := fieldImm_eq width low
  obtain ⟨o, s, r, m⟩ := fields_commandWord (imm := fieldImm lsb width) (sel := 0) (opc := opc) (by omega) (by omega) hopc
  have value : (BitVec.ofNat 16 (fieldImm lsb width)).toNat = 32 * (width - 1) + lsb := by
    rw [BitVec.toNat_ofNat, imm]; omega
  rw [arm _ r (by rw [o, BitVec.toNat_ofNat]; omega), s, m, needNoSel_eq_ok_iff, fieldRow_eq_ok_iff, value]
  refine ⟨rfl, by omega, ?_⟩
  rw [show (32 * (width - 1) + lsb) % 32 = lsb by omega, show (32 * (width - 1) + lsb) / 32 + 1 = width by omega]

theorem decode_feed {b : Nat} (byte : b < 256) : decode (commandWord b 0 0x01) = .ok (.feed b) := by
  obtain ⟨o, s, r, m⟩ := fields_commandWord (imm := b) (sel := 0) (opc := 0x01) (by omega) (by omega) (by omega)
  have arm : decode (commandWord b 0 0x01) = needNoSel 0 (byteRow (BitVec.ofNat 16 b)) := by
    simp only [decode, o, s, r, m]; rfl
  have value : (BitVec.ofNat 16 b).toNat = b := by rw [BitVec.toNat_ofNat]; omega
  rw [arm, needNoSel_eq_ok_iff, byteRow_eq_ok_iff, value]
  exact ⟨rfl, byte, rfl⟩

/-- Settles O1: a row without a numeric operand is one word or a few; the others read back the number that was put in
`IMM`. -/
theorem decodeOfEncode : Obligations.DecodeOfEncode := by
  intro i wf
  cases i with
  | feed b => exact decode_feed (of_decide_eq_true wf)
  | bset k | bclr k | btst k | bput k =>
    exact decode_bit (of_decide_eq_true wf) (fun w r o => by simp [decode, r, o]) (by decide)
  | fext lsb width | fins lsb width =>
    exact decode_field wf (fun w r o => by simp [decode, r, o]) (by decide)
  | henc v f => cases v <;> cases f <;> rfl
  | penc v => cases v <;> rfl
  | geodec shape v | geoenc shape v => cases shape <;> cases v <;> rfl
  | _ => rfl

/-! ## Encoding a decoded word: one lemma per form of row -/

/-- `i` is a well-formed command whose encoding is `w`. -/
def EncodesTo (i : Instr) (w : Word) : Prop := i.wellFormed = true ∧ encode i = w

section
variable {w : Word} {opc : Nat} {i : Instr} (hr : rsvField w = 0) (ho : (opcField w).toNat = opc)
include hr ho

theorem encodesTo_of_plainRow {j : Instr} (wf : j.wellFormed = true) (word : encode j = commandWord 0 0 opc)
    (h : plainRow (selField w) (immField w) j = .ok i) : EncodesTo i w := by
  obtain ⟨sel, imm, rfl⟩ := plainRow_eq_ok_iff.1 h
  exact ⟨wf, word.trans (commandWord_of_fields w hr opc 0 0 ho (by rw [sel]; rfl) (by rw [imm]; rfl))⟩

theorem encodesTo_of_byteRow (word : ∀ b, encode (.feed b) = commandWord b 0 opc)
    (h : needNoSel (selField w) (byteRow (immField w)) = .ok i) : EncodesTo i w := by
  obtain ⟨sel, h⟩ := needNoSel_eq_ok_iff.1 h
  obtain ⟨byte, rfl⟩ := byteRow_eq_ok_iff.1 h
  exact ⟨decide_eq_true byte, (word _).trans (commandWord_of_fields w hr opc 0 _ ho (by rw [sel]; rfl) rfl)⟩

theorem encodesTo_of_bitRow {f : Nat → Instr} (wf : ∀ k < 32, (f k).wellFormed = true)
    (word : ∀ k, encode (f k) = commandWord k 0 opc)
    (h : needNoSel (selField w) (bitRow (immField w) f) = .ok i) : EncodesTo i w := by
  obtain ⟨sel, h⟩ := needNoSel_eq_ok_iff.1 h
  obtain ⟨bit, rfl⟩ := bitRow_eq_ok_iff.1 h
  exact ⟨wf _ bit, (word _).trans (commandWord_of_fields w hr opc 0 _ ho (by rw [sel]; rfl) rfl)⟩

theorem encodesTo_of_fieldRow {f : Nat → Nat → Instr}
    (wf : ∀ lsb width, (f lsb width).wellFormed = fieldOperandOk lsb width)
    (word : ∀ lsb width, encode (f lsb width) = commandWord (fieldImm lsb width) 0 opc)
    (h : needNoSel (selField w) (fieldRow (immField w) f) = .ok i) : EncodesTo i w := by
  obtain ⟨sel, h⟩ := needNoSel_eq_ok_iff.1 h
  obtain ⟨small, rfl⟩ := fieldRow_eq_ok_iff.1 h
  have imm : fieldImm ((immField w).toNat % 32) ((immField w).toNat / 32 + 1) = (immField w).toNat := by
    rw [fieldImm_eq _ (by omega)]; omega
  refine ⟨?_, (word _ _).trans ?_⟩
  · rw [wf]
    simp only [fieldOperandOk, Bool.and_eq_true, decide_eq_true_eq]
    omega
  · rw [imm]
    exact commandWord_of_fields w hr opc 0 _ ho (by rw [sel]; rfl) rfl

/-- A row whose command is fixed by `SEL`. -/
theorem encodesTo_of_selector {j : Instr} {n : Nat} (wf : j.wellFormed = true) (word : encode j = commandWord 0 n opc)
    (sel : (selField w).toNat = n) (h : needNoImm (immField w) j = .ok i) : EncodesTo i w := by
  obtain ⟨imm, rfl⟩ := needNoImm_eq_ok_iff.1 h
  exact ⟨wf, word.trans (commandWord_of_fields w hr opc n 0 ho sel (by rw [imm]; rfl))⟩

theorem encodesTo_of_attrRow {size enc frag vtag rsvd : Instr}
    (wf : ∀ j ∈ [size, enc, frag, vtag, rsvd], j.wellFormed = true)
    (words : [size, enc, frag, vtag, rsvd].map encode = [0, 1, 2, 3, 4].map (commandWord 0 · opc))
    (h : attrRow (selField w) (immField w) size enc frag vtag rsvd = .ok i) : EncodesTo i w := by
  obtain ⟨w0, w1, w2, w3, w4⟩ : encode size = commandWord 0 0 opc ∧ encode enc = commandWord 0 1 opc ∧
      encode frag = commandWord 0 2 opc ∧ encode vtag = commandWord 0 3 opc ∧ encode rsvd = commandWord 0 4 opc := by
    simpa using words
  unfold attrRow at h
  split at h
  case h_1 sel => exact encodesTo_of_selector hr ho (wf _ (by simp)) w0 sel h
  case h_2 sel => exact encodesTo_of_selector hr ho (wf _ (by simp)) w1 sel h
  case h_3 sel => exact encodesTo_of_selector hr ho (wf _ (by simp)) w2 sel h
  case h_4 sel => exact encodesTo_of_selector hr ho (wf _ (by simp)) w3 sel h
  case h_5 sel => exact encodesTo_of_selector hr ho (wf _ (by simp)) w4 sel h
  case h_6 => cases h

theorem encodesTo_of_hencRow (opc_eq : opc = 0x23) (h : hencRow (selField w) (immField w) = .ok i) :
    EncodesTo i w := by
  have word : ∀ sel : BitVec 4, sel.extractLsb' 2 2 = 0 →
      encode (.henc (versionBit sel 0) (sel.getLsbD 1)) = commandWord 0 sel.toNat 0x23 := by decide
  unfold hencRow at h
  split at h
  case isTrue sel => exact encodesTo_of_selector hr ho rfl (opc_eq ▸ word _ sel) rfl h
  case isFalse => cases h

theorem encodesTo_of_pencRow (opc_eq : opc = 0x25) (h : pencRow (selField w) (immField w) = .ok i) :
    EncodesTo i w := by
  have word : ∀ sel : BitVec 4, sel.extractLsb' 1 3 = 0 →
      encode (.penc (versionBit sel 0)) = commandWord 0 sel.toNat 0x25 := by decide
  unfold pencRow at h
  split at h
  case isTrue sel => exact encodesTo_of_selector hr ho rfl (opc_eq ▸ word _ sel) rfl h
  case isFalse => cases h

theorem encodesTo_of_geoRow {f : Shape → Version → Instr} (wf : ∀ shape v, (f shape v).wellFormed = true)
    (word : ∀ shape v, encode (f shape v) = commandWord 0 (geoSel shape v) opc)
    (h : geoRow (selField w) (immField w) f = .ok i) : EncodesTo i w := by
  have number : ∀ sel : BitVec 4, sel.getLsbD 3 = false →
      geoSel (shapeBits sel) (versionBit sel 2) = sel.toNat := by decide
  unfold geoRow at h
  split at h
  case isTrue => cases h
  case isFalse sel =>
    exact encodesTo_of_selector hr ho (wf _ _) (word _ _) (number _ (Bool.eq_false_of_not_eq_true sel)).symm h

end

/-- Settles O2: each arm of the decoder accepts a word whose fields are those its row's encoding puts together. -/
theorem encodeOfDecode : Obligations.EncodeOfDecode := by
  intro w i h
  have hr : rsvField w = 0 := by
    by_contra reserved
    have rejected : decode w = .error .reserved := if_pos reserved
    cases rejected.symm.trans h
  simp only [decode, hr, ne_eq, not_true_eq_false, if_false] at h
  split at h
  case h_2 ho => exact encodesTo_of_byteRow hr ho (fun _ => rfl) h
  case h_12 ho | h_13 ho => exact encodesTo_of_attrRow hr ho (by decide) rfl h
  case h_15 ho => exact encodesTo_of_hencRow hr ho rfl h
  case h_17 ho => exact encodesTo_of_pencRow hr ho rfl h
  case h_18 ho | h_19 ho | h_20 ho | h_21 ho =>
    exact encodesTo_of_bitRow hr ho (fun _ => decide_eq_true) (fun _ => rfl) h
  case h_22 ho | h_23 ho => exact encodesTo_of_fieldRow hr ho (fun _ _ => rfl) (fun _ _ => rfl) h
  case h_29 ho | h_30 ho => exact encodesTo_of_geoRow hr ho (fun _ _ => rfl) (fun _ _ => rfl) h
  case h_31 => cases h
  all_goals exact encodesTo_of_plainRow hr ‹_› rfl rfl h

/-- Settles O4, word by word. -/
theorem specWordsDecode : Obligations.SpecWordsDecode := by
  refine ⟨?_, ?_, ?_, ?_, ?_, ?_, ?_, ?_, ?_, ?_⟩ <;> rfl

end Sys2Proof
end

section
/-! Headers (30_encoding.md R92, R93, 43_header.md R173, R175): `ParseHeader` as one chain of checks, what it reads in a
header written out field by field, and what `BuildHeader` builds, as such a header. -/

namespace Sys2Proof

open Sys2Proof.Machine

/-! ## `ParseHeader` as a chain of checks (R173) -/

theorem hLen_eq (attr : Half) :
    hLen attr = (if attr.getLsbD 14 then 17 else 12) + (if attr.getLsbD 13 then 4 else 0) := by
  unfold hLen
  cases attr.getLsbD 14 <;> simp

/-- The four header lengths (R93). -/
def HeaderLength (n : Nat) : Prop := n = 12 ∨ n = 16 ∨ n = 17 ∨ n = 21

theorem headerLength_of_shape (tagged frag : Bool) :
    HeaderLength ((if tagged then 17 else 12) + (if frag then 4 else 0)) := by
  cases tagged <;> cases frag <;> simp [HeaderLength]

theorem headerLength_hLen (attr : Half) : HeaderLength (hLen attr) := by
  rw [hLen_eq]; exact headerLength_of_shape _ _

/-- Where the identity starts in a packet with `H_ATTR` word `attr`. -/
def identAt (attr : Half) : Nat := if attr.getLsbD 14 then 5 else 4

/-- How many bytes the identity has. -/
def identWidth (attr : Half) : Nat := if attr.getLsbD 14 then 10 else 6

/-- The identity bytes of a packet. -/
def headerIdent (p : List Byte) : List Byte := (p.drop (identAt (be16At p 2))).take (identWidth (be16At p 2))

/-- The header registers a packet gives (R173, 10_state.md R34). -/
def parsedRegs (p : List Byte) : HeaderRegs :=
  let attr := be16At p 2
  let o := identAt attr + identWidth attr
  let regs : HeaderRegs :=
    { msgId := be16At p 0, attr := attr, ver := if attr.getLsbD 14 then byteOf p 4 else 0, idh := 0, idm := 0, idl := 0,
      seq := be16At p o,
      ftot := if attr.getLsbD 13 then be16At p (o + 2) else 0,
      fidx := if attr.getLsbD 13 then be16At p (o + 4) else 0,
      hlen := BitVec.ofNat 5 (hLen attr) }
  regs.withIdentity (List.replicate (10 - identWidth attr) 0 ++ headerIdent p)

/-- A header parsed with `ParseHeader`'s answer. -/
def parsedHeader (p : List Byte) : ParsedHeader :=
  { regs := parsedRegs p, hl := hLen (be16At p 2), blen := p.length - hLen (be16At p 2) }

theorem parseHeader_eq (P : Params) (p : List Byte) :
    parseHeader P p = (do
      require (decide (4 ≤ p.length)) .hdrLen p.length
      require (decide (hLen (be16At p 2) ≤ p.length)) .hdrLen p.length
      needIdentity P (identAt (be16At p 2)) (headerIdent p)
      require (decide (p.length - hLen (be16At p 2) = ((be16At p 2).extractLsb' 0 10).toNat)) .sizeMismatch
        (p.length - hLen (be16At p 2))
      .ok (parsedHeader p)) := by
  simp only [parseHeader, parsedHeader, parsedRegs, headerIdent, identAt, identWidth, sliceOf, Nat.add_sub_cancel_left]
  cases (be16At p 2).getLsbD 14 <;> rfl

theorem needIdentity_eq_ok_iff {P : Params} {ib : Nat} {ident : List Byte} {u : Unit} :
    needIdentity P ib ident = .ok u ↔ (P.checkIdentBcd = true → ∀ b ∈ ident, badBcdByte b = false) := by
  rw [needIdentity, firstBadBcd_eq_findIdx?]
  cases found : ident.findIdx? badBcdByte with
  | none => simpa using fun _ => List.findIdx?_eq_none_iff.1 found
  | some j =>
    obtain ⟨inside, bad, -⟩ := List.findIdx?_eq_some_iff_getElem.1 found
    have not_all : ¬∀ b ∈ ident, badBcdByte b = false := fun all => by simp [all _ (List.getElem_mem inside)] at bad
    cases P.checkIdentBcd <;> simp [not_all]

/-- The first byte that is not BCD, given as a byte at an index with none before it. -/
theorem findIdx?_of_first {t : List Byte} {j : Nat} (bad : ∃ b, t[j]? = some b ∧ badBcdByte b = true)
    (good : ∀ k < j, ∀ b, t[k]? = some b → badBcdByte b = false) : t.findIdx? badBcdByte = some j := by
  obtain ⟨b, at_j, bad⟩ := bad
  obtain ⟨inside, rfl⟩ := List.getElem?_eq_some_iff.1 at_j
  refine List.findIdx?_eq_some_iff_getElem.2 ⟨inside, bad, fun k before => ?_⟩
  simp [good k before _ (List.getElem?_eq_getElem (Nat.lt_trans before inside))]

theorem needIdentity_bad {P : Params} {ib j : Nat} {ident : List Byte} (check : P.checkIdentBcd = true)
    (bad : ∃ b, ident[j]? = some b ∧ badBcdByte b = true)
    (good : ∀ k < j, ∀ b, ident[k]? = some b → badBcdByte b = false) :
    needIdentity P ib ident = .error ⟨.bcd, ib + j⟩ := by
  rw [needIdentity, firstBadBcd_eq_findIdx?, findIdx?_of_first bad good]
  simp only [check, if_true]

/-! The outcomes of `ParseHeader`, in the order of its checks. -/

theorem parseHeader_short {P : Params} {p : List Byte} (short : p.length < 4) :
    parseHeader P p = .error ⟨.hdrLen, p.length⟩ := by
  rw [parseHeader_eq, decide_eq_false (Nat.not_le.2 short)]; rfl

theorem parseHeader_cut {P : Params} {p : List Byte} (long : 4 ≤ p.length) (cut : p.length < hLen (be16At p 2)) :
    parseHeader P p = .error ⟨.hdrLen, p.length⟩ := by
  rw [parseHeader_eq, decide_eq_true long, decide_eq_false (Nat.not_le.2 cut)]; rfl

theorem parseHeader_bad_ident {P : Params} {p : List Byte} {j : Nat} (whole : hLen (be16At p 2) ≤ p.length)
    (long : 4 ≤ p.length) (check : P.checkIdentBcd = true)
    (bad : ∃ b, (headerIdent p)[j]? = some b ∧ badBcdByte b = true)
    (good : ∀ k < j, ∀ b, (headerIdent p)[k]? = some b → badBcdByte b = false) :
    parseHeader P p = .error ⟨.bcd, identAt (be16At p 2) + j⟩ := by
  rw [parseHeader_eq, decide_eq_true long, decide_eq_true whole, needIdentity_bad check bad good]; rfl

theorem parseHeader_wrong_size {P : Params} {p : List Byte} (whole : hLen (be16At p 2) ≤ p.length)
    (long : 4 ≤ p.length) (ident : P.checkIdentBcd = true → ∀ b ∈ headerIdent p, badBcdByte b = false)
    (wrong : p.length - hLen (be16At p 2) ≠ ((be16At p 2).extractLsb' 0 10).toNat) :
    parseHeader P p = .error ⟨.sizeMismatch, p.length - hLen (be16At p 2)⟩ := by
  rw [parseHeader_eq, decide_eq_true long, decide_eq_true whole, (needIdentity_eq_ok_iff (u := ())).2 ident,
    decide_eq_false wrong]
  rfl

theorem parseHeader_ok_iff {P : Params} {p : List Byte} {h : ParsedHeader} :
    parseHeader P p = .ok h ↔
      4 ≤ p.length ∧ hLen (be16At p 2) ≤ p.length ∧
        (P.checkIdentBcd = true → ∀ b ∈ headerIdent p, badBcdByte b = false) ∧
        p.length - hLen (be16At p 2) = ((be16At p 2).extractLsb' 0 10).toNat ∧ h = parsedHeader p := by
  simp [parseHeader_eq, bind_ok_iff, require_ok_iff, needIdentity_eq_ok_iff, eq_comm (a := parsedHeader p)]

theorem toNat_hlen {n : Nat} (h : HeaderLength n) : (BitVec.ofNat 5 n).toNat = n := by
  obtain rfl | rfl | rfl | rfl := h <;> rfl

theorem headerLength_parsed {P : Params} {p : List Byte} {h : ParsedHeader} (parsed : parseHeader P p = .ok h) :
    HeaderLength h.regs.hlen.toNat := by
  obtain ⟨-, -, -, -, rfl⟩ := parseHeader_ok_iff.1 parsed
  show HeaderLength (BitVec.ofNat 5 (hLen (be16At p 2))).toNat
  rw [toNat_hlen (headerLength_hLen _)]
  exact headerLength_hLen _

/-! ## A header written out field by field (R92) -/

theorem length_headerBytes {tagged frag : Bool} {msgId attr : Half} {ver : Byte} {ident : List Byte}
    {seq ftot fidx : Half} (width : ident.length = if tagged then 10 else 6) :
    (headerBytes tagged frag msgId attr ver ident seq ftot fidx).length =
      (if tagged then 17 else 12) + (if frag then 4 else 0) := by
  simp only [headerBytes, List.length_append, length_be16, width]
  cases tagged <;> cases frag <;> rfl

section
variable {tagged frag : Bool} {msgId attr : Half} {ver : Byte} {ident : List Byte} {seq ftot fidx : Half}
  (body : List Byte)

theorem be16At_headerBytes_attr :
    be16At (headerBytes tagged frag msgId attr ver ident seq ftot fidx ++ body) 2 = attr := by
  simp only [headerBytes, List.append_assoc]
  exact (be16At_append_right (be16 msgId) _ 0).trans (be16At_be16 attr _)

variable (is_tagged : attr.getLsbD 14 = tagged) (is_frag : attr.getLsbD 13 = frag)
  (width : ident.length = if tagged then 10 else 6)
include is_tagged width

theorem headerIdent_headerBytes :
    headerIdent (headerBytes tagged frag msgId attr ver ident seq ftot fidx ++ body) = ident := by
  have start : identAt attr = (be16 msgId ++ be16 attr ++ if tagged then [ver] else []).length := by
    rw [identAt, is_tagged]; cases tagged <;> rfl
  have stop : identWidth attr = ident.length := by rw [identWidth, is_tagged, width]
  have parts : headerBytes tagged frag msgId attr ver ident seq ftot fidx ++ body =
      (be16 msgId ++ be16 attr ++ if tagged then [ver] else []) ++
        (ident ++ (be16 seq ++ ((if frag then be16 ftot ++ be16 fidx else []) ++ body))) := by
    simp only [headerBytes, List.append_assoc]
  rw [headerIdent, be16At_headerBytes_attr, start, stop, parts, List.drop_left, List.take_left]

include is_frag

theorem parsedRegs_headerBytes :
    parsedRegs (headerBytes tagged frag msgId attr ver ident seq ftot fidx ++ body) =
      headerRegs tagged frag msgId attr ver ident seq ftot fidx := by
  have ident_read := headerIdent_headerBytes (frag := frag) (seq := seq) (ftot := ftot) (fidx := fidx) body
    (msgId := msgId) (ver := ver) is_tagged width
  have stop : identWidth attr = ident.length := by rw [identWidth, is_tagged, width]
  have after : identAt attr + identWidth attr =
      (be16 msgId ++ be16 attr ++ (if tagged then [ver] else []) ++ ident).length := by
    rw [stop, identAt, is_tagged]; cases tagged <;> simp <;> omega
  have first : be16At (headerBytes tagged frag msgId attr ver ident seq ftot fidx ++ body) 0 = msgId := by
    simp only [headerBytes, List.append_assoc]
    exact be16At_be16 msgId _
  have version : (if attr.getLsbD 14 then
      byteOf (headerBytes tagged frag msgId attr ver ident seq ftot fidx ++ body) 4 else 0) =
      if tagged then ver else 0 := by
    rw [is_tagged]
    exact ite_congr rfl (by rintro rfl; rfl) fun _ => rfl
  have tail : ∀ k, be16At (headerBytes tagged frag msgId attr ver ident seq ftot fidx ++ body)
      (identAt attr + identWidth attr + k) =
      be16At (be16 seq ++ ((if frag then be16 ftot ++ be16 fidx else []) ++ body)) k := by
    have parts : headerBytes tagged frag msgId attr ver ident seq ftot fidx ++ body =
        (be16 msgId ++ be16 attr ++ (if tagged then [ver] else []) ++ ident) ++
          (be16 seq ++ ((if frag then be16 ftot ++ be16 fidx else []) ++ body)) := by
      simp only [headerBytes, List.append_assoc]
    intro k
    rw [after, parts, be16At_append_right]
  have number : be16At (headerBytes tagged frag msgId attr ver ident seq ftot fidx ++ body)
      (identAt attr + identWidth attr) = seq := (tail 0).trans (be16At_be16 seq _)
  have total : (if attr.getLsbD 13 then
      be16At (headerBytes tagged frag msgId attr ver ident seq ftot fidx ++ body)
        (identAt attr + identWidth attr + 2) else 0) = if frag then ftot else 0 := by
    rw [is_frag, tail]
    refine ite_congr rfl (fun f => ?_) fun _ => rfl
    rw [f, if_pos rfl, List.append_assoc]
    exact (be16At_append_right (be16 seq) _ 0).trans (be16At_be16 ftot _)
  have index : (if attr.getLsbD 13 then
      be16At (headerBytes tagged frag msgId attr ver ident seq ftot fidx ++ body)
        (identAt attr + identWidth attr + 4) else 0) = if frag then fidx else 0 := by
    rw [is_frag, tail]
    refine ite_congr rfl (fun f => ?_) fun _ => rfl
    rw [f, if_pos rfl, List.append_assoc]
    exact (be16At_append_right (be16 seq ++ be16 ftot) _ 0).trans (be16At_be16 fidx _)
  simp only [parsedRegs, be16At_headerBytes_attr, ident_read, first, number, version, total, index]
  rw [headerRegs, stop, hLen_eq, is_tagged, is_frag]
  rfl

/-- `ParseHeader` on a header and a body as long as its size field says. -/
theorem parseHeader_headerBytes {P : Params} (size : body.length = (attr.extractLsb' 0 10).toNat)
    (bcd : P.checkIdentBcd = true → ∀ b ∈ ident, badBcdByte b = false) :
    parseHeader P (headerBytes tagged frag msgId attr ver ident seq ftot fidx ++ body) =
      .ok { regs := headerRegs tagged frag msgId attr ver ident seq ftot fidx, hl := hLen attr, blen := body.length } := by
  have hl : (headerBytes tagged frag msgId attr ver ident seq ftot fidx).length = hLen attr := by
    rw [length_headerBytes width, hLen_eq, is_tagged, is_frag]
  have at_least := headerLength_hLen attr
  unfold HeaderLength at at_least
  rw [parseHeader_ok_iff, be16At_headerBytes_attr, headerIdent_headerBytes body is_tagged width, List.length_append, hl,
    parsedHeader, parsedRegs_headerBytes body is_tagged is_frag width, be16At_headerBytes_attr, List.length_append, hl,
    Nat.add_sub_cancel_left]
  exact ⟨by omega, by omega, bcd, size, rfl⟩

end

/-! ## What `BuildHeader` builds (R175) -/

/-- The `H_ATTR` word of a header to build, as a number. -/
def attrNumber (h : HeaderRegs) (v : Version) (f : Bool) (len : Nat) : Nat :=
  len + 1024 * (h.attr.toNat / 1024 % 8) + (if f then 8192 else 0) + (if v = .v2019 then 16384 else 0)

theorem toNat_buildAttr {h : HeaderRegs} {v : Version} {f : Bool} {len : Nat} (short : len ≤ 1023) :
    (buildAttr h v f len).toNat = attrNumber h v f len := by
  have enc : (h.attr.extractLsb' 10 3).toNat = h.attr.toNat / 1024 % 8 := toNat_extractLsb'_half h.attr 10 3
  have enc_small := (h.attr.extractLsb' 10 3).isLt
  have enc_part : ((h.attr.extractLsb' 10 3).setWidth 16 <<< 10).toNat = (h.attr.toNat / 1024 % 8) <<< 10 := by
    rw [BitVec.toNat_shiftLeft, BitVec.toNat_setWidth, enc, Nat.shiftLeft_eq]; omega
  have frag_part : (BitVec.ofNat 16 f.toNat <<< 13).toNat = f.toNat <<< 13 := by cases f <;> rfl
  have ver_part : (BitVec.ofNat 16 v.bit <<< 14).toNat = v.bit <<< 14 := by cases v <;> rfl
  have len_part : (BitVec.ofNat 16 len).toNat = len := by rw [BitVec.toNat_ofNat]; omega
  have frag_small := Bool.toNat_lt f
  rw [buildAttr, BitVec.toNat_or, BitVec.toNat_or, BitVec.toNat_or, enc_part, frag_part, ver_part, len_part,
    Nat.or_comm len, shiftLeft_or_eq _ _ 10 (by omega), Nat.or_comm _ (f.toNat <<< 13),
    shiftLeft_or_eq _ _ 13 (by omega), Nat.or_comm _ (v.bit <<< 14), shiftLeft_or_eq _ _ 14 (by omega), attrNumber]
  cases f <;> cases v <;> simp [Version.bit] <;> omega

theorem attrNumber_lt {h : HeaderRegs} {v : Version} {f : Bool} {len : Nat} (short : len ≤ 1023) :
    attrNumber h v f len < 65536 := by
  unfold attrNumber
  split <;> split <;> omega

theorem buildAttr_eq_ofNat {h : HeaderRegs} {v : Version} {f : Bool} {len : Nat} (short : len ≤ 1023) :
    buildAttr h v f len = BitVec.ofNat 16 (attrNumber h v f len) := by
  apply BitVec.eq_of_toNat_eq
  rw [toNat_buildAttr short, BitVec.toNat_ofNat, Nat.mod_eq_of_lt (attrNumber_lt short)]

theorem buildAttr_tagged {h : HeaderRegs} {v : Version} {f : Bool} {len : Nat} (short : len ≤ 1023) :
    (buildAttr h v f len).getLsbD 14 = decide (v = .v2019) := by
  rw [BitVec.getLsbD, toNat_buildAttr short, Nat.testBit_eq_decide_div_mod_eq, attrNumber]
  cases f <;> cases v <;> simp <;> omega

theorem buildAttr_frag {h : HeaderRegs} {v : Version} {f : Bool} {len : Nat} (short : len ≤ 1023) :
    (buildAttr h v f len).getLsbD 13 = f := by
  rw [BitVec.getLsbD, toNat_buildAttr short, Nat.testBit_eq_decide_div_mod_eq, attrNumber]
  cases f <;> cases v <;> simp <;> omega

theorem buildAttr_size {h : HeaderRegs} {v : Version} {f : Bool} {len : Nat} (short : len ≤ 1023) :
    ((buildAttr h v f len).extractLsb' 0 10).toNat = len := by
  rw [toNat_extractLsb'_half, toNat_buildAttr short, attrNumber]
  split <;> split <;> omega

theorem buildAttr_enc {h : HeaderRegs} {v : Version} {f : Bool} {len : Nat} (short : len ≤ 1023) :
    (buildAttr h v f len).extractLsb' 10 3 = h.attr.extractLsb' 10 3 := by
  apply BitVec.eq_of_toNat_eq
  rw [toNat_extractLsb'_half, toNat_extractLsb'_half, toNat_buildAttr short, attrNumber]
  split <;> split <;> omega

/-- The identity bytes of a header to build (R175). -/
def builtIdent (h : HeaderRegs) (v : Version) : List Byte :=
  if v = .v2019 then be16 h.idh ++ be32 h.idm ++ be32 h.idl else be16 (h.idm.setWidth 16) ++ be32 h.idl

theorem length_builtIdent (h : HeaderRegs) (v : Version) :
    (builtIdent h v).length = if decide (v = .v2019) then 10 else 6 := by
  cases v <;> rfl

theorem buildHeader_eq_headerBytes (h : HeaderRegs) (v : Version) (f : Bool) (len : Nat) (ftot fidx : Half) :
    buildHeader h v f len ftot fidx =
      headerBytes (decide (v = .v2019)) f h.msgId (buildAttr h v f len) h.ver (builtIdent h v) h.seq ftot fidx := by
  have low : h.idm.extractLsb' 0 16 = h.idm.setWidth 16 := by
    apply BitVec.eq_of_toNat_eq
    rw [BitVec.extractLsb'_toNat, BitVec.toNat_setWidth]; rfl
  cases v with
  | v2011 => simp [buildHeader, headerBytes, builtIdent, buildIdentity, low]
  | v2019 => simp [buildHeader, headerBytes, builtIdent, buildIdentity]

theorem length_buildHeader (h : HeaderRegs) (v : Version) (f : Bool) (len : Nat) (ftot fidx : Half) :
    (buildHeader h v f len ftot fidx).length = (if v = .v2019 then 17 else 12) + (if f then 4 else 0) := by
  rw [buildHeader_eq_headerBytes, length_headerBytes (length_builtIdent h v)]
  simp only [decide_eq_true_eq]

theorem headerLength_buildHeader (h : HeaderRegs) (v : Version) (f : Bool) (len : Nat) (ftot fidx : Half) :
    HeaderLength (buildHeader h v f len ftot fidx).length := by
  rw [length_buildHeader]
  have shape := headerLength_of_shape (decide (v = .v2019)) f
  simpa only [decide_eq_true_eq] using shape

/-- A V2011 header carries the identity when its top four bytes are 0 (R175). -/
theorem identFits_iff {h : HeaderRegs} {v : Version} :
    identFits h v = true ↔ (v = .v2011 → h.idh = 0 ∧ h.idm.toNat < 65536) := by
  rw [← highHalf_eq_zero_iff]
  cases v <;> simp [identFits]

end Sys2Proof
end

section
/-! BCD timestamps (30_encoding.md R96, 45_position.md R220, R221): a byte of two digits and its value are each other's
image, and with them the six bytes of a timestamp and its two packed fields. -/

namespace Sys2Proof

open Sys2Proof.Machine

/-! ## One byte -/

theorem badBcdByte_iff {b : Byte} : badBcdByte b = true ↔ 10 ≤ b.toNat / 16 ∨ 10 ≤ b.toNat % 16 := by
  rw [badBcdByte, toNat_highNibble, toNat_lowNibble, Bool.or_eq_true, decide_eq_true_eq, decide_eq_true_eq]
  rfl

theorem badBcdByte_eq_false_iff {b : Byte} : badBcdByte b = false ↔ b.toNat / 16 ≤ 9 ∧ b.toNat % 16 ≤ 9 := by
  rw [← Bool.not_eq_true, badBcdByte_iff]; omega

theorem toNat_bcdValue {b : Byte} (good : badBcdByte b = false) :
    (bcdValue b).toNat = 10 * (b.toNat / 16) + b.toNat % 16 :=
  toNat_bcdValue_of_digits (badBcdByte_eq_false_iff.1 good).2 (Nat.div_add_mod _ _).symm

theorem bcdValue_le {b : Byte} (good : badBcdByte b = false) : (bcdValue b).toNat ≤ 99 := by
  have digits := badBcdByte_eq_false_iff.1 good
  rw [toNat_bcdValue good]; omega

theorem toNat_bcdByte {v : Byte} (small : v.toNat ≤ 99) :
    (bcdByte v).toNat = 16 * (v.toNat / 10) + v.toNat % 10 := by
  rw [bcdByte_eq_ofNat, BitVec.toNat_ofNat]; omega

theorem badBcdByte_bcdByte {v : Byte} (small : v.toNat ≤ 99) : badBcdByte (bcdByte v) = false :=
  badBcdByte_eq_false_of_digits (by omega) (by omega) (toNat_bcdByte small)

theorem bcdValue_bcdByte {v : Byte} (small : v.toNat ≤ 99) : bcdValue (bcdByte v) = v := by
  apply BitVec.eq_of_toNat_eq
  rw [toNat_bcdValue_of_digits (by omega) (toNat_bcdByte small)]
  omega

theorem bcdByte_bcdValue {b : Byte} (good : badBcdByte b = false) : bcdByte (bcdValue b) = b := by
  have digits := badBcdByte_eq_false_iff.1 good
  apply BitVec.eq_of_toNat_eq
  rw [toNat_bcdByte (bcdValue_le good), toNat_bcdValue good]
  omega

/-! ## A packed triple (R220, R221) -/

theorem pack3_fields (a b c : Byte) :
    (pack3 a b c).extractLsb' 16 8 = a ∧ (pack3 a b c).extractLsb' 8 8 = b ∧ (pack3 a b c).extractLsb' 0 8 = c := by
  simp only [← BitVec.toNat_inj, BitVec.extractLsb'_toNat, toNat_pack3, Nat.shiftRight_eq_div_pow]
  omega

theorem pack3_of_fields (v : BitVec 24) :
    pack3 (v.extractLsb' 16 8) (v.extractLsb' 8 8) (v.extractLsb' 0 8) = v := by
  apply BitVec.eq_of_toNat_eq
  simp only [toNat_pack3, BitVec.extractLsb'_toNat, Nat.shiftRight_eq_div_pow]
  omega

theorem extractLsb'_setWidth_triple (v : BitVec 24) (k : Nat) :
    (v.setWidth 32).extractLsb' k 8 = v.extractLsb' k 8 := by
  apply BitVec.eq_of_toNat_eq
  rw [BitVec.extractLsb'_toNat, BitVec.extractLsb'_toNat, BitVec.toNat_setWidth_of_le (by decide)]

/-- The three bytes of a packed triple. -/
theorem bcdBytes3_setWidth (v : BitVec 24) :
    bcdBytes3 (v.setWidth 32) =
      [bcdByte (v.extractLsb' 16 8), bcdByte (v.extractLsb' 8 8), bcdByte (v.extractLsb' 0 8)] := by
  rw [bcdBytes3, extractLsb'_setWidth_triple, extractLsb'_setWidth_triple, extractLsb'_setWidth_triple]

/-- A triple of digit pairs has its fields in range. -/
theorem stampFieldsOk_pack3 {a b c : Byte} (ha : badBcdByte a = false) (hb : badBcdByte b = false)
    (hc : badBcdByte c = false) : stampFieldsOk (pack3 (bcdValue a) (bcdValue b) (bcdValue c)) := by
  obtain ⟨first, second, third⟩ := pack3_fields (bcdValue a) (bcdValue b) (bcdValue c)
  rw [stampFieldsOk, first, second, third]
  exact ⟨bcdValue_le ha, bcdValue_le hb, bcdValue_le hc⟩

theorem bcdBytes3_pack3 {a b c : Byte} (ha : badBcdByte a = false) (hb : badBcdByte b = false)
    (hc : badBcdByte c = false) :
    bcdBytes3 ((pack3 (bcdValue a) (bcdValue b) (bcdValue c)).setWidth 32) = [a, b, c] := by
  obtain ⟨first, second, third⟩ := pack3_fields (bcdValue a) (bcdValue b) (bcdValue c)
  rw [bcdBytes3_setWidth, first, second, third, bcdByte_bcdValue ha, bcdByte_bcdValue hb, bcdByte_bcdValue hc]

/-! ## Six bytes -/

theorem bcdDecode6_error_iff {t : List Byte} {j : Nat} (six : t.length = 6) :
    bcdDecode6 t = .error j ↔ t.findIdx? badBcdByte = some j := by
  rw [bcdDecode6, List.take_of_length_le six.le, firstBadBcd_eq_findIdx?]
  cases t.findIdx? badBcdByte <;> simp

theorem bcdDecode6_six (a b c d e f : Byte) {v : Stamp} :
    bcdDecode6 [a, b, c, d, e, f] = .ok v ↔
      (∀ x ∈ [a, b, c, d, e, f], badBcdByte x = false) ∧
        v = { date := pack3 (bcdValue a) (bcdValue b) (bcdValue c),
              time := pack3 (bcdValue d) (bcdValue e) (bcdValue f) } := by
  rw [bcdDecode6, List.take_of_length_le (by simp), firstBadBcd_eq_findIdx?, ← List.findIdx?_eq_none_iff]
  cases [a, b, c, d, e, f].findIdx? badBcdByte with
  | none => exact ⟨fun h => ⟨rfl, (Except.ok.inj h).symm⟩, fun h => congrArg _ h.2.symm⟩
  | some j => simp

/-- A list of six bytes, byte by byte. -/
theorem exists_six {t : List Byte} (six : t.length = 6) : ∃ a b c d e f, t = [a, b, c, d, e, f] :=
  match t, six with
  | [a, b, c, d, e, f], _ => ⟨a, b, c, d, e, f, rfl⟩

theorem bcdDecode6_bcdEncode6 {date time : BitVec 24} (hd : stampFieldsOk date) (ht : stampFieldsOk time) :
    bcdDecode6 (bcdEncode6 (date.setWidth 32) (time.setWidth 32)) = .ok { date := date, time := time } := by
  obtain ⟨d1, d2, d3⟩ := hd
  obtain ⟨t1, t2, t3⟩ := ht
  rw [bcdEncode6, bcdBytes3_setWidth, bcdBytes3_setWidth]
  refine (bcdDecode6_six _ _ _ _ _ _).2 ⟨?_, ?_⟩
  · simp only [List.forall_mem_cons, badBcdByte_bcdByte, *, true_and]
    exact List.forall_mem_nil _
  · simp only [bcdValue_bcdByte, pack3_of_fields, *]

theorem bcdEncode6_of_bcdDecode6 {t : List Byte} {v : Stamp} (six : t.length = 6) (decoded : bcdDecode6 t = .ok v) :
    bcdEncode6 (v.date.setWidth 32) (v.time.setWidth 32) = t ∧ stampFieldsOk v.date ∧ stampFieldsOk v.time := by
  obtain ⟨a, b, c, d, e, f, rfl⟩ := exists_six six
  obtain ⟨good, rfl⟩ := (bcdDecode6_six a b c d e f).1 decoded
  simp only [List.forall_mem_cons] at good
  obtain ⟨ha, hb, hc, hd, he, hf, -⟩ := good
  refine ⟨?_, stampFieldsOk_pack3 ha hb hc, stampFieldsOk_pack3 hd he hf⟩
  rw [bcdEncode6, bcdBytes3_pack3 ha hb hc, bcdBytes3_pack3 hd he hf]
  rfl

/-- Settles O35: byte by byte each direction undoes the other, and the first bad byte is the one found. -/
theorem bcdInverse : Obligations.BcdInverse := by
  refine ⟨fun _ _ => bcdDecode6_bcdEncode6, fun _ _ => bcdEncode6_of_bcdDecode6, fun t j six => ?_⟩
  simp only [← badBcdByte_iff, ← badBcdByte_eq_false_iff, bcdDecode6_error_iff six]
  constructor
  · intro found
    obtain ⟨inside, bad, before⟩ := List.findIdx?_eq_some_iff_getElem.1 found
    refine ⟨⟨_, List.getElem?_eq_getElem inside, bad⟩, fun k hk b at_k => ?_⟩
    obtain ⟨_, rfl⟩ := List.getElem?_eq_some_iff.1 at_k
    simpa using before k hk
  · rintro ⟨bad, good⟩
    exact findIdx?_of_first bad good

end Sys2Proof
end

section
/-! Which codes each command's computation can raise (60_exceptions.md R301). -/

namespace Sys2Proof

open Sys2Proof.Machine

theorem RaisesOnly.mono {α : Type} {codes more : List ErrCode} {x : Except Raise α} (h : RaisesOnly codes x)
    (sub : codes ⊆ more) : RaisesOnly more x := fun r raised => sub (h r raised)

/-! ## The shared checks -/

theorem raisesOnly_needRegion (P : Params) (a n : Nat) : RaisesOnly [.badOperand] (needRegion P a n) :=
  raisesOnly_require _ _ List.mem_cons_self

theorem raisesOnly_needDisjoint (a n d m : Nat) : RaisesOnly [.badOperand] (needDisjoint a n d m) :=
  raisesOnly_require _ _ List.mem_cons_self

theorem raisesOnly_needSpace (need cap : Nat) : RaisesOnly [.noSpace] (needSpace need cap) :=
  raisesOnly_require _ _ List.mem_cons_self

theorem raisesOnly_needHalf (a : Word) : RaisesOnly [.badOperand] (needHalf a) :=
  raisesOnly_require _ _ List.mem_cons_self

theorem raisesOnly_needField (lsb width : Nat) : RaisesOnly [.badOperand] (needField lsb width) :=
  raisesOnly_require _ _ List.mem_cons_self

theorem raisesOnly_needChecksum (c r : Byte) : RaisesOnly [.checksum] (needChecksum c r) :=
  raisesOnly_require _ _ List.mem_cons_self

theorem raisesOnly_needNoFrame (s : State) : RaisesOnly [.busy] (needNoFrame s) :=
  raisesOnly_require _ _ List.mem_cons_self

theorem raisesOnly_needBuffers (P : Params) (s : State) (cap : Nat) : RaisesOnly [.badOperand] (needBuffers P s cap) :=
  raisesOnly_bind (raisesOnly_needRegion _ _ _) fun _ => raisesOnly_bind (raisesOnly_needRegion _ _ _) fun _ =>
    raisesOnly_needDisjoint _ _ _ _

/-! ## The codecs that can refuse their input -/

theorem raisesOnly_unescapeOr (t : List Byte) : RaisesOnly [.framing] (unescapeOr t) := by
  intro r raised
  unfold unescapeOr at raised
  split at raised <;> cases raised
  exact List.mem_cons_self

theorem raisesOnly_stampOr (k : Nat) (t : List Byte) : RaisesOnly [.bcd] (stampOr k t) := by
  intro r raised
  unfold stampOr at raised
  split at raised <;> cases raised
  exact List.mem_cons_self

theorem raisesOnly_tlvWalkOr (T : TlvShape) (base k : Nat) (t : List Byte) :
    RaisesOnly [.bodyShort] (tlvWalkOr T base k t) := by
  intro r raised
  unfold tlvWalkOr at raised
  split at raised <;> cases raised
  exact List.mem_cons_self

theorem raisesOnly_needIdentity (P : Params) (ib : Nat) (ident : List Byte) :
    RaisesOnly [.bcd] (needIdentity P ib ident) := by
  intro r raised
  unfold needIdentity at raised
  split at raised
  · cases raised
  · split at raised <;> cases raised
    exact List.mem_cons_self

theorem raisesOnly_parseHeader (P : Params) (p : List Byte) :
    RaisesOnly [.hdrLen, .bcd, .sizeMismatch] (parseHeader P p) := by
  rw [parseHeader_eq]
  exact raisesOnly_bind (raisesOnly_require _ _ (by decide)) fun _ =>
    raisesOnly_bind (raisesOnly_require _ _ (by decide)) fun _ =>
    raisesOnly_bind ((raisesOnly_needIdentity _ _ _).mono (by decide)) fun _ =>
    raisesOnly_bind (raisesOnly_require _ _ (by decide)) fun _ => raisesOnly_ok _ _

theorem raisesOnly_writeOutput (out : List Byte) (s : State) : RaisesOnly [.noSpace] (writeOutput out s) :=
  raisesOnly_bind (raisesOnly_needSpace _ _) fun _ => raisesOnly_ok _ _

/-! ## The geofence parse (R261 to R263) -/

/-- The codes of `GeoParse`. -/
def parseCodes : List ErrCode := [.bodyShort, .bcd]

section
variable (c : GeoInput) (o : Nat)

theorem raisesOnly_need (k : Nat) : RaisesOnly parseCodes (c.need k o) := raisesOnly_require _ _ List.mem_cons_self

theorem raisesOnly_get8 : RaisesOnly parseCodes (c.get8 o) :=
  raisesOnly_bind (raisesOnly_need _ _ _) fun _ => raisesOnly_ok _ _

theorem raisesOnly_get16 : RaisesOnly parseCodes (c.get16 o) :=
  raisesOnly_bind (raisesOnly_need _ _ _) fun _ => raisesOnly_ok _ _

theorem raisesOnly_get32 : RaisesOnly parseCodes (c.get32 o) :=
  raisesOnly_bind (raisesOnly_need _ _ _) fun _ => raisesOnly_ok _ _

theorem raisesOnly_getStamp : RaisesOnly parseCodes (c.getStamp o) :=
  raisesOnly_bind (raisesOnly_need _ _ _) fun _ => (raisesOnly_stampOr _ _).mono (by decide)

theorem raisesOnly_pointThresholds (p : RoutePoint) : RaisesOnly parseCodes (pointThresholds c p o) := by
  unfold pointThresholds
  split
  · exact raisesOnly_bind (raisesOnly_get16 _ _) fun _ => raisesOnly_bind (raisesOnly_get16 _ _) fun _ =>
      raisesOnly_ok _ _
  · exact raisesOnly_ok _ _

theorem raisesOnly_pointNight (p : RoutePoint) : RaisesOnly parseCodes (pointNight c p o) := by
  unfold pointNight
  split
  · exact raisesOnly_bind (raisesOnly_get16 _ _) fun _ => raisesOnly_ok _ _
  · exact raisesOnly_ok _ _

theorem raisesOnly_pointSpeed (p : RoutePoint) : RaisesOnly parseCodes (pointSpeed c p o) := by
  unfold pointSpeed
  split
  · exact raisesOnly_bind (raisesOnly_get16 _ _) fun _ => raisesOnly_bind (raisesOnly_get8 _ _) fun _ =>
      raisesOnly_pointNight _ _ _
  · exact raisesOnly_ok _ _

theorem raisesOnly_pointParse : RaisesOnly parseCodes (pointParse c o) :=
  raisesOnly_bind (raisesOnly_get32 _ _) fun _ => raisesOnly_bind (raisesOnly_get32 _ _) fun _ =>
    raisesOnly_bind (raisesOnly_get32 _ _) fun _ => raisesOnly_bind (raisesOnly_get32 _ _) fun _ =>
    raisesOnly_bind (raisesOnly_get8 _ _) fun _ => raisesOnly_bind (raisesOnly_get8 _ _) fun _ =>
    raisesOnly_bind (raisesOnly_pointThresholds _ _ _) fun _ => raisesOnly_pointSpeed _ _ _

theorem raisesOnly_pointsParse (n : Nat) : RaisesOnly parseCodes (pointsParse c n o) := by
  induction n generalizing o with
  | zero => exact raisesOnly_ok _ _
  | succ n ih =>
    exact raisesOnly_bind (raisesOnly_pointParse _ _) fun _ => raisesOnly_bind (ih _) fun _ => raisesOnly_ok _ _

theorem raisesOnly_verticesSkip (n : Nat) : RaisesOnly parseCodes (verticesSkip c n o) := by
  induction n generalizing o with
  | zero => exact raisesOnly_ok _ _
  | succ n ih => exact raisesOnly_bind (raisesOnly_need _ _ _) fun _ => ih _

end

theorem raisesOnly_parseStep (c : GeoInput) (k : GeoStep) (x : GeoState) : RaisesOnly parseCodes (parseStep c k x) := by
  cases k with
  | circle =>
    exact raisesOnly_bind (raisesOnly_get32 _ _) fun _ => raisesOnly_bind (raisesOnly_get32 _ _) fun _ =>
      raisesOnly_bind (raisesOnly_get32 _ _) fun _ => raisesOnly_ok _ _
  | rect =>
    exact raisesOnly_bind (raisesOnly_get32 _ _) fun _ => raisesOnly_bind (raisesOnly_get32 _ _) fun _ =>
      raisesOnly_bind (raisesOnly_get32 _ _) fun _ => raisesOnly_bind (raisesOnly_get32 _ _) fun _ => raisesOnly_ok _ _
  | vertices =>
    exact raisesOnly_bind (raisesOnly_get16 _ _) fun _ => raisesOnly_bind (raisesOnly_verticesSkip _ _ _) fun _ =>
      raisesOnly_ok _ _
  | points =>
    exact raisesOnly_bind (raisesOnly_get16 _ _) fun _ => raisesOnly_bind (raisesOnly_pointsParse _ _ _) fun _ =>
      raisesOnly_ok _ _
  | time =>
    show RaisesOnly _ (parseTime c x)
    unfold parseTime
    split
    · exact raisesOnly_bind (raisesOnly_getStamp _ _) fun _ => raisesOnly_bind (raisesOnly_getStamp _ _) fun _ =>
        raisesOnly_ok _ _
    · exact raisesOnly_ok _ _
  | speedHead =>
    show RaisesOnly _ (parseSpeedHead c x)
    unfold parseSpeedHead
    split
    · exact raisesOnly_bind (raisesOnly_get16 _ _) fun _ => raisesOnly_bind (raisesOnly_get8 _ _) fun _ =>
        raisesOnly_ok _ _
    · exact raisesOnly_ok _ _
  | night =>
    show RaisesOnly _ (parseNight c x)
    unfold parseNight
    split
    · exact raisesOnly_bind (raisesOnly_get16 _ _) fun _ => raisesOnly_ok _ _
    · exact raisesOnly_ok _ _
  | name =>
    show RaisesOnly _ (parseName c x)
    unfold parseName
    split
    · exact raisesOnly_bind (raisesOnly_get16 _ _) fun _ => raisesOnly_bind (raisesOnly_need _ _ _) fun _ =>
        raisesOnly_ok _ _
    · exact raisesOnly_ok _ _

theorem raisesOnly_parseSteps (c : GeoInput) (ks : List GeoStep) (x : GeoState) :
    RaisesOnly parseCodes (parseSteps c ks x) := by
  induction ks generalizing x with
  | nil => exact raisesOnly_ok _ _
  | cons k ks ih => exact raisesOnly_bind (raisesOnly_parseStep _ _ _) fun _ => ih _

theorem raisesOnly_geoParse (P : Params) (c : GeoInput) (shape : Shape) : RaisesOnly parseCodes (geoParse P c shape) :=
  raisesOnly_bind (raisesOnly_bind (raisesOnly_get32 _ _) fun _ => raisesOnly_bind (raisesOnly_get16 _ _) fun _ =>
    raisesOnly_ok _ _) fun _ => raisesOnly_parseSteps _ _ _

/-! ## The commands -/

section
variable (P : Params) (s : State)

theorem raisesOnly_feed (b : Byte) : RaisesOnly [.busy, .badOperand, .framing] (feed P b s) := by
  refine raisesOnly_bind ((raisesOnly_needNoFrame s).mono (by decide)) fun _ =>
    raisesOnly_bind ((raisesOnly_needRegion _ _ _).mono (by decide)) fun _ => ?_
  split <;> exact raisesOnly_ok _ _

theorem raisesOnly_feedm : RaisesOnly [.busy, .badOperand, .framing] (feedm P s) := by
  refine raisesOnly_bind ((raisesOnly_needNoFrame s).mono (by decide)) fun _ =>
    raisesOnly_bind ((raisesOnly_needRegion _ _ _).mono (by decide)) fun _ =>
    raisesOnly_bind ((raisesOnly_needRegion _ _ _).mono (by decide)) fun _ =>
    raisesOnly_bind ((raisesOnly_needDisjoint _ _ _ _).mono (by decide)) fun _ => ?_
  split <;> exact raisesOnly_ok _ _

theorem raisesOnly_unesc : RaisesOnly [.badOperand, .framing, .noSpace] (unesc P s) :=
  raisesOnly_bind ((raisesOnly_needBuffers _ _ _).mono (by decide)) fun _ =>
    raisesOnly_bind ((raisesOnly_unescapeOr _).mono (by decide)) fun _ => (raisesOnly_writeOutput _ _).mono (by decide)

theorem raisesOnly_esc : RaisesOnly [.badOperand, .noSpace] (esc P s) :=
  raisesOnly_bind ((raisesOnly_needBuffers _ _ _).mono (by decide)) fun _ =>
    (raisesOnly_writeOutput _ _).mono (by decide)

theorem raisesOnly_fwrap : RaisesOnly [.badOperand, .noSpace] (fwrap P s) :=
  raisesOnly_bind ((raisesOnly_needBuffers _ _ _).mono (by decide)) fun _ =>
    (raisesOnly_writeOutput _ _).mono (by decide)

theorem raisesOnly_xsum : RaisesOnly [.badOperand] (xsum P s) :=
  raisesOnly_bind (raisesOnly_needRegion _ _ _) fun _ => raisesOnly_ok _ _

theorem raisesOnly_xchk : RaisesOnly [.badOperand, .checksum] (xchk P s) :=
  raisesOnly_bind ((raisesOnly_needRegion _ _ _).mono (by decide)) fun _ =>
    raisesOnly_bind (raisesOnly_require _ _ (by decide)) fun _ =>
    raisesOnly_bind ((raisesOnly_needChecksum _ _).mono (by decide)) fun _ => raisesOnly_ok _ _

theorem raisesOnly_xapp : RaisesOnly [.badOperand] (xapp P s) :=
  raisesOnly_bind (raisesOnly_needRegion _ _ _) fun _ => raisesOnly_ok _ _

theorem raisesOnly_aget (f : AttrField) : RaisesOnly [.badOperand] (aget f s) :=
  raisesOnly_bind (raisesOnly_needHalf _) fun _ => raisesOnly_ok _ _

theorem raisesOnly_aset (f : AttrField) : RaisesOnly [.badOperand] (aset f s) :=
  raisesOnly_bind (raisesOnly_needHalf _) fun _ =>
    raisesOnly_bind (raisesOnly_require _ _ (by decide)) fun _ => raisesOnly_ok _ _

theorem raisesOnly_bput (i : Nat) : RaisesOnly [.badOperand] (bput i s) :=
  raisesOnly_bind (raisesOnly_require _ _ (by decide)) fun _ => raisesOnly_ok _ _

theorem raisesOnly_fext (lsb width : Nat) : RaisesOnly [.badOperand] (fext lsb width s) :=
  raisesOnly_bind (raisesOnly_needField _ _) fun _ => raisesOnly_ok _ _

theorem raisesOnly_fins (lsb width : Nat) : RaisesOnly [.badOperand] (fins lsb width s) :=
  raisesOnly_bind (raisesOnly_needField _ _) fun _ =>
    raisesOnly_bind (raisesOnly_require _ _ (by decide)) fun _ => raisesOnly_ok _ _

theorem raisesOnly_hdec : RaisesOnly [.badOperand, .hdrLen, .bcd, .sizeMismatch] (hdec P s) :=
  raisesOnly_bind ((raisesOnly_needRegion _ _ _).mono (by decide)) fun _ =>
    raisesOnly_bind ((raisesOnly_parseHeader _ _).mono (by decide)) fun _ => raisesOnly_ok _ _

theorem raisesOnly_henc (v : Version) (f : Bool) : RaisesOnly [.badOperand, .noSpace] (henc P v f s) :=
  raisesOnly_bind ((raisesOnly_needRegion _ _ _).mono (by decide)) fun _ =>
    raisesOnly_bind (raisesOnly_require _ _ (by decide)) fun _ =>
    raisesOnly_bind (raisesOnly_require _ _ (by decide)) fun _ =>
    raisesOnly_bind ((raisesOnly_needSpace _ _).mono (by decide)) fun _ => raisesOnly_ok _ _

theorem raisesOnly_fdec :
    RaisesOnly [.badOperand, .framing, .hdrLen, .checksum, .bcd, .sizeMismatch, .noSpace] (fdec P s) :=
  raisesOnly_bind ((raisesOnly_needBuffers _ _ _).mono (by decide)) fun _ =>
    raisesOnly_bind ((raisesOnly_unescapeOr _).mono (by decide)) fun _ =>
    raisesOnly_bind (raisesOnly_require _ _ (by decide)) fun _ =>
    raisesOnly_bind ((raisesOnly_needChecksum _ _).mono (by decide)) fun _ =>
    raisesOnly_bind ((raisesOnly_parseHeader _ _).mono (by decide)) fun _ =>
    raisesOnly_bind ((raisesOnly_needSpace _ _).mono (by decide)) fun _ => raisesOnly_ok _ _

theorem raisesOnly_penc (v : Version) : RaisesOnly [.badOperand, .noSpace] (penc P v s) :=
  raisesOnly_bind ((raisesOnly_needBuffers _ _ _).mono (by decide)) fun _ =>
    raisesOnly_bind (raisesOnly_require _ _ (by decide)) fun _ =>
    raisesOnly_bind (raisesOnly_require _ _ (by decide)) fun _ =>
    raisesOnly_bind ((raisesOnly_needSpace _ _).mono (by decide)) fun _ => raisesOnly_ok _ _

theorem raisesOnly_posdec : RaisesOnly [.badOperand, .bodyShort, .bcd, .noSpace] (posdec P s) :=
  raisesOnly_bind ((raisesOnly_needBuffers _ _ _).mono (by decide)) fun _ =>
    raisesOnly_bind (raisesOnly_require _ _ (by decide)) fun _ =>
    raisesOnly_bind ((raisesOnly_stampOr _ _).mono (by decide)) fun _ =>
    raisesOnly_bind ((raisesOnly_tlvWalkOr _ _ _ _).mono (by decide)) fun _ =>
    raisesOnly_bind ((raisesOnly_needSpace _ _).mono (by decide)) fun _ => raisesOnly_ok _ _

theorem raisesOnly_bcddec : RaisesOnly [.badOperand, .bcd] (bcddec P s) :=
  raisesOnly_bind ((raisesOnly_needRegion _ _ _).mono (by decide)) fun _ =>
    raisesOnly_bind ((raisesOnly_stampOr _ _).mono (by decide)) fun _ => raisesOnly_ok _ _

theorem raisesOnly_bcdenc : RaisesOnly [.badOperand] (bcdenc P s) :=
  raisesOnly_bind (raisesOnly_needRegion _ _ _) fun _ => raisesOnly_bind (raisesOnly_require _ _ (by decide)) fun _ =>
    raisesOnly_bind (raisesOnly_require _ _ (by decide)) fun _ => raisesOnly_ok _ _

theorem raisesOnly_decodeList (T : TlvShape) : RaisesOnly [.badOperand, .bodyShort, .noSpace] (decodeList P T s) :=
  raisesOnly_bind ((raisesOnly_needBuffers _ _ _).mono (by decide)) fun _ =>
    raisesOnly_bind ((raisesOnly_tlvWalkOr _ _ _ _).mono (by decide)) fun _ =>
    raisesOnly_bind ((raisesOnly_needSpace _ _).mono (by decide)) fun _ => raisesOnly_ok _ _

theorem raisesOnly_needGeoBuffers (shape : Shape) : RaisesOnly [.badOperand] (needGeoBuffers P shape s) := by
  unfold needGeoBuffers
  split
  · exact raisesOnly_needBuffers _ _ _
  · exact raisesOnly_needRegion _ _ _

theorem raisesOnly_writePoints (shape : Shape) (recs : List RoutePoint) :
    RaisesOnly [.noSpace] (writePoints shape recs s) := by
  unfold writePoints
  split
  · exact raisesOnly_bind (raisesOnly_needSpace _ _) fun _ => raisesOnly_ok _ _
  · exact raisesOnly_ok _ _

theorem raisesOnly_geodec (shape : Shape) (v : Version) :
    RaisesOnly [.badOperand, .bodyShort, .bcd, .noSpace] (geodec P shape v s) :=
  raisesOnly_bind ((raisesOnly_needGeoBuffers _ _ _).mono (by decide)) fun _ =>
    raisesOnly_bind ((raisesOnly_geoParse _ _ _).mono (by decide)) fun _ =>
    raisesOnly_bind ((raisesOnly_writePoints _ _ _).mono (by decide)) fun _ => raisesOnly_ok _ _

end

/-- No command can raise code 0 or a code that is never raised (R304). -/
theorem raisable_sound (i : Instr) : ∀ c ∈ raisable i, c ≠ .ok ∧ neverRaised c = false := by
  cases i <;> simp [raisable, neverRaised]

end Sys2Proof
end

section
/-! What a command can leave (60_exceptions.md R301, R306, 20_memory.md R67, 10_state.md): one lemma says, command by
command, which registers and which bytes of MEM a successful computation writes; the framer's part follows its steps. From
it: the codes of each command, the registers it keeps, its range of MEM, and the invariant. -/

namespace Sys2Proof

open Sys2Proof.Machine

/-! ## The writes of a successful command -/

/-- `t` has the MEM of `s`, or what a store inside the command's own range leaves of it. -/
def StoresInRange (i : Instr) (s t : State) : Prop :=
  t.mem = s.mem ∨
    ∃ d n bs, writeRange i s = some (d, n) ∧ t.mem = Memory.putBytes s.mem d bs ∧ bs.length ≤ n ∧ InMem d bs.length

/-- What a command other than a framer's writes when it succeeds: results, the registers of its own family, and bytes in
its own range. -/
structure Effect (i : Instr) (s t : State) : Prop where
  rest : { t with res0 := s.res0, res1 := s.res1, res2 := s.res2, res3 := s.res3, hdr := s.hdr, pos := s.pos,
                  geo := s.geo, mem := s.mem } = s
  mem : StoresInRange i s t
  hdr : t.hdr = s.hdr ∨ (writesHeader i = true ∧ HeaderLength t.hdr.hlen.toNat)
  pos : t.pos = s.pos ∨ (i = .posdec ∧ stampFieldsOk t.pos.date ∧ stampFieldsOk t.pos.time)
  geo : t.geo = s.geo ∨ ∃ shape v, i = .geodec shape v

/-- A command that writes results only. -/
theorem Effect.results {i : Instr} {s t : State}
    (h : { t with res0 := s.res0, res1 := s.res1, res2 := s.res2, res3 := s.res3 } = s) : Effect i s t := by
  have hdr : t.hdr = s.hdr := by rw [← h]
  have pos : t.pos = s.pos := by rw [← h]
  have geo : t.geo = s.geo := by rw [← h]
  have mem : t.mem = s.mem := by rw [← h]
  refine ⟨?_, .inl mem, .inl hdr, .inl pos, .inl geo⟩
  rw [← hdr, ← pos, ← geo, ← mem]
  exact h

/-- A command that writes results and an output of at most `n` bytes at `d`. -/
theorem Effect.output {i : Instr} {s t : State} {d n : Nat} {bs : List Byte} (range : writeRange i s = some (d, n))
    (fits : bs.length ≤ n) (inMem : InMem d n) (mem : t.mem = Memory.putBytes s.mem d bs)
    (h : { t with res0 := s.res0, res1 := s.res1, res2 := s.res2, res3 := s.res3, mem := s.mem } = s) :
    Effect i s t := by
  have hdr : t.hdr = s.hdr := by rw [← h]
  have pos : t.pos = s.pos := by rw [← h]
  have geo : t.geo = s.geo := by rw [← h]
  refine ⟨?_, .inr ⟨d, n, bs, range, mem, fits, Nat.le_trans (Nat.add_le_add_left fits d) inMem⟩, .inl hdr, .inl pos,
    .inl geo⟩
  rw [← hdr, ← pos, ← geo]
  exact h

/-- The destination of a command whose buffers pass their checks is in MEM (R67). -/
theorem inMem_dst {s : State} {cap : Nat} (h : BuffersOk Config.params s cap) : InMem s.dst cap := by
  obtain ⟨-, dst, -⟩ := h
  exact region_iff_inMem.1 dst

/-- `f` is the computation of `i`: its effect when it succeeds, its codes when it raises. -/
structure Computes (i : Instr) (f : State → Except Raise State) : Prop where
  runs : ∀ s, exec i s = runCommand f s
  effect : ∀ s t, f s = .ok t → Effect i s t
  codes : ∀ s, RaisesOnly (raisable i) (f s)

section
variable {s t : State} {P : Params}

theorem effect_posdec (h : posdec Config.params s = .ok t) : Effect .posdec s t := by
  obtain ⟨buffers, long, v, stamp, rs, -, space, rfl⟩ := posdec_ok_iff.1 h
  have six : (sliceOf s.source 22 28).length = 6 := by
    rw [coreLen] at long
    simp only [sliceOf, List.length_take, List.length_drop, State.length_source]
    omega
  obtain ⟨-, date, time⟩ := bcdEncode6_of_bcdDecode6 six stamp
  have bytes := length_tlvBytes s rs
  have dst := inMem_dst buffers
  unfold InMem at dst
  exact ⟨rfl, .inr ⟨s.dst, 16 * s.dstCap, _, rfl, rfl, by omega, by unfold InMem; omega⟩, .inl rfl,
    .inr ⟨rfl, date, time⟩, .inl rfl⟩

theorem effect_geodec {shape : Shape} {v : Version} (h : geodec Config.params shape v s = .ok t) :
    Effect (.geodec shape v) s t := by
  obtain ⟨buffers, x, -, u, points, rfl⟩ := geodec_ok_iff.1 h
  by_cases line : shape = .polyline
  · rw [if_pos line] at buffers points
    obtain ⟨space, rfl⟩ := points
    subst line
    have bytes := length_pointBytes x.recs
    have dst := inMem_dst buffers
    unfold InMem at dst
    exact ⟨rfl, .inr ⟨s.dst, 32 * s.dstCap, _, rfl, rfl, by omega, by unfold InMem; omega⟩, .inl rfl, .inl rfl,
      .inr ⟨_, _, rfl⟩⟩
  · rw [if_neg line] at points
    subst points
    exact ⟨rfl, .inl rfl, .inl rfl, .inl rfl, .inr ⟨_, _, rfl⟩⟩

theorem effect_henc {v : Version} {f : Bool} (h : henc Config.params v f s = .ok t) : Effect (.henc v f) s t := by
  obtain ⟨dst, -, -, space, rfl⟩ := henc_ok_iff.1 h
  have length := headerLength_buildHeader s.hdr v f s.srcLen s.hdr.ftot s.hdr.fidx
  refine ⟨rfl, .inr ⟨s.dst, s.dstCap, _, rfl, rfl, space, ?_⟩, .inr ⟨rfl, ?_⟩, .inl rfl, .inl rfl⟩
  · exact Nat.le_trans (Nat.add_le_add_left space _) (region_iff_inMem.1 dst)
  · rwa [toNat_hlen length]

theorem effect_fdec (h : fdec Config.params s = .ok t) : Effect .fdec s t := by
  obtain ⟨buffers, u, -, -, -, h, parsed, space, rfl⟩ := fdec_ok_iff.1 h
  exact ⟨rfl, .inr ⟨s.dst, s.dstCap, u, rfl, rfl, space, Nat.le_trans (Nat.add_le_add_left space _) (inMem_dst buffers)⟩,
    .inr ⟨rfl, headerLength_parsed parsed⟩, .inl rfl, .inl rfl⟩

theorem effect_decodeList {T : TlvShape} {i : Instr} (range : writeRange i s = some (s.dst, 16 * s.dstCap))
    (h : decodeList Config.params T s = .ok t) : Effect i s t := by
  obtain ⟨buffers, rs, -, space, rfl⟩ := decodeList_ok_iff.1 h
  have bytes := length_tlvBytes s rs
  exact .output range (bs := tlvBytes s rs) (by omega) (inMem_dst buffers) rfl rfl

end

/-- Every command but the framer's is the run of a computation with the effect and the codes of that command. -/
theorem exec_computes {i : Instr} (not_framer : isFramer i = false) : ∃ f, Computes i f := by
  cases i with
  | feed b | feedm | frel | frst => cases not_framer
  | nop => exact ⟨.ok, fun _ => rfl, fun _ _ done => by cases done; exact .results rfl, fun _ => raisesOnly_ok _ _⟩
  | bset k =>
    exact ⟨fun u => .ok { u with res0 := setBit u.arg0 k }, fun _ => rfl,
      fun _ _ done => by cases done; exact .results rfl, fun _ => raisesOnly_ok _ _⟩
  | bclr k =>
    exact ⟨fun u => .ok { u with res0 := clearBit u.arg0 k }, fun _ => rfl,
      fun _ _ done => by cases done; exact .results rfl, fun _ => raisesOnly_ok _ _⟩
  | btst k =>
    exact ⟨fun u => .ok { u with res0 := testBit u.arg0 k }, fun _ => rfl,
      fun _ _ done => by cases done; exact .results rfl, fun _ => raisesOnly_ok _ _⟩
  | unesc =>
    refine ⟨_, fun _ => rfl, fun s t done => ?_, raisesOnly_unesc _⟩
    obtain ⟨buffers, u, -, space, rfl⟩ := unesc_ok_iff.1 done
    exact .output rfl space (inMem_dst buffers) rfl rfl
  | esc =>
    refine ⟨_, fun _ => rfl, fun s t done => ?_, raisesOnly_esc _⟩
    obtain ⟨buffers, space, rfl⟩ := esc_ok_iff.1 done
    exact .output rfl space (inMem_dst buffers) rfl rfl
  | fwrap =>
    refine ⟨_, fun _ => rfl, fun s t done => ?_, raisesOnly_fwrap _⟩
    obtain ⟨buffers, space, rfl⟩ := fwrap_ok_iff.1 done
    exact .output rfl space (inMem_dst buffers) rfl rfl
  | xsum =>
    refine ⟨_, fun _ => rfl, fun s t done => ?_, raisesOnly_xsum _⟩
    obtain ⟨-, rfl⟩ := xsum_ok_iff.1 done
    exact .results rfl
  | xchk =>
    refine ⟨_, fun _ => rfl, fun s t done => ?_, raisesOnly_xchk _⟩
    obtain ⟨-, -, -, rfl⟩ := xchk_ok_iff.1 done
    exact .results rfl
  | xapp =>
    refine ⟨_, fun _ => rfl, fun s t done => ?_, raisesOnly_xapp _⟩
    obtain ⟨region, rfl⟩ := xapp_ok_iff.1 done
    have inMem : InMem s.src (s.srcLen + 1) := region_iff_inMem.1 region
    exact .output (bs := [xorAll s.source]) rfl (by simp) (by unfold InMem at inMem ⊢; omega) rfl rfl
  | agetSize | agetEnc | agetFrag | agetVtag | agetRsvd =>
    refine ⟨_, fun _ => rfl, fun s t done => ?_, fun s => raisesOnly_aget s _⟩
    obtain ⟨-, rfl⟩ := aget_ok_iff.1 done
    exact .results rfl
  | asetSize | asetEnc | asetFrag | asetVtag | asetRsvd =>
    refine ⟨_, fun _ => rfl, fun s t done => ?_, fun s => raisesOnly_aset s _⟩
    obtain ⟨-, -, rfl⟩ := aset_ok_iff.1 done
    exact .results rfl
  | hdec =>
    refine ⟨_, fun _ => rfl, fun s t done => ?_, raisesOnly_hdec _⟩
    obtain ⟨-, h, parsed, rfl⟩ := hdec_ok_iff.1 done
    exact ⟨rfl, .inl rfl, .inr ⟨rfl, headerLength_parsed parsed⟩, .inl rfl, .inl rfl⟩
  | henc v f => exact ⟨_, fun _ => rfl, fun _ _ => effect_henc, fun s => raisesOnly_henc _ s v f⟩
  | fdec => exact ⟨_, fun _ => rfl, fun _ _ => effect_fdec, raisesOnly_fdec _⟩
  | penc v =>
    refine ⟨_, fun _ => rfl, fun s t done => ?_, fun s => raisesOnly_penc _ s v⟩
    obtain ⟨buffers, -, -, space, rfl⟩ := penc_ok_iff.1 done
    exact .output rfl space (inMem_dst buffers) rfl rfl
  | bput k =>
    refine ⟨_, fun _ => rfl, fun s t done => ?_, fun s => raisesOnly_bput s k⟩
    obtain ⟨-, rfl⟩ := bput_ok_iff.1 done
    exact .results rfl
  | fext lsb width =>
    refine ⟨_, fun _ => rfl, fun s t done => ?_, fun s => raisesOnly_fext s lsb width⟩
    obtain ⟨-, rfl⟩ := fext_ok_iff.1 done
    exact .results rfl
  | fins lsb width =>
    refine ⟨_, fun _ => rfl, fun s t done => ?_, fun s => raisesOnly_fins s lsb width⟩
    obtain ⟨-, -, rfl⟩ := fins_ok_iff.1 done
    exact .results rfl
  | posdec => exact ⟨_, fun _ => rfl, fun _ _ => effect_posdec, raisesOnly_posdec _⟩
  | bcddec =>
    refine ⟨_, fun _ => rfl, fun s t done => ?_, raisesOnly_bcddec _⟩
    obtain ⟨-, _, -, rfl⟩ := bcddec_ok_iff.1 done
    exact .results rfl
  | bcdenc =>
    refine ⟨_, fun _ => rfl, fun s t done => ?_, raisesOnly_bcdenc _⟩
    obtain ⟨dst, -, -, rfl⟩ := bcdenc_ok_iff.1 done
    exact .output (bs := bcdEncode6 s.arg0 s.arg1) rfl (Nat.le_refl 6) (region_iff_inMem.1 dst) rfl rfl
  | auxdec | pardec =>
    exact ⟨_, fun _ => rfl, fun _ _ => effect_decodeList rfl, fun s => raisesOnly_decodeList _ s _⟩
  | geodec shape v => exact ⟨_, fun _ => rfl, fun _ _ => effect_geodec, fun s => raisesOnly_geodec _ s shape v⟩
  | geoenc shape v =>
    refine ⟨_, fun _ => rfl, fun s t done => ?_, fun s => raisesOnly_geoenc _ shape v s⟩
    obtain ⟨dst, -, -, -, space, rfl⟩ := geoenc_ok_iff.1 done
    exact .output rfl space (region_iff_inMem.1 dst) rfl rfl

/-! ## The writes of the framer's commands (R130 to R135) -/

/-- The framer at work from `s` on, with its window in MEM: sound, the window where it was, only bytes of the window
written. -/
structure Feeding (s t : State) : Prop where
  sound : t.framerOk
  base : t.frBase = s.frBase
  cap : t.frCap = s.frCap
  outside : ∀ a, a < s.frBase.toNat ∨ s.frBase.toNat + s.frCap.toNat ≤ a → t.byteAt a = s.byteAt a
  mem : s.memOk → t.memOk

theorem Feeding.start {s : State} (sound : s.framerOk) : Feeding s s :=
  ⟨sound, rfl, rfl, fun _ _ => rfl, id⟩

/-- MEM stays sound under a store inside it. -/
theorem memOk_store {s : State} {d : Nat} {bs : List Byte} (h : s.memOk) (inMem : InMem d bs.length) :
    (s.store d bs).memOk := by
  obtain ⟨wf, cells⟩ := h
  refine ⟨State.store_wf s d bs wf, fun c mem => ?_⟩
  obtain ⟨-, below⟩ | old := Memory.mem_putBytes bs s.mem d mem
  · exact Nat.lt_of_lt_of_le below inMem
  · exact cells c old

/-- A framer whose window is in MEM is sound when its counts agree with its state. -/
theorem framerOk_of_window {t : State} (window : InMem t.frBase.toNat t.frCap.toNat)
    (outside_zero : t.frs ≠ .inFrame → t.frLen = 0) (len : t.frLen.toNat ≤ t.frCap.toNat)
    (held : t.frv = true → t.frs = .hunt) (none_held : t.frv = false → t.frFlen = 0)
    (flen : t.frFlen.toNat ≤ t.frCap.toNat) : t.framerOk :=
  ⟨outside_zero, len, held, none_held, flen, fun _ => region_iff_inMem.2 window⟩

/-- A framer step that writes no byte of MEM. -/
theorem Feeding.of_sameMem {s t u : State} (h : Feeding s t) (sound : u.framerOk) (base : u.frBase = t.frBase)
    (cap : u.frCap = t.frCap) (mem : u.mem = t.mem) (epoch : u.memEpoch = t.memEpoch) : Feeding s u where
  sound := sound
  base := base.trans h.base
  cap := cap.trans h.cap
  outside a ha := (State.byteAt_congr mem epoch a).trans (h.outside a ha)
  mem m := by
    have ok := h.mem m
    unfold State.memOk at ok ⊢
    rwa [mem]

theorem frStep_feeding {s t u : State} {b : Byte} {r : FrResult} (window : InMem s.frBase.toNat s.frCap.toNat)
    (h : Feeding s t) (free : t.frv = false) (step : frStep Config.params b t = (u, r)) : Feeding s u := by
  obtain ⟨zero, len, held, none_held, flen, -⟩ := h.sound
  rw [← h.base, ← h.cap] at window
  have not_held : t.frv = true → ∀ {p : Prop}, p := fun v => by rw [free] at v; cases v
  obtain ⟨-, -, rfl, -⟩ | ⟨-, -, rfl, -⟩ | ⟨-, -, -, -, rfl, -⟩ | ⟨-, -, -, rfl, -⟩ | ⟨-, -, -, rfl, -⟩ |
    ⟨inside, -, room, rfl, -⟩ | ⟨discard, -, rfl, -⟩ | ⟨-, -, rfl, -⟩ := frStep_cases step
  · exact h.of_sameMem (framerOk_of_window window (fun n => absurd rfl n) (Nat.zero_le _) (fun v => not_held v) none_held
      flen) rfl rfl rfl rfl
  · exact h.of_sameMem (framerOk_of_window window zero len held none_held flen) rfl rfl rfl rfl
  · exact h
  · exact h.of_sameMem (framerOk_of_window window (fun _ => rfl) (Nat.zero_le _) (fun _ => rfl) (nomatch ·) len)
      rfl rfl rfl rfl
  · exact h.of_sameMem (framerOk_of_window window (fun _ => rfl) (Nat.zero_le _) (fun v => not_held v) none_held flen)
      rfl rfl rfl rfl
  · have below : t.frLen.toNat < t.frCap.toNat :=
      Nat.lt_of_le_of_ne len fun same => room (BitVec.eq_of_toNat_eq same)
    have cap_bound := t.frCap.isLt
    have grown : (t.frLen + 1).toNat = t.frLen.toNat + 1 := by
      rw [BitVec.toNat_add]
      exact Nat.mod_eq_of_lt (by show t.frLen.toNat + 1 < _; omega)
    refine ⟨framerOk_of_window window (fun n => absurd inside n) ?_ held none_held flen, h.base, h.cap, fun a ha => ?_,
      fun m => memOk_store (h.mem m) ?_⟩
    · exact grown.symm ▸ below
    · rw [← h.base, ← h.cap] at ha
      rw [← h.outside a (by rwa [← h.base, ← h.cap])]
      exact State.byteAt_store_outside t _ a [b] (by rw [List.length_singleton]; omega)
    · unfold InMem at window ⊢
      rw [List.length_singleton]
      omega
  · have empty : t.frLen = 0 := zero (by rw [discard]; decide)
    exact h.of_sameMem (framerOk_of_window window (fun _ => empty) len (fun _ => rfl) none_held flen) rfl rfl rfl rfl
  · exact h.of_sameMem (framerOk_of_window window zero len held none_held flen) rfl rfl rfl rfl

theorem feedLoop_feeding {s : State} (window : InMem s.frBase.toNat s.frCap.toNat) (sound : s.framerOk)
    (free : s.frv = false) (src n k : Nat) : Feeding s (feedLoop Config.params src n k s).state :=
  feedLoop_keeps Config.params src (Feeding s) (fun _ _ _ _ h v step => frStep_feeding window h v step) n k s
    (.start sound) free

/-- What a framer command writes: results, the report, the framer's registers, MEM. -/
def SameButFramerAndResults (s t : State) : Prop :=
  { t with err := s.err, errInfo := s.errInfo, res0 := s.res0, res1 := s.res1, frs := s.frs, frv := s.frv,
           frLen := s.frLen, frFlen := s.frFlen, dropCnt := s.dropCnt, mem := s.mem } = s

theorem SameButFramer.withResults {s u : State} (same : SameButFramer s u) (c : ErrCode) (i r0 r1 : Word) :
    SameButFramerAndResults s { u with err := c, errInfo := i, res0 := r0, res1 := r1 } := by
  have written := congrArg
    (fun x : State => { x with err := s.err, errInfo := s.errInfo, res0 := s.res0, res1 := s.res1 }) same
  exact written

theorem SameButFramer.errInfo_eq {s t : State} (same : SameButFramer s t) : t.errInfo = s.errInfo := by
  have kept := congrArg State.errInfo same
  exact kept

/-- What a framer command writes when its computation succeeds and its window is sound, and the report it leaves:
none, or `FRAMING` of an overflow. -/
structure FramerEffect (i : Instr) (s t : State) : Prop where
  rest : SameButFramerAndResults s t
  report : (t.err = s.err ∧ t.errInfo = s.errInfo) ∨ (takesLineBytes i = true ∧ t.err = .framing)
  quiet : takesLineBytes i = false → t.dropCnt = s.dropCnt
  feeding : s.framerOk → Feeding s t

theorem framerEffect_feed {b : Nat} {s t : State} (h : feed Config.params (BitVec.ofNat 8 b) s = .ok t) :
    FramerEffect (.feed b) s t := by
  obtain ⟨free, region, answer⟩ := feed_ok_iff.1 h
  cases stepped : frStep Config.params (BitVec.ofNat 8 b) s with
  | mk u r =>
    have same : SameButFramer s u := frStep_frame stepped
    have feeding : s.framerOk → Feeding s u := fun sound =>
      frStep_feeding (region_iff_inMem.1 region) (.start sound) free stepped
    rw [stepped] at answer
    cases r with
    | overflow =>
      subst answer
      exact ⟨same.withResults _ _ u.res0 u.res1, .inr ⟨rfl, rfl⟩, (nomatch ·),
        fun sound => (feeding sound).of_sameMem (feeding sound).sound rfl rfl rfl rfl⟩
    | closed | consumed =>
      subst answer
      exact ⟨same.withResults u.err u.errInfo _ u.res1, .inl ⟨same.err_eq, same.errInfo_eq⟩, (nomatch ·),
        fun sound => (feeding sound).of_sameMem (feeding sound).sound rfl rfl rfl rfl⟩

theorem framerEffect_feedm {s t : State} (h : feedm Config.params s = .ok t) : FramerEffect .feedm s t := by
  obtain ⟨free, -, region, -, answer⟩ := feedm_ok_iff.1 h
  have same : SameButFramer s (feedLoop Config.params s.src s.srcLen 0 s).state :=
    feedLoop_frame Config.params s.src s.srcLen 0 s
  have feeding : s.framerOk → Feeding s (feedLoop Config.params s.src s.srcLen 0 s).state := fun sound =>
    feedLoop_feeding (region_iff_inMem.1 region) sound free _ _ _
  cases ended : feedLoop Config.params s.src s.srcLen 0 s with
  | overflowed u k =>
    rw [ended] at answer same feeding
    subst answer
    exact ⟨same.withResults _ _ u.res0 u.res1, .inr ⟨rfl, rfl⟩, (nomatch ·),
      fun sound => (feeding sound).of_sameMem (feeding sound).sound rfl rfl rfl rfl⟩
  | done u k closed =>
    rw [ended] at answer same feeding
    subst answer
    exact ⟨same.withResults u.err u.errInfo _ _, .inl ⟨same.err_eq, same.errInfo_eq⟩, (nomatch ·),
      fun sound => (feeding sound).of_sameMem (feeding sound).sound rfl rfl rfl rfl⟩

theorem framerEffect_frel (s : State) : FramerEffect .frel s (frel s) := by
  refine ⟨rfl, .inl ⟨rfl, rfl⟩, fun _ => rfl, fun sound => (Feeding.start sound).of_sameMem ?_ rfl rfl rfl rfl⟩
  obtain ⟨zero, len, -, -, -, idle⟩ := sound
  refine ⟨zero, len, (nomatch ·), fun _ => rfl, Nat.zero_le _, fun busy => idle ?_⟩
  have not_hunting : decide (s.frs = .hunt) = false := (Bool.and_true _).symm.trans busy
  rw [State.framerIdle, not_hunting, Bool.false_and]

theorem framerEffect_frst (s : State) : FramerEffect .frst s (frst s) := by
  refine ⟨rfl, .inl ⟨rfl, rfl⟩, fun _ => rfl, fun sound => (Feeding.start sound).of_sameMem ?_ rfl rfl rfl rfl⟩
  exact ⟨fun _ => rfl, Nat.zero_le _, (nomatch ·), fun _ => rfl, Nat.zero_le _, (nomatch ·)⟩

/-- The four framer commands are runs of computations with the framer's effect. -/
theorem exec_computes_framer {i : Instr} (framer : isFramer i = true) :
    ∃ f, (∀ s, exec i s = runCommand f s) ∧ (∀ s t, f s = .ok t → FramerEffect i s t) ∧
      ∀ s, RaisesOnly (raisable i) (f s) := by
  cases i with
  | feed b => exact ⟨_, fun _ => rfl, fun _ _ => framerEffect_feed, fun s => raisesOnly_feed _ s _⟩
  | feedm => exact ⟨_, fun _ => rfl, fun _ _ => framerEffect_feedm, raisesOnly_feedm _⟩
  | frel =>
    exact ⟨fun u => .ok (frel u), fun _ => rfl, fun s _ done => by cases done; exact framerEffect_frel s,
      fun _ => raisesOnly_ok _ _⟩
  | frst =>
    exact ⟨fun u => .ok (frst u), fun _ => rfl, fun s _ done => by cases done; exact framerEffect_frst s,
      fun _ => raisesOnly_ok _ _⟩
  | _ => cases framer

/-! ## What an effect keeps -/

/-- The registers no command writes but the host (R26), and the model's own fields. -/
structure OperandsKept (s t : State) : Prop where
  cmd : t.cmd = s.cmd
  arg0 : t.arg0 = s.arg0
  arg1 : t.arg1 = s.arg1
  arg2 : t.arg2 = s.arg2
  arg3 : t.arg3 = s.arg3
  ie : t.ie = s.ie
  frBase : t.frBase = s.frBase
  frCap : t.frCap = s.frCap
  memEpoch : t.memEpoch = s.memEpoch
  host : t.host = s.host
  reply : t.reply = s.reply

theorem Effect.operandsKept {i : Instr} {s t : State} (effect : Effect i s t) : OperandsKept s t := by
  constructor <;> rw [← effect.rest]

theorem FramerEffect.operandsKept {i : Instr} {s t : State} (effect : FramerEffect i s t) : OperandsKept s t := by
  have rest := effect.rest
  unfold SameButFramerAndResults at rest
  constructor <;> rw [← rest]

theorem Effect.framerKept {i : Instr} {s t : State} (effect : Effect i s t) :
    (t.frv = s.frv ∧ t.frs = s.frs ∧ t.frLen = s.frLen ∧ t.frFlen = s.frFlen) ∧ t.dropCnt = s.dropCnt := by
  refine ⟨⟨?_, ?_, ?_, ?_⟩, ?_⟩ <;> rw [← effect.rest]

theorem Effect.report_cleared {i : Instr} {s t : State} (effect : Effect i s.begin t) : t.err = .ok ∧ t.errInfo = 0 := by
  have kept : t.err = s.begin.err ∧ t.errInfo = s.begin.errInfo := by
    constructor <;> rw [← effect.rest]
  exact kept

theorem FramerEffect.registersKept {i : Instr} {s t : State} (effect : FramerEffect i s t) :
    t.hdr = s.hdr ∧ t.pos = s.pos ∧ t.geo = s.geo := by
  have rest := effect.rest
  unfold SameButFramerAndResults at rest
  refine ⟨?_, ?_, ?_⟩ <;> rw [← rest]

/-! ## What a command can do -/

/-- A command ends in the report of one of its codes, or in its effect on the state it started in. -/
theorem exec_cases {i : Instr} {s t : State} (run : exec i s = .next t) :
    (∃ r : Raise, r.code ∈ raisable i ∧ t = s.raise r.code r.info) ∨
      (isFramer i = false ∧ Effect i s.begin t) ∨ (isFramer i = true ∧ FramerEffect i s.begin t) := by
  cases framer : isFramer i with
  | false =>
    obtain ⟨f, runs, effect, codes⟩ := exec_computes framer
    obtain done | ⟨r, raised, rfl⟩ := runCommand_cases (runs s ▸ run)
    · exact .inr (.inl ⟨rfl, effect _ _ done⟩)
    · exact .inl ⟨r, codes _ r raised, rfl⟩
  | true =>
    obtain ⟨f, runs, effect, codes⟩ := exec_computes_framer framer
    obtain done | ⟨r, raised, rfl⟩ := runCommand_cases (runs s ▸ run)
    · exact .inr (.inr ⟨rfl, effect _ _ done⟩)
    · exact .inl ⟨r, codes _ r raised, rfl⟩

theorem exec_next (i : Instr) (s : State) : ∃ t, exec i s = .next t := by
  cases framer : isFramer i with
  | false =>
    obtain ⟨f, runs, -, -⟩ := exec_computes framer
    exact ⟨_, runs s⟩
  | true =>
    obtain ⟨f, runs, -, -⟩ := exec_computes_framer framer
    exact ⟨_, runs s⟩

theorem framing_raisable {i : Instr} (line : takesLineBytes i = true) : .framing ∈ raisable i := by
  cases i with
  | feed b | feedm => simp [raisable]
  | _ => cases line

/-- The report a command ends in. -/
theorem exec_report {i : Instr} {s t : State} (run : exec i s = .next t) :
    (t.err = .ok ∧ t.errInfo = 0) ∨ t.err ∈ raisable i := by
  obtain ⟨r, listed, rfl⟩ | ⟨-, effect⟩ | ⟨-, effect⟩ := exec_cases run
  · exact .inr listed
  · exact .inl effect.report_cleared
  · obtain ⟨err, info⟩ | ⟨line, framing⟩ := effect.report
    · exact .inl ⟨err, info⟩
    · exact .inr (framing ▸ framing_raisable line)

/-- Settles O49: a command ends in the report of a code of its list, or with the report cleared. -/
theorem codesPerCommand : Obligations.CodesPerCommand := by
  intro i s
  obtain ⟨t, run⟩ := exec_next i s
  exact ⟨t, run, exec_report run⟩

/-- Settles O50: a report alone changes no other register, and an effect changes those it names. -/
theorem registersKept : Obligations.RegistersKept := by
  intro i s t run
  obtain ⟨r, -, rfl⟩ | ⟨not_framer, effect⟩ | ⟨framer, effect⟩ := exec_cases run
  · exact ⟨rfl, rfl, rfl, rfl, rfl, rfl, rfl, rfl, rfl, rfl, rfl, fun _ => ⟨rfl, rfl, rfl, rfl⟩, fun _ => rfl,
      fun _ => rfl, fun _ => rfl, fun _ => rfl⟩
  · have kept := effect.operandsKept
    refine ⟨kept.cmd, kept.arg0, kept.arg1, kept.arg2, kept.arg3, kept.ie, kept.frBase, kept.frCap, kept.memEpoch,
      kept.host, kept.reply, fun _ => effect.framerKept.1, fun _ => effect.framerKept.2, fun other => ?_,
      fun other => ?_, fun other => ?_⟩
    · obtain same | ⟨header, -⟩ := effect.hdr
      · exact same
      · cases header.symm.trans other
    · obtain same | ⟨posdec, -⟩ := effect.pos
      · exact same
      · exact absurd posdec other
    · obtain same | ⟨shape, v, geodec⟩ := effect.geo
      · exact same
      · exact absurd geodec (other shape v)
  · have kept := effect.operandsKept
    obtain ⟨hdr, pos, geo⟩ := effect.registersKept
    refine ⟨kept.cmd, kept.arg0, kept.arg1, kept.arg2, kept.arg3, kept.ie, kept.frBase, kept.frCap, kept.memEpoch,
      kept.host, kept.reply, fun other => ?_, effect.quiet, fun _ => hdr, fun _ => pos, fun _ => geo⟩
    cases framer.symm.trans other

theorem writeRange_framer {i : Instr} {s : State} (line : takesLineBytes i = true) :
    writeRange i s = some (s.frBase.toNat, s.frCap.toNat) := by
  cases i with
  | feed b | feedm => rfl
  | _ => cases line

/-- A framer command that takes no line bytes writes no MEM. -/
theorem frel_frst_mem {i : Instr} {s t : State} (framer : isFramer i = true) (quiet : takesLineBytes i = false)
    (run : exec i s = .next t) : ∀ a, t.byteAt a = s.byteAt a := by
  cases i with
  | frel | frst => cases run; exact fun _ => rfl
  | feed b | feedm => cases quiet
  | _ => cases framer

/-- Settles O51: a store in the command's range changes no byte outside it, and the framer writes inside its window. -/
theorem storesStayInRange : Obligations.StoresStayInRange := by
  intro i s t sound run a outside
  obtain ⟨r, -, rfl⟩ | ⟨-, effect⟩ | ⟨framer, effect⟩ := exec_cases run
  · rfl
  · have epoch := effect.operandsKept.memEpoch
    obtain same | ⟨d, n, bs, range, stored, fits, -⟩ := effect.mem
    · exact State.byteAt_congr same epoch a
    · have apart := outside d n range
      have same : t.byteAt a = (s.store d bs).byteAt a :=
        State.byteAt_congr (s := s.store d bs) stored epoch a
      rw [same, State.byteAt_store_outside s d a bs (by omega)]
  · cases line : takesLineBytes i with
    | false => exact frel_frst_mem framer line run a
    | true => exact (effect.feeding sound).outside a (outside _ _ (writeRange_framer line))

/-! ## The invariant -/

theorem reportOk_of {i : Instr} {t : State} (report : (t.err = .ok ∧ t.errInfo = 0) ∨ t.err ∈ raisable i) :
    t.reportOk := by
  obtain ⟨ok, zero⟩ | listed := report
  · exact ⟨by rw [ok]; rfl, fun _ => zero⟩
  · obtain ⟨error, raised⟩ := raisable_sound i _ listed
    exact ⟨raised, fun ok => absurd ok error⟩

theorem Effect.memOk {i : Instr} {s t : State} (effect : Effect i s t) (h : s.memOk) : t.memOk := by
  obtain same | ⟨d, n, bs, -, stored, -, inMem⟩ := effect.mem
  · unfold State.memOk at h ⊢
    rwa [same]
  · have store := memOk_store h inMem
    unfold State.memOk at store ⊢
    rwa [stored]

theorem Effect.decodedOk {i : Instr} {s t : State} (effect : Effect i s t) (h : s.decodedOk) : t.decodedOk := by
  obtain ⟨date, time, hlen⟩ := h
  have stamps : stampFieldsOk t.pos.date ∧ stampFieldsOk t.pos.time := by
    obtain same | ⟨-, stamps⟩ := effect.pos
    · rw [same]; exact ⟨date, time⟩
    · exact stamps
  refine ⟨stamps.1, stamps.2, ?_⟩
  obtain same | ⟨-, length⟩ := effect.hdr
  · rwa [same]
  · exact .inr length

theorem Effect.framerOk {i : Instr} {s t : State} (effect : Effect i s t) (h : s.framerOk) : t.framerOk := by
  rw [← effect.rest] at h
  exact h

theorem exec_keeps_inv {i : Instr} {s t : State} (inv : s.Inv) (run : exec i s = .next t) : t.Inv := by
  obtain ⟨mem, framer, -, decoded⟩ := inv
  have report := reportOk_of (exec_report run)
  obtain ⟨r, -, rfl⟩ | ⟨-, effect⟩ | ⟨-, effect⟩ := exec_cases run
  · exact ⟨mem, framer, report, decoded⟩
  · exact ⟨effect.memOk mem, effect.framerOk framer, report, effect.decodedOk decoded⟩
  · have feeding := effect.feeding framer
    refine ⟨feeding.mem mem, feeding.sound, report, ?_⟩
    obtain ⟨hdr, pos, -⟩ := effect.registersKept
    unfold State.decodedOk
    rw [hdr, pos]
    exact decoded

end Sys2Proof
end

section
/-! The host's port (10_state.md, 20_memory.md R64, R65, R71, R77): what a step does with each host action, the register
map read and written, and the invariant kept by every step. -/

namespace Sys2Proof

open Sys2Proof.Machine

/-! ## `NOP` (40_system.md R120) -/

theorem exec_nop (s : State) : exec .nop s = .next s.begin := rfl

/-- Settles O6: with no error the interrupt line follows the held frame alone. -/
theorem nopClearsReport : Obligations.NopClearsReport := by
  intro s
  have line : s.begin.irq = (s.ie.getLsbD 0 && s.frv) := by simp [State.irq]
  exact ⟨_, exec_nop s, rfl, rfl, line, rfl, sameMemory_of rfl rfl⟩

/-! ## The register map (R20) -/

theorem wholeWord_iff {width : Nat} {off : RegOffset} :
    wholeWord width off = true ↔ width = 4 ∧ off.toNat % 4 = 0 := by
  simp [wholeWord]

theorem mem_allRegs (r : Reg) : r ∈ allRegs := by cases r <;> decide

theorem regAt_offset (r : Reg) : regAt r.offset = some r := by cases r <;> rfl

theorem offset_of_regAt {off : Nat} {r : Reg} (h : regAt off = some r) : r.offset = off := by
  simpa using List.find?_some h

theorem regAt_eq_none_iff {off : Nat} : regAt off = none ↔ ∀ r ∈ allRegs, r.offset ≠ off := by
  simp [regAt]

/-- Every register stands at a multiple of 4 in the register space. -/
theorem offset_aligned (r : Reg) : r.offset < 2 ^ 9 ∧ r.offset % 4 = 0 := by cases r <;> decide

theorem toNat_regOffset (r : Reg) : (BitVec.ofNat 9 r.offset).toNat = r.offset := by
  rw [BitVec.toNat_ofNat, Nat.mod_eq_of_lt (offset_aligned r).1]

theorem wholeWord_offset (r : Reg) : wholeWord 4 (BitVec.ofNat 9 r.offset) = true :=
  wholeWord_iff.2 ⟨rfl, by rw [toNat_regOffset]; exact (offset_aligned r).2⟩

/-! ## A step on each register action -/

section
variable {s : State} {rest : List HostAct} {off : RegOffset} {v : Word}

theorem step_readReg (next : s.host = .readReg 4 off :: rest) (aligned : off.toNat % 4 = 0) :
    step s = .next { s with host := rest, reply := .word ((s.takeHost rest).readOffset off) } := by
  rw [step_of_host next, perform, if_pos (wholeWord_iff.2 ⟨rfl, aligned⟩)]
  rfl

theorem step_writeReg (next : s.host = .writeReg 4 off v :: rest) (aligned : off.toNat % 4 = 0)
    (not_cmd : regAt off.toNat ≠ some .cmd) :
    step s = .next (((s.takeHost rest).writeOffset off v).answer .nothing) := by
  rw [step_of_host next, perform, if_pos (wholeWord_iff.2 ⟨rfl, aligned⟩), if_neg not_cmd]

theorem writeOffset_listed {r : Reg} (listed : regAt off.toNat = some r) (s : State) :
    s.writeOffset off v = s.writeReg r v := by
  simp only [State.writeOffset, listed]

theorem writeOffset_unlisted (unlisted : regAt off.toNat = none) (s : State) : s.writeOffset off v = s := by
  simp only [State.writeOffset, unlisted]

theorem readOffset_listed {r : Reg} (listed : regAt off.toNat = some r) (s : State) :
    s.readOffset off = s.readReg r := by
  simp only [State.readOffset, listed]

theorem readOffset_unlisted (unlisted : regAt off.toNat = none) (s : State) : s.readOffset off = 0 := by
  simp only [State.readOffset, unlisted]

end

/-- Settles O5: a word at offset 0 is a write of `CMD`, which issues it. -/
theorem stepRunsCommand : Obligations.StepRunsCommand := by
  intro s rest w i next decodes
  have cmd : regAt (0 : RegOffset).toNat = some .cmd := rfl
  rw [step_of_host next, perform, if_pos (wholeWord_iff.2 ⟨rfl, rfl⟩), if_pos cmd, issue, decodes]
  rfl

theorem readReg_takeHost (s : State) (rest : List HostAct) (r : Reg) : (s.takeHost rest).readReg r = s.readReg r :=
  readReg_ownFields s s.memEpoch s.draws rest r

/-- Settles O55: the register at the offset, if the tables list one, is the one the table's line names. -/
theorem registerReads : Obligations.RegisterReads := by
  intro s rest off next aligned
  refine ⟨_, step_readReg next aligned, ?_⟩
  simp only [registerTable_eq, List.mem_map, Prod.mk.injEq]
  cases found : regAt off.toNat with
  | some r =>
    have at_off := offset_of_regAt found
    rw [readOffset_listed found, readReg_takeHost]
    have only : ∀ q : Reg, q.offset = off.toNat → q = r := fun q same =>
      Option.some.inj ((regAt_offset q).symm.trans (same ▸ found))
    refine ⟨?_, fun none => ?_, fun q _ same => by rw [only q same], fun none => ?_⟩
    · rintro n ⟨q, -, same, rfl⟩
      rw [only q same]
    · exact absurd ⟨r, mem_allRegs r, at_off, rfl⟩ (none _)
    · exact absurd at_off (none r (mem_allRegs r))
  | none =>
    have unlisted := regAt_eq_none_iff.1 found
    rw [readOffset_unlisted found]
    refine ⟨?_, fun _ => rfl, fun q mem same => absurd same (unlisted q mem), fun _ => rfl⟩
    rintro n ⟨q, mem, same, -⟩
    exact absurd same (unlisted q mem)

/-! ## What a register write changes (R21) -/

theorem toNat_readReg_writeReg_self (s : State) (v : Word) :
    ∀ p ∈ writableRegs, ((s.writeReg p.1 v).readReg p.1).toNat = v.toNat % 2 ^ p.2 := by
  have word := v.isLt
  simp only [writableRegs, List.forall_mem_cons, State.writeReg, State.readReg, BitVec.toNat_setWidth,
    List.not_mem_nil, IsEmpty.forall_iff, implies_true, and_true]
  omega

theorem writeReg_frBase (s : State) (v : Word) :
    s.writeReg .frBase v = if s.framerIdle then { s with frBase := v } else s := rfl

theorem writeReg_frCap (s : State) (v : Word) :
    s.writeReg .frCap v = if s.framerIdle then { s with frCap := v } else s := rfl

/-- A register write shows in the register alone, and in `STATUS.IRQ` when it is `IE`. -/
theorem readReg_writeReg_other (s : State) (v : Word) {r q : Reg} (other : q ≠ r) (irq : q = .status → r ≠ .ie) :
    (s.writeReg r v).readReg q = s.readReg q := by
  cases r with
  | frBase =>
    rw [writeReg_frBase]
    split
    · cases q <;> first | rfl | exact absurd rfl other
    · rfl
  | frCap =>
    rw [writeReg_frCap]
    split
    · cases q <;> first | rfl | exact absurd rfl other
    · rfl
  | ie => cases q <;> first | rfl | exact absurd rfl other | exact absurd rfl (irq rfl)
  | cmd | status | errInfo | res0 | res1 | res2 | res3 | frFlen | frLen | hHlen | pAlarm | pStatus | pLat | pLon | pAlt |
    pSpeed | pBear | pDate | pTime | pAuxN | gPresent => rfl
  | _ => cases q <;> first | rfl | exact absurd rfl other

theorem mem_writeReg (s : State) (r : Reg) (v : Word) :
    (s.writeReg r v).mem = s.mem ∧ (s.writeReg r v).memEpoch = s.memEpoch ∧ (s.writeReg r v).host = s.host := by
  cases r with
  | frBase => rw [writeReg_frBase]; split <;> exact ⟨rfl, rfl, rfl⟩
  | frCap => rw [writeReg_frCap]; split <;> exact ⟨rfl, rfl, rfl⟩
  | _ => exact ⟨rfl, rfl, rfl⟩

theorem readReg_answer (s : State) (a : Reply) (r : Reg) : (s.answer a).readReg r = s.readReg r := by
  cases r <;> rfl

theorem writable_ne_cmd : ∀ p ∈ writableRegs, p.1 ≠ .cmd := by decide

/-- Settles O56: the write is the model's `writeReg` of the register at its own offset. -/
theorem registerWrites : Obligations.RegisterWrites := by
  intro s rest r width v next writable
  have listed : regAt (BitVec.ofNat 9 r.offset).toNat = some r := by rw [toNat_regOffset, regAt_offset]
  have not_cmd : regAt (BitVec.ofNat 9 r.offset).toNat ≠ some .cmd := by
    rw [listed]
    exact fun same => writable_ne_cmd _ writable (Option.some.inj same)
  have run := step_writeReg next (wholeWord_iff.1 (wholeWord_offset r)).2 not_cmd
  rw [writeOffset_listed listed] at run
  obtain ⟨mem, epoch, host⟩ := mem_writeReg (s.takeHost rest) r v
  refine ⟨_, run, ?_, fun q other irq => ?_, sameMemory_of mem epoch, host⟩
  · rw [readReg_answer]
    exact toNat_readReg_writeReg_self _ v _ writable
  · rw [readReg_answer, readReg_writeReg_other _ v other irq, readReg_takeHost]

theorem framerIdle_iff {s : State} : s.framerIdle = true ↔ s.frs = .hunt ∧ s.frv = false := by
  simp [State.framerIdle]

theorem writeReg_readOnly (s : State) (v : Word) : ∀ r ∈ readOnlyRegs, s.writeReg r v = s := by
  simp only [readOnlyRegs, List.forall_mem_cons]
  and_intros
  iterate 20 rfl
  exact List.forall_mem_nil _

theorem readOnly_ne_cmd : ∀ r ∈ readOnlyRegs, r ≠ .cmd := by decide

/-- Settles O57: the offset's register, if there is one, decides what the write does. -/
theorem guardedWrites : Obligations.GuardedWrites := by
  intro s rest off v next aligned
  have run : ∀ {r : Reg}, regAt off.toNat = some r → r ≠ .cmd →
      step s = .next (((s.takeHost rest).writeReg r v).answer .nothing) := fun {r} listed not_cmd => by
    rw [step_writeReg next aligned (by rw [listed]; exact fun same => not_cmd (Option.some.inj same)),
      writeOffset_listed listed]
  refine ⟨?_, ?_, ?_, ?_, fun unlisted => ?_⟩
  · rintro rfl
    rw [run (r := .frBase) rfl (by decide), writeReg_frBase]
    by_cases idle : s.frs = .hunt ∧ s.frv = false
    · have stored : (s.takeHost rest).framerIdle = true := framerIdle_iff.2 idle
      rw [if_pos stored, if_pos idle]; rfl
    · have kept : ¬(s.takeHost rest).framerIdle = true := fun stored => idle (framerIdle_iff.1 stored)
      rw [if_neg kept, if_neg idle]; rfl
  · rintro rfl
    rw [run (r := .frCap) rfl (by decide), writeReg_frCap]
    by_cases idle : s.frs = .hunt ∧ s.frv = false
    · have stored : (s.takeHost rest).framerIdle = true := framerIdle_iff.2 idle
      rw [if_pos stored, if_pos idle]; rfl
    · have kept : ¬(s.takeHost rest).framerIdle = true := fun stored => idle (framerIdle_iff.1 stored)
      rw [if_neg kept, if_neg idle]; rfl
  · rintro rfl
    exact run (r := .dropCnt) rfl (by decide)
  · rintro ⟨r, read_only, at_off⟩
    rw [run (at_off ▸ regAt_offset r) (readOnly_ne_cmd r read_only), writeReg_readOnly _ v r read_only]
    rfl
  · have none := regAt_eq_none_iff.2 unlisted
    rw [step_writeReg next aligned (by rw [none]; exact nofun), writeOffset_unlisted none]
    rfl

/-! ## The memory port (R65) -/

section
variable {s : State} {rest : List HostAct} {a : Nat}

theorem step_readMem (next : s.host = .readMem a :: rest) (inMem : InMem a 1) :
    step s = .next ((s.takeHost rest).answer (.byte (s.byteAt a))) := by
  rw [step_of_host next, perform, if_pos (show a < Config.params.memSize from inMem)]
  rfl

theorem step_writeMem {b : Byte} (next : s.host = .writeMem a b :: rest) (inMem : InMem a 1) :
    step s = .next (((s.takeHost rest).store a [b]).answer .nothing) := by
  rw [step_of_host next, perform, if_pos (show a < Config.params.memSize from inMem)]

end

/-- Settles O58. -/
theorem memoryPort : Obligations.MemoryPort := by
  intro s rest a b inMem
  refine ⟨fun next => ⟨_, step_readMem next inMem, rfl, sameMemory_of rfl rfl, rfl⟩,
    fun next => ⟨_, step_writeMem next inMem, rfl, stored_of rfl rfl, rfl⟩⟩

/-! ## Refusals (R64, R65) -/

/-- A host action the block does not have. -/
def BadAccess (a : HostAct) : Prop :=
  (∃ width off, (a = .readReg width off ∨ ∃ v, a = .writeReg width off v) ∧ (width ≠ 4 ∨ off.toNat % 4 ≠ 0)) ∨
    ∃ k, (a = .readMem k ∨ ∃ b, a = .writeMem k b) ∧ ¬InMem k 1

theorem wholeWord_eq_false_iff {width : Nat} {off : RegOffset} :
    ¬wholeWord width off = true ↔ width ≠ 4 ∨ off.toNat % 4 ≠ 0 := by
  rw [wholeWord_iff, not_and_or]

theorem raiseIllegal_eq (w : Word) (s : State) : raiseIllegal w s = .next (s.raise .illegal w.toNat) :=
  runCommand_error (r := ⟨.illegal, w.toNat⟩) rfl

/-- A write of `CMD` ends in a next state: the command runs, or the word is illegal. -/
theorem issue_cases (w : Word) (s : State) :
    (∃ i t, decode w = .ok i ∧ exec i (s.writeCmd w) = .next t ∧ issue w s = .next t) ∨
      issue w s = .next ((s.writeCmd w).raise .illegal w.toNat) := by
  unfold issue
  split
  case h_1 i decodes =>
    obtain ⟨t, run⟩ := exec_next i (s.writeCmd w)
    exact .inl ⟨i, t, decodes, run, run⟩
  case h_2 => exact .inr (raiseIllegal_eq w _)

theorem badAccess_of_refused {a : HostAct} {s : State} {r : Refusal} (h : perform a s = .refused r) : BadAccess a := by
  cases a with
  | readReg width off =>
    rw [perform] at h
    split at h
    case isTrue => cases h
    case isFalse bad => exact .inl ⟨width, off, .inl rfl, wholeWord_eq_false_iff.1 bad⟩
  | writeReg width off v =>
    rw [perform] at h
    split at h
    case isTrue =>
      split at h
      case isTrue =>
        obtain ⟨i, t, -, -, run⟩ | illegal := issue_cases v (s.answer .nothing)
        · cases run.symm.trans h
        · cases illegal.symm.trans h
      case isFalse => cases h
    case isFalse bad => exact .inl ⟨width, off, .inr ⟨v, rfl⟩, wholeWord_eq_false_iff.1 bad⟩
  | readMem k =>
    rw [perform] at h
    split at h
    case isTrue => cases h
    case isFalse bad => exact .inr ⟨k, .inl rfl, bad⟩
  | writeMem k b =>
    rw [perform] at h
    split at h
    case isTrue => cases h
    case isFalse bad => exact .inr ⟨k, .inr ⟨b, rfl⟩, bad⟩
  | reset => cases h

/-- Settles O59: each access is checked first of all, and past the check every action ends in a next state. -/
theorem stepRefusesOnlyBadAccesses : Obligations.StepRefusesOnlyBadAccesses := by
  intro s
  refine ⟨fun rest width off next bad => ?_, fun rest width off v next bad => ?_, fun rest a next outside => ?_,
    fun rest a b next outside => ?_, fun idle => ?_, fun r refused => ?_⟩
  · rw [step_of_host next, perform, if_neg (wholeWord_eq_false_iff.2 bad)]
  · rw [step_of_host next, perform, if_neg (wholeWord_eq_false_iff.2 bad)]
  · rw [step_of_host next, perform, if_neg (show ¬a < Config.params.memSize from outside)]
  · rw [step_of_host next, perform, if_neg (show ¬a < Config.params.memSize from outside)]
  · simp only [step, idle]
  · cases next : s.host with
    | nil => simp [step, next] at refused
    | cons a rest => exact ⟨a, rest, rfl, badAccess_of_refused ((step_of_host next).symm.trans refused)⟩

/-! ## The invariant, step by step -/

/-- Settles O53. -/
theorem resetHasInv : Obligations.ResetHasInv := by
  refine ⟨⟨rfl, nofun⟩, ⟨fun _ => rfl, Nat.le_refl _, nofun, fun _ => rfl, Nat.le_refl _, nofun⟩, ⟨rfl, fun _ => rfl⟩, ?_⟩
  have zero : stampFieldsOk 0 := by unfold stampFieldsOk; decide
  exact ⟨zero, zero, .inl rfl⟩

theorem raise_keeps_inv {s : State} {c : ErrCode} (n : Nat) (inv : s.Inv) (raised : neverRaised c = false)
    (error : c ≠ .ok) : (s.raise c n).Inv := by
  obtain ⟨mem, framer, -, decoded⟩ := inv
  exact ⟨mem, framer, ⟨raised, fun ok => absurd ok error⟩, decoded⟩

theorem issue_keeps_inv {w : Word} {s t : State} (inv : s.Inv) (run : issue w s = .next t) : t.Inv := by
  have started : (s.writeCmd w).Inv := inv
  obtain ⟨i, u, -, done, issued⟩ | illegal := issue_cases w s
  · cases issued.symm.trans run
    exact exec_keeps_inv started done
  · cases illegal.symm.trans run
    exact raise_keeps_inv _ started rfl (by decide)

/-- The window registers move only while the framer is idle, when nothing hangs on them. -/
theorem framerOk_of_idle {s : State} (idle : s.framerIdle = true) (h : s.framerOk) (base cap : Word) :
    ({ s with frBase := base, frCap := cap } : State).framerOk := by
  obtain ⟨zero, -, held, none_held, -, -⟩ := h
  obtain ⟨hunt, free⟩ := framerIdle_iff.1 idle
  have len : s.frLen = 0 := zero (by rw [hunt]; decide)
  have flen : s.frFlen = 0 := none_held free
  refine ⟨zero, ?_, held, none_held, ?_, fun busy => ?_⟩
  · rw [len]; exact Nat.zero_le _
  · rw [flen]; exact Nat.zero_le _
  · cases idle.symm.trans busy

theorem writeReg_keeps_inv {s : State} (r : Reg) (v : Word) (inv : s.Inv) : (s.writeReg r v).Inv := by
  cases r with
  | frBase =>
    obtain ⟨mem, framer, report, decoded⟩ := inv
    rw [writeReg_frBase]
    split
    case isTrue idle => exact ⟨mem, framerOk_of_idle idle framer v s.frCap, report, decoded⟩
    case isFalse => exact ⟨mem, framer, report, decoded⟩
  | frCap =>
    obtain ⟨mem, framer, report, decoded⟩ := inv
    rw [writeReg_frCap]
    split
    case isTrue idle => exact ⟨mem, framerOk_of_idle idle framer s.frBase v, report, decoded⟩
    case isFalse => exact ⟨mem, framer, report, decoded⟩
  | _ => exact inv

theorem writeOffset_keeps_inv {s : State} (off : RegOffset) (v : Word) (inv : s.Inv) : (s.writeOffset off v).Inv := by
  cases found : regAt off.toNat with
  | some r => rw [writeOffset_listed found]; exact writeReg_keeps_inv r v inv
  | none => rw [writeOffset_unlisted found]; exact inv

theorem store_keeps_inv {s : State} {d : Nat} {bs : List Byte} (inMem : InMem d bs.length) (inv : s.Inv) :
    (s.store d bs).Inv := by
  obtain ⟨mem, framer, report, decoded⟩ := inv
  exact ⟨memOk_store mem inMem, framer, report, decoded⟩

theorem perform_keeps_inv {a : HostAct} {s t : State} (inv : s.Inv) (run : perform a s = .next t) : t.Inv := by
  cases a with
  | readReg width off =>
    rw [perform] at run
    split at run
    case isTrue => cases run; exact inv
    case isFalse => cases run
  | writeReg width off v =>
    rw [perform] at run
    split at run
    case isTrue =>
      split at run
      case isTrue => exact issue_keeps_inv (s := s.answer .nothing) inv run
      case isFalse => cases run; exact writeOffset_keeps_inv off v inv
    case isFalse => cases run
  | readMem k =>
    rw [perform] at run
    split at run
    case isTrue => cases run; exact inv
    case isFalse => cases run
  | writeMem k b =>
    rw [perform] at run
    split at run
    case isTrue inMem => cases run; exact store_keeps_inv (bs := [b]) inMem inv
    case isFalse => cases run
  | reset => cases run; exact resetHasInv

/-- Settles O52: each host action keeps the invariant, a command by its effect. -/
theorem stepKeepsInv : Obligations.StepKeepsInv := by
  intro s t inv run
  cases next : s.host with
  | nil =>
    simp only [step, next, Host.Outcome.next.injEq] at run
    exact run ▸ inv
  | cons a rest => exact perform_keeps_inv (s := s.takeHost rest) inv ((step_of_host next).symm.trans run)

end Sys2Proof
end

section
/-! The framer at work (41_framer.md R130 to R136): what `FEED` does with one byte, and what `FEEDM` does with a block,
whole or split. -/

namespace Sys2Proof

open Sys2Proof.Machine

/-! ## `FEED` (R131) -/

section
variable {b : Nat} {s t : State} (free : s.frv = false) (window : InMem s.frBase.toNat s.frCap.toNat)
include free window

theorem exec_feed_consumed (step : frStep Config.params (BitVec.ofNat 8 b) s.begin = (t, .consumed)) :
    exec (.feed b) s = .next { t with res0 := 0 } := by
  refine runCommand_ok (feed_ok_iff.2 ⟨free, region_iff_inMem.2 window, ?_⟩)
  rw [step]

theorem exec_feed_closed (step : frStep Config.params (BitVec.ofNat 8 b) s.begin = (t, .closed)) :
    exec (.feed b) s = .next { t with res0 := 1 } := by
  refine runCommand_ok (feed_ok_iff.2 ⟨free, region_iff_inMem.2 window, ?_⟩)
  rw [step]

end

/-- Settles O7: each clause is one arm of `FrStep`. -/
theorem feedTakesByte : Obligations.FeedTakesByte := by
  intro b s byte free window
  refine ⟨fun hunt is_delim => ?_, fun hunt other => ?_, fun inside is_delim => ?_, fun inside other room => ?_,
    fun discard is_delim => ?_, fun discard other => ?_⟩
  · subst is_delim
    exact ⟨_, exec_feed_consumed free window (frStep_open hunt), sameMemory_of rfl rfl, rfl⟩
  · have step := frStep_outside (P := Config.params) (s := s.begin) hunt (byte_ne_delim byte other)
    rw [dropByte_eq] at step
    exact ⟨_, exec_feed_consumed free window step, sameMemory_of rfl rfl, rfl⟩
  · subst is_delim
    have step := frStep_delim (P := Config.params) (s := s.begin) inside
    by_cases skipped : s.frLen = 0 ∧ Config.params.emptyFrame = .skip
    · rw [if_pos (show s.begin.frLen = 0 ∧ _ from skipped)] at step
      exact ⟨_, exec_feed_consumed free window step, sameMemory_of rfl rfl, by rw [if_pos skipped]⟩
    · rw [if_neg (show ¬(s.begin.frLen = 0 ∧ _) from skipped)] at step
      exact ⟨_, exec_feed_closed free window step, sameMemory_of rfl rfl, by rw [if_neg skipped]; rfl⟩
  · have step := frStep_content (P := Config.params) (s := s.begin) inside (byte_ne_delim byte other) room
    exact ⟨_, exec_feed_consumed free window step, stored_of rfl rfl, rfl⟩
  · subst is_delim
    exact ⟨_, exec_feed_consumed free window (frStep_resume discard), sameMemory_of rfl rfl, rfl⟩
  · have step := frStep_discard (P := Config.params) (s := s.begin) discard (byte_ne_delim byte other)
    rw [dropByte_eq] at step
    exact ⟨_, exec_feed_consumed free window step, sameMemory_of rfl rfl, rfl⟩

/-! ## `FEEDM` on the bytes of one frame (R132) -/

/-- The candidate after the bytes that open it and content that fits. -/
def candidateGrown (s : State) (content : List Byte) (dropped : Nat) : State :=
  { s.store (s.frBase.toNat + s.collected) content with
    frs := .inFrame, frLen := BitVec.ofNat 32 (s.collected + content.length), dropCnt := satAdd s.dropCnt dropped }

/-- The bytes that open a candidate, then content that fits: the block feed goes on inside the grown candidate, and reads
what follows as the source holds it. -/
theorem feedLoop_candidate {s : State} {lead content rest : List Byte} {dropped : Nat} (ready : FeedReady s)
    (opens : OpensFrame s lead dropped) (source : s.source = lead ++ (content ++ rest)) (no_delim : delim ∉ content)
    (fits : s.collected + content.length ≤ s.frCap.toNat) :
    feedLoop Config.params s.src s.srcLen 0 s =
        feedLoop Config.params s.src rest.length (lead.length + content.length) (candidateGrown s content dropped) ∧
      (candidateGrown s content dropped).ReadsAt (s.src + (lead.length + content.length)) rest := by
  have length_eq : s.srcLen = lead.length + (content.length + rest.length) := by
    simpa [State.source] using congrArg List.length source
  have open_len := candidateOpen_len dropped (Nat.le_trans (Nat.le_add_right _ _) fits)
  obtain ⟨read_lead, read_tail⟩ := State.readsAt_append.1 (State.readsAt_source source)
  obtain ⟨read_content, read_rest⟩ := State.readsAt_append.1 read_tail
  have grown : (candidateOpen s dropped).collect content = candidateGrown s content dropped :=
    collect_candidateOpen dropped (Nat.le_trans (Nat.le_add_right _ _) fits)
  have content_stored := feedLoop_content Config.params s.src content rest.length (0 + lead.length)
    (candidateOpen s dropped) rfl no_delim (by rw [open_len]; exact fits)
    (fun j hj => by
      have outside := source_outside_window ready (j := lead.length + j) (by omega)
      show _ < s.frBase.toNat ∨ s.frBase.toNat + s.frCap.toNat ≤ _
      omega)
    (by rw [Nat.zero_add]; exact read_content)
  constructor
  · calc feedLoop Config.params s.src s.srcLen 0 s
        = feedLoop Config.params s.src (content.length + rest.length) (0 + lead.length) (candidateOpen s dropped) := by
          rw [length_eq]; exact feedLoop_opens opens _ _ 0 read_lead
      _ = feedLoop Config.params s.src rest.length (lead.length + content.length)
            (candidateGrown s content dropped) := by rw [content_stored, grown, Nat.zero_add]
  · rw [Nat.add_assoc] at read_rest
    refine read_rest.congr fun j hj => ?_
    have outside := source_outside_window ready (j := lead.length + content.length + j) (by omega)
    show (s.store _ content).byteAt _ = _
    exact State.byteAt_store_outside _ _ _ _ (by omega)

theorem source_length {s : State} {l : List Byte} (source : s.source = l) : s.srcLen = l.length := by
  rw [← State.length_source, source]

/-- Settles O9: the delimiter after the content closes the candidate. -/
theorem feedmFindsFrame : Obligations.FeedmFindsFrame := by
  intro s lead content rest dropped n ready opens source no_delim nonempty fits
  have found := feedLoop_frame_found (s := s.begin) ready opens ((State.source_begin s).trans source) no_delim nonempty
    fits
  have run := execFeedm_done ready found
  have length := source_length source
  have bound := s.arg1.isLt
  have consumed : lead.length + content.length + 1 < 2 ^ 32 := by
    simp only [List.length_append, List.length_cons] at length
    have : s.srcLen = s.arg1.toNat := rfl
    omega
  rw [State.fit_of_lt _ consumed] at run
  exact ⟨_, run, stored_of rfl rfl, rfl⟩

/-- Settles O10: the content fills the window, and the byte after it overflows. -/
theorem feedmOverflows : Obligations.FeedmOverflows := by
  intro s lead content rest b dropped ready opens source no_delim not_delim full
  obtain ⟨goes_on, reads⟩ := feedLoop_candidate (s := s.begin) ready opens ((State.source_begin s).trans source) no_delim
    full.le
  have next_byte := (State.readsAt_cons.1 reads).1
  have window_full : (candidateGrown s.begin content dropped).frLen = s.frCap := by
    show BitVec.ofNat 32 (s.collected + content.length) = s.frCap
    rw [full, BitVec.ofNat_toNat, BitVec.setWidth_eq]
  have step := frStep_full (P := Config.params) (s := candidateGrown s.begin content dropped) rfl not_delim window_full
  rw [← next_byte] at step
  have run := execFeedm_overflowed ready (goes_on.trans (feedLoop_overflow step))
  have length := source_length source
  have bound := s.arg1.isLt
  have consumed : lead.length + content.length < 2 ^ 32 := by
    simp only [List.length_append, List.length_cons] at length
    have : s.srcLen = s.arg1.toNat := rfl
    omega
  rw [State.raise, State.fit_of_lt _ consumed, dropByte_eq] at run
  refine ⟨_, run, stored_of rfl rfl, ?_⟩
  rw [← satAdd_satAdd]
  rfl

/-! ## `FEEDM` on bytes that end no frame (R132, R136) -/

/-- A `FEEDM` that consumes its whole source returns its length. -/
theorem exec_feedm_all {s u : State} (ready : FeedReady s)
    (all : feedLoop Config.params s.src s.srcLen 0 s.begin = .done u s.srcLen false) (draws : u.draws = s.draws) :
    exec .feedm s = .next { u with res0 := s.arg1, res1 := 0 } := by
  have run := execFeedm_done ready all
  have length : u.fit s.srcLen = s.arg1 := (State.fit_congr draws _).trans (s.fit_toNat s.arg1)
  rw [length] at run
  exact run

theorem feedLoop_all_dropped {s : State} (outside : s.frs ≠ .inFrame) (no_delim : delim ∉ s.source) :
    feedLoop Config.params s.src s.srcLen 0 s =
      .done { s with dropCnt := satAdd s.dropCnt s.srcLen } s.srcLen false := by
  have reads := State.readsAt_source (s := s) rfl
  have hunt_or_discard : s.frs = .hunt ∨ s.frs = .discard := by
    revert outside
    cases s.frs <;> simp
  have dropped : feedLoop Config.params s.src (s.source.length + 0) 0 s =
      feedLoop Config.params s.src 0 (0 + s.source.length) { s with dropCnt := satAdd s.dropCnt s.source.length } := by
    obtain hunt | discard := hunt_or_discard
    · exact feedLoop_outside Config.params s.src s.source 0 0 s hunt no_delim reads
    · exact feedLoop_discard Config.params s.src s.source 0 0 s discard no_delim reads
  rw [State.length_source, Nat.zero_add, Nat.add_zero] at dropped
  exact dropped

/-- The rest of an oversized frame, its delimiter, and bytes outside any frame. -/
theorem feedLoop_discard_ended {s : State} {tail junk : List Byte} (discard : s.frs = .discard)
    (source : s.source = tail ++ delim :: junk) (no_tail : delim ∉ tail) (no_junk : delim ∉ junk) :
    feedLoop Config.params s.src s.srcLen 0 s =
      .done { s with frs := .hunt, dropCnt := satAdd s.dropCnt (tail.length + junk.length) } s.srcLen false := by
  have length : s.srcLen = tail.length + (junk.length + 1) := by
    rw [source_length source, List.length_append, List.length_cons]
  obtain ⟨read_tail, read_rest⟩ := State.readsAt_append.1 (State.readsAt_source source)
  obtain ⟨read_delim, read_junk⟩ := State.readsAt_cons.1 read_rest
  have step := frStep_resume (P := Config.params) (s := { s with dropCnt := satAdd s.dropCnt tail.length }) discard
  rw [← read_delim] at step
  have dropped := feedLoop_discard Config.params s.src tail (junk.length + 1) 0 s discard no_tail read_tail
  rw [Nat.zero_add] at dropped
  have after := feedLoop_outside Config.params s.src junk 0 (tail.length + 1)
    { s with frs := .hunt, dropCnt := satAdd s.dropCnt tail.length } rfl no_junk
    (by rw [← Nat.add_assoc]; exact read_junk)
  calc feedLoop Config.params s.src s.srcLen 0 s
      = feedLoop Config.params s.src (junk.length + 1) tail.length
          { s with dropCnt := satAdd s.dropCnt tail.length } := by rw [length, dropped]
    _ = feedLoop Config.params s.src (junk.length + 0) (tail.length + 1)
          { s with frs := .hunt, dropCnt := satAdd s.dropCnt tail.length } := feedLoop_consumed step
    _ = .done { s with frs := .hunt, dropCnt := satAdd s.dropCnt (tail.length + junk.length) } s.srcLen false := by
          rw [after, satAdd_satAdd, length, Nat.add_assoc, Nat.add_comm 1]
          rfl

/-- Settles O11: each part of the block is one of the runs above. -/
theorem feedmAwaitsData : Obligations.FeedmAwaitsData := by
  intro s tail junk lead content dropped ready
  have source_begin := State.source_begin s
  refine ⟨fun outside no_delim => ?_, fun discard source no_tail no_junk => ?_, fun opens source no_delim fits => ?_⟩
  · have all := feedLoop_all_dropped (s := s.begin) outside (source_begin ▸ no_delim)
    exact ⟨_, exec_feedm_all ready all rfl, sameMemory_of rfl rfl, rfl⟩
  · have all := feedLoop_discard_ended (s := s.begin) discard (source_begin.trans source) no_tail no_junk
    exact ⟨_, exec_feedm_all ready all rfl, sameMemory_of rfl rfl, rfl⟩
  · have source_parts : s.begin.source = lead ++ (content ++ []) := by rw [source_begin, source, List.append_nil]
    obtain ⟨goes_on, -⟩ := feedLoop_candidate (s := s.begin) ready opens source_parts no_delim fits
    have length : lead.length + content.length = s.srcLen := by rw [source_length source, List.length_append]
    rw [length] at goes_on
    exact ⟨_, exec_feedm_all ready goes_on rfl, stored_of rfl rfl, rfl⟩

/-! ## A block fed in two parts -/

/-- A block feed consumes no more than its bytes. -/
theorem feedLoop_done_le {P : Params} {src n k k' : Nat} {s t : State} {closed : Bool}
    (h : feedLoop P src n k s = .done t k' closed) : k' ≤ k + n := by
  induction n generalizing k s with
  | zero =>
    cases h
    exact Nat.le_refl _
  | succ n ih =>
    cases step : frStep P (s.byteAt (src + k)) s with
    | mk u r =>
      cases r with
      | consumed =>
        rw [feedLoop_consumed step] at h
        have := ih h
        omega
      | closed =>
        rw [feedLoop_closed step] at h
        cases h
        omega
      | overflow =>
        rw [feedLoop_overflow step] at h
        cases h

/-- A `FEEDM` that reports no error has passed its checks, and its block feed is done. -/
theorem exec_feedm_ok {s t : State} (run : exec .feedm s = .next t) (no_error : t.err = .ok) :
    FeedReady s ∧ ∃ u k closed, feedLoop Config.params s.src s.srcLen 0 s.begin = .done u k closed ∧
      t = { u with res0 := u.fit k, res1 := if closed then 1 else 0 } := by
  have done := computed_of_no_error (raisesOnly_feedm Config.params s.begin) (by decide) run no_error
  obtain ⟨free, source, window, apart, answer⟩ := feedm_ok_iff.1 done
  refine ⟨⟨free, region_iff_inMem.1 source, region_iff_inMem.1 window, overlap_false_iff_apart.1 apart⟩, ?_⟩
  cases ended : feedLoop Config.params s.begin.src s.begin.srcLen 0 s.begin with
  | overflowed u k =>
    rw [ended] at answer
    subst answer
    cases no_error
  | done u k closed =>
    rw [ended] at answer
    exact ⟨u, k, closed, ended, answer⟩

/-- What a block feed leaves of the rest of the state: `t` is its start with the framer's part of `t`. -/
theorem feedLoop_rest {P : Params} {src n k k' : Nat} {s t : State} {closed : Bool}
    (h : feedLoop P src n k s = .done t k' closed) : t = s.withFramerOf t := by
  have same : SameButFramer s (feedLoop P src n k s).state := feedLoop_frame P src n k s
  rw [h] at same
  have put_back := congrArg (fun x : State => x.withFramerOf t) same
  exact put_back

theorem mapState_eq_done {f : State → State} {e : FeedEnd} {t : State} {k : Nat} {closed : Bool}
    (h : e.mapState f = .done t k closed) : ∃ u, e = .done u k closed ∧ t = f u := by
  cases e with
  | done u k' c => cases h; exact ⟨u, rfl, rfl⟩
  | overflowed => cases h

theorem toNat_ofNat_of_lt {n : Nat} (h : n < 2 ^ 32) : (BitVec.ofNat 32 n).toNat = n := by
  rw [BitVec.toNat_ofNat, Nat.mod_eq_of_lt h]

/-- Settles O12: the loop over the whole block is the loop over its first part followed by the loop over the second, and
neither reads more of the state than the framer's part. -/
theorem feedmSplitsAnywhere : Obligations.FeedmSplitsAnywhere := by
  intro s t u m n ready whole_length below first_run first_ok first_open second_run second_ok
  have bound : m + n < 2 ^ 32 := whole_length ▸ s.arg1.isLt
  obtain ⟨-, t₁, k₁, closed, first, rfl⟩ := exec_feedm_ok first_run first_ok
  have not_closed : closed = false := by
    cases closed with
    | false => rfl
    | true => cases first_open
  subst not_closed
  have m_length : ({ s with arg1 := BitVec.ofNat 32 m } : State).srcLen = m := toNat_ofNat_of_lt (by omega)
  rw [m_length] at first
  obtain ⟨t₀, first₀, rfl⟩ := mapState_eq_done
    ((feedLoop_withFramerOf Config.params s.src m 0 { s.begin with arg1 := BitVec.ofNat 32 m } s.begin).symm.trans first)
  have k_all : m = k₁ := ((feedLoop_done_all first₀).trans (Nat.zero_add m)).symm
  subst k_all
  obtain ⟨-, u₁, k₂, closed, second, rfl⟩ := exec_feedm_ok second_run second_ok
  have src_eq : (BitVec.ofNat 32 (s.src + m)).toNat = s.src + m := toNat_ofNat_of_lt below
  have len_eq : (BitVec.ofNat 32 n).toNat = n := toNat_ofNat_of_lt (by omega)
  simp only [State.src, State.srcLen] at second src_eq
  rw [src_eq, len_eq] at second
  obtain ⟨u₀, second₀, rfl⟩ := mapState_eq_done ((feedLoop_withFramerOf Config.params (s.src + m) n 0 _ t₀).symm.trans
    second)
  have k₂_le : k₂ ≤ 0 + n := feedLoop_done_le second₀
  have whole : feedLoop Config.params s.src (m + n) 0 s.begin = .done u₀ (m + k₂) closed := by
    rw [feedLoop_add, first₀]
    exact (feedLoop_shift Config.params s.src m n 0 t₀).trans (by rw [second₀]; rfl)
  have framer_only : u₀ = s.begin.withFramerOf u₀ := feedLoop_rest whole
  have run := execFeedm_done ready (whole_length ▸ whole)
  rw [State.fit_of_lt _ (by omega), framer_only] at run
  rw [run, State.fit_of_lt _ (v := k₂) (by omega)]
  have summed : BitVec.ofNat 32 (m + k₂) = BitVec.ofNat 32 (m + (BitVec.ofNat 32 k₂).toNat) := by
    rw [toNat_ofNat_of_lt (by omega)]
  rw [summed]
  rfl

end Sys2Proof
end

section
/-! The checks of a command with a source and a destination, in their order (20_memory.md R67, R68, R305), and the
commands that are these checks around one computation: the escape codec (41_framer.md R142 to R144) and the checksum
(42_checksum.md R160 to R164). -/

namespace Sys2Proof

open Sys2Proof.Machine

/-! ## Regions and overlap (R67, R68) -/

theorem needSpace_fits {need cap : Nat} (fits : need ≤ cap) : needSpace need cap = .ok () := needSpace_ok_iff.2 fits

theorem needSpace_short {need cap : Nat} (short : cap < need) : needSpace need cap = .error ⟨.noSpace, need⟩ := by
  rw [needSpace, decide_eq_false (Nat.not_le.2 short)]; rfl

theorem needBuffers_of_buffersIn {s : State} {cap : Nat} (buffers : BuffersIn s cap) :
    needBuffers Config.params s cap = .ok () :=
  needBuffers_ok.2 (buffersOk_iff.2 buffers)

theorem needBuffers_source_outside {s : State} (cap : Nat) (source : ¬InMem s.src s.srcLen) :
    needBuffers Config.params s cap = .error ⟨.badOperand, s.src⟩ := by
  rw [needBuffers, needRegion_outside source]; rfl

theorem needBuffers_dest_outside {s : State} {cap : Nat} (source : InMem s.src s.srcLen) (dest : ¬InMem s.dst cap) :
    needBuffers Config.params s cap = .error ⟨.badOperand, s.dst⟩ := by
  rw [needBuffers, needRegion_inside source, needRegion_outside dest]; rfl

theorem needBuffers_overlapping {s : State} {cap : Nat} (source : InMem s.src s.srcLen) (dest : InMem s.dst cap)
    (overlapping : ¬Apart s.src s.srcLen s.dst cap) :
    needBuffers Config.params s cap = .error ⟨.badOperand, s.dst⟩ := by
  rw [needBuffers, needRegion_inside source, needRegion_inside dest, needDisjoint_overlapping overlapping]; rfl

/-- A command whose first act is the check of its buffers fails as the check does. -/
theorem exec_checks_buffers {i : Instr} {s : State} {cap : Nat} (dest : destinationBytes i s = some cap) :
    ∃ f, exec i s = runCommand f s ∧ ∀ r, needBuffers Config.params s cap = .error r → f s.begin = .error r := by
  have fails_first {α : Type} (rest : Unit → Except Raise α) (r : Raise)
      (h : needBuffers Config.params s cap = .error r) : (needBuffers Config.params s.begin cap >>= rest) = .error r := by
    rw [needBuffers_begin, h]; rfl
  cases i with
  | unesc => cases dest; exact ⟨_, rfl, fails_first _⟩
  | esc => cases dest; exact ⟨_, rfl, fails_first _⟩
  | fwrap => cases dest; exact ⟨_, rfl, fails_first _⟩
  | fdec => cases dest; exact ⟨_, rfl, fails_first _⟩
  | penc v => cases dest; exact ⟨_, rfl, fails_first _⟩
  | posdec => cases dest; exact ⟨_, rfl, fails_first _⟩
  | auxdec => cases dest; exact ⟨_, rfl, fails_first _⟩
  | pardec => cases dest; exact ⟨_, rfl, fails_first _⟩
  | geodec shape v =>
    cases shape with
    | polyline => cases dest; exact ⟨_, rfl, fails_first _⟩
    | _ => cases dest
  | _ => cases dest

/-- Settles O17: the command fails where the check of its buffers does. -/
theorem bufferRefusals : Obligations.BufferRefusals := by
  intro i s cap dest
  obtain ⟨f, run, fails⟩ := exec_checks_buffers dest
  exact ⟨fun source => failsWith_of run (fails _ (needBuffers_source_outside cap source)),
    fun source outside => failsWith_of run (fails _ (needBuffers_dest_outside source outside)),
    fun source inside overlapping => failsWith_of run (fails _ (needBuffers_overlapping source inside overlapping))⟩

/-! ## A codec command writes its output or refuses it (R142 to R144) -/

theorem writeOutput_too_long {out : List Byte} {s : State} (long : s.dstCap < out.length) :
    writeOutput out s = .error ⟨.noSpace, out.length⟩ := by
  rw [writeOutput, needSpace_short long]; rfl

/-- A command that computes `writeOutput out`: what it leaves when `out` fits, and its refusal when it does not. -/
theorem writesOutput {i : Instr} {f : State → Except Raise State} {s : State} {out : List Byte}
    (run : exec i s = runCommand f s) (writes : f s.begin = writeOutput out s.begin) :
    (out.length ≤ s.dstCap → ∃ t, exec i s = .next t ∧ Stored s t s.dst out ∧
      { t with mem := s.mem } = { s.begin with res0 := BitVec.ofNat 32 out.length }) ∧
    (s.dstCap < out.length → FailsWith i s .noSpace out.length) := by
  constructor
  · intro fits
    have done := writeOutput_ok_iff.2 ⟨show out.length ≤ s.begin.dstCap from fits, rfl⟩
    refine ⟨_, run.trans (runCommand_ok (writes.trans done)), stored_of rfl rfl, ?_⟩
    rw [State.fit_of_lt _ (Nat.lt_of_le_of_lt fits s.arg3.isLt)]
    rfl
  · exact fun long => failsWith_of run (writes.trans (writeOutput_too_long long))

section
variable {s : State} (buffers : BuffersIn s s.dstCap)
include buffers

theorem esc_begin_eq : esc Config.params s.begin = writeOutput (escape s.source) s.begin := by
  rw [esc, needBuffers_of_buffersIn (s := s.begin) (cap := s.begin.dstCap) buffers, State.source_begin]; rfl

theorem fwrap_begin_eq : fwrap Config.params s.begin = writeOutput (wireFrame s.source) s.begin := by
  rw [fwrap_eq_writeOutput (s := s.begin) buffers, State.source_begin]

theorem unesc_begin_eq : unesc Config.params s.begin = unescapeOr s.source >>= fun u => writeOutput u s.begin := by
  rw [unesc, needBuffers_of_buffersIn (s := s.begin) (cap := s.begin.dstCap) buffers, State.source_begin]; rfl

end

theorem unescapeOr_escape (u : List Byte) : unescapeOr (escape u) = .ok u := unescapeOr_ok_iff.2 (unescape_escape u)

theorem unescapeOr_bad {t : List Byte} {i : Nat} (bad : unescape t = .error i) :
    unescapeOr t = .error ⟨.framing, i⟩ := by
  rw [unescapeOr, bad]

/-- Settles O16: each command is the check of its buffers and one `writeOutput`. -/
theorem escapeCommands : Obligations.EscapeCommands := by
  intro s buffers
  refine ⟨writesOutput rfl (esc_begin_eq buffers), writesOutput rfl (fwrap_begin_eq buffers), fun u source => ?_,
    fun i bad => ?_⟩
  · exact writesOutput rfl ((unesc_begin_eq buffers).trans (by rw [source, unescapeOr_escape]; rfl))
  · exact failsWith_of rfl ((unesc_begin_eq buffers).trans (by rw [unescapeOr_bad bad]; rfl))

/-! ## The checksum (R160, R163, R164) -/

/-- The state `XAPP` leaves, its source one byte longer. -/
def appendedSource (s : State) : State := { checksumAppended s with arg1 := (checksumAppended s).res1 }

section
variable {s : State} (fits : s.srcLen + 1 < 2 ^ 32)
include fits

theorem appendedSource_srcLen : (appendedSource s).srcLen = s.srcLen + 1 := checksumAppended_res1 fits

theorem computedChecksum_appendedSource : computedChecksum (appendedSource s) = xorAll s.source := by
  obtain ⟨-, outside⟩ := stored_checksumAppended s
  have kept : (appendedSource s).bytesAt s.src s.srcLen = s.source :=
    State.bytesAt_congr fun k below => outside _ (.inl (by omega))
  rw [computedChecksum, appendedSource_srcLen fits, Nat.add_sub_cancel]
  exact congrArg xorAll kept

theorem receivedChecksum_appendedSource : receivedChecksum (appendedSource s) = xorAll s.source := by
  obtain ⟨inside, -⟩ := stored_checksumAppended s
  rw [receivedChecksum, appendedSource_srcLen fits, ← Nat.add_assoc, Nat.add_sub_cancel]
  exact inside 0 Nat.one_pos

end

/-- Settles O20: `XCHK` compares the appended byte with the exclusive-or it was computed from. -/
theorem appendedChecksumVerifies : Obligations.AppendedChecksumVerifies := by
  intro s t source fits run
  obtain rfl : checksumAppended s = t := Host.Outcome.next.inj ((exec_xapp_inMem source).symm.trans run)
  have longer := appendedSource_srcLen fits
  have computed := computedChecksum_appendedSource fits
  have verified := exec_xchk_matching (s := appendedSource s) (by rw [longer]; exact source)
    (by rw [longer]; exact Nat.succ_ne_zero _) (computed.trans (receivedChecksum_appendedSource fits).symm)
  rw [computed] at verified
  exact ⟨_, verified, rfl, rfl, sameMemory_of rfl rfl⟩

theorem xorAll_append_singleton_eq_zero_iff (p : List Byte) (c : Byte) : xorAll (p ++ [c]) = 0 ↔ xorAll p = c := by
  rw [xorAll_append, xorAll_singleton]
  exact BitVec.xor_eq_zero_iff

/-- A change of one byte changes the exclusive-or by the same bits. -/
theorem xorAll_flip (u v : List Byte) (b flip : Byte) :
    xorAll (u ++ (b ^^^ flip) :: v) = xorAll (u ++ b :: v) ^^^ flip := by
  simp only [xorAll_append, xorAll]
  ac_rfl

theorem oneBit_ne_zero {k : Nat} (byte : k < 8) : (1#8 <<< k : Byte) ≠ 0 := by
  interval_cases k <;> decide

/-- Settles O21: a flipped bit stands alone in the exclusive-or of the changed packet. -/
theorem singleBitFlipDetected : Obligations.SingleBitFlipDetected := by
  refine ⟨fun p c => (xorAll_append_singleton_eq_zero_iff p c).symm, fun u v b k byte verifies => ?_⟩
  rw [xorAll_flip, verifies]
  exact fun zero => oneBit_ne_zero byte (BitVec.zero_xor.symm.trans zero)

end Sys2Proof
end

section
/-! `HDEC`, `HENC` and `FDEC` (43_header.md R173 to R177): what each leaves, and what it refuses, from the outcomes of
`ParseHeader` and the shape of a built header. -/

namespace Sys2Proof

open Sys2Proof.Machine

/-! ## `HDEC` (R174) -/

theorem v2019Flag_eq {attr : Half} {tagged : Bool} (is_tagged : attr.getLsbD 14 = tagged) :
    v2019Flag attr = if tagged then 1 else 0 := by rw [v2019Flag, is_tagged]

/-- The header of a packet is as long as its `H_ATTR` word says (R93). -/
theorem length_headerBytes_hLen {tagged frag : Bool} {msgId attr : Half} {ver : Byte} {ident : List Byte}
    {seq ftot fidx : Half} (is_tagged : attr.getLsbD 14 = tagged) (is_frag : attr.getLsbD 13 = frag)
    (width : ident.length = if tagged then 10 else 6) :
    (headerBytes tagged frag msgId attr ver ident seq ftot fidx).length = hLen attr := by
  rw [length_headerBytes width, hLen_eq, is_tagged, is_frag]

/-- Settles O24: the header parsed, `RES0` is the source's start and the header's length. -/
theorem headerDecoded : Obligations.HeaderDecoded := by
  intro s tagged frag msgId attr ver ident seq ftot fidx body inside source is_tagged is_frag width size bcd
  have parsed := parseHeader_headerBytes (P := Config.params) (msgId := msgId) (ver := ver) (seq := seq) (ftot := ftot)
    (fidx := fidx) body is_tagged is_frag width size bcd
  rw [← source, ← State.source_begin] at parsed
  have length : s.srcLen = hLen attr + body.length := by
    rw [source_length source, List.length_append, length_headerBytes_hLen is_tagged is_frag width]
  have body_fits : s.srcLen < 2 ^ 32 := s.arg1.isLt
  refine ⟨_, runCommand_ok (hdec_ok_iff.2 ⟨region_iff_inMem.2 inside, _, parsed, rfl⟩), sameMemory_of rfl rfl, rfl,
    fun below => ?_, ?_, v2019Flag_eq is_tagged, rfl⟩
  · have address : s.src + hLen attr = s.src + s.srcLen - body.length := by omega
    show (s.fit (s.src + hLen attr)).toNat = _
    rw [address, s.fit_of_lt below, toNat_ofNat_of_lt below]
  · show (s.fit body.length).toNat = _
    rw [s.fit_of_lt (by omega), toNat_ofNat_of_lt (by omega)]

theorem hdec_refuses {s : State} {c : ErrCode} {n : Nat} (inside : InMem s.src s.srcLen)
    (refused : parseHeader Config.params s.source = .error ⟨c, n⟩) : FailsWith .hdec s c n := by
  refine failsWith_of rfl ?_
  rw [hdec, State.source_begin, refused, needRegion_inside (show InMem s.begin.src s.begin.srcLen from inside)]
  rfl

/-- Settles O25: each clause is one outcome of `ParseHeader`. -/
theorem headerRefused : Obligations.HeaderRefused := by
  intro s p attr tagged hl ident
  have length : p.length = s.srcLen := State.length_source s
  have hl_eq : hLen (be16At p 2) = hl := hLen_eq _
  rw [← length, ← hl_eq]
  refine ⟨fun outside => ?_, fun inside short => ?_, fun inside long cut => ?_, fun inside long whole good wrong => ?_,
    fun inside long whole j bad good => ?_⟩
  · rw [length] at outside
    exact failsWith_of rfl (by rw [hdec, needRegion_outside (show ¬InMem s.begin.src s.begin.srcLen from outside)]; rfl)
  · exact hdec_refuses (length ▸ inside) (parseHeader_short short)
  · exact hdec_refuses (length ▸ inside) (parseHeader_cut long cut)
  · exact hdec_refuses (length ▸ inside) (parseHeader_wrong_size whole long (fun _ => good) wrong)
  · by_cases check : Config.params.checkIdentBcd = true
    · rw [if_pos check]
      exact hdec_refuses (length ▸ inside) (parseHeader_bad_ident whole long check bad good)
    · rw [if_neg check]
      exact fun wrong => hdec_refuses (length ▸ inside)
        (parseHeader_wrong_size whole long (fun on => absurd on check) wrong)

/-! ## `HENC` (R175, R176) -/

/-- The `H_ATTR` word as the rule adds it up. -/
theorem attrWord_eq_buildAttr (h : HeaderRegs) (v : Version) (f : Bool) {len : Nat} (short : len ≤ 1023) :
    (BitVec.ofNat 16 (len + 1024 * (h.attr.toNat / 1024 % 8) + (if f then 8192 else 0) +
      (if decide (v = .v2019) then 16384 else 0)) : Half) = buildAttr h v f len := by
  rw [buildAttr_eq_ofNat short, attrNumber]
  simp only [decide_eq_true_eq]

theorem ident_eq_builtIdent (h : HeaderRegs) (v : Version) :
    (if decide (v = .v2019) then be16 h.idh ++ be32 h.idm ++ be32 h.idl
      else be16 (h.idm.setWidth 16) ++ be32 h.idl) = builtIdent h v := by
  cases v <;> rfl

/-- Settles O26: the bytes are those of `BuildHeader`. -/
theorem headerEncoded : Obligations.HeaderEncoded := by
  intro s v f tagged n attr ident out inside short fits room
  have attr_eq : attr = buildAttr s.hdr v f s.srcLen := attrWord_eq_buildAttr s.hdr v f short
  have out_eq : buildHeader s.hdr v f s.srcLen s.hdr.ftot s.hdr.fidx = out := by
    rw [buildHeader_eq_headerBytes, ← attr_eq, ← ident_eq_builtIdent]
  have length : out.length = n := by
    rw [← out_eq, length_buildHeader]
    simp only [n, tagged, decide_eq_true_eq]
  have built_fits : (buildHeader s.hdr v f s.srcLen s.hdr.ftot s.hdr.fidx).length ≤ s.dstCap := by
    rw [out_eq, length]; exact room
  have done := (henc_ok_iff (P := Config.params) (f := f) (s := s.begin)).2
    ⟨region_iff_inMem.2 inside, short, identFits_iff.2 fits, built_fits, rfl⟩
  refine ⟨length, _, runCommand_ok done, stored_of (by rw [← out_eq]; rfl) rfl, ?_⟩
  rw [attr_eq, ← length, ← out_eq]
  rfl

/-! ## `FDEC` (R177) -/

section
variable {s : State} (buffers : BuffersIn s s.dstCap)
include buffers

theorem fdec_bad_escape {i : Nat} (bad : unescape s.source = .error i) : FailsWith .fdec s .framing i := by
  refine failsWith_of rfl ?_
  rw [fdec, needBuffers_of_buffersIn (s := s.begin) (cap := s.begin.dstCap) buffers, State.source_begin,
    unescapeOr_bad bad]
  rfl

theorem fdec_empty (empty : s.source = []) : FailsWith .fdec s .hdrLen 0 := by
  refine failsWith_of rfl ?_
  rw [fdec, needBuffers_of_buffersIn (s := s.begin) (cap := s.begin.dstCap) buffers, State.source_begin, empty,
    ← escape_nil, unescapeOr_escape]
  rfl

variable {p : List Byte} {c : Byte} (source : s.source = escape (p ++ [c]))
include source

/-- `FDEC` on the escape of a packet and its last byte: the checksum, the header, the space, in that order. -/
theorem fdec_packet : fdec Config.params s.begin = (do
    needChecksum (xorAll p) c
    let h ← parseHeader Config.params p
    needSpace (p.length + 1) s.dstCap
    .ok { s.begin.store s.dst (p ++ [c]) with
      hdr := h.regs, res0 := s.fit (s.dst + h.hl), res1 := s.fit h.blen, res2 := v2019Flag h.regs.attr,
      res3 := s.fit (p.length + 1) }) := by
  have length : (p ++ [c]).length = p.length + 1 := by rw [List.length_append, List.length_singleton]
  have last : byteOf (p ++ [c]) p.length = c := byteOf_append_right p [c] 0
  rw [fdec, needBuffers_of_buffersIn (s := s.begin) (cap := s.begin.dstCap) buffers, State.source_begin, source,
    unescapeOr_escape]
  simp only [ok_bind, length, Nat.add_sub_cancel, last, List.take_left]
  rfl

theorem fdec_wrong_checksum (wrong : xorAll p ≠ c) :
    FailsWith .fdec s .checksum (256 * (xorAll p).toNat + c.toNat) :=
  failsWith_of rfl (by rw [fdec_packet buffers source, needChecksum_differing wrong]; rfl)

variable (verified : xorAll p = c)
include verified

theorem fdec_refuses {code : ErrCode} {n : Nat} (refused : parseHeader Config.params p = .error ⟨code, n⟩) :
    FailsWith .fdec s code n :=
  failsWith_of rfl (by rw [fdec_packet buffers source, (needChecksum_ok_iff (u := ())).2 verified, refused]; rfl)

variable {h : ParsedHeader} (parsed : parseHeader Config.params p = .ok h)
include parsed

theorem fdec_no_space (short : s.dstCap < p.length + 1) : FailsWith .fdec s .noSpace (p.length + 1) :=
  failsWith_of rfl (by
    rw [fdec_packet buffers source, (needChecksum_ok_iff (u := ())).2 verified, parsed, needSpace_short short]; rfl)

theorem exec_fdec_packet (room : p.length + 1 ≤ s.dstCap) :
    exec .fdec s = .next { s.begin.store s.dst (p ++ [c]) with
      hdr := h.regs, res0 := s.fit (s.dst + h.hl), res1 := s.fit h.blen, res2 := v2019Flag h.regs.attr,
      res3 := s.fit (p.length + 1) } :=
  runCommand_ok (by
    rw [fdec_packet buffers source, (needChecksum_ok_iff (u := ())).2 verified, parsed, needSpace_fits room]; rfl)

end

/-- Settles O28: the packet verifies, and its header parses. -/
theorem frameDecoded : Obligations.FrameDecoded := by
  intro s tagged frag msgId attr ver ident seq ftot fidx body hdr u buffers source is_tagged is_frag width size bcd room
  have parsed := parseHeader_headerBytes (P := Config.params) (msgId := msgId) (ver := ver) (seq := seq) (ftot := ftot)
    (fidx := fidx) body is_tagged is_frag width size bcd
  have header_length : hdr.length = hLen attr := length_headerBytes_hLen is_tagged is_frag width
  have length : u.length = hdr.length + body.length + 1 := by
    simp only [u, List.length_append, List.length_singleton]
  have packet_length : (hdr ++ body).length + 1 = u.length := by rw [length, List.length_append]
  have run := exec_fdec_packet buffers source rfl parsed (packet_length ▸ room)
  obtain ⟨-, dest, -⟩ := buffers
  have below : s.dst + s.dstCap ≤ 2 ^ 32 := Nat.le_trans dest Config.params.memSize_le
  have cap_below : s.dstCap < 2 ^ 32 := s.arg3.isLt
  refine ⟨_, run, stored_of rfl rfl, ?_⟩
  show ({ s.begin with
    hdr := _, res0 := s.fit (s.dst + hLen attr), res1 := s.fit body.length, res2 := v2019Flag attr,
    res3 := s.fit ((hdr ++ body).length + 1) } : State) = _
  rw [v2019Flag_eq is_tagged, packet_length, ← header_length, s.fit_of_lt (v := s.dst + hdr.length) (by omega),
    s.fit_of_lt (v := body.length) (by omega), s.fit_of_lt (v := u.length) (by omega)]

/-- Settles O29: each clause is the first check of `FDEC` that fails. -/
theorem frameRefused : Obligations.FrameRefused := by
  intro s buffers
  refine ⟨fun i bad => fdec_bad_escape buffers bad, fun empty => ?_, fun p c source => ?_⟩
  · exact fdec_empty buffers (List.length_eq_zero_iff.1 ((State.length_source s).trans empty))
  · intro attr tagged hl size identAt ident
    have hl_eq : hLen (be16At p 2) = hl := hLen_eq _
    rw [← hl_eq]
    refine ⟨fdec_wrong_checksum buffers source, fun verified short => ?_, fun verified long cut => ?_,
      fun verified long whole check j bad good => ?_, fun verified long whole good =>
      ⟨fun wrong => ?_, fun right short => ?_⟩⟩
    · exact fdec_refuses buffers source verified (parseHeader_short short)
    · exact fdec_refuses buffers source verified (parseHeader_cut long cut)
    · exact fdec_refuses buffers source verified (parseHeader_bad_ident whole long check bad good)
    · exact fdec_refuses buffers source verified (parseHeader_wrong_size whole long good wrong)
    · have parsed := (parseHeader_ok_iff (P := Config.params) (h := parsedHeader p)).2 ⟨long, whole, good, right, rfl⟩
      exact fdec_no_space buffers source verified parsed short

end Sys2Proof
end

section
/-! `PENC` (43_header.md R178 to R180): its frames written out, what `HENC` and `PENC` refuse, and the round trip of a
single frame through `FDEC`. -/

namespace Sys2Proof

open Sys2Proof.Machine

/-! ## The refusals of `HENC` and `PENC` (R176, R179) -/

theorem identFits_eq_false {h : HeaderRegs} {v : Version} (wide : ¬(v = .v2011 → h.idh = 0 ∧ h.idm.toNat < 65536)) :
    identFits h v = false := by
  rw [← identFits_iff] at wide
  exact Bool.eq_false_iff.2 wide

section
variable {s : State} {v : Version} {f : Bool}

theorem henc_dest_outside (dest : ¬InMem s.dst s.dstCap) : henc Config.params v f s = .error ⟨.badOperand, s.dst⟩ := by
  rw [henc, needRegion_outside dest]; rfl

variable (dest : InMem s.dst s.dstCap)
include dest

theorem henc_body_too_long (long : 1023 < s.srcLen) :
    henc Config.params v f s = .error ⟨.badOperand, s.srcLen⟩ := by
  rw [henc, needRegion_inside dest, maxBody, decide_eq_false (Nat.not_le.2 long)]; rfl

variable (short : s.srcLen ≤ 1023)
include short

theorem henc_wide_identity (wide : identFits s.hdr v = false) :
    henc Config.params v f s = .error ⟨.badOperand, 0⟩ := by
  rw [henc, needRegion_inside dest, maxBody, decide_eq_true short, wide]; rfl

theorem henc_no_space (fits : identFits s.hdr v = true)
    (full : s.dstCap < (if v = .v2019 then 17 else 12) + (if f then 4 else 0)) :
    henc Config.params v f s =
      .error ⟨.noSpace, (if v = .v2019 then 17 else 12) + (if f then 4 else 0)⟩ := by
  rw [henc, needRegion_inside dest, maxBody, decide_eq_true short, fits]
  simp only [ok_bind, require_true, length_buildHeader, needSpace_short full, error_bind]

end

section
variable {s : State} {v : Version} (buffers : BuffersIn s s.dstCap)
include buffers

theorem penc_wide_identity (wide : identFits s.hdr v = false) :
    penc Config.params v s = .error ⟨.badOperand, 0⟩ := by
  rw [penc, needBuffers_of_buffersIn buffers, wide]; rfl

variable (fits : identFits s.hdr v = true)
include fits

theorem penc_too_many (many : 65535 < chunkCount s.srcLen) :
    penc Config.params v s = .error ⟨.badOperand, s.srcLen⟩ := by
  rw [penc, needBuffers_of_buffersIn buffers, fits, decide_eq_false (Nat.not_le.2 many)]; rfl

theorem penc_no_space (counted : chunkCount s.srcLen ≤ 65535)
    (full : s.dstCap < (packetFrames s.hdr v s.source).length) :
    penc Config.params v s = .error ⟨.noSpace, (packetFrames s.hdr v s.source).length⟩ := by
  simp only [penc, needBuffers_of_buffersIn buffers, fits, decide_eq_true counted, ok_bind, require_true,
    needSpace_short full, error_bind]

end

/-- At most 65535 chunks of 1023 bytes: what a fragment number counts (R179). -/
theorem chunkCount_le_iff (len : Nat) : chunkCount len ≤ 65535 ↔ len ≤ 1023 * 65535 := by
  unfold chunkCount maxBody
  split <;> omega

/-- Settles O27: each clause is the first check of its command that fails. -/
theorem encodeRefusals : Obligations.EncodeRefusals := by
  intro s v f fits n
  have source := State.source_begin s
  refine ⟨fun dest => ?_, fun dest long => ?_, fun dest short wide => ?_, fun dest short fits full => ?_,
    fun buffers wide => ?_, fun buffers fits long => ?_, fun buffers fits short full => ?_⟩
  · exact failsWith_of rfl (henc_dest_outside (s := s.begin) dest)
  · exact failsWith_of rfl (henc_body_too_long (s := s.begin) dest long)
  · exact failsWith_of rfl (henc_wide_identity (s := s.begin) dest short (identFits_eq_false wide))
  · exact failsWith_of rfl (henc_no_space (s := s.begin) dest short (identFits_iff.2 fits) full)
  · exact failsWith_of rfl (penc_wide_identity (s := s.begin) buffers (identFits_eq_false wide))
  · have many : 65535 < chunkCount s.srcLen := by
      have := chunkCount_le_iff s.srcLen
      omega
    exact failsWith_of rfl (penc_too_many (s := s.begin) buffers (identFits_iff.2 fits) many)
  · rw [← source] at full ⊢
    exact failsWith_of rfl
      (penc_no_space (s := s.begin) buffers (identFits_iff.2 fits) ((chunkCount_le_iff _).2 short) full)

/-! ## The frames of a body (R179) -/

theorem chunkCount_eq (len : Nat) :
    (if decide (1023 < len) then (len + 1022) / 1023 else 1) = chunkCount len := by
  unfold chunkCount maxBody
  by_cases long : 1023 < len
  · simp [long, Nat.not_le.2 long]
  · simp [long, Nat.not_lt.1 long]

/-- One frame, with its header written out field by field. -/
theorem packetFrame_succ (h : HeaderRegs) (v : Version) (frag : Bool) (n : Nat) (body : List Byte) (k : Nat) :
    packetFrame h v frag n body (k + 1) =
      wireFrame (withChecksum (headerBytes (decide (v = .v2019)) frag h.msgId
        (buildAttr h v frag ((body.drop (1023 * k)).take 1023).length) h.ver (builtIdent h v) h.seq (BitVec.ofNat 16 n)
        (BitVec.ofNat 16 (k + 1)) ++ (body.drop (1023 * k)).take 1023)) := by
  rw [packetFrame, chunkOf_succ, buildHeader_eq_headerBytes]

/-- Settles O30: frame by frame, `PENC` writes what the rule puts together. -/
theorem packetEncoded : Obligations.PacketEncoded := by
  intro s v tagged body frag n ident frame out buffers fits counted room
  have source : body.length = s.srcLen := State.length_source s
  have count : n = chunkCount body.length := chunkCount_eq body.length
  have frames : packetFrames s.hdr v body = out := by
    rw [packetFrames, ← count]
    refine congrArg (List.flatMap · (List.range n)) (funext fun k => ?_)
    have short : ((body.drop (1023 * k)).take 1023).length ≤ 1023 := List.length_take_le _ _
    rw [packetFrame_succ, ← attrWord_eq_buildAttr s.hdr v _ short, ← ident_eq_builtIdent]
    rfl
  have done := (penc_ok_iff (P := Config.params) (v := v) (s := s.begin)).2
    ⟨buffersOk_iff.2 buffers, identFits_iff.2 fits, by rw [State.srcLen_begin, ← source, ← count]; exact counted,
      by rw [State.source_begin]; exact frames ▸ room, rfl⟩
  have below : out.length < 2 ^ 32 := Nat.lt_of_le_of_lt room s.arg3.isLt
  refine ⟨_, runCommand_ok done, stored_of (by rw [State.source_begin, ← frames]; rfl) rfl, ?_⟩
  rw [State.source_begin, State.srcLen_begin, ← source, ← count]
  show ({ s.begin with res0 := s.fit (packetFrames s.hdr v body).length, res1 := s.fit n } : State) = _
  rw [frames, s.fit_of_lt below, s.fit_of_lt (v := n) (by omega)]

/-! ## The round trip (R180) -/

/-- The identity a header carries, zero-extended to ten bytes, is the identity registers' bytes. -/
theorem padded_builtIdent {h : HeaderRegs} {v : Version} (fits : v = .v2011 → h.idh = 0 ∧ h.idm.toNat < 65536) :
    List.replicate (10 - (builtIdent h v).length) 0 ++ builtIdent h v = be16 h.idh ++ be32 h.idm ++ be32 h.idl := by
  cases v with
  | v2019 => rfl
  | v2011 =>
    obtain ⟨high, low⟩ := fits rfl
    have top : h.idm.extractLsb' 24 8 = 0 ∧ h.idm.extractLsb' 16 8 = 0 := by
      constructor <;> (apply BitVec.eq_of_toNat_eq; rw [toNat_extractByte]; simp; omega)
    have bottom : (h.idm.setWidth 16).extractLsb' 8 8 = h.idm.extractLsb' 8 8 ∧
        (h.idm.setWidth 16).extractLsb' 0 8 = h.idm.extractLsb' 0 8 := by
      constructor
      · apply BitVec.eq_of_toNat_eq
        simp [BitVec.extractLsb'_toNat]
        omega
      · apply BitVec.eq_of_toNat_eq
        simp [BitVec.extractLsb'_toNat]
    obtain ⟨top₃, top₂⟩ := top
    obtain ⟨low₁, low₀⟩ := bottom
    simp [builtIdent, be16, be32, high, top₃, top₂, low₁, low₀]

/-- A body of at most 1023 bytes goes into one frame, which is no fragment. -/
theorem packetFrames_single {h : HeaderRegs} {v : Version} {body : List Byte} (short : body.length ≤ 1023) :
    packetFrames h v body = wireFrame (withChecksum (buildHeader h v false body.length 1 1 ++ body)) := by
  have one : chunkCount body.length = 1 := if_pos short
  have whole : chunkOf body 1 = body := by rw [chunkOf_succ, Nat.mul_zero, List.drop_zero, List.take_of_length_le short]
  rw [packetFrames, one, maxBody, decide_eq_false (Nat.not_lt.2 short), List.range_one, List.flatMap_singleton,
    packetFrame, whole]
  rfl

/-- A `PENC` that reports no error has passed its checks, and its frames fit. -/
theorem exec_penc_ok {s t : State} {v : Version} (run : exec (.penc v) s = .next t) (no_error : t.err = .ok) :
    BuffersIn s s.dstCap ∧ identFits s.hdr v = true ∧ (packetFrames s.hdr v s.source).length ≤ s.dstCap ∧
      t = { s.begin.store s.dst (packetFrames s.hdr v s.source) with
        res0 := s.fit (packetFrames s.hdr v s.source).length, res1 := s.fit (chunkCount s.srcLen) } := by
  have done := computed_of_no_error (raisesOnly_penc Config.params s.begin v) (by decide) run no_error
  obtain ⟨buffers, fits, -, room, answer⟩ := penc_ok_iff.1 done
  rw [State.source_begin] at room answer
  exact ⟨buffersOk_iff.1 buffers, fits, room, answer⟩

/-- What a stored frame holds between its delimiters. -/
theorem bytesAt_inside_frame {s t : State} {d : Nat} {p : List Byte} (frame : Stored s t d (wireFrame p)) :
    t.bytesAt (d + 1) (escape p).length = escape p := by
  have reads : t.ReadsAt d (delim :: (escape p ++ [delim])) := frame.1
  obtain ⟨-, after⟩ := State.readsAt_cons.1 reads
  exact State.bytesAt_of_readsAt (State.readsAt_append.1 after).1

theorem length_wireFrame (p : List Byte) : (wireFrame p).length = (escape p).length + 2 := by
  simp [wireFrame]

/-- The header registers after `FDEC` of a single frame written from the registers `h`. -/
def singleRegs (h : HeaderRegs) (v : Version) (attr : Half) : HeaderRegs :=
  { h with
    attr := attr, ver := if v = .v2019 then h.ver else 0, ftot := 0, fidx := 0, hlen := if v = .v2019 then 17 else 12 }

theorem headerRegs_builtIdent {h : HeaderRegs} {v : Version} (fits : v = .v2011 → h.idh = 0 ∧ h.idm.toNat < 65536)
    (attr : Half) :
    headerRegs (decide (v = .v2019)) false h.msgId attr h.ver (builtIdent h v) h.seq 1 1 = singleRegs h v attr := by
  have high : be16At (be16 h.idh ++ be32 h.idm ++ be32 h.idl) 0 = h.idh := by
    rw [List.append_assoc]; exact be16At_be16 _ _
  have middle : be32At (be16 h.idh ++ be32 h.idm ++ be32 h.idl) 2 = h.idm := by
    rw [List.append_assoc]
    exact (be32At_append_right (be16 h.idh) _ 0).trans (be32At_be32 _ _)
  have low : be32At (be16 h.idh ++ be32 h.idm ++ be32 h.idl) 6 = h.idl := by
    have read := be32At_append_right (be16 h.idh ++ be32 h.idm) (be32 h.idl) 0
    have value := be32At_be32 h.idl []
    rw [List.append_nil] at value
    exact read.trans value
  rw [headerRegs, padded_builtIdent fits, high, middle, low]
  cases v <;> rfl

/-- The header of the single frame of a body. -/
def singleHeader (h : HeaderRegs) (v : Version) (body : List Byte) : List Byte :=
  headerBytes (decide (v = .v2019)) false h.msgId (buildAttr h v false body.length) h.ver (builtIdent h v) h.seq 1 1

/-- The packet in the single frame of a body. -/
def singlePacket (h : HeaderRegs) (v : Version) (body : List Byte) : List Byte :=
  withChecksum (singleHeader h v body ++ body)

theorem length_singleHeader_le (h : HeaderRegs) (v : Version) (body : List Byte) :
    (singleHeader h v body).length ≤ 17 := by
  rw [singleHeader, length_headerBytes (length_builtIdent h v)]
  cases v <;> decide

theorem length_singlePacket (h : HeaderRegs) (v : Version) (body : List Byte) :
    (singlePacket h v body).length = (singleHeader h v body).length + body.length + 1 := by
  simp only [singlePacket, withChecksum, List.length_append, List.length_singleton]

/-- What `PENC` leaves for a body of at most 1023 bytes: one wire frame, its length and the count 1. -/
theorem exec_penc_single {s t : State} {v : Version} (run : exec (.penc v) s = .next t) (no_error : t.err = .ok)
    (short : s.srcLen ≤ 1023) :
    InMem s.dst s.dstCap ∧ identFits s.hdr v = true ∧
      (escape (singlePacket s.hdr v s.source)).length + 2 ≤ s.dstCap ∧
      t.res0.toNat = (escape (singlePacket s.hdr v s.source)).length + 2 ∧ t.res1 = 1 ∧
      Stored s t s.dst (wireFrame (singlePacket s.hdr v s.source)) := by
  obtain ⟨⟨-, dest, -⟩, fits, room, rfl⟩ := exec_penc_ok run no_error
  have body_length : s.source.length = s.srcLen := State.length_source s
  have frame : packetFrames s.hdr v s.source = wireFrame (singlePacket s.hdr v s.source) := by
    rw [packetFrames_single (body_length ▸ short), buildHeader_eq_headerBytes]; rfl
  have one : chunkCount s.srcLen = 1 := if_pos short
  have cap_below : s.dstCap < 2 ^ 32 := s.arg3.isLt
  rw [frame, length_wireFrame] at room
  rw [frame, one, length_wireFrame, s.fit_of_lt (v := _ + 2) (by omega)]
  exact ⟨dest, fits, room, toNat_ofNat_of_lt (by omega), rfl, stored_of rfl rfl⟩

/-- `FDEC` on the escape of that packet: the identity, the fields and the body. -/
theorem exec_fdec_single {u : State} {h : HeaderRegs} {v : Version} {body : List Byte}
    (buffers : BuffersIn u u.dstCap) (source : u.source = escape (singlePacket h v body)) (short : body.length ≤ 1023)
    (fits : v = .v2011 → h.idh = 0 ∧ h.idm.toNat < 65536)
    (bcd : Config.params.checkIdentBcd = true → ∀ b ∈ be16 h.idh ++ be32 h.idm ++ be32 h.idl, badBcdByte b = false)
    (room : body.length + 18 ≤ u.dstCap) :
    ∃ w, exec .fdec u = .next w ∧ w.err = .ok ∧
      w.hdr = singleRegs h v (buildAttr h v false body.length) ∧
      w.res1 = BitVec.ofNat 32 body.length ∧ w.res2 = (if v = .v2019 then 1 else 0) ∧
      w.bytesAt w.res0.toNat body.length = body := by
  have ident_bcd : Config.params.checkIdentBcd = true → ∀ b ∈ builtIdent h v, badBcdByte b = false := by
    intro check b inside
    refine bcd check b ?_
    rw [← padded_builtIdent fits]
    exact List.mem_append_right _ inside
  have hdr_length := length_singleHeader_le h v body
  have packet_length := length_singlePacket h v body
  have packet_fits : (singlePacket h v body).length ≤ u.dstCap := by omega
  obtain ⟨w, decoded, in_mem, w_eq⟩ := frameDecoded u _ false h.msgId _ h.ver (builtIdent h v) h.seq 1 1 body buffers
    source (buildAttr_tagged short) (buildAttr_frag short) (length_builtIdent h v) (buildAttr_size short).symm ident_bcd
    packet_fits
  have w_hdr : w.hdr = _ := (congrArg State.hdr w_eq).trans (headerRegs_builtIdent fits _)
  have w_res0 : w.res0 = BitVec.ofNat 32 (u.dst + (singleHeader h v body).length) := congrArg State.res0 w_eq
  have w_res2 : w.res2 = if decide (v = .v2019) then 1 else 0 := congrArg State.res2 w_eq
  refine ⟨w, decoded, congrArg State.err w_eq, w_hdr, congrArg State.res1 w_eq,
    w_res2.trans (by simp only [decide_eq_true_eq]), ?_⟩
  obtain ⟨-, u_dest, -⟩ := buffers
  have u_below : u.dst + u.dstCap ≤ 2 ^ 32 := Nat.le_trans u_dest Config.params.memSize_le
  have reads : w.ReadsAt u.dst (singlePacket h v body) := in_mem.1
  obtain ⟨reads_packet, -⟩ := State.readsAt_append.1 reads
  rw [w_res0, toNat_ofNat_of_lt (by omega)]
  exact State.bytesAt_of_readsAt (State.readsAt_append.1 reads_packet).2

/-- Settles O32: the bytes between the delimiters are the escape of a packet that `FDEC` takes apart. -/
theorem packetRoundTrip : Obligations.PacketRoundTrip := by
  intro s t u v d c run no_error short bcd u_eq buffers room
  obtain ⟨dest, ident_fits, frame_room, res0, res1, stored⟩ := exec_penc_single run no_error short
  have body_length : s.source.length = s.srcLen := State.length_source s
  have below : s.dst + s.dstCap ≤ 2 ^ 32 := Nat.le_trans dest Config.params.memSize_le
  have u_src : u.src = s.dst + 1 := by
    have address : s.dst = s.arg2.toNat := rfl
    subst u_eq
    show (s.arg2 + 1).toNat = s.dst + 1
    bv_omega
  have u_srcLen : u.srcLen = (escape (singlePacket s.hdr v s.source)).length := by
    subst u_eq
    show (t.res0 - 2).toNat = _
    bv_omega
  have u_source : u.source = escape (singlePacket s.hdr v s.source) := by
    have same : ∀ k, u.byteAt k = t.byteAt k := by subst u_eq; exact fun _ => rfl
    rw [State.source, u_src, u_srcLen, State.bytesAt_congr fun k _ => same _]
    exact bytesAt_inside_frame stored
  have u_cap : u.dstCap = c.toNat := by subst u_eq; rfl
  have body_short : s.source.length ≤ 1023 := body_length ▸ short
  obtain ⟨w, decoded, w_err, w_hdr, w_res1, w_res2, w_body⟩ := exec_fdec_single buffers u_source body_short
    (identFits_iff.1 ident_fits) bcd (by omega)
  have body_word : BitVec.ofNat 32 s.source.length = s.arg1 := by
    rw [body_length]
    exact (BitVec.ofNat_toNat 32 s.arg1).trans (BitVec.setWidth_eq _)
  have w_length : w.res1.toNat = s.source.length := by rw [w_res1, body_word, body_length]; rfl
  refine ⟨w, decoded, w_err, res1, ?_⟩
  rw [w_hdr, w_length]
  exact ⟨rfl, rfl, rfl, rfl, rfl, rfl, buildAttr_enc body_short, buildAttr_frag body_short, w_res1.trans body_word,
    w_res2, w_body⟩

end Sys2Proof
end

section
/-! The tagged lists (46_tlv.md R240 to R243) and the position report around one (45_position.md R224): the record of an
item, the walk over a list of items and what follows it, and the list decoders. -/

namespace Sys2Proof

open Sys2Proof.Machine

/-! ## Big-endian values (00_scope.md R10) -/

theorem toNat_append_byte {w : Nat} (x : BitVec w) (b : Byte) : (x ++ b).toNat = x.toNat * 256 + b.toNat := by
  rw [BitVec.toNat_append, shiftLeft_or_eq _ _ 8 b.isLt]; rfl

theorem toNat_be16At (a b : Byte) (rest : List Byte) : (be16At (a :: b :: rest) 0).toNat = a.toNat * 256 + b.toNat :=
  toNat_append_byte a b

theorem toNat_be32At (a b c d : Byte) (rest : List Byte) :
    (be32At (a :: b :: c :: d :: rest) 0).toNat = ((a.toNat * 256 + b.toNat) * 256 + c.toNat) * 256 + d.toNat := by
  show (a ++ b ++ c ++ d).toNat = _
  rw [toNat_append_byte, toNat_append_byte, toNat_append_byte]

/-- The word of a number below `2^32`, from a bit vector that holds the number. -/
theorem setWidth_eq_ofNat {w : Nat} {x : BitVec w} {n : Nat} (value : x.toNat = n) : x.setWidth 32 = BitVec.ofNat 32 n := by
  rw [← value, BitVec.ofNat_toNat]

theorem byteOf_eq_beValue {bs : List Byte} (rest : List Byte) (one : bs.length = 1) :
    (byteOf (bs ++ rest) 0).setWidth 32 = BitVec.ofNat 32 (beValue bs) := by
  obtain ⟨b, rfl⟩ := List.length_eq_one_iff.1 one
  exact setWidth_eq_ofNat (by simp [byteOf, beValue])

theorem be16At_eq_beValue {bs : List Byte} (rest : List Byte) (two : bs.length = 2) :
    (be16At (bs ++ rest) 0).setWidth 32 = BitVec.ofNat 32 (beValue bs) := by
  obtain ⟨a, b, rfl⟩ := List.length_eq_two.1 two
  exact setWidth_eq_ofNat ((toNat_be16At a b rest).trans (by simp [beValue]))

theorem be32At_eq_beValue {bs : List Byte} (rest : List Byte) (four : bs.length = 4) :
    be32At (bs ++ rest) 0 = BitVec.ofNat 32 (beValue bs) := by
  obtain ⟨a, b, c, d, rfl⟩ : ∃ a b c d, bs = [a, b, c, d] := by
    match bs, four with
    | [a, b, c, d], _ => exact ⟨a, b, c, d, rfl⟩
  have value := setWidth_eq_ofNat ((toNat_be32At a b c d rest).trans (by simp [beValue] : _ = beValue [a, b, c, d]))
  rwa [BitVec.setWidth_eq] at value

/-! ## The record of an item (R240) -/

/-- The record of an item at MEM address `base` whose kind `table` gives from the identifier bytes. -/
def itemTlv (table : List Byte → Option Kind) (base : Nat) (x : List Byte × List Byte) : TlvRecord :=
  { id := BitVec.ofNat 32 (beValue x.1), len := BitVec.ofNat 8 x.2.length, kind := table x.1,
    wmis := (kindWidth (table x.1)).isSome && decide (kindWidth (table x.1) ≠ some x.2.length),
    vaddr := base + x.1.length + 1, value := itemValue (table x.1) x.2 }

/-- The records of a list of items that starts at MEM address `base`. -/
def itemTlvs (table : List Byte → Option Kind) : Nat → List (List Byte × List Byte) → List TlvRecord
  | _, [] => []
  | base, x :: rest => itemTlv table base x :: itemTlvs table (base + (itemBytes x.1 x.2).length) rest

theorem length_itemTlvs (table : List Byte → Option Kind) (base : Nat) (items : List (List Byte × List Byte)) :
    (itemTlvs table base items).length = items.length := by
  induction items generalizing base with
  | nil => rfl
  | cons x rest ih => rw [itemTlvs, List.length_cons, ih, List.length_cons]

/-- A list shape looks a kind up by the identifier bytes as `table` does. -/
def LooksUp (T : TlvShape) (table : List Byte → Option Kind) : Prop :=
  ∀ ident rest, ident.length = T.idWidth →
    T.idAt (ident ++ rest) = BitVec.ofNat 32 (beValue ident) ∧ T.table (T.idAt (ident ++ rest)) = table ident

theorem auxShape_looksUp : LooksUp (auxShape Config.params) auxTable := by
  intro ident rest one
  refine ⟨byteOf_eq_beValue rest one, ?_⟩
  have first : byteOf (ident ++ rest) 0 = byteOf ident 0 := byteOf_append_left rest (by rw [one]; exact Nat.one_pos)
  have narrow : ((byteOf ident 0).setWidth 32).setWidth 8 = byteOf ident 0 := by simp
  show Config.params.auxTypes (((byteOf (ident ++ rest) 0).setWidth 32).setWidth 8) = _
  rw [first, narrow]
  rfl

theorem parShape_looksUp : LooksUp (parShape Config.params) parTable := by
  intro ident rest four
  refine ⟨be32At_eq_beValue rest four, ?_⟩
  have ends : ident.length = 4 := four
  exact congrArg Config.params.paramTypes (be32At_append_left rest (by omega))

theorem widthMismatch_eq (kind : Option Kind) {n : Nat} (short : n < 256) :
    widthMismatch kind (BitVec.ofNat 8 n) = ((kindWidth kind).isSome && decide (kindWidth kind ≠ some n)) := by
  rw [widthMismatch, BitVec.toNat_ofNat, Nat.mod_eq_of_lt short]
  cases kindWidth kind with
  | none => rfl
  | some w => simp [eq_comm]

/-- The value of an integer item is the big-endian value of its bytes, whatever follows them. -/
theorem tlvValue_eq (kind : Option Kind) (value rest : List Byte) :
    tlvValue kind ((kindWidth kind).isSome && decide (kindWidth kind ≠ some value.length)) (value ++ rest) =
      itemValue kind value := by
  cases width : kindWidth kind with
  | none =>
    rw [itemValue, width, if_neg nofun]
    cases kind with
    | none => rfl
    | some k =>
      cases k with
      | bytes => rfl
      | text => rfl
      | struct => rfl
      | _ => cases width
  | some w =>
    by_cases right : w = value.length
    · subst right
      rw [itemValue, width, if_pos rfl, decide_eq_false (not_not.2 rfl)]
      cases kind with
      | none => cases width
      | some k =>
        cases k with
        | u8 => exact byteOf_eq_beValue rest (Option.some.inj width).symm
        | u16 => exact be16At_eq_beValue rest (Option.some.inj width).symm
        | u32 => exact be32At_eq_beValue rest (Option.some.inj width).symm
        | _ => cases width
    · have differ : some w ≠ some value.length := fun same => right (Option.some.inj same)
      rw [itemValue, width, if_neg differ, decide_eq_true differ]
      rfl

section
variable {T : TlvShape} {table : List Byte → Option Kind} (looks_up : LooksUp T table)
include looks_up

theorem tlvItem_item {x : List Byte × List Byte} (base o : Nat) (rest : List Byte) (width : x.1.length = T.idWidth)
    (short : x.2.length < 256) :
    tlvItem T base o (itemBytes x.1 x.2 ++ rest) = itemTlv table (base + o) x := by
  have parts : itemBytes x.1 x.2 ++ rest = x.1 ++ (BitVec.ofNat 8 x.2.length :: (x.2 ++ rest)) := by
    simp [itemBytes]
  obtain ⟨ident, kind⟩ := looks_up x.1 (BitVec.ofNat 8 x.2.length :: (x.2 ++ rest)) width
  have length_byte : byteOf (x.1 ++ (BitVec.ofNat 8 x.2.length :: (x.2 ++ rest))) T.idWidth =
      BitVec.ofNat 8 x.2.length := by
    rw [← width]; exact byteOf_append_right x.1 _ 0
  have value : (x.1 ++ (BitVec.ofNat 8 x.2.length :: (x.2 ++ rest))).drop (T.idWidth + 1) = x.2 ++ rest := by
    rw [← width, List.drop_append]
    simp
  rw [ident] at kind
  simp only [tlvItem, parts, ident, kind, length_byte, value, widthMismatch_eq _ short, tlvValue_eq]
  rw [← width]
  rfl

/-- The walk over a list of items and a tail: the items' records before what the walk of the tail gives. -/
theorem tlvFrom_itemList (base : Nat) (items : List (List Byte × List Byte)) (tail : List Byte) (o : Nat)
    (well : ItemsOk T.idWidth items) :
    tlvFrom T base (itemList items ++ tail).length o (itemList items ++ tail) =
      (itemTlvs table (base + o) items).foldr consRecord
        (tlvFrom T base tail.length (o + (itemList items).length) tail) := by
  induction items generalizing o with
  | nil => rfl
  | cons x rest ih =>
    obtain ⟨⟨width, short⟩, well⟩ := List.forall_mem_cons.1 well
    have parts : itemList (x :: rest) ++ tail = itemBytes x.1 x.2 ++ (itemList rest ++ tail) := by
      rw [itemList, List.flatMap_cons, List.append_assoc]; rfl
    have length : (itemList (x :: rest)).length = (itemBytes x.1 x.2).length + (itemList rest).length := by
      rw [itemList, List.flatMap_cons, List.length_append]; rfl
    rw [parts, tlvFrom_item base o _ width short, ih _ well, tlvItem_item looks_up base o _ width short, itemTlvs,
      List.foldr_cons, length, Nat.add_assoc, Nat.add_assoc]

theorem tlvWalk_items {items : List (List Byte × List Byte)} (base : Nat) (well : ItemsOk T.idWidth items) :
    tlvWalk T base (itemList items) = .ok (itemTlvs table base items) := by
  have walk := tlvFrom_itemList looks_up base items [] 0 well
  rw [List.append_nil] at walk
  rw [tlvWalk, walk]
  show (itemTlvs table base items).foldr consRecord (.ok []) = _
  induction itemTlvs table base items with
  | nil => rfl
  | cons r rs ih => rw [List.foldr_cons, ih, consRecord]

theorem tlvWalk_cut {items : List (List Byte × List Byte)} {tail : List Byte} (base : Nat)
    (well : ItemsOk T.idWidth items) (nonempty : tail ≠ [])
    (cut : tail.length < T.idWidth + 1 ∨ tail.length < T.idWidth + 1 + (byteOf tail T.idWidth).toNat) :
    tlvWalk T base (itemList items ++ tail) = .error (itemList items).length := by
  have tail_fails : tlvFrom T base tail.length (0 + (itemList items).length) tail = .error (itemList items).length := by
    rw [tlvFrom_eq, if_neg nonempty, Nat.zero_add]
    by_cases short : tail.length < T.idWidth + 1
    · rw [if_pos short]
    · rw [if_neg short, tlvItemLen, if_pos (cut.resolve_left short)]
  rw [tlvWalk, tlvFrom_itemList looks_up base items tail 0 well, tail_fails]
  induction itemTlvs table (base + 0) items with
  | nil => rfl
  | cons r rs ih => rw [List.foldr_cons, ih, consRecord]

end

theorem tlvWalkOr_cut {T : TlvShape} {base o : Nat} {t : List Byte} (k : Nat) (cut : tlvWalk T base t = .error o) :
    tlvWalkOr T base k t = .error ⟨.bodyShort, k + o⟩ := by
  rw [tlvWalkOr, cut]

/-! ## The records' bytes (30_encoding.md R105) -/

theorem encoded_itemTlv (fit : Nat → Word) (table : List Byte → Option Kind) {base : Nat} {x : List Byte × List Byte}
    (address : fit (base + x.1.length + 1) = BitVec.ofNat 32 (base + x.1.length + 1)) :
    (itemTlv table base x).encoded fit =
      itemRecord (table x.1) (BitVec.ofNat 32 (beValue x.1)) x.2 (base + x.1.length + 1) := by
  have flags : ∀ known mismatch : Bool,
      (BitVec.ofNat 8 ((if known then 1 else 0) + (if mismatch then 2 else 0)) : Byte) =
        (if known then 1 else 0) ||| (if mismatch then 2 else 0) := by decide
  rw [itemRecord, ← flags, ← address]
  rfl

theorem tlvBytes_itemTlvs {s : State} (table : List Byte → Option Kind) {base : Nat}
    {items : List (List Byte × List Byte)} (below : base + (itemList items).length < 2 ^ 32) :
    tlvBytes s (itemTlvs table base items) = itemRecords table base items := by
  induction items generalizing base with
  | nil => rfl
  | cons x rest ih =>
    have length : (itemList (x :: rest)).length = (itemBytes x.1 x.2).length + (itemList rest).length := by
      rw [itemList, List.flatMap_cons, List.length_append]; rfl
    have item_length := length_itemBytes x.1 x.2
    have address := s.fit_of_lt (v := base + x.1.length + 1) (by omega)
    rw [itemRecords, ← ih (by omega), ← encoded_itemTlv s.fit table address]
    rfl

/-! ## `AUXDEC` and `PARDEC` (R242, R243) -/

/-- What a list decoder leaves once its list is walked. -/
theorem exec_decodeList {i : Instr} {T : TlvShape} {table : List Byte → Option Kind} {s : State}
    {items : List (List Byte × List Byte)} (run : exec i s = runCommand (decodeList Config.params T) s)
    (looks_up : LooksUp T table) (buffers : BuffersIn s (16 * s.dstCap)) (below : s.src + s.srcLen < 2 ^ 32)
    (space : items.length ≤ s.dstCap) (source : s.source = itemList items) (well : ItemsOk T.idWidth items) :
    ∃ t, exec i s = .next t ∧ Stored s t s.dst (itemRecords table s.src items) ∧
      { t with mem := s.mem } = { s.begin with res0 := BitVec.ofNat 32 items.length, res1 := s.arg1 } := by
  have walk := tlvWalk_items looks_up s.src well
  have length := length_itemTlvs table s.src items
  have bytes := tlvBytes_itemTlvs (s := s.begin) table (base := s.src) (items := items)
    (by rw [← source, State.length_source]; exact below)
  have done := (decodeList_ok_iff (P := Config.params) (T := T) (s := s.begin)).2
    ⟨buffersOk_iff.2 buffers, _, by rw [State.source_begin, source]; exact walk, length ▸ space, rfl⟩
  refine ⟨_, run.trans (runCommand_ok done), stored_of (by rw [bytes]; rfl) rfl, ?_⟩
  rw [length, State.fit_of_lt _ (Nat.lt_of_le_of_lt space s.arg3.isLt)]
  rfl

/-- Settles O39: one list decoder, with the two tables. -/
theorem listsDecoded : Obligations.ListsDecoded := fun _ _ buffers below space source =>
  ⟨exec_decodeList rfl auxShape_looksUp buffers below space source,
    exec_decodeList rfl parShape_looksUp buffers below space source⟩

section
variable {T : TlvShape} {table : List Byte → Option Kind} (looks_up : LooksUp T table) {i : Instr} {s : State}
  {items : List (List Byte × List Byte)} (run : exec i s = runCommand (decodeList Config.params T) s)
  (buffers : BuffersIn s (16 * s.dstCap)) (well : ItemsOk T.idWidth items)
include looks_up run buffers well

theorem decodeList_cut {tail : List Byte} (source : s.source = itemList items ++ tail)
    (cut : tail ≠ [] ∧
      (tail.length < T.idWidth + 1 ∨ tail.length < T.idWidth + 1 + (byteOf tail T.idWidth).toNat)) :
    FailsWith i s .bodyShort (itemList items).length := by
  obtain ⟨nonempty, cut⟩ := cut
  have walk := tlvWalk_cut looks_up s.begin.src well nonempty cut
  refine failsWith_of run ?_
  rw [decodeList, needBuffers_of_buffersIn (s := s.begin) (cap := 16 * s.begin.dstCap) buffers, State.source_begin,
    source, tlvWalkOr_cut 0 walk, Nat.zero_add]
  rfl

theorem decodeList_no_space (source : s.source = itemList items) (full : s.dstCap < items.length) :
    FailsWith i s .noSpace items.length := by
  have walk := tlvWalk_items looks_up s.begin.src well
  have length := length_itemTlvs table s.begin.src items
  refine failsWith_of run ?_
  rw [decodeList, needBuffers_of_buffersIn (s := s.begin) (cap := 16 * s.begin.dstCap) buffers, State.source_begin,
    source, tlvWalkOr_ok_iff.2 walk]
  simp only [ok_bind, length, needSpace_short (show s.begin.dstCap < items.length from full), error_bind]

end

/-! ## `POSDEC` (R224) -/

/-- A core written out field by field (30_encoding.md R97). -/
def coreBytes (r : PosRegs) : List Byte :=
  be32 r.alarm ++ be32 r.status ++ be32 r.lat ++ be32 r.lon ++ be16 r.alt ++ be16 r.speed ++ be16 r.bear ++
    bcdEncode6 (r.date.setWidth 32) (r.time.setWidth 32)

/-- A core gives back the registers it was written from. -/
theorem positionRegs_coreBytes (r : PosRegs) :
    positionRegs (coreBytes r) { date := r.date, time := r.time } r.auxN = r := by
  have alarm : be32At (coreBytes r) 0 = r.alarm := be32At_be32 r.alarm []
  have status : be32At (coreBytes r) 4 = r.status := be32At_be32 r.status []
  have lat : be32At (coreBytes r) 8 = r.lat := be32At_be32 r.lat []
  have lon : be32At (coreBytes r) 12 = r.lon := be32At_be32 r.lon []
  have alt : be16At (coreBytes r) 16 = r.alt := be16At_be16 r.alt []
  have speed : be16At (coreBytes r) 18 = r.speed := be16At_be16 r.speed []
  have bear : be16At (coreBytes r) 20 = r.bear := be16At_be16 r.bear []
  rw [positionRegs, alarm, status, lat, lon, alt, speed, bear]

/-- Settles O37: the core's fields read back, and its items are walked. -/
theorem positionIsDecoded : Obligations.PositionDecoded := by
  intro s alarm status lat lon alt speed bear date time items buffers below well space date_ok time_ok source
  let regs : PosRegs :=
    { alarm := alarm, status := status, lat := lat, lon := lon, alt := alt, speed := speed, bear := bear, date := date,
      time := time, auxN := BitVec.ofNat 32 items.length }
  have body : s.source = coreBytes regs ++ itemList items := source
  have whole : (coreBytes regs).length = coreLen := rfl
  have length : s.srcLen = coreLen + (itemList items).length := by
    rw [source_length body, List.length_append, whole]
  have walk := tlvWalk_items auxShape_looksUp (s.src + coreLen) well
  have records := length_itemTlvs auxTable (s.src + coreLen) items
  have stored := stored_positionDecoded s { date := date, time := time } (itemTlvs auxTable (s.src + coreLen) items)
  rw [tlvBytes_itemTlvs auxTable (by omega)] at stored
  have run := exec_posdec_walked buffers body whole (bcdDecode6_bcdEncode6 date_ok time_ok) walk (records ▸ space)
  have count : s.fit (itemTlvs auxTable (s.src + coreLen) items).length = BitVec.ofNat 32 items.length := by
    rw [records, s.fit_of_lt (Nat.lt_of_le_of_lt space s.arg3.isLt)]
  have rest : s.fit (s.srcLen - coreLen) = BitVec.ofNat 32 (s.srcLen - 28) := s.fit_of_lt (by omega)
  have pos := positionDecoded_pos (s := s) { date := date, time := time }
    (itemTlvs auxTable (s.src + coreLen) items) body whole
  rw [count] at pos
  refine ⟨_, run, stored, ?_⟩
  show ({ s.begin with
    pos := (positionDecoded s { date := date, time := time } (itemTlvs auxTable (s.src + coreLen) items)).pos,
    res0 := s.fit (itemTlvs auxTable (s.src + coreLen) items).length, res1 := s.fit (s.srcLen - coreLen) } : State) = _
  rw [pos.trans (positionRegs_coreBytes regs), count, rest]

/-! ## What the list decoders refuse, and `POSDEC` (R224, R240) -/

section
variable {s : State} (buffers : BuffersIn s (16 * s.dstCap))
include buffers

theorem posdec_short_core (short : s.srcLen < 28) : FailsWith .posdec s .bodyShort s.srcLen := by
  refine failsWith_of rfl ?_
  rw [posdec, needBuffers_of_buffersIn (s := s.begin) (cap := 16 * s.begin.dstCap) buffers, State.srcLen_begin, coreLen,
    decide_eq_false (Nat.not_le.2 short)]
  rfl

variable (long : coreLen ≤ s.srcLen)
include long

/-- `POSDEC` on a whole core: the timestamp, the items, the space, in that order. -/
theorem posdec_whole_core : posdec Config.params s.begin = (do
    let stamp ← stampOr 22 (sliceOf s.source 22 28)
    let recs ← tlvWalkOr (auxShape Config.params) (s.src + coreLen) coreLen (s.source.drop coreLen)
    needSpace recs.length s.dstCap
    .ok { s.begin.store s.dst (tlvBytes s.begin recs) with
      pos := positionRegs s.source stamp (s.fit recs.length), res0 := s.fit recs.length,
      res1 := s.fit (s.srcLen - coreLen) }) := by
  rw [posdec, needBuffers_of_buffersIn (s := s.begin) (cap := 16 * s.begin.dstCap) buffers, State.srcLen_begin,
    decide_eq_true long, State.source_begin]
  rfl

theorem posdec_bad_stamp {j : Nat} (bad : bcdDecode6 ((s.source.drop 22).take 6) = .error j) :
    FailsWith .posdec s .bcd (22 + j) := by
  refine failsWith_of rfl ?_
  rw [posdec_whole_core buffers long, show sliceOf s.source 22 28 = (s.source.drop 22).take 6 from rfl,
    stampOr_of_bad 22 bad]
  rfl

variable {core list : List Byte} (body : s.source = core ++ list) (whole : core.length = coreLen) {v : Stamp}
  (stamp : bcdDecode6 (core.drop 22) = .ok v)
include body whole stamp

theorem posdec_bad_list {o : Nat} (cut : tlvWalk (auxShape Config.params) (s.src + coreLen) list = .error o) :
    FailsWith .posdec s .bodyShort (28 + o) := by
  refine failsWith_of rfl ?_
  rw [posdec_whole_core buffers long, body, sliceOf_timestamp_append list whole, stampOr_ok_iff.2 stamp,
    List.drop_left' whole, tlvWalkOr_cut _ cut]
  rfl

theorem posdec_no_space {rs : List TlvRecord} (walk : tlvWalk (auxShape Config.params) (s.src + coreLen) list = .ok rs)
    (full : s.dstCap < rs.length) : FailsWith .posdec s .noSpace rs.length := by
  refine failsWith_of rfl ?_
  rw [posdec_whole_core buffers long, body, sliceOf_timestamp_append list whole, stampOr_ok_iff.2 stamp,
    List.drop_left' whole, tlvWalkOr_ok_iff.2 walk]
  simp only [ok_bind, needSpace_short full, error_bind]

end

/-- Settles O40: each clause is the first check of its command that fails. -/
theorem listsRefused : Obligations.ListsRefused := by
  intro s items tail core buffers cut
  refine ⟨fun source well is_cut => decodeList_cut auxShape_looksUp rfl buffers well source is_cut,
    fun source well is_cut => decodeList_cut parShape_looksUp rfl buffers well source is_cut,
    fun source well full => decodeList_no_space auxShape_looksUp rfl buffers well source full,
    fun source well full => decodeList_no_space parShape_looksUp rfl buffers well source full,
    posdec_short_core buffers, fun long j bad => posdec_bad_stamp buffers long bad,
    fun v whole stamp source well => ?_⟩
  have body : s.source = core ++ (itemList items ++ tail) := by rw [source, List.append_assoc]
  have long : coreLen ≤ s.srcLen := by
    rw [source_length body, List.length_append, whole]
    exact Nat.le_add_right _ _
  refine ⟨fun ⟨nonempty, is_cut⟩ => ?_, fun no_tail full => ?_⟩
  · exact posdec_bad_list buffers long body whole stamp (tlvWalk_cut auxShape_looksUp _ well nonempty is_cut)
  · rw [no_tail, List.append_nil] at body
    have records := length_itemTlvs auxTable (s.src + coreLen) items
    rw [← records] at full ⊢
    exact posdec_no_space buffers long body whole stamp (tlvWalk_items auxShape_looksUp _ well) full

end Sys2Proof
end

section
/-! Reading fields at a cursor (47_geofence.md R261): what stands at an offset, the outcome of a chain of reads in terms of
the widths of its fields, and the route points (R262) read and written. -/

namespace Sys2Proof

open Sys2Proof.Machine

/-! ## What stands at an offset -/

/-- The bytes `w` stand at offset `o` of `full`. -/
def StandsAt (full : List Byte) (o : Nat) (w : List Byte) : Prop := w <+: full.drop o

theorem standsAt_append {full : List Byte} {o : Nat} {a b : List Byte} :
    StandsAt full o (a ++ b) ↔ StandsAt full o a ∧ StandsAt full (o + a.length) b := by
  unfold StandsAt
  rw [← List.drop_drop]
  constructor
  · rintro ⟨rest, whole⟩
    rw [← whole, List.append_assoc]
    exact ⟨List.prefix_append _ _, by rw [List.drop_left]; exact List.prefix_append _ _⟩
  · rintro ⟨⟨rest, first⟩, second⟩
    rw [← first, List.drop_left] at second
    rw [← first]
    exact (List.prefix_append_right_inj a).2 second

theorem standsAt_nil (full : List Byte) (o : Nat) : StandsAt full o [] := List.nil_prefix

/-- A part of a larger text, at its offset. -/
theorem standsAt_middle {full before w rest : List Byte} (whole : full = before ++ (w ++ rest)) :
    StandsAt full before.length w := by
  rw [StandsAt, whole, List.drop_left]; exact List.prefix_append _ _

theorem StandsAt.exists_drop {full : List Byte} {o : Nat} {w : List Byte} (stands : StandsAt full o w) :
    ∃ rest, full.drop o = w ++ rest := by
  obtain ⟨rest, whole⟩ := stands
  exact ⟨rest, whole.symm⟩

theorem byteOf_drop (l : List Byte) (o k : Nat) : byteOf (l.drop o) k = byteOf l (o + k) := by
  simp [byteOf, List.getD_eq_getElem?_getD, List.getElem?_drop]

theorem be16At_drop (l : List Byte) (o : Nat) : be16At (l.drop o) 0 = be16At l o := by
  rw [be16At, byteOf_drop, byteOf_drop]; rfl

theorem be32At_drop (l : List Byte) (o : Nat) : be32At (l.drop o) 0 = be32At l o := by
  rw [be32At, byteOf_drop, byteOf_drop, byteOf_drop, byteOf_drop]; rfl

theorem StandsAt.byteOf_eq {full : List Byte} {o : Nat} {v : Byte} (stands : StandsAt full o [v]) :
    byteOf full o = v := by
  obtain ⟨rest, whole⟩ := stands.exists_drop
  have read := byteOf_drop full o 0
  rw [whole] at read
  exact read.symm

theorem StandsAt.be16At_eq {full : List Byte} {o : Nat} {v : Half} (stands : StandsAt full o (be16 v)) :
    be16At full o = v := by
  obtain ⟨rest, whole⟩ := stands.exists_drop
  rw [← be16At_drop, whole, be16At_be16]

theorem StandsAt.be32At_eq {full : List Byte} {o : Nat} {v : Word} (stands : StandsAt full o (be32 v)) :
    be32At full o = v := by
  obtain ⟨rest, whole⟩ := stands.exists_drop
  rw [← be32At_drop, whole, be32At_be32]

theorem standsAt_byteOf {full : List Byte} {o : Nat} (inside : o + 1 ≤ full.length) :
    StandsAt full o [byteOf full o] := by
  have whole : full.drop o = [full[o]] ++ full.drop (o + 1) := List.drop_eq_getElem_cons inside
  have first : byteOf full o = full[o] := by simp [byteOf, List.getD_eq_getElem?_getD, List.getElem?_eq_getElem inside]
  rw [StandsAt, whole, first]
  exact List.prefix_append _ _

theorem be16_be16At (full : List Byte) (o : Nat) : be16 (be16At full o) = [byteOf full o, byteOf full (o + 1)] := by
  have high := (byteOf full o).isLt
  have low := (byteOf full (o + 1)).isLt
  have value : (be16At full o).toNat = (byteOf full o).toNat * 256 + (byteOf full (o + 1)).toNat :=
    toNat_append_byte _ _
  simp only [be16, List.cons.injEq, ← BitVec.toNat_inj, BitVec.extractLsb'_toNat, Nat.shiftRight_eq_div_pow, value,
    and_true]
  omega

theorem be32_be32At (full : List Byte) (o : Nat) :
    be32 (be32At full o) = [byteOf full o, byteOf full (o + 1), byteOf full (o + 2), byteOf full (o + 3)] := by
  have first := (byteOf full o).isLt
  have second := (byteOf full (o + 1)).isLt
  have third := (byteOf full (o + 2)).isLt
  have fourth := (byteOf full (o + 3)).isLt
  have value : (be32At full o).toNat =
      (((byteOf full o).toNat * 256 + (byteOf full (o + 1)).toNat) * 256 + (byteOf full (o + 2)).toNat) * 256 +
        (byteOf full (o + 3)).toNat := by
    rw [be32At, toNat_append_byte, toNat_append_byte, toNat_append_byte]
  simp only [be32, List.cons.injEq, ← BitVec.toNat_inj, BitVec.extractLsb'_toNat, Nat.shiftRight_eq_div_pow, value,
    and_true]
  omega

theorem standsAt_be16At {full : List Byte} {o : Nat} (inside : o + 2 ≤ full.length) :
    StandsAt full o (be16 (be16At full o)) := by
  rw [be16_be16At]
  exact standsAt_append (a := [_]).2 ⟨standsAt_byteOf (by omega), standsAt_byteOf (by omega)⟩

theorem standsAt_be32At {full : List Byte} {o : Nat} (inside : o + 4 ≤ full.length) :
    StandsAt full o (be32 (be32At full o)) := by
  rw [be32_be32At]
  exact standsAt_append (a := [_]).2 ⟨standsAt_byteOf (by omega), standsAt_append (a := [_]).2
    ⟨standsAt_byteOf (by rw [List.length_singleton]; omega), standsAt_append (a := [_]).2
      ⟨standsAt_byteOf (by simp only [List.length_singleton]; omega),
        standsAt_byteOf (by simp only [List.length_singleton]; omega)⟩⟩⟩

/-! ## A chain of reads by the widths of its fields -/

/-- The reads of fields of widths `ws` at `o` answer `a` when the source holds them all, else `BODY_SHORT` at the first
that does not fit. -/
def Reads {α : Type} (c : GeoInput) (o : Nat) (ws : List Nat) (x : Except Raise α) (a : α) : Prop :=
  o ≤ c.bytes.length →
    x = if o + ws.sum ≤ c.bytes.length then .ok a else .error ⟨.bodyShort, o + cutField ws (c.bytes.length - o)⟩

theorem cutField_cons_fits {w n : Nat} (ws : List Nat) (fits : w ≤ n) :
    cutField (w :: ws) n = w + cutField ws (n - w) := if_pos fits

theorem cutField_cons_short {w n : Nat} (ws : List Nat) (short : n < w) : cutField (w :: ws) n = 0 :=
  if_neg (Nat.not_le.2 short)

theorem cutField_append_fits {ws : List Nat} {n : Nat} (vs : List Nat) (fits : ws.sum ≤ n) :
    cutField (ws ++ vs) n = ws.sum + cutField vs (n - ws.sum) := by
  induction ws generalizing n with
  | nil => simp
  | cons w ws ih =>
    rw [List.sum_cons] at fits ⊢
    rw [List.cons_append, cutField_cons_fits _ (by omega), ih (by omega), Nat.sub_sub, Nat.add_assoc]

theorem cutField_append_short {ws : List Nat} {n : Nat} (vs : List Nat) (short : n < ws.sum) :
    cutField (ws ++ vs) n = cutField ws n := by
  induction ws generalizing n with
  | nil => cases short
  | cons w ws ih =>
    rw [List.sum_cons] at short
    by_cases fits : w ≤ n
    · rw [List.cons_append, cutField_cons_fits _ fits, cutField_cons_fits _ fits, ih (by omega)]
    · rw [List.cons_append, cutField_cons_short _ (Nat.not_le.1 fits), cutField_cons_short _ (Nat.not_le.1 fits)]

section
variable {α β : Type} {c : GeoInput} {o : Nat} {ws vs : List Nat} {x : Except Raise α} {f : α → Except Raise β} {a : α}
  {b : β}

theorem Reads.ok (reads : Reads c o ws x a) (inside : o + ws.sum ≤ c.bytes.length) : x = .ok a := by
  rw [reads (by omega), if_pos inside]

theorem Reads.error (reads : Reads c o ws x a) (start : o ≤ c.bytes.length) (cut : c.bytes.length < o + ws.sum) :
    x = .error ⟨.bodyShort, o + cutField ws (c.bytes.length - o)⟩ := by
  rw [reads start, if_neg (Nat.not_le.2 cut)]

/-- Nothing more to read. -/
theorem reads_done (o : Nat) (value : o ≤ c.bytes.length → x = .ok a) : Reads c o [] x a := fun start => by
  rw [value start, List.sum_nil, Nat.add_zero, if_pos start]

theorem Reads.append (first : Reads c o ws x a) (next : Reads c (o + ws.sum) vs (f a) b) :
    Reads c o (ws ++ vs) (x >>= f) b := by
  intro start
  by_cases inside : o + ws.sum ≤ c.bytes.length
  · rw [first.ok inside, ok_bind, next inside, List.sum_append, cutField_append_fits vs (by omega), Nat.sub_sub,
      Nat.add_assoc, Nat.add_assoc]
  · have short : c.bytes.length - o < ws.sum := by omega
    rw [first.error start (by omega), error_bind, List.sum_append, if_neg (by omega), cutField_append_short vs short]

theorem Reads.cons {w : Nat} (first : Reads c o [w] x a) (next : Reads c (o + w) vs (f a) b) :
    Reads c o (w :: vs) (x >>= f) b := Reads.append first next

theorem need_reads (k : Nat) : Reads c o [k] (c.need k o) () := by
  intro start
  rw [List.sum_singleton]
  by_cases inside : o + k ≤ c.bytes.length
  · rw [GeoInput.need, decide_eq_true inside, if_pos inside]; rfl
  · rw [GeoInput.need, decide_eq_false inside, if_neg inside, cutField_cons_short _ (by omega)]; rfl

variable {tail : List Byte}

theorem get8_reads {v : Byte} (stands : StandsAt (c.bytes ++ tail) o [v]) : Reads c o [1] (c.get8 o) v :=
  (need_reads 1).cons (reads_done (o + 1) fun inside => by
    rw [← byteOf_append_left tail inside, stands.byteOf_eq])

theorem get16_reads {v : Half} (stands : StandsAt (c.bytes ++ tail) o (be16 v)) : Reads c o [2] (c.get16 o) v :=
  (need_reads 2).cons (reads_done (o + 2) fun inside => by
    rw [← be16At_append_left tail inside, stands.be16At_eq])

theorem get32_reads {v : Word} (stands : StandsAt (c.bytes ++ tail) o (be32 v)) : Reads c o [4] (c.get32 o) v :=
  (need_reads 4).cons (reads_done (o + 4) fun inside => by
    rw [← be32At_append_left tail inside, stands.be32At_eq])

end

/-! ## What a read that succeeds has read -/

section
variable {c : GeoInput} {o : Nat}

theorem need_ok_iff {k : Nat} {u : Unit} : c.need k o = .ok u ↔ o + k ≤ c.bytes.length := by
  rw [GeoInput.need, require_ok_iff, decide_eq_true_eq]

theorem standsAt_of_get8 {v : Byte} (read : c.get8 o = .ok v) :
    StandsAt c.bytes o [v] ∧ o + 1 ≤ c.bytes.length := by
  obtain ⟨_, inside, value⟩ := bind_ok_iff.1 read
  rw [need_ok_iff] at inside
  exact ⟨Except.ok.inj value ▸ standsAt_byteOf inside, inside⟩

theorem standsAt_of_get16 {v : Half} (read : c.get16 o = .ok v) :
    StandsAt c.bytes o (be16 v) ∧ o + 2 ≤ c.bytes.length := by
  obtain ⟨_, inside, value⟩ := bind_ok_iff.1 read
  rw [need_ok_iff] at inside
  exact ⟨Except.ok.inj value ▸ standsAt_be16At inside, inside⟩

theorem standsAt_of_get32 {v : Word} (read : c.get32 o = .ok v) :
    StandsAt c.bytes o (be32 v) ∧ o + 4 ≤ c.bytes.length := by
  obtain ⟨_, inside, value⟩ := bind_ok_iff.1 read
  rw [need_ok_iff] at inside
  exact ⟨Except.ok.inj value ▸ standsAt_be32At inside, inside⟩

end

/-! ## Route points (R103, R262) -/

/-- The thresholds of a point on the wire. -/
def thresholdWire (p : RoutePoint) : List Byte :=
  if p.sattr.getLsbD 0 then be16 p.maxT ++ be16 p.minT else []

/-- The widths of its fields. -/
def thresholdWidths (p : RoutePoint) : List Nat := if p.sattr.getLsbD 0 then [2, 2] else []

/-- The speed group of a point on the wire. -/
def pointSpeedWire (night : Bool) (p : RoutePoint) : List Byte :=
  if p.sattr.getLsbD 1 then be16 p.sMax ++ [p.sOvd] ++ (if night then be16 p.sNight else []) else []

/-- The widths of its fields. -/
def pointSpeedWidths (night : Bool) (p : RoutePoint) : List Nat :=
  if p.sattr.getLsbD 1 then [2, 1] ++ (if night then [2] else []) else []

/-- A point with the thresholds of `p`, where `p` has them. -/
def withThresholds (p q : RoutePoint) : RoutePoint :=
  if p.sattr.getLsbD 0 then { q with maxT := p.maxT, minT := p.minT, pres := q.pres ||| 1 } else q

/-- A point with the night speed word of `p`. -/
def withNight (night : Bool) (p q : RoutePoint) : RoutePoint :=
  if night then { q with sNight := p.sNight, pres := q.pres ||| 4 } else q

/-- A point with the speed group of `p`, where `p` has one. -/
def withSpeed (night : Bool) (p q : RoutePoint) : RoutePoint :=
  if p.sattr.getLsbD 1 then withNight night p { q with sMax := p.sMax, sOvd := p.sOvd, pres := q.pres ||| 2 } else q

/-- The fixed fields of a point, every other 0. -/
def bareRoutePoint (p : RoutePoint) : RoutePoint :=
  { p with pres := 0, maxT := 0, minT := 0, sMax := 0, sOvd := 0, sNight := 0 }

/-- What `PointParse` answers for the point `p` on the wire. -/
def parsedPoint (night : Bool) (p : RoutePoint) : RoutePoint :=
  withSpeed night p (withThresholds p (bareRoutePoint p))

theorem parsedPoint_eq (night : Bool) (p : RoutePoint) :
    parsedPoint night p =
      { p with
        pres := (if p.sattr.getLsbD 0 then 1 else 0) ||| (if p.sattr.getLsbD 1 then 2 else 0) |||
          (if p.sattr.getLsbD 1 && night then 4 else 0)
        maxT := if p.sattr.getLsbD 0 then p.maxT else 0, minT := if p.sattr.getLsbD 0 then p.minT else 0
        sMax := if p.sattr.getLsbD 1 then p.sMax else 0, sOvd := if p.sattr.getLsbD 1 then p.sOvd else 0
        sNight := if p.sattr.getLsbD 1 && night then p.sNight else 0 } := by
  unfold parsedPoint withSpeed withThresholds withNight bareRoutePoint
  cases p.sattr.getLsbD 0 <;> cases p.sattr.getLsbD 1 <;> cases night <;> simp

theorem encoded_parsedPoint (night : Bool) (p : RoutePoint) : (parsedPoint night p).encoded = routeRecord night p := by
  rw [parsedPoint_eq]; rfl

theorem pointBytes_parsedPoints (night : Bool) (ps : List RoutePoint) :
    pointBytes (ps.map (parsedPoint night)) = ps.flatMap (routeRecord night) := by
  rw [pointBytes, joinRecords, List.map_map, List.flatMap_def]
  exact congrArg List.flatten (List.map_congr_left fun p _ => encoded_parsedPoint night p)

theorem routeWire_eq (night : Bool) (p : RoutePoint) :
    routeWire night p = be32 p.ptid ++ (be32 p.segid ++ (be32 p.lat ++ (be32 p.lon ++ ([p.width] ++ ([p.sattr] ++
      (thresholdWire p ++ pointSpeedWire night p)))))) := by
  simp [routeWire, thresholdWire, pointSpeedWire]

theorem routeWidths_eq (night : Bool) (p : RoutePoint) :
    routeWidths night p = 4 :: 4 :: 4 :: 4 :: 1 :: 1 :: (thresholdWidths p ++ pointSpeedWidths night p) := by
  simp [routeWidths, thresholdWidths, pointSpeedWidths]

theorem length_thresholdWire (p : RoutePoint) : (thresholdWire p).length = (thresholdWidths p).sum := by
  unfold thresholdWire thresholdWidths
  cases p.sattr.getLsbD 0 <;> rfl

theorem length_pointSpeedWire (night : Bool) (p : RoutePoint) :
    (pointSpeedWire night p).length = (pointSpeedWidths night p).sum := by
  unfold pointSpeedWire pointSpeedWidths
  cases p.sattr.getLsbD 1 <;> cases night <;> rfl

theorem length_routeWire (night : Bool) (p : RoutePoint) : (routeWire night p).length = (routeWidths night p).sum := by
  rw [routeWire_eq, routeWidths_eq]
  simp only [List.length_append, length_be32, List.length_singleton, List.sum_cons, List.sum_append,
    length_thresholdWire, length_pointSpeedWire]

theorem length_routeWires (night : Bool) (ps : List RoutePoint) :
    (ps.flatMap (routeWire night)).length = (ps.flatMap (routeWidths night)).sum := by
  induction ps with
  | nil => rfl
  | cons p ps ih => rw [List.flatMap_cons, List.flatMap_cons, List.length_append, List.sum_append, ih, length_routeWire]

section
variable {c : GeoInput} {tail : List Byte} {o : Nat}

theorem pointThresholds_reads {p q : RoutePoint} (same : q.sattr = p.sattr)
    (stands : StandsAt (c.bytes ++ tail) o (thresholdWire p)) :
    Reads c o (thresholdWidths p) (pointThresholds c q o) (withThresholds p q, o + (thresholdWidths p).sum) := by
  unfold thresholdWire at stands
  unfold pointThresholds thresholdWidths withThresholds
  rw [show q.sattr.getLsbD 0 = p.sattr.getLsbD 0 by rw [same]]
  cases gate : p.sattr.getLsbD 0 with
  | false => exact reads_done o fun _ => rfl
  | true =>
    rw [gate, if_pos rfl] at stands
    obtain ⟨at_max, at_min⟩ := standsAt_append.1 stands
    exact (get16_reads at_max).cons ((get16_reads at_min).cons (reads_done _ fun _ => rfl))

theorem pointNight_reads {p q : RoutePoint}
    (stands : StandsAt (c.bytes ++ tail) o (if c.night then be16 p.sNight else [])) :
    Reads c o (if c.night then [2] else []) (pointNight c q o)
      (withNight c.night p q, o + (if c.night then [2] else []).sum) := by
  unfold pointNight withNight
  cases night : c.night with
  | false => exact reads_done o fun _ => rfl
  | true =>
    rw [night, if_pos rfl] at stands
    exact (get16_reads stands).cons (reads_done _ fun _ => rfl)

theorem pointSpeed_reads {p q : RoutePoint} (same : q.sattr = p.sattr)
    (stands : StandsAt (c.bytes ++ tail) o (pointSpeedWire c.night p)) :
    Reads c o (pointSpeedWidths c.night p) (pointSpeed c q o)
      (withSpeed c.night p q, o + (pointSpeedWidths c.night p).sum) := by
  unfold pointSpeedWire at stands
  unfold pointSpeed pointSpeedWidths withSpeed
  rw [show q.sattr.getLsbD 1 = p.sattr.getLsbD 1 by rw [same]]
  cases gate : p.sattr.getLsbD 1 with
  | false => exact reads_done o fun _ => rfl
  | true =>
    rw [gate, if_pos rfl, List.append_assoc] at stands
    obtain ⟨at_max, stands⟩ := standsAt_append.1 stands
    obtain ⟨at_ovd, at_night⟩ := standsAt_append.1 stands
    simp only [length_be16, List.length_singleton] at at_ovd at_night
    have night := pointNight_reads (c := c) (p := p) (o := o + 3)
      (q := { q with sMax := p.sMax, sOvd := p.sOvd, pres := q.pres ||| 2 }) at_night
    have cursor : o + ([2, 1] ++ if c.night then [2] else []).sum = o + 3 + (if c.night then [2] else []).sum := by
      cases c.night <;> rfl
    rw [if_pos rfl, if_pos rfl, if_pos rfl, cursor]
    exact (get16_reads at_max).cons ((get8_reads at_ovd).cons night)

theorem sattr_withThresholds (p q : RoutePoint) : (withThresholds p q).sattr = q.sattr := by
  unfold withThresholds
  split <;> rfl

theorem pointParse_reads {p : RoutePoint} (stands : StandsAt (c.bytes ++ tail) o (routeWire c.night p)) :
    Reads c o (routeWidths c.night p) (pointParse c o)
      (parsedPoint c.night p, o + (routeWidths c.night p).sum) := by
  rw [routeWire_eq] at stands
  obtain ⟨at_ptid, stands⟩ := standsAt_append.1 stands
  obtain ⟨at_segid, stands⟩ := standsAt_append.1 stands
  obtain ⟨at_lat, stands⟩ := standsAt_append.1 stands
  obtain ⟨at_lon, stands⟩ := standsAt_append.1 stands
  obtain ⟨at_width, stands⟩ := standsAt_append.1 stands
  obtain ⟨at_sattr, stands⟩ := standsAt_append.1 stands
  obtain ⟨at_thresholds, at_speed⟩ := standsAt_append.1 stands
  simp only [length_be32, List.length_singleton] at at_segid at_lat at_lon at_width at_sattr at_thresholds at_speed
  rw [length_thresholdWire] at at_speed
  have thresholds := pointThresholds_reads (c := c) (o := o + 18) (p := p) (q := bareRoutePoint p) rfl at_thresholds
  have speed := pointSpeed_reads (c := c) (p := p) (sattr_withThresholds p (bareRoutePoint p)) at_speed
  have cursor : o + (routeWidths c.night p).sum =
      o + 18 + (thresholdWidths p).sum + (pointSpeedWidths c.night p).sum := by
    rw [routeWidths_eq]
    simp only [List.sum_cons, List.sum_append]
    omega
  rw [cursor, routeWidths_eq]
  exact (get32_reads at_ptid).cons ((get32_reads at_segid).cons ((get32_reads at_lat).cons ((get32_reads at_lon).cons
    ((get8_reads at_width).cons ((get8_reads at_sattr).cons (thresholds.append speed))))))

theorem pointsParse_reads {ps : List RoutePoint} :
    ∀ {o : Nat}, StandsAt (c.bytes ++ tail) o (ps.flatMap (routeWire c.night)) →
      Reads c o (ps.flatMap (routeWidths c.night)) (pointsParse c ps.length o)
        (ps.map (parsedPoint c.night), o + (ps.flatMap (routeWidths c.night)).sum) := by
  induction ps with
  | nil => exact fun _ => reads_done _ fun _ => rfl
  | cons p ps ih =>
    intro o stands
    rw [List.flatMap_cons] at stands
    obtain ⟨at_first, at_rest⟩ := standsAt_append.1 stands
    rw [length_routeWire] at at_rest
    rw [List.flatMap_cons, List.sum_append, ← Nat.add_assoc]
    have rest := (ih at_rest).append (vs := []) (f := fun rest => .ok (parsedPoint c.night p :: rest.1, rest.2))
      (reads_done _ fun _ => rfl)
    rw [List.append_nil] at rest
    exact (pointParse_reads at_first).append rest

end

/-! ## What `PointParse` has read -/

section
variable {c : GeoInput}

theorem wire_of_pointThresholds {q : RoutePoint} {o : Nat} {r : RoutePoint × Nat}
    (parsed : pointThresholds c q o = .ok r) :
    (∃ maxT minT pres, r.1 = { q with maxT := maxT, minT := minT, pres := pres }) ∧
      StandsAt c.bytes o (thresholdWire r.1) ∧ r.2 = o + (thresholdWire r.1).length ∧
      (o ≤ c.bytes.length → r.2 ≤ c.bytes.length) := by
  unfold pointThresholds at parsed
  cases gate : q.sattr.getLsbD 0 with
  | false =>
    rw [gate, if_neg Bool.false_ne_true] at parsed
    obtain rfl : (q, o) = r := Except.ok.inj parsed
    have none : thresholdWire q = [] := by rw [thresholdWire, gate]; rfl
    rw [none]
    exact ⟨⟨_, _, _, rfl⟩, standsAt_nil _ _, rfl, id⟩
  | true =>
    rw [gate, if_pos rfl] at parsed
    obtain ⟨maxT, read_max, parsed⟩ := bind_ok_iff.1 parsed
    obtain ⟨minT, read_min, parsed⟩ := bind_ok_iff.1 parsed
    obtain rfl := Except.ok.inj parsed
    obtain ⟨at_max, -⟩ := standsAt_of_get16 read_max
    obtain ⟨at_min, inside⟩ := standsAt_of_get16 read_min
    have wire : thresholdWire { q with maxT := maxT, minT := minT, pres := q.pres ||| 1 } = be16 maxT ++ be16 minT := by
      simp only [thresholdWire, gate, if_true]
    rw [wire]
    exact ⟨⟨_, _, _, rfl⟩, standsAt_append.2 ⟨at_max, at_min⟩, rfl, fun _ => inside⟩

theorem wire_of_pointNight {q : RoutePoint} {o : Nat} {r : RoutePoint × Nat} (parsed : pointNight c q o = .ok r) :
    (∃ sNight pres, r.1 = { q with sNight := sNight, pres := pres }) ∧
      StandsAt c.bytes o (if c.night then be16 r.1.sNight else []) ∧
      r.2 = o + (if c.night then be16 r.1.sNight else []).length ∧ (o ≤ c.bytes.length → r.2 ≤ c.bytes.length) := by
  unfold pointNight at parsed
  cases night : c.night with
  | false =>
    rw [night, if_neg Bool.false_ne_true] at parsed
    obtain rfl : (q, o) = r := Except.ok.inj parsed
    exact ⟨⟨_, _, rfl⟩, standsAt_nil _ _, rfl, id⟩
  | true =>
    rw [night, if_pos rfl] at parsed
    obtain ⟨sNight, read, parsed⟩ := bind_ok_iff.1 parsed
    obtain rfl := Except.ok.inj parsed
    obtain ⟨at_night, inside⟩ := standsAt_of_get16 read
    exact ⟨⟨_, _, rfl⟩, at_night, rfl, fun _ => inside⟩

theorem wire_of_pointSpeed {q : RoutePoint} {o : Nat} {r : RoutePoint × Nat} (parsed : pointSpeed c q o = .ok r) :
    (∃ sMax sOvd sNight pres, r.1 = { q with sMax := sMax, sOvd := sOvd, sNight := sNight, pres := pres }) ∧
      StandsAt c.bytes o (pointSpeedWire c.night r.1) ∧ r.2 = o + (pointSpeedWire c.night r.1).length ∧
      (o ≤ c.bytes.length → r.2 ≤ c.bytes.length) := by
  unfold pointSpeed at parsed
  cases gate : q.sattr.getLsbD 1 with
  | false =>
    rw [gate, if_neg Bool.false_ne_true] at parsed
    obtain rfl : (q, o) = r := Except.ok.inj parsed
    have none : pointSpeedWire c.night q = [] := by rw [pointSpeedWire, gate]; rfl
    rw [none]
    exact ⟨⟨_, _, _, _, rfl⟩, standsAt_nil _ _, rfl, id⟩
  | true =>
    rw [gate, if_pos rfl] at parsed
    obtain ⟨sMax, read_max, parsed⟩ := bind_ok_iff.1 parsed
    obtain ⟨sOvd, read_ovd, parsed⟩ := bind_ok_iff.1 parsed
    obtain ⟨at_max, -⟩ := standsAt_of_get16 read_max
    obtain ⟨at_ovd, inside⟩ := standsAt_of_get8 read_ovd
    obtain ⟨⟨sNight, pres, point⟩, at_night, cursor, bound⟩ := wire_of_pointNight parsed
    obtain ⟨p, o'⟩ := r
    simp only at point at_night cursor bound
    subst point cursor
    have wire : pointSpeedWire c.night { q with sMax := sMax, sOvd := sOvd, sNight := sNight, pres := pres } =
        be16 sMax ++ ([sOvd] ++ if c.night then be16 sNight else []) := by
      simp only [pointSpeedWire, gate, if_true, List.append_assoc]
    rw [wire]
    refine ⟨⟨_, _, _, _, rfl⟩, standsAt_append.2 ⟨at_max, standsAt_append.2 ⟨at_ovd, at_night⟩⟩, ?_,
      fun _ => bound inside⟩
    simp only [List.length_append, length_be16, List.length_singleton]
    omega

theorem wire_of_pointParse {o : Nat} {r : RoutePoint × Nat} (parsed : pointParse c o = .ok r) :
    StandsAt c.bytes o (routeWire c.night r.1) ∧ r.2 = o + (routeWire c.night r.1).length ∧
      r.2 ≤ c.bytes.length := by
  obtain ⟨ptid, read_ptid, parsed⟩ := bind_ok_iff.1 parsed
  obtain ⟨segid, read_segid, parsed⟩ := bind_ok_iff.1 parsed
  obtain ⟨lat, read_lat, parsed⟩ := bind_ok_iff.1 parsed
  obtain ⟨lon, read_lon, parsed⟩ := bind_ok_iff.1 parsed
  obtain ⟨width, read_width, parsed⟩ := bind_ok_iff.1 parsed
  obtain ⟨sattr, read_sattr, parsed⟩ := bind_ok_iff.1 parsed
  obtain ⟨⟨q, o₁⟩, read_thresholds, read_speed⟩ := bind_ok_iff.1 parsed
  obtain ⟨at_ptid, -⟩ := standsAt_of_get32 read_ptid
  obtain ⟨at_segid, -⟩ := standsAt_of_get32 read_segid
  obtain ⟨at_lat, -⟩ := standsAt_of_get32 read_lat
  obtain ⟨at_lon, -⟩ := standsAt_of_get32 read_lon
  obtain ⟨at_width, -⟩ := standsAt_of_get8 read_width
  obtain ⟨at_sattr, inside⟩ := standsAt_of_get8 read_sattr
  obtain ⟨⟨maxT, minT, pres, point⟩, at_thresholds, cursor, bound⟩ := wire_of_pointThresholds read_thresholds
  simp only at point at_thresholds cursor bound
  subst point cursor
  obtain ⟨⟨sMax, sOvd, sNight, pres', point⟩, at_speed, cursor, bound'⟩ := wire_of_pointSpeed read_speed
  obtain ⟨p, o₂⟩ := r
  simp only at point at_speed cursor bound'
  subst point cursor
  rw [routeWire_eq]
  refine ⟨standsAt_append.2 ⟨at_ptid, standsAt_append.2 ⟨at_segid, standsAt_append.2 ⟨at_lat, standsAt_append.2 ⟨at_lon,
    standsAt_append.2 ⟨at_width, standsAt_append.2 ⟨at_sattr, standsAt_append.2 ⟨at_thresholds, at_speed⟩⟩⟩⟩⟩⟩⟩, ?_,
    bound' (bound inside)⟩
  simp only [List.length_append, length_be32, List.length_singleton, thresholdWire]
  omega

theorem wire_of_pointsParse {n o : Nat} {r : List RoutePoint × Nat} (parsed : pointsParse c n o = .ok r) :
    r.1.length = n ∧ StandsAt c.bytes o (r.1.flatMap (routeWire c.night)) ∧
      r.2 = o + (r.1.flatMap (routeWire c.night)).length ∧ (o ≤ c.bytes.length → r.2 ≤ c.bytes.length) := by
  induction n generalizing o r with
  | zero =>
    obtain rfl := Except.ok.inj parsed
    exact ⟨rfl, standsAt_nil _ _, rfl, id⟩
  | succ n ih =>
    obtain ⟨⟨p, o₁⟩, first, parsed⟩ := bind_ok_iff.1 parsed
    obtain ⟨⟨ps, o₂⟩, rest, parsed⟩ := bind_ok_iff.1 parsed
    obtain rfl := Except.ok.inj parsed
    obtain ⟨at_first, cursor, inside⟩ := wire_of_pointParse first
    simp only at at_first cursor inside
    subst cursor
    obtain ⟨count, at_rest, cursor, bound⟩ := ih rest
    refine ⟨congrArg (· + 1) count, ?_, ?_, fun _ => bound inside⟩
    · rw [List.flatMap_cons]
      exact standsAt_append.2 ⟨at_first, at_rest⟩
    · rw [List.flatMap_cons, List.length_append, ← Nat.add_assoc]
      exact cursor

/-- The block of a Polyline is its route points and nothing else (R265). -/
theorem parsesAsPoints_iff {n : Nat} :
    parsesAsPoints c n = true ↔ ∃ ps : List RoutePoint, c.bytes = ps.flatMap (routeWire c.night) ∧ ps.length = n := by
  constructor
  · intro parses
    unfold parsesAsPoints at parses
    cases parsed : pointsParse c n 0 with
    | error r => rw [parsed] at parses; cases parses
    | ok r =>
      rw [parsed, decide_eq_true_eq] at parses
      obtain ⟨count, stands, cursor, -⟩ := wire_of_pointsParse parsed
      refine ⟨r.1, (stands.eq_of_length ?_).symm, count⟩
      rw [List.drop_zero, ← parses, cursor, Nat.zero_add]
  · rintro ⟨ps, whole, rfl⟩
    have stands : StandsAt (c.bytes ++ []) 0 (ps.flatMap (routeWire c.night)) := by
      rw [List.append_nil, whole]; exact List.prefix_rfl
    have length := length_routeWires c.night ps
    rw [← whole] at length
    have parsed := (pointsParse_reads stands).ok (by omega)
    rw [parsesAsPoints, parsed]
    exact decide_eq_true (by rw [Nat.zero_add, length])

end

end Sys2Proof
end

section
/-! The parse of a geofence item that stands in the source, whole or cut (47_geofence.md R261 to R263): the bytes, the
field widths and the effect of each step, and their sequence. -/

namespace Sys2Proof

open Sys2Proof.Machine

/-! ## The steps of an item -/

/-- An item as text: its registers, the bytes of its two times and what they decode to, its block with the route points it
holds, and its name. -/
structure GeoText where
  g : GeoRegs
  first : List Byte
  second : List Byte
  start : Stamp
  stop : Stamp
  points : List Byte
  ps : List RoutePoint
  name : List Byte

section
variable (P : Params) (v : Version) (w : GeoText)

/-- Group T of the item. -/
def GeoText.times : List Byte := if w.g.attr.getLsbD 0 then w.first ++ w.second else []

/-- The bytes of a step. -/
def stepBytes : GeoStep → List Byte
  | .circle => cornerBytes .circle w.g
  | .rect => cornerBytes .rect w.g
  | .vertices => be16 w.g.nPts ++ w.points
  | .points => be16 w.g.nPts ++ w.points
  | .time => w.times
  | .speedHead => speedGroup w.g
  | .night => nightWord P v w.g
  | .name => nameGroup v w.g w.name

/-- The widths of a step's fields. -/
def stepWidths : GeoStep → List Nat
  | .circle => [4, 4, 4]
  | .rect => [4, 4, 4, 4]
  | .vertices => 2 :: List.replicate w.g.nPts.toNat 8
  | .points => 2 :: w.ps.flatMap (routeWidths (nightPresent P v))
  | .time => if w.g.attr.getLsbD 0 then [6, 6] else []
  | .speedHead => if w.g.attr.getLsbD 1 then [2, 1] else []
  | .night => if w.g.attr.getLsbD 1 && nightPresent P v then [2] else []
  | .name => if v = .v2019 then [2, w.g.nameLen.toNat] else []

/-- The `G_*` values after a step; the block or the name it holds starts at MEM address `address`. -/
def stepRegs (c : GeoInput) (address : Nat) (k : GeoStep) (r : GeoRegs) : GeoRegs :=
  match k with
  | .circle => { r with lat1 := w.g.lat1, lon1 := w.g.lon1, radius := w.g.radius }
  | .rect => { r with lat1 := w.g.lat1, lon1 := w.g.lon1, lat2 := w.g.lat2, lon2 := w.g.lon2 }
  | .vertices => { r with nPts := w.g.nPts, ptsAddr := c.fit address, ptsLen := c.fit w.points.length }
  | .points => { r with nPts := w.g.nPts, ptsAddr := c.fit address, ptsLen := c.fit w.points.length }
  | .time =>
    let timed := w.g.attr.getLsbD 0
    { r with
      sdate := if timed then w.start.date else r.sdate, stime := if timed then w.start.time else r.stime
      edate := if timed then w.stop.date else r.edate, etime := if timed then w.stop.time else r.etime
      present := if timed then r.present ||| 1 else r.present }
  | .speedHead =>
    let limited := w.g.attr.getLsbD 1
    { r with
      maxSpd := if limited then w.g.maxSpd else r.maxSpd, ovDur := if limited then w.g.ovDur else r.ovDur
      present := if limited then r.present ||| 2 else r.present }
  | .night =>
    let nightly := w.g.attr.getLsbD 1 && nightPresent P v
    { r with
      night := if nightly then w.g.night else r.night, present := if nightly then r.present ||| 4 else r.present }
  | .name =>
    { r with
      nameLen := if v = .v2019 then w.g.nameLen else r.nameLen
      nameAddr := if v = .v2019 then c.fit address else r.nameAddr
      present := if v = .v2019 then r.present ||| 8 else r.present }

/-- The point records after a step. -/
def stepRecs (k : GeoStep) (recs : List RoutePoint) : List RoutePoint :=
  if k = .points then w.ps.map (parsedPoint (nightPresent P v)) else recs

/-- The parse after a step. -/
def stepDone (c : GeoInput) (k : GeoStep) (x : GeoState) : GeoState :=
  { o := x.o + (stepWidths P v w k).sum, g := stepRegs P v w c (c.base + (x.o + 2)) k x.g, recs := stepRecs P v w k x.recs }

/-- The parse after steps in order. -/
def stepsDone (c : GeoInput) : List GeoStep → GeoState → GeoState
  | [], x => x
  | k :: ks, x => stepsDone c ks (stepDone P v w c k x)

/-- The block and the name of a step are as long as the registers say. -/
def StepFits : GeoStep → Prop
  | .vertices => w.points.length = 8 * w.g.nPts.toNat
  | .points => w.points = w.ps.flatMap (routeWire (nightPresent P v)) ∧ w.ps.length = w.g.nPts.toNat
  | .name => v = .v2019 → w.name.length = w.g.nameLen.toNat
  | .time => w.g.attr.getLsbD 0 = true → w.first.length = 6 ∧ w.second.length = 6
  | _ => True

end

section
variable {P : Params} {v : Version} {w : GeoText}

theorem attr_stepDone (c : GeoInput) (k : GeoStep) (x : GeoState) : (stepDone P v w c k x).g.attr = x.g.attr := by
  cases k <;> rfl

theorem length_stepBytes {k : GeoStep} (fits : StepFits P v w k) :
    (stepBytes P v w k).length = (stepWidths P v w k).sum := by
  cases k with
  | circle => rfl
  | rect => rfl
  | vertices =>
    have block : w.points.length = 8 * w.g.nPts.toNat := fits
    simp only [stepBytes, stepWidths, List.length_append, length_be16, block, List.sum_cons, List.sum_replicate_nat]
    omega
  | points =>
    obtain ⟨block, -⟩ := fits
    simp only [stepBytes, stepWidths, List.length_append, length_be16, block, length_routeWires, List.sum_cons]
  | time =>
    simp only [stepBytes, stepWidths, GeoText.times]
    cases gate : w.g.attr.getLsbD 0 with
    | false => rfl
    | true =>
      obtain ⟨first, second⟩ := fits gate
      simp [first, second]
  | speedHead =>
    simp only [stepBytes, stepWidths, speedGroup]
    cases w.g.attr.getLsbD 1 <;> rfl
  | night =>
    simp only [stepBytes, stepWidths, nightWord]
    cases w.g.attr.getLsbD 1 && nightPresent P v <;> rfl
  | name =>
    simp only [stepBytes, stepWidths, nameGroup]
    by_cases named : v = .v2019
    · rw [if_pos named, if_pos named, List.length_append, fits named]
      rfl
    · rw [if_neg named, if_neg named]
      rfl

theorem stepsDone_append (c : GeoInput) (ks ls : List GeoStep) (x : GeoState) :
    stepsDone P v w c (ks ++ ls) x = stepsDone P v w c ls (stepsDone P v w c ks x) := by
  induction ks generalizing x with
  | nil => rfl
  | cons k ks ih => exact ih _

theorem attr_stepsDone (c : GeoInput) (ks : List GeoStep) (x : GeoState) :
    (stepsDone P v w c ks x).g.attr = x.g.attr := by
  induction ks generalizing x with
  | nil => rfl
  | cons k ks ih => exact (ih _).trans (attr_stepDone c k x)

theorem cursor_stepsDone (c : GeoInput) (ks : List GeoStep) (x : GeoState) :
    (stepsDone P v w c ks x).o = x.o + (ks.flatMap (stepWidths P v w)).sum := by
  induction ks generalizing x with
  | nil => rfl
  | cons k ks ih => rw [stepsDone, ih, List.flatMap_cons, List.sum_append, ← Nat.add_assoc]; rfl

theorem length_stepsBytes {ks : List GeoStep} (fits : ∀ k ∈ ks, StepFits P v w k) :
    (ks.flatMap (stepBytes P v w)).length = (ks.flatMap (stepWidths P v w)).sum := by
  induction ks with
  | nil => rfl
  | cons k ks ih =>
    obtain ⟨first, rest⟩ := List.forall_mem_cons.1 fits
    rw [List.flatMap_cons, List.flatMap_cons, List.length_append, List.sum_append, length_stepBytes first, ih rest]

end

/-! ## The reads of each step -/

section
variable {P : Params} {v : Version} {w : GeoText} {c : GeoInput} {tail : List Byte} {x : GeoState}

theorem verticesSkip_reads (n : Nat) : ∀ o, Reads c o (List.replicate n 8) (verticesSkip c n o) (o + 8 * n) := by
  induction n with
  | zero => exact fun o => reads_done o fun _ => rfl
  | succ n ih =>
    intro o
    rw [List.replicate_succ, Nat.mul_succ, Nat.add_comm (8 * n), ← Nat.add_assoc]
    exact (need_reads 8).cons (ih (o + 8))

theorem sliceOf_of_standsAt {o : Nat} {t : List Byte} (six : t.length = 6) (stands : StandsAt (c.bytes ++ tail) o t)
    (inside : o + 6 ≤ c.bytes.length) : sliceOf c.bytes o (o + 6) = t := by
  obtain ⟨rest, whole⟩ := stands.exists_drop
  have same : (c.bytes.drop o).take 6 = ((c.bytes ++ tail).drop o).take 6 := by
    rw [List.drop_append_of_le_length (by omega), List.take_append_of_le_length (by rw [List.length_drop]; omega)]
  rw [sliceOf, Nat.add_sub_cancel_left, same, whole, List.take_left' six]

theorem getStamp_reads {o : Nat} {t : List Byte} {stamp : Stamp} (six : t.length = 6)
    (stands : StandsAt (c.bytes ++ tail) o t) (good : o + 6 ≤ c.bytes.length → bcdDecode6 t = .ok stamp) :
    Reads c o [6] (c.getStamp o) stamp :=
  (need_reads 6).cons (reads_done (o + 6) fun inside => by
    rw [sliceOf_of_standsAt six stands inside, stampOr_ok_iff.2 (good inside)])

variable (version : c.version = v) (night : c.night = nightPresent P v) (attr : x.g.attr = w.g.attr)

theorem parseHead_reads {id : Word} {attr : Half}
    (stands : StandsAt (c.bytes ++ tail) x.o (be32 id ++ be16 attr)) :
    Reads c x.o [4, 2] (parseHead c x) { x with o := x.o + 6, g := { x.g with id := id, attr := attr } } := by
  obtain ⟨at_id, at_attr⟩ := standsAt_append.1 stands
  exact (get32_reads at_id).cons ((get16_reads at_attr).cons (reads_done _ fun _ => rfl))

theorem parseCircle_reads (stands : StandsAt (c.bytes ++ tail) x.o (stepBytes P v w .circle)) :
    Reads c x.o (stepWidths P v w .circle) (parseCircle c x) (stepDone P v w c .circle x) := by
  obtain ⟨stands, at_radius⟩ := standsAt_append.1 stands
  obtain ⟨at_lat, at_lon⟩ := standsAt_append.1 stands
  exact (get32_reads at_lat).cons ((get32_reads at_lon).cons ((get32_reads at_radius).cons
    (reads_done _ fun _ => rfl)))

theorem parseRect_reads (stands : StandsAt (c.bytes ++ tail) x.o (stepBytes P v w .rect)) :
    Reads c x.o (stepWidths P v w .rect) (parseRect c x) (stepDone P v w c .rect x) := by
  obtain ⟨stands, at_lon2⟩ := standsAt_append.1 stands
  obtain ⟨stands, at_lat2⟩ := standsAt_append.1 stands
  obtain ⟨at_lat1, at_lon1⟩ := standsAt_append.1 stands
  exact (get32_reads at_lat1).cons ((get32_reads at_lon1).cons ((get32_reads at_lat2).cons
    ((get32_reads at_lon2).cons (reads_done _ fun _ => rfl))))

theorem parseVertices_reads (fits : StepFits P v w .vertices)
    (stands : StandsAt (c.bytes ++ tail) x.o (stepBytes P v w .vertices)) :
    Reads c x.o (stepWidths P v w .vertices) (parseVertices c x) (stepDone P v w c .vertices x) := by
  obtain ⟨at_count, -⟩ := standsAt_append.1 stands
  have block : w.points.length = 8 * w.g.nPts.toNat := fits
  have cursor : (stepWidths P v w .vertices).sum = 2 + 8 * w.g.nPts.toNat := by
    simp only [stepWidths, List.sum_cons, List.sum_replicate_nat]
    omega
  have skipped := (verticesSkip_reads (c := c) w.g.nPts.toNat (x.o + 2)).append (vs := [])
    (f := fun o => .ok { x with o := o, g := { x.g with
      nPts := w.g.nPts, ptsAddr := c.fit (c.base + (x.o + 2)), ptsLen := c.fit (o - (x.o + 2)) } })
    (b := stepDone P v w c .vertices x) (reads_done _ fun _ => by
      rw [stepDone, cursor, Nat.add_sub_cancel_left, ← block, Nat.add_assoc]
      rfl)
  rw [List.append_nil] at skipped
  exact (get16_reads at_count).cons skipped

include night in
theorem parsePoints_reads (fits : StepFits P v w .points)
    (stands : StandsAt (c.bytes ++ tail) x.o (stepBytes P v w .points)) :
    Reads c x.o (stepWidths P v w .points) (parsePoints c x) (stepDone P v w c .points x) := by
  obtain ⟨at_count, at_block⟩ := standsAt_append.1 stands
  obtain ⟨block, count⟩ := fits
  rw [block, ← night, length_be16] at at_block
  have length : w.points.length = (w.ps.flatMap (routeWidths c.night)).sum := by
    rw [block, ← night, length_routeWires]
  have cursor : (stepWidths P v w .points).sum = 2 + w.points.length := by
    rw [stepWidths, List.sum_cons, ← night, length]
  have recs : stepRecs P v w .points x.recs = w.ps.map (parsedPoint c.night) := by rw [night]; rfl
  have parsed := (pointsParse_reads at_block).append (vs := [])
    (f := fun ps => .ok { x with o := ps.2, recs := ps.1, g := { x.g with
      nPts := w.g.nPts, ptsAddr := c.fit (c.base + (x.o + 2)), ptsLen := c.fit (ps.2 - (x.o + 2)) } })
    (b := stepDone P v w c .points x) (reads_done _ fun _ => by
      rw [stepDone, cursor, recs, ← length, Nat.add_sub_cancel_left, Nat.add_assoc]
      rfl)
  rw [List.append_nil, count] at parsed
  rw [stepWidths, ← night]
  exact (get16_reads at_count).cons parsed

include attr

theorem parseTime_reads (fits : StepFits P v w .time)
    (stands : StandsAt (c.bytes ++ tail) x.o (stepBytes P v w .time))
    (first : w.g.attr.getLsbD 0 = true → x.o + 6 ≤ c.bytes.length → bcdDecode6 w.first = .ok w.start)
    (second : w.g.attr.getLsbD 0 = true → x.o + 12 ≤ c.bytes.length → bcdDecode6 w.second = .ok w.stop) :
    Reads c x.o (stepWidths P v w .time) (parseTime c x) (stepDone P v w c .time x) := by
  simp only [stepBytes, GeoText.times] at stands
  rw [parseTime, show x.g.attr.getLsbD 0 = w.g.attr.getLsbD 0 by rw [attr]]
  simp only [stepWidths, stepDone, stepRegs]
  cases gate : w.g.attr.getLsbD 0 with
  | false => exact reads_done _ fun _ => rfl
  | true =>
    obtain ⟨six, six'⟩ := fits gate
    rw [gate, if_pos rfl] at stands
    obtain ⟨at_first, at_second⟩ := standsAt_append.1 stands
    rw [six] at at_second
    exact (getStamp_reads six at_first (first gate)).cons ((getStamp_reads six' at_second (second gate)).cons
      (reads_done _ fun _ => rfl))

theorem parseSpeedHead_reads (stands : StandsAt (c.bytes ++ tail) x.o (stepBytes P v w .speedHead)) :
    Reads c x.o (stepWidths P v w .speedHead) (parseSpeedHead c x) (stepDone P v w c .speedHead x) := by
  simp only [stepBytes, speedGroup] at stands
  rw [parseSpeedHead, show x.g.attr.getLsbD 1 = w.g.attr.getLsbD 1 by rw [attr]]
  simp only [stepWidths, stepDone, stepRegs]
  cases gate : w.g.attr.getLsbD 1 with
  | false => exact reads_done _ fun _ => rfl
  | true =>
    rw [gate, if_pos rfl] at stands
    obtain ⟨at_max, at_dur⟩ := standsAt_append.1 stands
    exact (get16_reads at_max).cons ((get8_reads at_dur).cons (reads_done _ fun _ => rfl))

include night in
theorem parseNight_reads (stands : StandsAt (c.bytes ++ tail) x.o (stepBytes P v w .night)) :
    Reads c x.o (stepWidths P v w .night) (parseNight c x) (stepDone P v w c .night x) := by
  simp only [stepBytes, nightWord] at stands
  rw [parseNight, night, show x.g.attr.getLsbD 1 = w.g.attr.getLsbD 1 by rw [attr]]
  simp only [stepWidths, stepDone, stepRegs]
  cases gate : w.g.attr.getLsbD 1 && nightPresent P v with
  | false => exact reads_done _ fun _ => rfl
  | true =>
    rw [gate, if_pos rfl] at stands
    exact (get16_reads stands).cons (reads_done _ fun _ => rfl)

omit attr
include version

theorem parseName_reads (stands : StandsAt (c.bytes ++ tail) x.o (stepBytes P v w .name)) :
    Reads c x.o (stepWidths P v w .name) (parseName c x) (stepDone P v w c .name x) := by
  simp only [stepBytes, nameGroup] at stands
  simp only [parseName, stepWidths, stepDone, stepRegs, version]
  by_cases named : v = .v2019
  · rw [if_pos named] at stands
    obtain ⟨at_length, -⟩ := standsAt_append.1 stands
    simp only [if_pos named]
    exact (get16_reads at_length).cons ((need_reads _).cons (reads_done _ fun _ => by
      rw [List.sum_cons, List.sum_singleton, Nat.add_assoc]
      rfl))
  · simp only [if_neg named]
    exact reads_done _ fun _ => rfl

include night attr

/-- Any step but the times. -/
theorem parseStep_reads {k : GeoStep} (no_time : k ≠ .time) (fits : StepFits P v w k)
    (stands : StandsAt (c.bytes ++ tail) x.o (stepBytes P v w k)) :
    Reads c x.o (stepWidths P v w k) (parseStep c k x) (stepDone P v w c k x) := by
  cases k with
  | circle => exact parseCircle_reads stands
  | rect => exact parseRect_reads stands
  | vertices => exact parseVertices_reads fits stands
  | points => exact parsePoints_reads night fits stands
  | time => exact absurd rfl no_time
  | speedHead => exact parseSpeedHead_reads attr stands
  | night => exact parseNight_reads night attr stands
  | name => exact parseName_reads version stands

end

/-! ## The reads of a sequence of steps -/

theorem parseSteps_append (c : GeoInput) (ks ls : List GeoStep) (x : GeoState) :
    parseSteps c (ks ++ ls) x = parseSteps c ks x >>= parseSteps c ls := by
  induction ks generalizing x with
  | nil => rfl
  | cons k ks ih =>
    rw [List.cons_append, parseSteps, parseSteps]
    cases parseStep c k x with
    | ok y => exact ih y
    | error r => rfl

section
variable {P : Params} {v : Version} {w : GeoText} {c : GeoInput} {tail : List Byte} (version : c.version = v)
  (night : c.night = nightPresent P v)
include version night

theorem parseSteps_reads {ks : List GeoStep} (no_time : .time ∉ ks) (fits : ∀ k ∈ ks, StepFits P v w k) :
    ∀ {x : GeoState}, x.g.attr = w.g.attr → StandsAt (c.bytes ++ tail) x.o (ks.flatMap (stepBytes P v w)) →
      Reads c x.o (ks.flatMap (stepWidths P v w)) (parseSteps c ks x) (stepsDone P v w c ks x) := by
  induction ks with
  | nil => exact fun _ _ => reads_done _ fun _ => rfl
  | cons k ks ih =>
    intro x attr stands
    obtain ⟨not_time, no_time⟩ := not_or.1 (List.mem_cons.not.1 no_time)
    obtain ⟨first, rest⟩ := List.forall_mem_cons.1 fits
    rw [List.flatMap_cons] at stands
    obtain ⟨at_first, at_rest⟩ := standsAt_append.1 stands
    rw [length_stepBytes first] at at_rest
    exact (parseStep_reads version night attr (Ne.symm not_time) first at_first).append
      (ih no_time rest ((attr_stepDone c k x).trans attr) at_rest)

end

end Sys2Proof
end

section
/-! A whole geofence item (47_geofence.md R261 to R266): the steps of a shape around its times, what the parse of an item
leaves or reports, and `GEODEC` on it. -/

namespace Sys2Proof

open Sys2Proof.Machine

/-! ## The steps of a shape around its times (R263) -/

/-- The steps before the times. -/
def beforeTime (P : Params) : Shape → List GeoStep
  | .circle => [.circle]
  | .rect => [.rect]
  | .polygon => if P.geoOrder = .doc then [.vertices] else []
  | .polyline => if P.geoOrder = .doc then [.points] else []

/-- The steps after the times. -/
def afterTime (P : Params) : Shape → List GeoStep
  | .circle => [.speedHead, .night, .name]
  | .rect => [.speedHead, .night, .name]
  | .polygon => if P.geoOrder = .doc then [.speedHead, .night, .name] else [.speedHead, .vertices, .night, .name]
  | .polyline => if P.geoOrder = .doc then [.name] else [.points, .name]

theorem geoSteps_eq (P : Params) (shape : Shape) :
    geoSteps P shape = beforeTime P shape ++ .time :: afterTime P shape := by
  unfold geoSteps beforeTime afterTime
  cases shape <;> cases P.geoOrder <;> rfl

theorem time_notMem_beforeTime (P : Params) (shape : Shape) : .time ∉ beforeTime P shape := by
  unfold beforeTime
  cases shape <;> cases P.geoOrder <;> decide

theorem time_notMem_afterTime (P : Params) (shape : Shape) : .time ∉ afterTime P shape := by
  unfold afterTime
  cases shape <;> cases P.geoOrder <;> decide

section
variable {P : Params} {shape : Shape} {v : Version} {w : GeoText}

/-- The item is its head and the bytes of its steps. -/
theorem geoLayout_eq : geoLayout P shape v w.g w.times w.points w.name =
    (be32 w.g.id ++ be16 w.g.attr) ++ (geoSteps P shape).flatMap (stepBytes P v w) := by
  unfold geoLayout geoArrange geoSteps
  cases shape <;> cases P.geoOrder <;> simp [stepBytes, cornerBytes]

theorem geoWidths_eq : geoWidths P shape v w.g w.ps =
    [4, 2] ++ (geoSteps P shape).flatMap (stepWidths P v w) := by
  unfold geoWidths geoArrange geoSteps
  cases shape <;> cases P.geoOrder <;> simp [stepWidths]

/-- An item whose block, times and name are as its registers say. -/
def TextOk (P : Params) (shape : Shape) (v : Version) (w : GeoText) : Prop :=
  BlockOk P shape v w.g w.points w.ps ∧ (v = .v2019 → w.name.length = w.g.nameLen.toNat) ∧
    (w.g.attr.getLsbD 0 = true → w.first.length = 6 ∧ w.second.length = 6)

theorem stepFits_of_textOk (ok : TextOk P shape v w) : ∀ k ∈ geoSteps P shape, StepFits P v w k := by
  obtain ⟨block, name, times⟩ := ok
  intro k inside
  cases k with
  | vertices =>
    cases shape with
    | polygon => exact block.1
    | _ => cases order : P.geoOrder <;> simp [geoSteps, order] at inside
  | points =>
    cases shape with
    | polyline => exact block
    | _ => cases order : P.geoOrder <;> simp [geoSteps, order] at inside
  | time => exact times
  | name => exact name
  | _ => trivial

theorem length_geoLayout (ok : TextOk P shape v w) :
    (geoLayout P shape v w.g w.times w.points w.name).length = (geoWidths P shape v w.g w.ps).sum := by
  rw [geoLayout_eq, geoWidths_eq, List.length_append, List.sum_append, length_stepsBytes (stepFits_of_textOk ok)]
  rfl

/-- The times start where the steps before them end. -/
theorem timeOffset_eq (ok : TextOk P shape v w) :
    timeOffset P shape w.points = 6 + ((beforeTime P shape).flatMap (stepWidths P v w)).sum := by
  have fits : ∀ k ∈ beforeTime P shape, StepFits P v w k := fun k inside =>
    stepFits_of_textOk ok k (by rw [geoSteps_eq]; exact List.mem_append_left _ inside)
  rw [← length_stepsBytes fits]
  unfold timeOffset beforeTime
  cases shape <;> cases P.geoOrder <;> simp [stepBytes, cornerBytes] <;> omega

end

/-! ## The parse of an item (R261) -/

/-- The parse after the head of an item. -/
def afterHead (w : GeoText) : GeoState :=
  { o := 6, g := { GeoRegs.reset with id := w.g.id, attr := w.g.attr }, recs := [] }

section
variable {P : Params} {shape : Shape} {v : Version} {w : GeoText} {c : GeoInput} {tail : List Byte}
  (version : c.version = v) (night : c.night = nightPresent P v) (ok : TextOk P shape v w)
  (stands : StandsAt (c.bytes ++ tail) 0 (geoLayout P shape v w.g w.times w.points w.name))
include version night ok stands

/-- The head and the steps before the times. -/
theorem beforeTime_reads : Reads c 0 ([4, 2] ++ (beforeTime P shape).flatMap (stepWidths P v w))
    (parseHead c .start >>= parseSteps c (beforeTime P shape))
    (stepsDone P v w c (beforeTime P shape) (afterHead w)) := by
  rw [geoLayout_eq, geoSteps_eq, List.flatMap_append] at stands
  obtain ⟨at_head, stands⟩ := standsAt_append.1 stands
  obtain ⟨at_before, -⟩ := standsAt_append.1 stands
  have fits : ∀ k ∈ beforeTime P shape, StepFits P v w k := fun k inside =>
    stepFits_of_textOk ok k (by rw [geoSteps_eq]; exact List.mem_append_left _ inside)
  exact (parseHead_reads (x := .start) at_head).append
    (parseSteps_reads (x := afterHead w) version night (time_notMem_beforeTime P shape) fits rfl at_before)

omit version night in
theorem standsAt_times_and_after :
    StandsAt (c.bytes ++ tail) (timeOffset P shape w.points) w.times ∧
      StandsAt (c.bytes ++ tail) (timeOffset P shape w.points + (stepWidths P v w .time).sum)
        ((afterTime P shape).flatMap (stepBytes P v w)) := by
  have fits := stepFits_of_textOk ok
  rw [geoSteps_eq] at fits
  rw [geoLayout_eq, geoSteps_eq, List.flatMap_append] at stands
  obtain ⟨-, stands⟩ := standsAt_append.1 stands
  obtain ⟨-, stands⟩ := standsAt_append.1 stands
  obtain ⟨at_times, at_after⟩ := standsAt_append.1 stands
  rw [length_stepsBytes fun k inside => fits k (List.mem_append_left _ inside)] at at_times at_after
  rw [length_stepBytes (fits _ (List.mem_append_right _ List.mem_cons_self))] at at_after
  rw [timeOffset_eq ok]
  exact ⟨at_times, at_after⟩

omit version night ok stands in
theorem geoParse_around_time : geoParse P c shape =
    (parseHead c .start >>= parseSteps c (beforeTime P shape)) >>= fun y =>
      parseTime c y >>= parseSteps c (afterTime P shape) := by
  rw [geoParse, geoSteps_eq]
  cases parseHead c .start with
  | error r => rfl
  | ok x => exact parseSteps_append c (beforeTime P shape) (.time :: afterTime P shape) x

/-- The parse of an item: the registers and records of its steps, or the offset of the first field that does not fit. -/
theorem geoParse_reads
    (first : w.g.attr.getLsbD 0 = true → timeOffset P shape w.points + 6 ≤ c.bytes.length →
      bcdDecode6 w.first = .ok w.start)
    (second : w.g.attr.getLsbD 0 = true → timeOffset P shape w.points + 12 ≤ c.bytes.length →
      bcdDecode6 w.second = .ok w.stop) :
    Reads c 0 (geoWidths P shape v w.g w.ps) (geoParse P c shape)
      (stepsDone P v w c (geoSteps P shape) (afterHead w)) := by
  have before := beforeTime_reads version night ok stands
  obtain ⟨at_times, at_after⟩ := standsAt_times_and_after ok stands
  have fits := stepFits_of_textOk ok
  rw [geoSteps_eq] at fits
  have cursor : (stepsDone P v w c (beforeTime P shape) (afterHead w)).o = timeOffset P shape w.points := by
    rw [cursor_stepsDone, timeOffset_eq ok]; rfl
  have offset : 0 + ([4, 2] ++ (beforeTime P shape).flatMap (stepWidths P v w)).sum = timeOffset P shape w.points := by
    rw [timeOffset_eq ok, List.sum_append, Nat.zero_add]; rfl
  rw [← cursor] at at_times at_after first second offset
  have times := parseTime_reads (attr_stepsDone c (beforeTime P shape) (afterHead w))
    (fits _ (List.mem_append_right _ List.mem_cons_self)) at_times first second
  have after := parseSteps_reads version night (time_notMem_afterTime P shape)
    (fun k inside => fits k (List.mem_append_right _ (List.mem_cons_of_mem _ inside)))
    (x := stepDone P v w c .time (stepsDone P v w c (beforeTime P shape) (afterHead w)))
    ((attr_stepDone c _ _).trans (attr_stepsDone c _ _)) at_after
  have rest := times.append (f := parseSteps c (afterTime P shape)) after
  rw [← offset] at rest
  have whole := before.append (f := fun y => parseTime c y >>= parseSteps c (afterTime P shape)) rest
  have final : stepsDone P v w c (geoSteps P shape) (afterHead w) =
      stepsDone P v w c (afterTime P shape)
        (stepDone P v w c .time (stepsDone P v w c (beforeTime P shape) (afterHead w))) := by
    rw [geoSteps_eq, stepsDone_append]; rfl
  rw [geoParse_around_time, final, geoWidths_eq, geoSteps_eq, List.flatMap_append, List.flatMap_cons,
    ← List.append_assoc]
  exact whole

omit version night ok stands in
theorem getStamp_bad {o j : Nat} {t : List Byte} (six : t.length = 6) (stands : StandsAt (c.bytes ++ tail) o t)
    (inside : o + 6 ≤ c.bytes.length) (bad : bcdDecode6 t = .error j) :
    c.getStamp o = .error ⟨.bcd, o + j⟩ := by
  have slice := sliceOf_of_standsAt six stands inside
  rw [GeoInput.getStamp, (need_ok_iff (u := ())).2 inside, ok_bind, slice]
  exact stampOr_of_bad o bad

variable (timed : w.g.attr.getLsbD 0 = true)
include timed

/-- Up to the times the item is read; then its two stamps are. -/
theorem geoParse_timed (reached : timeOffset P shape w.points ≤ c.bytes.length) :
    ∃ rest : Stamp → Stamp → Except Raise GeoState, geoParse P c shape = (do
      let start ← c.getStamp (timeOffset P shape w.points)
      let stop ← c.getStamp (timeOffset P shape w.points + 6)
      rest start stop) := by
  have before := beforeTime_reads version night ok stands
  have cursor : (stepsDone P v w c (beforeTime P shape) (afterHead w)).o = timeOffset P shape w.points := by
    rw [cursor_stepsDone, timeOffset_eq ok]; rfl
  have offset : 0 + ([4, 2] ++ (beforeTime P shape).flatMap (stepWidths P v w)).sum = timeOffset P shape w.points := by
    rw [timeOffset_eq ok, List.sum_append, Nat.zero_add]; rfl
  have gate : (stepsDone P v w c (beforeTime P shape) (afterHead w)).g.attr.getLsbD 0 = true := by
    rw [attr_stepsDone]; exact timed
  rw [geoParse_around_time, before.ok (offset ▸ reached), ok_bind, parseTime, gate, if_pos rfl, cursor]
  simp only [bind_assoc]
  exact ⟨_, rfl⟩

theorem geoParse_bad_first {j : Nat} (inside : timeOffset P shape w.points + 6 ≤ c.bytes.length)
    (bad : bcdDecode6 w.first = .error j) :
    geoParse P c shape = .error ⟨.bcd, timeOffset P shape w.points + j⟩ := by
  obtain ⟨-, -, times⟩ := id ok
  obtain ⟨at_times, -⟩ := standsAt_times_and_after ok stands
  rw [GeoText.times, timed, if_pos rfl] at at_times
  obtain ⟨at_first, -⟩ := standsAt_append.1 at_times
  obtain ⟨rest, parse⟩ := geoParse_timed version night ok stands timed (by omega)
  rw [parse, getStamp_bad (times timed).1 at_first inside bad]
  rfl

theorem geoParse_bad_second {j : Nat} (inside : timeOffset P shape w.points + 12 ≤ c.bytes.length)
    (good : bcdDecode6 w.first = .ok w.start) (bad : bcdDecode6 w.second = .error j) :
    geoParse P c shape = .error ⟨.bcd, timeOffset P shape w.points + 6 + j⟩ := by
  obtain ⟨-, -, times⟩ := id ok
  obtain ⟨six, six'⟩ := times timed
  obtain ⟨at_times, -⟩ := standsAt_times_and_after ok stands
  rw [GeoText.times, timed, if_pos rfl] at at_times
  obtain ⟨at_first, at_second⟩ := standsAt_append.1 at_times
  rw [six] at at_second
  obtain ⟨rest, parse⟩ := geoParse_timed version night ok stands timed (by omega)
  rw [parse,
    (getStamp_reads six at_first fun _ => good).ok (by rw [List.sum_singleton]; omega), ok_bind,
    getStamp_bad six' at_second (by omega) bad]
  rfl

end

end Sys2Proof
end

section
/-! `GEODEC` (47_geofence.md R264 to R266): the registers an item gives, and what the command leaves and refuses. -/

namespace Sys2Proof

open Sys2Proof.Machine

/-! ## The registers an item gives (R264) -/

/-- An item written from registers. -/
def ownText (g : GeoRegs) (points : List Byte) (ps : List RoutePoint) (name : List Byte) : GeoText :=
  { g := g, first := bcdEncode6 (g.sdate.setWidth 32) (g.stime.setWidth 32),
    second := bcdEncode6 (g.edate.setWidth 32) (g.etime.setWidth 32), start := { date := g.sdate, time := g.stime },
    stop := { date := g.edate, time := g.etime }, points := points, ps := ps, name := name }

theorem ite_or_eq (gate : Prop) [Decidable gate] (r bit : BitVec 4) :
    (if gate then r ||| bit else r) = r ||| (if gate then bit else 0) := by
  split
  · rfl
  · exact BitVec.or_zero.symm

theorem length_timeGroup (g : GeoRegs) :
    (timeGroup g).length = (if g.attr.getLsbD 0 then [6, 6] else []).sum := by
  unfold timeGroup
  split <;> rfl

theorem length_speedGroup (g : GeoRegs) :
    (speedGroup g).length = (if g.attr.getLsbD 1 then [2, 1] else []).sum := by
  unfold speedGroup
  split <;> rfl

section
variable {P : Params} {v : Version} {g : GeoRegs} {points name : List Byte} {ps : List RoutePoint} {c : GeoInput}
  (exact_fit : ∀ n < 2 ^ 32, c.fit n = BitVec.ofNat 32 n)
include exact_fit

/-- The name stands at the end of the item, after its length. -/
theorem fit_nameAddr {cursor total len : Nat} (below : c.base + total < 2 ^ 32)
    (ends : v = .v2019 → total = cursor + 2 + len) :
    (if v = .v2019 then c.fit (c.base + (cursor + 2)) else 0#32) =
      if v = .v2019 then BitVec.ofNat 32 (c.base + total - len) else 0#32 := by
  refine ite_congr rfl (fun named => ?_) fun _ => rfl
  have address : c.base + (cursor + 2) = c.base + total - len := by have := ends named; omega
  rw [exact_fit _ (by omega), address]

theorem regs_stepsDone {shape : Shape} (ok : TextOk P shape v (ownText g points ps name))
    (below : c.base + (geoWidths P shape v g ps).sum < 2 ^ 32) :
    (stepsDone P v (ownText g points ps name) c (geoSteps P shape) (afterHead (ownText g points ps name))).g =
      geoKept P shape v g c.base (geoWidths P shape v g ps).sum points.length := by
  have fits := stepFits_of_textOk ok
  have total := congrArg List.sum (geoWidths_eq (P := P) (shape := shape) (v := v) (w := ownText g points ps name))
  have times := length_timeGroup g
  have speed := length_speedGroup g
  simp at times speed
  unfold geoSteps at fits total ⊢
  cases shape with
  | circle | rect =>
    simp [ownText, stepWidths] at total
    simp [stepsDone, stepDone, stepRegs, geoKept, afterHead, GeoRegs.reset, ownText, stepWidths, ite_or_eq, hasCorner,
      hasPoints]
    exact fit_nameAddr exact_fit below fun named => by simp [named] at total ⊢; omega
  | polygon =>
    have block : points.length = 8 * g.nPts.toNat := fits .vertices (by cases P.geoOrder <;> simp)
    cases order : P.geoOrder with
    | doc =>
      simp [order, ownText, stepWidths] at total
      simp [stepsDone, stepDone, stepRegs, geoKept, afterHead, GeoRegs.reset, ownText, stepWidths, ite_or_eq, hasCorner,
        hasPoints, order, blockOffset]
      exact ⟨exact_fit _ (by omega), exact_fit _ (by omega),
        fit_nameAddr exact_fit below fun named => by simp [named] at total ⊢; omega⟩
    | std =>
      simp [order, ownText, stepWidths] at total
      simp [stepsDone, stepDone, stepRegs, geoKept, afterHead, GeoRegs.reset, ownText, stepWidths, ite_or_eq, hasCorner,
        hasPoints, order, blockOffset]
      refine ⟨?_, exact_fit _ (by omega),
        fit_nameAddr exact_fit below fun named => by simp [named] at total ⊢; omega⟩
      rw [exact_fit _ (by omega)]
      congr 1
      omega
  | polyline =>
    obtain ⟨block, -⟩ : points = ps.flatMap (routeWire (nightPresent P v)) ∧ ps.length = g.nPts.toNat :=
      fits .points (by cases P.geoOrder <;> simp)
    have length : points.length = (ps.flatMap (routeWidths (nightPresent P v))).sum := by rw [block, length_routeWires]
    cases order : P.geoOrder with
    | doc =>
      simp [order, ownText, stepWidths] at total
      simp [stepsDone, stepDone, stepRegs, geoKept, afterHead, GeoRegs.reset, ownText, stepWidths, ite_or_eq, hasCorner,
        hasPoints, order, blockOffset]
      exact ⟨exact_fit _ (by omega), exact_fit _ (by omega),
        fit_nameAddr exact_fit below fun named => by simp [named] at total ⊢; omega⟩
    | std =>
      simp [order, ownText, stepWidths] at total
      simp [stepsDone, stepDone, stepRegs, geoKept, afterHead, GeoRegs.reset, ownText, stepWidths, ite_or_eq, hasCorner,
        hasPoints, order, blockOffset]
      refine ⟨?_, exact_fit _ (by omega),
        fit_nameAddr exact_fit below fun named => by simp [named] at total ⊢; omega⟩
      rw [exact_fit _ (by omega)]
      congr 1
      omega

end

theorem recs_stepsDone (P : Params) (shape : Shape) (v : Version) (w : GeoText) (c : GeoInput) :
    (stepsDone P v w c (geoSteps P shape) (afterHead w)).recs =
      if shape = .polyline then w.ps.map (parsedPoint (nightPresent P v)) else [] := by
  unfold geoSteps
  cases shape <;> cases P.geoOrder <;> rfl

theorem cursor_geoSteps (P : Params) (shape : Shape) (v : Version) (w : GeoText) (c : GeoInput) :
    (stepsDone P v w c (geoSteps P shape) (afterHead w)).o = (geoWidths P shape v w.g w.ps).sum := by
  rw [cursor_stepsDone, geoWidths_eq, List.sum_append]; rfl

/-! ## `GEODEC` (R266) -/

/-- What `GEODEC` parses. -/
def decodeInput (v : Version) (s : State) : GeoInput := geoInput Config.params s v s.source s.src

/-- The regions `GEODEC` checks are in MEM, and for a Polyline apart. -/
def GeoBuffersIn (shape : Shape) (s : State) : Prop :=
  (shape ≠ .polyline → InMem s.src s.srcLen) ∧ (shape = .polyline → BuffersIn s (32 * s.dstCap))

theorem needGeoBuffers_inside {shape : Shape} {s : State} (buffers : GeoBuffersIn shape s) :
    needGeoBuffers Config.params shape s = .ok () := by
  obtain ⟨source, both⟩ := buffers
  rw [needGeoBuffers_ok_iff]
  split
  · next polyline => exact buffersOk_iff.2 (both polyline)
  · next other => exact region_iff_inMem.2 (source other)

theorem needGeoBuffers_source_outside {shape : Shape} {s : State} (source : ¬InMem s.src s.srcLen) :
    needGeoBuffers Config.params shape s = .error ⟨.badOperand, s.src⟩ := by
  unfold needGeoBuffers
  split
  · exact needBuffers_source_outside _ source
  · exact needRegion_outside source

section
variable {s : State} {shape : Shape} {v : Version} (buffers : GeoBuffersIn shape s)
include buffers

theorem geodec_begin_eq : geodec Config.params shape v s.begin = (do
    let x ← geoParse Config.params (decodeInput v s) shape
    let t ← writePoints shape x.recs s.begin
    .ok { t with geo := x.g, res0 := s.fit x.o, res1 := x.g.nPts.setWidth 32 }) := by
  rw [geodec, needGeoBuffers_inside (show GeoBuffersIn shape s.begin from buffers), State.source_begin]
  rfl

theorem geodec_bad_item {c : ErrCode} {n : Nat}
    (refused : geoParse Config.params (decodeInput v s) shape = .error ⟨c, n⟩) :
    FailsWith (.geodec shape v) s c n :=
  failsWith_of rfl (by rw [geodec_begin_eq buffers, refused]; rfl)

variable {x : GeoState} (parsed : geoParse Config.params (decodeInput v s) shape = .ok x)
include parsed

theorem geodec_no_space (polyline : shape = .polyline) (full : s.dstCap < x.recs.length) :
    FailsWith (.geodec shape v) s .noSpace x.recs.length := by
  refine failsWith_of rfl ?_
  rw [geodec_begin_eq buffers, parsed, ok_bind, writePoints, if_pos polyline,
    needSpace_short (show s.begin.dstCap < x.recs.length from full)]
  rfl

theorem exec_geodec_parsed (none : shape ≠ .polyline → x.recs = []) (room : x.recs.length ≤ s.dstCap) :
    ∃ t, exec (.geodec shape v) s = .next t ∧ Stored s t s.dst (pointBytes x.recs) ∧
      { t with mem := s.mem } =
        { s.begin with geo := x.g, res0 := s.fit x.o, res1 := x.g.nPts.setWidth 32 } := by
  by_cases polyline : shape = .polyline
  · refine ⟨_, runCommand_ok (t := { s.begin.store s.dst (pointBytes x.recs) with
      geo := x.g, res0 := s.fit x.o, res1 := x.g.nPts.setWidth 32 }) ?_, stored_of rfl rfl, rfl⟩
    rw [geodec_begin_eq buffers, parsed, ok_bind, writePoints, if_pos polyline,
      needSpace_fits (show x.recs.length ≤ s.begin.dstCap from room)]
    rfl
  · refine ⟨_, runCommand_ok (t := { s.begin with
      geo := x.g, res0 := s.fit x.o, res1 := x.g.nPts.setWidth 32 }) ?_, ?_, rfl⟩
    · rw [geodec_begin_eq buffers, parsed, ok_bind, writePoints, if_neg polyline]
      rfl
    · rw [none polyline]
      exact stored_nil.2 (sameMemory_of rfl rfl)

end

section
variable {P : Params} {shape : Shape} {v : Version} {g : GeoRegs} {points name : List Byte} {ps : List RoutePoint}

theorem textOk_ownText (block : BlockOk P shape v g points ps) (named : v = .v2019 → name.length = g.nameLen.toNat) :
    TextOk P shape v (ownText g points ps name) := ⟨block, named, fun _ => ⟨rfl, rfl⟩⟩

theorem times_ownText (ps : List RoutePoint) : (ownText g points ps name).times = timeGroup g := rfl

/-- The item on the wire, as the text written from its registers. -/
theorem geoWire_eq (ps : List RoutePoint) : geoWire P shape v g points name =
    geoLayout P shape v (ownText g points ps name).g (ownText g points ps name).times (ownText g points ps name).points
      (ownText g points ps name).name := by
  rw [geoWire, times_ownText]
  simp only [ownText]

theorem length_geoWire (block : BlockOk P shape v g points ps) (named : v = .v2019 → name.length = g.nameLen.toNat) :
    (geoWire P shape v g points name).length = (geoWidths P shape v g ps).sum := by
  rw [geoWire_eq ps]
  exact length_geoLayout (textOk_ownText block named)

theorem points_nil_of_blockOk (block : BlockOk P shape v g points ps) (other : shape ≠ .polyline) : ps = [] := by
  cases shape with
  | polyline => exact absurd rfl other
  | _ => exact block.2

theorem standsAt_start {s : State} {item rest tail : List Byte} (source : s.source ++ tail = item ++ rest) :
    StandsAt ((decodeInput v s).bytes ++ tail) 0 item := standsAt_middle (before := []) source

/-- The parse of a whole item written from registers. -/
theorem geoParse_geoWire {s : State} {rest : List Byte} (times : TimesOk g)
    (block : BlockOk Config.params shape v g points ps) (named : v = .v2019 → name.length = g.nameLen.toNat)
    (source : s.source = geoWire Config.params shape v g points name ++ rest) :
    geoParse Config.params (decodeInput v s) shape =
      .ok (stepsDone Config.params v (ownText g points ps name) (decodeInput v s) (geoSteps Config.params shape)
        (afterHead (ownText g points ps name))) := by
  have length := congrArg List.length source
  rw [List.length_append, length_geoWire block named] at length
  rw [geoWire_eq ps, ← List.append_nil s.source] at source
  have stands := standsAt_start (v := v) source
  refine (geoParse_reads (c := decodeInput v s) (w := ownText g points ps name) rfl rfl (textOk_ownText block named) stands
    (fun timed _ => ?_) fun timed _ => ?_).ok ?_
  · obtain ⟨sdate, stime, -, -⟩ := times timed
    exact bcdDecode6_bcdEncode6 sdate stime
  · obtain ⟨-, -, edate, etime⟩ := times timed
    exact bcdDecode6_bcdEncode6 edate etime
  · show 0 + (geoWidths Config.params shape v g ps).sum ≤ s.source.length
    omega

end

/-- Settles O41: the parse reads every part of the item back. -/
theorem geofenceDecoded : Obligations.GeofenceDecoded := by
  intro s shape v g points name rest ps P item source_in buffers_in below times block named room source
  have parsed := geoParse_geoWire times block named source
  have length : item.length = (geoWidths P shape v g ps).sum := length_geoWire block named
  have inside : item.length ≤ s.srcLen := by
    rw [source_length source, List.length_append]
    exact Nat.le_add_right _ _
  have recs := recs_stepsDone P shape v (ownText g points ps name) (decodeInput v s)
  have regs := regs_stepsDone (c := decodeInput v s) (fun _ h => s.fit_of_lt h) (textOk_ownText block named)
    (by show s.src + _ < _; omega)
  have cursor : _ = (geoWidths P shape v g ps).sum :=
    cursor_geoSteps P shape v (ownText g points ps name) (decodeInput v s)
  have all_recs : (if shape = .polyline then ps.map (parsedPoint (nightPresent P v)) else []) =
      ps.map (parsedPoint (nightPresent P v)) := by
    by_cases polyline : shape = .polyline
    · rw [if_pos polyline]
    · rw [if_neg polyline, points_nil_of_blockOk block polyline]; rfl
  have records := recs.trans all_recs
  obtain ⟨t, run, stored, state⟩ := exec_geodec_parsed ⟨source_in, buffers_in⟩ parsed
    (fun other => recs.trans (if_neg other)) (by rw [records, List.length_map]; exact room)
  rw [records, pointBytes_parsedPoints] at stored
  refine ⟨t, run, stored, ?_⟩
  have count : (geoKept P shape v g s.src item.length points.length).nPts.setWidth 32 =
      if hasPoints shape then g.nPts.setWidth 32 else 0 := by
    show (if hasPoints shape then g.nPts else 0).setWidth 32 = _
    cases hasPoints shape <;> rfl
  have cursor_word : s.fit (geoWidths P shape v g ps).sum = BitVec.ofNat 32 item.length := by
    rw [← length, s.fit_of_lt (by omega)]
  rw [← length] at regs
  rw [state, regs, cursor, cursor_word, ← count]
  rfl

/-! ## What `GEODEC` refuses (R261, R266) -/

/-- What six bytes decode to, when they do. -/
def stampOf (t : List Byte) : Stamp := (bcdDecode6 t).toOption.getD { date := 0, time := 0 }

theorem bcdDecode6_stampOf {t : List Byte} (good : ∃ stamp, bcdDecode6 t = .ok stamp) :
    bcdDecode6 t = .ok (stampOf t) := by
  obtain ⟨stamp, decoded⟩ := good
  rw [stampOf, decoded]
  rfl

/-- An item whose two times are any six bytes each. -/
def rawText (g : GeoRegs) (first second points : List Byte) (ps : List RoutePoint) (name : List Byte) : GeoText :=
  { g := g, first := first, second := second, start := stampOf first, stop := stampOf second, points := points, ps := ps,
    name := name }

/-- Settles O42: the parse stops at the first time that is not BCD or at the first field cut; then the records' room. -/
theorem geofenceDecodeRefused : Obligations.GeofenceDecodeRefused := by
  intro s shape v g first second points name tail rest ps P n timed item at1 good
  refine ⟨fun outside => ?_, fun source_in buffers_in six six' block named source => ?_⟩
  · refine failsWith_of rfl ?_
    rw [geodec, needGeoBuffers_source_outside (show ¬InMem s.begin.src s.begin.srcLen from outside)]
    rfl
  · have buffers : GeoBuffersIn shape s := ⟨source_in, buffers_in⟩
    have ok : TextOk P shape v (rawText g first second points ps name) := ⟨block, named, fun _ => ⟨six, six'⟩⟩
    have stands : StandsAt ((decodeInput v s).bytes ++ tail) 0 (geoLayout P shape v
        (rawText g first second points ps name).g (rawText g first second points ps name).times
        (rawText g first second points ps name).points (rawText g first second points ps name).name) :=
      standsAt_start (v := v) source
    have length : (decodeInput v s).bytes.length = n := State.length_source s
    have total : item.length = (geoWidths P shape v g ps).sum :=
      length_geoLayout (w := rawText g first second points ps name) ok
    refine ⟨fun gate inside j bad => ?_, fun gate inside first_good j bad => ?_, fun first_good second_good => ?_⟩
    · exact geodec_bad_item buffers (geoParse_bad_first (c := decodeInput v s)
        (w := rawText g first second points ps name) rfl rfl ok stands gate (length ▸ inside) bad)
    · exact geodec_bad_item buffers (geoParse_bad_second (c := decodeInput v s)
        (w := rawText g first second points ps name) rfl rfl ok stands gate (length ▸ inside)
        (bcdDecode6_stampOf first_good) bad)
    · have reads : Reads (decodeInput v s) 0 (geoWidths P shape v g ps) (geoParse P (decodeInput v s) shape)
          (stepsDone P v (rawText g first second points ps name) (decodeInput v s) (geoSteps P shape)
            (afterHead (rawText g first second points ps name))) :=
        geoParse_reads (v := v) (c := decodeInput v s) (w := rawText g first second points ps name) rfl rfl ok stands
          (fun gate inside => bcdDecode6_stampOf (first_good gate (length ▸ inside)))
          (fun gate inside => bcdDecode6_stampOf (second_good gate (length ▸ inside)))
      refine ⟨fun cut => ?_, fun whole full => ?_⟩
      · have stopped := reads.error (Nat.zero_le _) (by rw [length]; omega)
        rw [length, Nat.zero_add, Nat.sub_zero] at stopped
        exact geodec_bad_item buffers stopped
      · have parsed := reads.ok (by rw [length]; omega)
        have polyline : shape = .polyline := by
          by_contra other
          rw [points_nil_of_blockOk block other] at full
          cases full
        have recs := (recs_stepsDone P shape v (rawText g first second points ps name) (decodeInput v s)).trans
          (if_pos polyline)
        have count : (stepsDone P v (rawText g first second points ps name) (decodeInput v s) (geoSteps P shape)
            (afterHead (rawText g first second points ps name))).recs.length = ps.length := by
          rw [recs, List.length_map]; rfl
        rw [← count] at full ⊢
        exact geodec_no_space buffers parsed polyline full

end Sys2Proof
end

section
/-! `GEOENC` (47_geofence.md R265, R267): the checks of `GeoValid` one by one, the item it writes, and what it refuses. -/

namespace Sys2Proof

open Sys2Proof.Machine

/-! ## The item as text (R267) -/

theorem pointBlock_begin (s : State) : pointBlock s.begin = pointBlock s := State.bytesAt_begin s _ _

theorem nameBlock_begin (s : State) : nameBlock s.begin = nameBlock s := State.bytesAt_begin s _ _

theorem encodeStep_eq (P : Params) (s : State) (v : Version) (ps : List RoutePoint) (k : GeoStep) :
    encodeStep P s v k = stepBytes P v (ownText s.geo (pointBlock s) ps (nameBlock s)) k := by
  cases k <;> rfl

/-- `GEOENC` writes the item of the registers, the block and the name. -/
theorem geoItem_eq_geoWire (P : Params) (shape : Shape) (v : Version) (s : State) :
    geoItem P shape v s = geoWire P shape v s.geo (pointBlock s) (nameBlock s) := by
  rw [geoWire_eq [], geoLayout_eq, geoItem, funext (encodeStep_eq P s v [])]
  simp only [ownText]

theorem geoItem_begin (P : Params) (shape : Shape) (v : Version) (s : State) :
    geoItem P shape v s.begin = geoItem P shape v s := by
  rw [geoItem_eq_geoWire, geoItem_eq_geoWire, pointBlock_begin, nameBlock_begin]; rfl

/-- An item without a block does not depend on one. -/
theorem geoWire_of_no_block {P : Params} {shape : Shape} {v : Version} {g : GeoRegs} {name : List Byte}
    (none : hasPoints shape = false) (points points' : List Byte) :
    geoWire P shape v g points name = geoWire P shape v g points' name := by
  cases shape with
  | circle => rfl
  | rect => rfl
  | polygon => cases none
  | polyline => cases none

/-! ## The checks of `GeoValid` (R265) -/

theorem bcdFieldsOk_triple_iff {v : BitVec 24} : bcdFieldsOk (v.setWidth 32) = true ↔ stampFieldsOk v := by
  have top : (v.setWidth 32).extractLsb' 24 8 = 0 := by
    rw [extractLsb'_setWidth_triple]
    apply BitVec.eq_of_toNat_eq
    have := v.isLt
    simp [BitVec.extractLsb'_toNat, Nat.shiftRight_eq_div_pow]
    omega
  simp only [bcdFieldsOk, top, extractLsb'_setWidth_triple, stampFieldsOk, Bool.and_eq_true, decide_eq_true_eq,
    beq_self_eq_true, true_and, and_assoc]

theorem needReg_ok_iff {c : Bool} {r : Reg} {u : Unit} : needReg c r = .ok u ↔ c = true := require_ok_iff

theorem needReg_false (r : Reg) : needReg false r = .error ⟨.badOperand, r.offset⟩ := rfl

theorem needReg_stamp {v : BitVec 24} (ok : stampFieldsOk v) (r : Reg) :
    needReg (bcdFieldsOk (v.setWidth 32)) r = .ok () := needReg_ok_iff.2 (bcdFieldsOk_triple_iff.2 ok)

theorem needReg_bad_stamp {v : BitVec 24} (bad : ¬stampFieldsOk v) (r : Reg) :
    needReg (bcdFieldsOk (v.setWidth 32)) r = .error ⟨.badOperand, r.offset⟩ := by
  rw [Bool.eq_false_iff.2 fun ok => bad (bcdFieldsOk_triple_iff.1 ok), needReg_false]

theorem needReg_outside {a n : Nat} (outside : ¬InMem a n) (r : Reg) :
    needReg (region Config.params a n) r = .error ⟨.badOperand, r.offset⟩ := by
  rw [region_false_iff_inMem.2 outside, needReg_false]

theorem validTime_ok_iff {g : GeoRegs} : validTime g = .ok () ↔ TimesOk g := by
  unfold validTime TimesOk
  cases g.attr.getLsbD 0 with
  | false => simp
  | true => simp [bind_ok_iff, needReg_ok_iff, bcdFieldsOk_triple_iff]

section
variable {g : GeoRegs} (timed : g.attr.getLsbD 0 = true)
include timed

theorem validTime_bad_sdate (bad : ¬stampFieldsOk g.sdate) : validTime g = .error ⟨.badOperand, 0x0DC⟩ := by
  rw [validTime, if_pos timed, needReg_bad_stamp bad]; rfl

variable (sdate : stampFieldsOk g.sdate)
include sdate

theorem validTime_bad_stime (bad : ¬stampFieldsOk g.stime) : validTime g = .error ⟨.badOperand, 0x0E0⟩ := by
  rw [validTime, if_pos timed, needReg_stamp sdate, needReg_bad_stamp bad]; rfl

variable (stime : stampFieldsOk g.stime)
include stime

theorem validTime_bad_edate (bad : ¬stampFieldsOk g.edate) : validTime g = .error ⟨.badOperand, 0x0E4⟩ := by
  rw [validTime, if_pos timed, needReg_stamp sdate, needReg_stamp stime, needReg_bad_stamp bad]; rfl

theorem validTime_bad_etime (edate : stampFieldsOk g.edate) (bad : ¬stampFieldsOk g.etime) :
    validTime g = .error ⟨.badOperand, 0x0E8⟩ := by
  rw [validTime, if_pos timed, needReg_stamp sdate, needReg_stamp stime, needReg_stamp edate, needReg_bad_stamp bad]; rfl

end

/-- A Polygon's block has 8 bytes for each vertex. -/
def BlockSized (shape : Shape) (g : GeoRegs) : Prop := shape = .polygon → g.ptsLen.toNat = 8 * g.nPts.toNat

/-- The block of a shape that has one is in MEM. -/
def BlockIn (shape : Shape) (g : GeoRegs) : Prop := hasPoints shape = true → InMem g.ptsAddr.toNat g.ptsLen.toNat

/-- The name of a V2019 item is in MEM. -/
def NameIn (v : Version) (g : GeoRegs) : Prop := v = .v2019 → InMem g.nameAddr.toNat g.nameLen.toNat

/-- A Polyline's block is its route points. -/
def BlockParses (shape : Shape) (v : Version) (s : State) : Prop :=
  shape = .polyline → ∃ ps : List RoutePoint,
    pointBlock s = ps.flatMap (routeWire (nightPresent Config.params v)) ∧ ps.length = s.geo.nPts.toNat

section
variable {shape : Shape} {v : Version} {g : GeoRegs} {s : State}

theorem validPoints_ok_iff : validPoints Config.params shape g = .ok () ↔ BlockSized shape g ∧ BlockIn shape g := by
  unfold BlockSized BlockIn
  cases shape <;> simp [validPoints, hasPoints, bind_ok_iff, needReg_ok_iff, region_iff_inMem]

theorem validPoints_wrong_size (wrong : ¬BlockSized shape g) :
    validPoints Config.params shape g = .error ⟨.badOperand, 0x100⟩ := by
  obtain ⟨rfl, differ⟩ := Classical.not_imp.1 wrong
  rw [validPoints, decide_eq_false differ]; rfl

theorem validPoints_outside (sized : BlockSized shape g) (outside : ¬BlockIn shape g) :
    validPoints Config.params shape g = .error ⟨.badOperand, 0x0FC⟩ := by
  obtain ⟨has_block, not_in⟩ := Classical.not_imp.1 outside
  cases shape with
  | circle => cases has_block
  | rect => cases has_block
  | polygon => rw [validPoints, decide_eq_true (sized rfl), needReg_outside not_in]; rfl
  | polyline => rw [validPoints, needReg_outside not_in]; rfl

theorem validName_ok_iff : validName Config.params v g = .ok () ↔ NameIn v g := by
  unfold NameIn
  cases v <;> simp [validName, needReg_ok_iff, region_iff_inMem]

theorem validName_outside (outside : ¬NameIn v g) : validName Config.params v g = .error ⟨.badOperand, 0x104⟩ := by
  obtain ⟨named, outside⟩ := Classical.not_imp.1 outside
  rw [validName, if_pos named, needReg_outside outside]; rfl

theorem validBlock_ok_iff : validBlock Config.params shape v s = .ok () ↔ BlockParses shape v s := by
  unfold validBlock BlockParses
  by_cases polyline : shape = .polyline
  · rw [if_pos polyline, needReg_ok_iff, parsesAsPoints_iff]
    exact ⟨fun parses _ => parses, fun parses => parses polyline⟩
  · rw [if_neg polyline]
    exact ⟨fun _ is_polyline => absurd is_polyline polyline, fun _ => rfl⟩

theorem validBlock_bad (bad : ¬BlockParses shape v s) :
    validBlock Config.params shape v s = .error ⟨.badOperand, 0x100⟩ := by
  obtain ⟨polyline, bad⟩ := Classical.not_imp.1 bad
  rw [validBlock, if_pos polyline, Bool.eq_false_iff.2 fun parses => bad (parsesAsPoints_iff.1 parses), needReg_false]
  rfl

/-- Registers from which an item can be written. -/
theorem geoValid_iff : geoValid Config.params shape v s = .ok () ↔
    TimesOk s.geo ∧ (BlockSized shape s.geo ∧ BlockIn shape s.geo) ∧ NameIn v s.geo ∧ BlockParses shape v s := by
  rw [geoValid_ok_iff, validTime_ok_iff, validPoints_ok_iff, validName_ok_iff, validBlock_ok_iff]

theorem geoValid_begin : geoValid Config.params shape v s.begin = geoValid Config.params shape v s := by
  rw [geoValid, validBlock, pointBlock_begin]; rfl

end

/-! ## `GEOENC` from valid registers (R267) -/

/-- The destination of `GEOENC` is apart from the block and the name it reads. -/
def GeoApart (shape : Shape) (v : Version) (s : State) : Prop :=
  (hasPoints shape = true → Apart s.dst s.dstCap s.geo.ptsAddr.toNat s.geo.ptsLen.toNat) ∧
    (v = .v2019 → Apart s.dst s.dstCap s.geo.nameAddr.toNat s.geo.nameLen.toNat)

theorem gated_overlap_false_iff {gate : Bool} {a n b m : Nat} :
    (gate && overlap a n b m) = false ↔ (gate = true → Apart a n b m) := by
  rw [← overlap_false_iff_apart]
  cases gate <;> simp

section
variable {shape : Shape} {v : Version} {s : State} (dest : InMem s.dst s.dstCap)
include dest

theorem geoenc_invalid {r : Raise} (invalid : geoValid Config.params shape v s = .error r) :
    geoenc Config.params shape v s = .error r := by
  rw [geoenc, needRegion_inside dest, invalid]; rfl

variable (valid : geoValid Config.params shape v s = .ok ())
include valid

theorem geoenc_block_overlap (has_block : hasPoints shape = true)
    (overlapping : ¬Apart s.dst s.dstCap s.geo.ptsAddr.toNat s.geo.ptsLen.toNat) :
    geoenc Config.params shape v s = .error ⟨.badOperand, s.dst⟩ := by
  rw [geoenc, needRegion_inside dest, valid, has_block, overlap_iff_not_apart.2 overlapping]; rfl

theorem geoenc_name_overlap (named : v = .v2019)
    (overlapping : ¬Apart s.dst s.dstCap s.geo.nameAddr.toNat s.geo.nameLen.toNat) :
    geoenc Config.params shape v s = .error ⟨.badOperand, s.dst⟩ := by
  subst named
  rw [geoenc, needRegion_inside dest, valid, overlap_iff_not_apart.2 overlapping]
  cases hasPoints shape && overlap s.dst s.dstCap s.geo.ptsAddr.toNat s.geo.ptsLen.toNat <;> rfl

variable (apart : GeoApart shape v s)
include apart

/-- With every check passed, `GEOENC` is one `writeOutput` of the item. -/
theorem geoenc_eq_writeOutput : geoenc Config.params shape v s = writeOutput (geoItem Config.params shape v s) s := by
  obtain ⟨block, name⟩ := apart
  have named : ((v == .v2019) && overlap s.dst s.dstCap s.geo.nameAddr.toNat s.geo.nameLen.toNat) = false :=
    gated_overlap_false_iff.2 fun is_2019 => name (beq_iff_eq.1 is_2019)
  rw [geoenc, needRegion_inside dest, valid, gated_overlap_false_iff.2 block, named]
  rfl

end

theorem geoWrites {shape : Shape} {v : Version} {s : State} (dest : InMem s.dst s.dstCap)
    (valid : geoValid Config.params shape v s = .ok ()) (apart : GeoApart shape v s) :
    geoenc Config.params shape v s.begin =
      writeOutput (geoWire Config.params shape v s.geo (pointBlock s) (nameBlock s)) s.begin := by
  rw [geoenc_eq_writeOutput (s := s.begin) dest (geoValid_begin.trans valid) apart, geoItem_begin, geoItem_eq_geoWire]

theorem blockParts_of_blockOk {shape : Shape} {v : Version} {s : State} {ps : List RoutePoint}
    (block : BlockOk Config.params shape v s.geo (if hasPoints shape then pointBlock s else []) ps) :
    BlockSized shape s.geo ∧ BlockParses shape v s := by
  refine ⟨?_, ?_⟩
  · rintro rfl
    exact (State.length_bytesAt s _ _).symm.trans block.1
  · rintro rfl
    exact ⟨ps, block⟩

/-- Settles O43: from valid registers `GEOENC` writes the item and its length. -/
theorem geofenceEncoded : Obligations.GeofenceEncoded := by
  intro s shape v ps P g points name out dest times block block_ok name_ok
  obtain ⟨sized, parses⟩ := blockParts_of_blockOk block
  have valid : geoValid Config.params shape v s = .ok () :=
    geoValid_iff.2 ⟨times, ⟨sized, fun has_block => (block_ok has_block).1⟩, fun named => (name_ok named).1, parses⟩
  have writes := geoWrites dest valid ⟨fun has_block => (block_ok has_block).2, fun named => (name_ok named).2⟩
  have same : geoWire P shape v g (pointBlock s) name = out := by
    cases has_block : hasPoints shape with
    | true => simp only [out, points, has_block, if_true]; rfl
    | false => exact geoWire_of_no_block has_block _ _
  exact writesOutput rfl (writes.trans (congrArg (writeOutput · s.begin) same))

/-- Settles O44: each clause is the first check that fails. -/
theorem geofenceRefused : Obligations.GeofenceRefused := by
  intro s shape v g blockAt blockLen nameAt nameLen sized blockIn nameIn parses
  have fails {c : ErrCode} {n : Nat} (dest : InMem s.dst s.dstCap)
      (invalid : geoValid Config.params shape v s = .error ⟨c, n⟩) : FailsWith (.geoenc shape v) s c n :=
    failsWith_of rfl (geoenc_invalid (s := s.begin) dest (geoValid_begin.trans invalid))
  have bad_time {n : Nat} (dest : InMem s.dst s.dstCap) (bad : validTime s.geo = .error ⟨.badOperand, n⟩) :
      FailsWith (.geoenc shape v) s .badOperand n := fails dest (by rw [geoValid, bad]; rfl)
  refine ⟨fun outside => ?_, fun dest timed => ⟨fun bad => ?_, fun sdate bad => ?_, fun sdate stime bad => ?_,
    fun sdate stime edate bad => ?_⟩, fun dest times => ?_⟩
  · exact failsWith_of rfl (by rw [geoenc, needRegion_outside (show ¬InMem s.begin.dst s.begin.dstCap from outside)]; rfl)
  · exact bad_time dest (validTime_bad_sdate timed bad)
  · exact bad_time dest (validTime_bad_stime timed sdate bad)
  · exact bad_time dest (validTime_bad_edate timed sdate stime bad)
  · exact bad_time dest (validTime_bad_etime timed sdate stime edate bad)
  · have time_ok := validTime_ok_iff.2 times
    refine ⟨fun wrong => fails dest ?_, fun size outside => fails dest ?_, fun size block outside => fails dest ?_,
      fun size block name bad => fails dest ?_, fun size block name parse => ?_⟩
    · rw [geoValid, time_ok, validPoints_wrong_size wrong]; rfl
    · rw [geoValid, time_ok, validPoints_outside size outside]; rfl
    · rw [geoValid, time_ok, validPoints_ok_iff.2 ⟨size, block⟩, validName_outside outside]; rfl
    · rw [geoValid, time_ok, validPoints_ok_iff.2 ⟨size, block⟩, validName_ok_iff.2 name, validBlock_bad bad]; rfl
    · have valid := geoValid_begin.trans (geoValid_iff.2 ⟨times, ⟨size, block⟩, name, parse⟩)
      exact ⟨fun has_block overlapping => failsWith_of rfl
          (geoenc_block_overlap (s := s.begin) dest valid has_block overlapping),
        fun named overlapping => failsWith_of rfl (geoenc_name_overlap (s := s.begin) dest valid named overlapping)⟩

end Sys2Proof
end

section
/-! What a parse that succeeds has read (47_geofence.md R261, R264): the bytes up to its cursor are the item of the registers
it gives, with the block and the name where those registers locate them. -/

namespace Sys2Proof

open Sys2Proof.Machine

/-! ## The part of the registers a step sets -/

/-- Which part of an item a step reads; no item has two steps of one part. -/
def stepPartNumber : GeoStep → Nat
  | .circle => 0
  | .rect => 0
  | .vertices => 1
  | .points => 1
  | .time => 2
  | .speedHead => 3
  | .night => 4
  | .name => 5

/-- The registers a step sets, with the `G_ATTR` word that gates it, every other 0. -/
def stepPart (k : GeoStep) (g : GeoRegs) : GeoRegs :=
  let bare : GeoRegs := { GeoRegs.reset with attr := g.attr }
  match k with
  | .circle => { bare with lat1 := g.lat1, lon1 := g.lon1, radius := g.radius }
  | .rect => { bare with lat1 := g.lat1, lon1 := g.lon1, lat2 := g.lat2, lon2 := g.lon2 }
  | .vertices => { bare with nPts := g.nPts, ptsAddr := g.ptsAddr, ptsLen := g.ptsLen }
  | .points => { bare with nPts := g.nPts, ptsAddr := g.ptsAddr, ptsLen := g.ptsLen }
  | .time => { bare with sdate := g.sdate, stime := g.stime, edate := g.edate, etime := g.etime }
  | .speedHead => { bare with maxSpd := g.maxSpd, ovDur := g.ovDur }
  | .night => { bare with night := g.night }
  | .name => { bare with nameAddr := g.nameAddr, nameLen := g.nameLen }

/-- The registers a step leaves as they are, those it sets 0. -/
def withoutPart (k : GeoStep) (g : GeoRegs) : GeoRegs :=
  let rest : GeoRegs := { g with present := 0 }
  match k with
  | .circle => { rest with lat1 := 0, lon1 := 0, radius := 0 }
  | .rect => { rest with lat1 := 0, lon1 := 0, lat2 := 0, lon2 := 0 }
  | .vertices => { rest with nPts := 0, ptsAddr := 0, ptsLen := 0 }
  | .points => { rest with nPts := 0, ptsAddr := 0, ptsLen := 0 }
  | .time => { rest with sdate := 0, stime := 0, edate := 0, etime := 0 }
  | .speedHead => { rest with maxSpd := 0, ovDur := 0 }
  | .night => { rest with night := 0 }
  | .name => { rest with nameAddr := 0, nameLen := 0 }

theorem stepPart_withoutPart {j k : GeoStep} (g : GeoRegs) (differ : stepPartNumber j ≠ stepPartNumber k) :
    stepPart j (withoutPart k g) = stepPart j g := by
  revert differ
  cases j <;> cases k <;> simp [stepPartNumber, stepPart, withoutPart]

/-! ## What stands in the source, by the registers -/

section
variable (P : Params) (v : Version) (c : GeoInput) (g : GeoRegs)

/-- The `n` source bytes at MEM address `a`. -/
def sourcePart (a n : Nat) : List Byte := (c.bytes.drop (a - c.base)).take n

/-- The item as the registers give it, its block and name taken from the source. -/
def readText : GeoText :=
  ownText g (sourcePart c g.ptsAddr.toNat g.ptsLen.toNat) [] (sourcePart c g.nameAddr.toNat g.nameLen.toNat)

/-- The `n` bytes at MEM address `a` lie inside the source. -/
def InSource (a n : Nat) : Prop := c.base ≤ a ∧ a + n ≤ c.base + c.bytes.length

/-- What the registers of a step say, beside the bytes they were read from. -/
def StepHolds : GeoStep → Prop
  | .vertices => InSource c g.ptsAddr.toNat g.ptsLen.toNat ∧ g.ptsLen.toNat = 8 * g.nPts.toNat
  | .points => InSource c g.ptsAddr.toNat g.ptsLen.toNat ∧ ∃ ps : List RoutePoint,
      sourcePart c g.ptsAddr.toNat g.ptsLen.toNat = ps.flatMap (routeWire c.night) ∧ ps.length = g.nPts.toNat
  | .time => TimesOk g
  | .name => c.version = .v2019 → InSource c g.nameAddr.toNat g.nameLen.toNat
  | _ => True

/-- The bytes of a step as the registers give them. -/
def readBytes (k : GeoStep) : List Byte := stepBytes P v (readText c g) k

theorem readBytes_stepPart (k : GeoStep) : readBytes P v c (stepPart k g) k = readBytes P v c g k := by
  cases k <;> rfl

theorem stepHolds_stepPart (k : GeoStep) : StepHolds c (stepPart k g) k ↔ StepHolds c g k := by
  cases k <;> exact Iff.rfl

end

/-- What a step that succeeds has done. -/
structure StepRead (P : Params) (v : Version) (c : GeoInput) (k : GeoStep) (x y : GeoState) : Prop where
  stands : StandsAt c.bytes x.o (readBytes P v c y.g k)
  cursor : y.o = x.o + (readBytes P v c y.g k).length
  inside : y.o ≤ c.bytes.length
  holds : StepHolds c y.g k
  kept : withoutPart k y.g = withoutPart k x.g

/-! ## Each step -/

theorem sourcePart_of_standsAt {c : GeoInput} {o n : Nat} {w : List Byte} (stands : StandsAt c.bytes o w)
    (length : w.length = n) : sourcePart c (c.base + o) n = w := by
  obtain ⟨rest, whole⟩ := stands.exists_drop
  rw [sourcePart, Nat.add_sub_cancel_left, whole, List.take_left' length]

theorem sourcePart_length {c : GeoInput} {o n : Nat} (inside : o + n ≤ c.bytes.length) :
    (sourcePart c (c.base + o) n).length = n := by
  rw [sourcePart, Nat.add_sub_cancel_left, List.length_take, List.length_drop]
  omega

theorem standsAt_sourcePart (c : GeoInput) (o n : Nat) : StandsAt c.bytes o (sourcePart c (c.base + o) n) := by
  rw [sourcePart, Nat.add_sub_cancel_left]
  exact List.take_prefix _ _

section
variable {P : Params} {v : Version} {c : GeoInput} {x y : GeoState}

theorem verticesSkip_ok {n o o' : Nat} (skipped : verticesSkip c n o = .ok o') (start : o ≤ c.bytes.length) :
    o' = o + 8 * n ∧ o' ≤ c.bytes.length := by
  induction n generalizing o with
  | zero =>
    obtain rfl := Except.ok.inj skipped
    exact ⟨rfl, start⟩
  | succ n ih =>
    obtain ⟨_, inside, skipped⟩ := bind_ok_iff.1 skipped
    obtain ⟨cursor, bound⟩ := ih skipped (need_ok_iff.1 inside)
    exact ⟨by omega, bound⟩

theorem stamp_of_getStamp {o : Nat} {stamp : Stamp} (read : c.getStamp o = .ok stamp) :
    StandsAt c.bytes o (bcdEncode6 (stamp.date.setWidth 32) (stamp.time.setWidth 32)) ∧
      stampFieldsOk stamp.date ∧ stampFieldsOk stamp.time ∧ o + 6 ≤ c.bytes.length := by
  obtain ⟨_, inside, decoded⟩ := bind_ok_iff.1 read
  have inside := need_ok_iff.1 inside
  have slice : sliceOf c.bytes o (o + 6) = (c.bytes.drop o).take 6 := by rw [sliceOf, Nat.add_sub_cancel_left]
  rw [stampOr_ok_iff, slice] at decoded
  have six : ((c.bytes.drop o).take 6).length = 6 := by rw [List.length_take, List.length_drop]; omega
  obtain ⟨encoded, date, time⟩ := bcdEncode6_of_bcdDecode6 six decoded
  rw [encoded]
  exact ⟨List.take_prefix _ _, date, time, inside⟩

theorem read_of_parseCircle (parsed : parseCircle c x = .ok y) : StepRead P v c .circle x y := by
  obtain ⟨lat, read_lat, parsed⟩ := bind_ok_iff.1 parsed
  obtain ⟨lon, read_lon, parsed⟩ := bind_ok_iff.1 parsed
  obtain ⟨radius, read_radius, parsed⟩ := bind_ok_iff.1 parsed
  obtain rfl := Except.ok.inj parsed
  obtain ⟨at_lat, -⟩ := standsAt_of_get32 read_lat
  obtain ⟨at_lon, -⟩ := standsAt_of_get32 read_lon
  obtain ⟨at_radius, inside⟩ := standsAt_of_get32 read_radius
  exact ⟨standsAt_append.2 ⟨standsAt_append.2 ⟨at_lat, at_lon⟩, at_radius⟩, rfl, inside, trivial, rfl⟩

theorem read_of_parseRect (parsed : parseRect c x = .ok y) : StepRead P v c .rect x y := by
  obtain ⟨lat1, read_lat1, parsed⟩ := bind_ok_iff.1 parsed
  obtain ⟨lon1, read_lon1, parsed⟩ := bind_ok_iff.1 parsed
  obtain ⟨lat2, read_lat2, parsed⟩ := bind_ok_iff.1 parsed
  obtain ⟨lon2, read_lon2, parsed⟩ := bind_ok_iff.1 parsed
  obtain rfl := Except.ok.inj parsed
  obtain ⟨at_lat1, -⟩ := standsAt_of_get32 read_lat1
  obtain ⟨at_lon1, -⟩ := standsAt_of_get32 read_lon1
  obtain ⟨at_lat2, -⟩ := standsAt_of_get32 read_lat2
  obtain ⟨at_lon2, inside⟩ := standsAt_of_get32 read_lon2
  exact ⟨standsAt_append.2 ⟨standsAt_append.2 ⟨standsAt_append.2 ⟨at_lat1, at_lon1⟩, at_lat2⟩, at_lon2⟩, rfl, inside,
    trivial, rfl⟩

theorem read_of_parseTime (start : x.o ≤ c.bytes.length) (parsed : parseTime c x = .ok y) :
    StepRead P v c .time x y := by
  unfold parseTime at parsed
  cases gate : x.g.attr.getLsbD 0 with
  | false =>
    rw [gate, if_neg Bool.false_ne_true] at parsed
    obtain rfl := Except.ok.inj parsed
    have none : readBytes P v c x.g .time = [] := by
      simp only [readBytes, stepBytes, readText, times_ownText, timeGroup, gate]; rfl
    refine ⟨?_, ?_, start, fun timed => absurd (gate.symm.trans timed) Bool.false_ne_true, rfl⟩
    · rw [none]; exact standsAt_nil _ _
    · rw [none]; rfl
  | true =>
    rw [gate, if_pos rfl] at parsed
    obtain ⟨first, read_first, parsed⟩ := bind_ok_iff.1 parsed
    obtain ⟨second, read_second, parsed⟩ := bind_ok_iff.1 parsed
    obtain rfl := Except.ok.inj parsed
    obtain ⟨at_first, sdate, stime, -⟩ := stamp_of_getStamp read_first
    obtain ⟨at_second, edate, etime, inside⟩ := stamp_of_getStamp read_second
    refine ⟨?_, ?_, inside, fun _ => ⟨sdate, stime, edate, etime⟩, rfl⟩
    · simp only [readBytes, stepBytes, readText, times_ownText, timeGroup, gate, if_true]
      exact standsAt_append.2 ⟨at_first, at_second⟩
    · simp only [readBytes, stepBytes, readText, times_ownText, timeGroup, gate, if_true]
      rfl

theorem read_of_parseSpeedHead (start : x.o ≤ c.bytes.length) (parsed : parseSpeedHead c x = .ok y) :
    StepRead P v c .speedHead x y := by
  unfold parseSpeedHead at parsed
  cases gate : x.g.attr.getLsbD 1 with
  | false =>
    rw [gate, if_neg Bool.false_ne_true] at parsed
    obtain rfl := Except.ok.inj parsed
    have none : readBytes P v c x.g .speedHead = [] := by
      simp only [readBytes, stepBytes, readText, ownText, speedGroup, gate]; rfl
    refine ⟨?_, ?_, start, trivial, rfl⟩
    · rw [none]; exact standsAt_nil _ _
    · rw [none]; rfl
  | true =>
    rw [gate, if_pos rfl] at parsed
    obtain ⟨maxSpd, read_max, parsed⟩ := bind_ok_iff.1 parsed
    obtain ⟨ovDur, read_dur, parsed⟩ := bind_ok_iff.1 parsed
    obtain rfl := Except.ok.inj parsed
    obtain ⟨at_max, -⟩ := standsAt_of_get16 read_max
    obtain ⟨at_dur, inside⟩ := standsAt_of_get8 read_dur
    refine ⟨?_, ?_, inside, trivial, rfl⟩
    · simp only [readBytes, stepBytes, readText, ownText, speedGroup, gate, if_true]
      exact standsAt_append.2 ⟨at_max, at_dur⟩
    · simp only [readBytes, stepBytes, readText, ownText, speedGroup, gate, if_true]
      rfl

variable (version : c.version = v) (night : c.night = nightPresent P v)

include night in
theorem read_of_parseNight (start : x.o ≤ c.bytes.length) (parsed : parseNight c x = .ok y) :
    StepRead P v c .night x y := by
  unfold parseNight at parsed
  rw [night] at parsed
  cases gate : x.g.attr.getLsbD 1 && nightPresent P v with
  | false =>
    rw [gate, if_neg Bool.false_ne_true] at parsed
    obtain rfl := Except.ok.inj parsed
    have none : readBytes P v c x.g .night = [] := by
      simp only [readBytes, stepBytes, readText, ownText, nightWord, gate]; rfl
    refine ⟨?_, ?_, start, trivial, rfl⟩
    · rw [none]; exact standsAt_nil _ _
    · rw [none]; rfl
  | true =>
    rw [gate, if_pos rfl] at parsed
    obtain ⟨word, read, parsed⟩ := bind_ok_iff.1 parsed
    obtain rfl := Except.ok.inj parsed
    obtain ⟨at_night, inside⟩ := standsAt_of_get16 read
    refine ⟨?_, ?_, inside, trivial, rfl⟩
    · simp only [readBytes, stepBytes, readText, ownText, nightWord, gate, if_true]
      exact at_night
    · simp only [readBytes, stepBytes, readText, ownText, nightWord, gate, if_true]
      rfl

variable (exact_fit : ∀ n < 2 ^ 32, c.fit n = BitVec.ofNat 32 n) (below : c.base + c.bytes.length < 2 ^ 32)

include exact_fit in
theorem toNat_fit {n : Nat} (small : n < 2 ^ 32) : (c.fit n).toNat = n := by
  rw [exact_fit n small, toNat_ofNat_of_lt small]

include exact_fit below

theorem read_of_parseVertices (parsed : parseVertices c x = .ok y) : StepRead P v c .vertices x y := by
  obtain ⟨n, read, parsed⟩ := bind_ok_iff.1 parsed
  obtain ⟨o, skipped, parsed⟩ := bind_ok_iff.1 parsed
  obtain rfl := Except.ok.inj parsed
  obtain ⟨at_count, inside⟩ := standsAt_of_get16 read
  obtain ⟨rfl, bound⟩ := verticesSkip_ok skipped inside
  have address : (c.fit (c.base + (x.o + 2))).toNat = c.base + (x.o + 2) := toNat_fit exact_fit (by omega)
  have length : (c.fit (x.o + 2 + 8 * n.toNat - (x.o + 2))).toNat = 8 * n.toNat := by
    rw [toNat_fit exact_fit (by omega), Nat.add_sub_cancel_left]
  refine ⟨standsAt_append.2 ⟨at_count, ?_⟩, ?_, bound, ⟨⟨?_, ?_⟩, length⟩, rfl⟩
  · show StandsAt c.bytes (x.o + 2) (sourcePart c (c.fit _).toNat (c.fit _).toNat)
    rw [address]
    exact standsAt_sourcePart _ _ _
  · show x.o + 2 + 8 * n.toNat = x.o + (be16 n ++ sourcePart c (c.fit _).toNat (c.fit _).toNat).length
    rw [address, length, List.length_append, sourcePart_length bound, length_be16, Nat.add_assoc]
  · show c.base ≤ (c.fit _).toNat
    omega
  · show (c.fit _).toNat + (c.fit _).toNat ≤ _
    omega

theorem read_of_parsePoints (parsed : parsePoints c x = .ok y) : StepRead P v c .points x y := by
  obtain ⟨n, read, parsed⟩ := bind_ok_iff.1 parsed
  obtain ⟨⟨ps, o⟩, points, parsed⟩ := bind_ok_iff.1 parsed
  obtain rfl := Except.ok.inj parsed
  obtain ⟨at_count, inside⟩ := standsAt_of_get16 read
  obtain ⟨count, stands, cursor, bound⟩ := wire_of_pointsParse points
  simp only at count stands cursor bound
  subst cursor
  have bound := bound inside
  have address : (c.fit (c.base + (x.o + 2))).toNat = c.base + (x.o + 2) := toNat_fit exact_fit (by omega)
  have length : (c.fit (x.o + 2 + (ps.flatMap (routeWire c.night)).length - (x.o + 2))).toNat =
      (ps.flatMap (routeWire c.night)).length := by
    rw [toNat_fit exact_fit (by omega), Nat.add_sub_cancel_left]
  have block := sourcePart_of_standsAt stands rfl
  refine ⟨standsAt_append.2 ⟨at_count, ?_⟩, ?_, bound, ⟨⟨?_, ?_⟩, ps, ?_, count⟩, rfl⟩
  · show StandsAt c.bytes (x.o + 2) (sourcePart c (c.fit _).toNat (c.fit _).toNat)
    rw [address]
    exact standsAt_sourcePart _ _ _
  · show x.o + 2 + (ps.flatMap (routeWire c.night)).length =
      x.o + (be16 n ++ sourcePart c (c.fit _).toNat (c.fit _).toNat).length
    rw [address, length, block, List.length_append, length_be16, Nat.add_assoc]
  · show c.base ≤ (c.fit _).toNat
    omega
  · show (c.fit _).toNat + (c.fit _).toNat ≤ _
    rw [address, length]
    omega
  · show sourcePart c (c.fit _).toNat (c.fit _).toNat = _
    rw [address, length, block]

include version

theorem read_of_parseName (start : x.o ≤ c.bytes.length) (parsed : parseName c x = .ok y) :
    StepRead P v c .name x y := by
  unfold parseName at parsed
  by_cases named : c.version = .v2019
  · rw [if_pos named] at parsed
    obtain ⟨n, read, parsed⟩ := bind_ok_iff.1 parsed
    obtain ⟨_, bound, parsed⟩ := bind_ok_iff.1 parsed
    obtain rfl := Except.ok.inj parsed
    obtain ⟨at_length, inside⟩ := standsAt_of_get16 read
    have bound := need_ok_iff.1 bound
    have address : (c.fit (c.base + (x.o + 2))).toNat = c.base + (x.o + 2) := toNat_fit exact_fit (by omega)
    have bytes : ∀ name, nameGroup v { x.g with
        nameLen := n, nameAddr := c.fit (c.base + (x.o + 2)), present := x.g.present ||| 8 } name = be16 n ++ name :=
      fun _ => if_pos (version ▸ named)
    refine ⟨?_, ?_, bound, fun _ => ⟨?_, ?_⟩, rfl⟩
    · simp only [readBytes, stepBytes, readText, ownText, bytes, address]
      exact standsAt_append.2 ⟨at_length, standsAt_sourcePart _ _ _⟩
    · simp only [readBytes, stepBytes, readText, ownText, bytes, address]
      rw [List.length_append, sourcePart_length bound, length_be16, Nat.add_assoc]
    · show c.base ≤ (c.fit _).toNat
      omega
    · show (c.fit _).toNat + n.toNat ≤ _
      omega
  · rw [if_neg named] at parsed
    obtain rfl := Except.ok.inj parsed
    have none : readBytes P v c x.g .name = [] := if_neg (version ▸ named)
    refine ⟨?_, ?_, start, fun is_2019 => absurd is_2019 named, rfl⟩
    · rw [none]; exact standsAt_nil _ _
    · rw [none]; rfl

include night

theorem read_of_parseStep {k : GeoStep} (start : x.o ≤ c.bytes.length) (parsed : parseStep c k x = .ok y) :
    StepRead P v c k x y := by
  cases k with
  | circle => exact read_of_parseCircle parsed
  | rect => exact read_of_parseRect parsed
  | vertices => exact read_of_parseVertices exact_fit below parsed
  | points => exact read_of_parsePoints exact_fit below parsed
  | time => exact read_of_parseTime start parsed
  | speedHead => exact read_of_parseSpeedHead start parsed
  | night => exact read_of_parseNight night start parsed
  | name => exact read_of_parseName version exact_fit below start parsed

end

/-! ## A sequence of steps -/

theorem StepRead.part_eq {P : Params} {v : Version} {c : GeoInput} {j k : GeoStep} {x y : GeoState}
    (read : StepRead P v c k x y) (differ : stepPartNumber j ≠ stepPartNumber k) : stepPart j y.g = stepPart j x.g := by
  rw [← stepPart_withoutPart y.g differ, read.kept, stepPart_withoutPart x.g differ]

theorem StepRead.head_eq {P : Params} {v : Version} {c : GeoInput} {k : GeoStep} {x y : GeoState}
    (read : StepRead P v c k x y) : y.g.id = x.g.id ∧ y.g.attr = x.g.attr := by
  have ids := congrArg GeoRegs.id read.kept
  have attrs := congrArg GeoRegs.attr read.kept
  cases k <;> exact ⟨ids, attrs⟩

theorem geoSteps_distinct (P : Params) (shape : Shape) : ((geoSteps P shape).map stepPartNumber).Nodup := by
  unfold geoSteps
  cases shape <;> cases P.geoOrder <;> decide

/-- What a sequence of steps that succeeds has done, by the registers at its end. -/
structure StepsRead (P : Params) (v : Version) (c : GeoInput) (ks : List GeoStep) (x z : GeoState) : Prop where
  stands : StandsAt c.bytes x.o (ks.flatMap (readBytes P v c z.g))
  cursor : z.o = x.o + (ks.flatMap (readBytes P v c z.g)).length
  inside : z.o ≤ c.bytes.length
  holds : ∀ k ∈ ks, StepHolds c z.g k
  parts : ∀ j, stepPartNumber j ∉ ks.map stepPartNumber → stepPart j z.g = stepPart j x.g
  head : z.g.id = x.g.id ∧ z.g.attr = x.g.attr

section
variable {P : Params} {v : Version} {c : GeoInput} (version : c.version = v) (night : c.night = nightPresent P v)
  (exact_fit : ∀ n < 2 ^ 32, c.fit n = BitVec.ofNat 32 n) (below : c.base + c.bytes.length < 2 ^ 32)
include version night exact_fit below

theorem read_of_parseSteps {ks : List GeoStep} {z : GeoState} (distinct : (ks.map stepPartNumber).Nodup) :
    ∀ {x : GeoState}, x.o ≤ c.bytes.length → parseSteps c ks x = .ok z → StepsRead P v c ks x z := by
  induction ks with
  | nil =>
    intro x start parsed
    obtain rfl := Except.ok.inj parsed
    exact ⟨standsAt_nil _ _, rfl, start, nofun, fun _ _ => rfl, rfl, rfl⟩
  | cons k ks ih =>
    intro x start parsed
    obtain ⟨y, first, parsed⟩ := bind_ok_iff.1 parsed
    obtain ⟨new, distinct⟩ := List.nodup_cons.1 distinct
    have step := read_of_parseStep (P := P) version night exact_fit below start first
    have rest := ih distinct step.inside parsed
    have bytes : readBytes P v c z.g k = readBytes P v c y.g k := by
      rw [← readBytes_stepPart P v c z.g, ← readBytes_stepPart P v c y.g, rest.parts k new]
    refine ⟨?_, ?_, rest.inside, List.forall_mem_cons.2 ⟨?_, rest.holds⟩, fun j other => ?_, ?_⟩
    · rw [List.flatMap_cons, bytes]
      exact standsAt_append.2 ⟨step.stands, step.cursor ▸ rest.stands⟩
    · rw [List.flatMap_cons, bytes, List.length_append, ← Nat.add_assoc, ← step.cursor]
      exact rest.cursor
    · rw [← stepHolds_stepPart, rest.parts k new, stepHolds_stepPart]
      exact step.holds
    · rw [List.map_cons, List.mem_cons, not_or] at other
      exact (rest.parts j other.2).trans (step.part_eq other.1)
    · exact ⟨rest.head.1.trans step.head_eq.1, rest.head.2.trans step.head_eq.2⟩

/-- A parse that succeeds has read the item of the registers it gives. -/
theorem wire_of_geoParse {shape : Shape} {z : GeoState} (parsed : geoParse P c shape = .ok z) :
    StandsAt c.bytes 0 (geoWire P shape v z.g (readText c z.g).points (readText c z.g).name) ∧
      z.o = (geoWire P shape v z.g (readText c z.g).points (readText c z.g).name).length ∧ z.o ≤ c.bytes.length ∧
      ∀ k ∈ geoSteps P shape, StepHolds c z.g k := by
  obtain ⟨x, read_head, parsed⟩ := bind_ok_iff.1 parsed
  obtain ⟨id, read_id, read_head⟩ := bind_ok_iff.1 read_head
  obtain ⟨attr, read_attr, read_head⟩ := bind_ok_iff.1 read_head
  obtain rfl := Except.ok.inj read_head
  obtain ⟨at_id, -⟩ := standsAt_of_get32 read_id
  obtain ⟨at_attr, inside⟩ := standsAt_of_get16 read_attr
  have read := read_of_parseSteps (P := P) version night exact_fit below (geoSteps_distinct P shape) inside parsed
  obtain ⟨id_eq, attr_eq⟩ := read.head
  have wire : geoWire P shape v z.g (readText c z.g).points (readText c z.g).name =
      (be32 id ++ be16 attr) ++ (geoSteps P shape).flatMap (readBytes P v c z.g) := by
    rw [geoWire_eq [], geoLayout_eq]
    show (be32 z.g.id ++ be16 z.g.attr) ++ _ = _
    rw [id_eq, attr_eq]
    rfl
  rw [wire]
  refine ⟨standsAt_append.2 ⟨standsAt_append.2 ⟨at_id, at_attr⟩, read.stands⟩, ?_, read.inside, read.holds⟩
  rw [List.length_append, read.cursor]
  rfl

end

end Sys2Proof
end

section
/-! The two round trips of a geofence item (47_geofence.md R268): `GEOENC` after `GEODEC`, and `GEODEC` after `GEOENC`. -/

namespace Sys2Proof

open Sys2Proof.Machine

/-! ## `GEODEC` after `GEOENC` (R268 b) -/

/-- The registers of a shape without a block do not depend on one. -/
theorem geoKept_of_no_block {P : Params} {shape : Shape} {v : Version} {g : GeoRegs} {base itemLen : Nat}
    (none : hasPoints shape = false) (len len' : Nat) :
    geoKept P shape v g base itemLen len = geoKept P shape v g base itemLen len' := by
  simp only [geoKept, none]
  rfl

/-- The block `GEOENC` writes. -/
def writtenBlock (shape : Shape) (s : State) : List Byte := if hasPoints shape then pointBlock s else []

theorem geoItem_eq_written (P : Params) (shape : Shape) (v : Version) (s : State) :
    geoItem P shape v s = geoWire P shape v s.geo (writtenBlock shape s) (nameBlock s) := by
  rw [geoItem_eq_geoWire, writtenBlock]
  cases has_block : hasPoints shape with
  | true => rfl
  | false => exact geoWire_of_no_block has_block _ _

theorem geoKept_writtenBlock (P : Params) (shape : Shape) (v : Version) (s : State) (base itemLen : Nat) :
    geoKept P shape v s.geo base itemLen (writtenBlock shape s).length =
      geoKept P shape v s.geo base itemLen s.geo.ptsLen.toNat := by
  rw [writtenBlock]
  cases has_block : hasPoints shape with
  | true => rw [if_pos rfl, pointBlock, State.length_bytesAt]
  | false => exact geoKept_of_no_block has_block _ _

/-- The block of valid registers is as they say. -/
theorem blockOk_of_valid {shape : Shape} {v : Version} {s : State} (sized : BlockSized shape s.geo)
    (parses : BlockParses shape v s) :
    ∃ ps, BlockOk Config.params shape v s.geo (writtenBlock shape s) ps ∧
      (shape = .polyline → ps.length = s.geo.nPts.toNat) := by
  cases shape with
  | circle => exact ⟨[], ⟨rfl, rfl⟩, nofun⟩
  | rect => exact ⟨[], ⟨rfl, rfl⟩, nofun⟩
  | polygon => exact ⟨[], ⟨(State.length_bytesAt s _ _).trans (sized rfl), rfl⟩, nofun⟩
  | polyline =>
    obtain ⟨ps, block, count⟩ := parses rfl
    exact ⟨ps, ⟨block, count⟩, fun _ => count⟩

/-- A `GEOENC` that reports no error has passed its checks and written its item. -/
theorem exec_geoenc_ok {shape : Shape} {v : Version} {s t : State} (run : exec (.geoenc shape v) s = .next t)
    (no_error : t.err = .ok) :
    InMem s.dst s.dstCap ∧ geoValid Config.params shape v s = .ok () ∧
      (geoItem Config.params shape v s).length ≤ s.dstCap ∧
      t = { s.begin.store s.dst (geoItem Config.params shape v s) with
        res0 := BitVec.ofNat 32 (geoItem Config.params shape v s).length } := by
  have errors : ErrCode.ok ∉ raisable (.geoenc shape v) :=
    show ErrCode.ok ∉ [ErrCode.badOperand, ErrCode.noSpace] by decide
  obtain ⟨dest, valid, -, -, fits, answer⟩ :=
    geoenc_ok_iff.1 (computed_of_no_error (raisesOnly_geoenc _ shape v s.begin) errors run no_error)
  rw [geoItem_begin] at fits answer
  rw [State.fit_of_lt _ (Nat.lt_of_le_of_lt fits s.arg3.isLt)] at answer
  exact ⟨region_iff_inMem.1 dest, geoValid_begin.symm.trans valid, fits, answer⟩

/-- Settles O46: the item written from valid registers is one that `GEODEC` reads. -/
theorem geofenceReadsBack : Obligations.GeofenceReadsBack := by
  intro s t u shape v d c run no_error below u_eq buffers
  obtain ⟨dest, valid, fits, answer⟩ := exec_geoenc_ok run no_error
  obtain ⟨times, ⟨sized, -⟩, -, parses⟩ := geoValid_iff.1 valid
  obtain ⟨ps, block, count⟩ := blockOk_of_valid sized parses
  have res0 : t.res0 = BitVec.ofNat 32 (geoItem Config.params shape v s).length := by rw [answer]
  have res0_length : t.res0.toNat = (geoItem Config.params shape v s).length := by
    rw [res0]; exact toNat_ofNat_of_le (w := s.arg3) fits
  have stored : Stored s t s.dst (geoItem Config.params shape v s) :=
    stored_of (by rw [answer]; rfl) (by rw [answer]; rfl)
  have u_src : u.src = s.dst := by subst u_eq; rfl
  have u_srcLen : u.srcLen = (geoItem Config.params shape v s).length := by subst u_eq; exact res0_length
  have source : u.source = geoItem Config.params shape v s := by
    have same : ∀ k, u.byteAt k = t.byteAt k := by subst u_eq; exact fun _ => rfl
    rw [State.source, u_src, u_srcLen, State.bytesAt_congr fun k _ => same _]
    exact bytesAt_of_stored stored
  have source_in : InMem u.src u.srcLen := by
    rw [u_src, u_srcLen]
    exact Nat.le_trans (Nat.add_le_add_left fits _) dest
  have room : ps.length ≤ u.dstCap := by
    by_cases polyline : shape = .polyline
    · rw [count polyline]; exact (buffers polyline).2
    · rw [points_nil_of_blockOk block polyline]; exact Nat.zero_le _
  rw [geoItem_eq_written] at source u_srcLen res0 res0_length
  have whole : u.source = geoWire Config.params shape v s.geo (writtenBlock shape s) (nameBlock s) ++ [] := by
    rw [source, List.append_nil]
  obtain ⟨w, decoded, -, w_eq⟩ := geofenceDecoded u shape v s.geo (writtenBlock shape s) (nameBlock s) [] ps
    (fun _ => source_in) (fun polyline => (buffers polyline).1) (by rw [u_src, u_srcLen, ← res0_length]; exact below)
    times block (fun _ => State.length_bytesAt s _ _) room whole
  rw [← res0_length, geoKept_writtenBlock, u_src] at w_eq
  exact ⟨w, decoded, congrArg State.err w_eq, (congrArg State.res0 w_eq).trans (res0_length ▸ res0).symm,
    congrArg State.geo w_eq⟩

/-! ## `GEOENC` after `GEODEC` (R268 a) -/

/-- The bytes at an address inside a region, as a part of the region's bytes. -/
theorem bytesAt_part (s : State) {base len a n : Nat} (start : base ≤ a) (stop : a + n ≤ base + len) :
    s.bytesAt a n = ((s.bytesAt base len).drop (a - base)).take n := by
  have parts : s.bytesAt base len =
      s.bytesAt base (a - base) ++ (s.bytesAt a n ++ s.bytesAt (a + n) (len - (a - base) - n)) := by
    have first := s.bytesAt_add base (a - base) (len - (a - base))
    have second := s.bytesAt_add a n (len - (a - base) - n)
    rw [show a - base + (len - (a - base)) = len by omega, show base + (a - base) = a by omega] at first
    rw [show n + (len - (a - base) - n) = len - (a - base) by omega] at second
    rw [first, second]
  rw [parts, List.drop_left' (State.length_bytesAt s _ _), List.take_left' (State.length_bytesAt s _ _)]

/-- A region inside one that is apart from a third is apart from it too. -/
theorem apart_of_inside {base len a n d m : Nat} (apart : Apart base len d m) (start : base ≤ a)
    (stop : a + n ≤ base + len) : Apart d m a n := by
  unfold Apart at apart ⊢
  omega

/-- A `GEODEC` that reports no error has passed its checks and parsed its source. -/
theorem exec_geodec_ok {shape : Shape} {v : Version} {s t : State} (run : exec (.geodec shape v) s = .next t)
    (no_error : t.err = .ok) :
    InMem s.src s.srcLen ∧ ∃ x, geoParse Config.params (decodeInput v s) shape = .ok x ∧ t.geo = x.g ∧
      t.res0 = s.fit x.o ∧ t.bytesAt s.src s.srcLen = s.source := by
  have errors : ErrCode.ok ∉ raisable (.geodec shape v) :=
    show ErrCode.ok ∉ [ErrCode.badOperand, ErrCode.bodyShort, ErrCode.bcd, ErrCode.noSpace] by decide
  obtain ⟨buffers, x, parsed, u, written, rfl⟩ :=
    geodec_ok_iff.1 (computed_of_no_error (raisesOnly_geodec _ s.begin shape v) errors run no_error)
  rw [State.source_begin] at parsed
  by_cases polyline : shape = .polyline
  · rw [if_pos polyline] at buffers written
    obtain ⟨source, -, apart⟩ := buffersOk_iff.1 buffers
    obtain ⟨room, rfl⟩ := written
    refine ⟨source, x, parsed, rfl, rfl, State.bytesAt_congr fun k below => ?_⟩
    have length := length_pointBytes x.recs
    have outside : s.src + k < s.dst ∨ s.dst + (pointBytes x.recs).length ≤ s.src + k := by
      have room : x.recs.length ≤ s.dstCap := room
      have apart : Apart s.src s.srcLen s.dst (32 * s.dstCap) := apart
      unfold Apart at apart
      omega
    exact State.byteAt_store_outside s.begin _ _ _ outside
  · rw [if_neg polyline] at buffers written
    subst written
    exact ⟨region_iff_inMem.1 buffers, x, parsed, rfl, rfl, State.bytesAt_congr fun _ _ => rfl⟩

theorem geoWire_of_no_name {P : Params} {shape : Shape} {v : Version} {g : GeoRegs} {points : List Byte}
    (unnamed : v ≠ .v2019) (name name' : List Byte) :
    geoWire P shape v g points name = geoWire P shape v g points name' := by
  have none : ∀ name, nameGroup v g name = [] := fun _ => if_neg unnamed
  simp only [geoWire, geoLayout, none]

theorem time_mem_geoSteps (P : Params) (shape : Shape) : .time ∈ geoSteps P shape := by
  unfold geoSteps
  cases shape <;> cases P.geoOrder <;> decide

theorem name_mem_geoSteps (P : Params) (shape : Shape) : .name ∈ geoSteps P shape := by
  unfold geoSteps
  cases shape <;> cases P.geoOrder <;> decide

theorem vertices_mem_geoSteps (P : Params) : .vertices ∈ geoSteps P .polygon := by
  unfold geoSteps
  cases P.geoOrder <;> decide

theorem points_mem_geoSteps (P : Params) : .points ∈ geoSteps P .polyline := by
  unfold geoSteps
  cases P.geoOrder <;> decide

section
variable {shape : Shape} {v : Version} {s u : State}
  (bytes : u.bytesAt s.src s.srcLen = s.source)
  (holds : ∀ k ∈ geoSteps Config.params shape, StepHolds (decodeInput v s) u.geo k)
include holds

theorem inSource_block (has_block : hasPoints shape = true) :
    InSource (decodeInput v s) u.geo.ptsAddr.toNat u.geo.ptsLen.toNat := by
  cases shape with
  | circle => cases has_block
  | rect => cases has_block
  | polygon => exact (holds _ (vertices_mem_geoSteps _)).1
  | polyline => exact (holds _ (points_mem_geoSteps _)).1

theorem inSource_name (named : v = .v2019) :
    InSource (decodeInput v s) u.geo.nameAddr.toNat u.geo.nameLen.toNat := holds _ (name_mem_geoSteps _ _) named

omit holds in
theorem end_of_inSource {a n : Nat} (inside : InSource (decodeInput v s) a n) : a + n ≤ s.src + s.srcLen := by
  obtain ⟨-, stop⟩ := inside
  rw [← State.length_source s]
  exact stop

include bytes

omit holds in
theorem bytesAt_of_inSource {a n : Nat} (inside : InSource (decodeInput v s) a n) :
    u.bytesAt a n = sourcePart (decodeInput v s) a n := by
  rw [bytesAt_part u inside.1 (end_of_inSource inside)]
  exact congrArg (fun l => (l.drop (a - s.src)).take n) bytes

/-- The decoded registers are ones from which the item can be written. -/
theorem geoValid_of_holds (source_in : InMem s.src s.srcLen) : geoValid Config.params shape v u = .ok () := by
  refine geoValid_iff.2 ⟨holds _ (time_mem_geoSteps _ _), ⟨?_, fun has_block => ?_⟩, fun named => ?_, ?_⟩
  · rintro rfl
    exact (holds _ (vertices_mem_geoSteps _)).2
  · exact Nat.le_trans (end_of_inSource (inSource_block holds has_block)) source_in
  · exact Nat.le_trans (end_of_inSource (inSource_name holds named)) source_in
  · rintro rfl
    obtain ⟨inside, ps, block, count⟩ := holds _ (points_mem_geoSteps _)
    exact ⟨ps, (bytesAt_of_inSource bytes inside).trans block, count⟩

/-- The item they give is the one that was read. -/
theorem geoWire_of_holds :
    geoWire Config.params shape v u.geo (pointBlock u) (nameBlock u) =
      geoWire Config.params shape v u.geo (readText (decodeInput v s) u.geo).points
        (readText (decodeInput v s) u.geo).name := by
  have block : geoWire Config.params shape v u.geo (pointBlock u) (nameBlock u) =
      geoWire Config.params shape v u.geo (readText (decodeInput v s) u.geo).points (nameBlock u) := by
    cases has_block : hasPoints shape with
    | true =>
      have same : pointBlock u = (readText (decodeInput v s) u.geo).points :=
        bytesAt_of_inSource bytes (inSource_block holds has_block)
      rw [same]
    | false => exact geoWire_of_no_block has_block _ _
  rw [block]
  by_cases named : v = .v2019
  · have same : nameBlock u = (readText (decodeInput v s) u.geo).name :=
      bytesAt_of_inSource bytes (inSource_name holds named)
    rw [same]
  · exact geoWire_of_no_name named _ _

end

/-- Settles O45: the parsed registers are valid, and the item they give is the bytes up to the cursor. -/
theorem geofenceRoundTrip : Obligations.GeofenceRoundTrip := by
  intro s t u shape v d c run no_error below u_eq dest apart room
  obtain ⟨source_in, x, parsed, geo, res0, kept⟩ := exec_geodec_ok run no_error
  have source_length : s.source.length = s.srcLen := State.length_source s
  obtain ⟨stands, cursor, inside, holds⟩ := wire_of_geoParse (v := v) (c := decodeInput v s) rfl rfl (fun _ => s.fit_of_lt)
    (by show s.src + s.source.length < _; omega) parsed
  have x_inside : x.o ≤ s.srcLen := source_length ▸ inside
  have length_small : s.srcLen < 2 ^ 32 := s.arg1.isLt
  have cursor_word : t.res0 = BitVec.ofNat 32 x.o := by rw [res0, s.fit_of_lt (by omega)]
  have cursor_length : t.res0.toNat = x.o := by rw [cursor_word, toNat_ofNat_of_lt (by omega)]
  have u_geo : u.geo = x.g := by rw [u_eq]; exact geo
  have bytes : u.bytesAt s.src s.srcLen = s.source := by
    have same : ∀ k, u.byteAt k = t.byteAt k := by subst u_eq; exact fun _ => rfl
    rw [State.bytesAt_congr fun k _ => same _, kept]
  rw [← u_geo] at stands cursor holds
  have valid := geoValid_of_holds bytes holds source_in
  have away : GeoApart shape v u :=
    ⟨fun has_block => apart_of_inside apart (inSource_block holds has_block).1
        (end_of_inSource (inSource_block holds has_block)),
      fun named => apart_of_inside apart (inSource_name holds named).1 (end_of_inSource (inSource_name holds named))⟩
  have writes := geoWrites dest valid away
  rw [geoWire_of_holds bytes holds] at writes
  obtain ⟨w, encoded, stored, w_eq⟩ := (writesOutput (i := .geoenc shape v) (s := u) rfl writes).1
    (by rw [← cursor, ← cursor_length]; exact room)
  have item : geoWire Config.params shape v u.geo (readText (decodeInput v s) u.geo).points
      (readText (decodeInput v s) u.geo).name = s.bytesAt s.src t.res0.toNat := by
    rw [cursor_length, bytesAt_part s (Nat.le_refl _) (Nat.add_le_add_left x_inside _), Nat.sub_self, cursor]
    exact List.prefix_iff_eq_take.1 stands
  rw [← cursor, ← cursor_word] at w_eq
  exact ⟨w, encoded, congrArg State.err w_eq, (congrArg State.res0 w_eq :), item ▸ stored, w_eq⟩

end Sys2Proof
end
